-- ==== Sys2Proof/Word.lean ====
section
/-! DEFINITION. The widths of spec/00_scope.md R10 as types: every value of the block is an unsigned
integer of a stated width (`10_state.md` R42, `20_memory.md` R80, `30_encoding.md` R120). -/

namespace Sys2Proof

/-- A command word: 64 bits, transferred whole (`30_encoding.md` R120, `20_memory.md` R86). -/
abbrev Word := BitVec 64

/-- A byte of the two byte streams and of CACHE (`20_memory.md` R80, `10_state.md` R47). -/
abbrev Byte := BitVec 8

/-- A word of the probability memory: 11 bits (`10_state.md` R54). -/
abbrev Prob := BitVec 11

/-- A 32-bit value: RANGE, CODE, RES, the VAL field, a word of the price ROM. -/
abbrev U32 := BitVec 32

/-- A 64-bit value: CACHE_SIZE, OUT_COUNT, IN_COUNT, FAULT_INFO. -/
abbrev U64 := BitVec 64

/-- The ADDR field: 20 bits (`30_encoding.md` R120). -/
abbrev AddrField := BitVec 20

/-- The N field: 6 bits (`30_encoding.md` R120). -/
abbrev CountField := BitVec 6

end Sys2Proof
end

