-- ==== Sys2Proof/Syntax.lean ====
section
/-! DEFINITION. The 19 commands of RCB-1 (`30_encoding.md` R125), one constructor per row of
spec/opcode_table.json. The arguments are the fields the command uses, whole and unsigned as the word
holds them (R121); a value out of its domain is still a command, one that faults when it runs (R122). -/

namespace Sys2Proof

inductive Instr where
  /-- NOP, OP = 0x00 (`40_control.md` R160). -/
  | nop
  /-- ENC_INIT, OP = 0x01 (`40_control.md` R162). -/
  | encInit
  /-- DEC_INIT, OP = 0x02 (`40_control.md` R165). -/
  | decInit
  /-- PROB_INIT, OP = 0x03 (`40_control.md` R170). -/
  | probInit (addr : AddrField) (count : U32)
  /-- PROB_READ, OP = 0x04 (`40_control.md` R173). -/
  | probRead (addr : AddrField)
  /-- REG_READ, OP = 0x05 (`40_control.md` R176). -/
  | regRead (sel : AddrField)
  /-- ENC_BIT, OP = 0x08 (`41_range_coder.md` R210). -/
  | encBit (addr : AddrField) (bit : U32)
  /-- ENC_DIRECT, OP = 0x09 (`41_range_coder.md` R220). -/
  | encDirect (count : CountField) (value : U32)
  /-- ENC_BT, OP = 0x0A (`42_bit_tree.md` R265). -/
  | encBt (base : AddrField) (depth : CountField) (symbol : U32)
  /-- ENC_RBT, OP = 0x0B (`42_bit_tree.md` R275). -/
  | encRbt (base : AddrField) (depth : CountField) (symbol : U32)
  /-- ENC_FLUSH, OP = 0x0C (`41_range_coder.md` R230). -/
  | encFlush
  /-- DEC_BIT, OP = 0x10 (`41_range_coder.md` R215). -/
  | decBit (addr : AddrField)
  /-- DEC_DIRECT, OP = 0x11 (`41_range_coder.md` R225). -/
  | decDirect (count : CountField)
  /-- DEC_BT, OP = 0x12 (`42_bit_tree.md` R270). -/
  | decBt (base : AddrField) (depth : CountField)
  /-- DEC_RBT, OP = 0x13 (`42_bit_tree.md` R280). -/
  | decRbt (base : AddrField) (depth : CountField)
  /-- PRICE_BIT, OP = 0x18 (`43_price.md` R305). -/
  | priceBit (addr : AddrField) (bit : U32)
  /-- PRICE_DIRECT, OP = 0x19 (`43_price.md` R308). -/
  | priceDirect (count : CountField)
  /-- PRICE_BT, OP = 0x1A (`43_price.md` R311). -/
  | priceBt (base : AddrField) (depth : CountField) (symbol : U32)
  /-- PRICE_RBT, OP = 0x1B (`43_price.md` R314). -/
  | priceRbt (base : AddrField) (depth : CountField) (symbol : U32)
  deriving DecidableEq, Repr

end Sys2Proof
end

