-- ==== Sys2Proof/WellFormed.lean ====
section
/-! DEFINITION. The operand domains of `30_encoding.md` R127 that the word alone decides. A command
outside them is encodable and decodes; running it raises OPERAND_RANGE (or, in the wrong mode,
WRONG_MODE first). The domains that depend on PROB_WORDS are checked by the machine. -/

namespace Sys2Proof

/-- A bit operand is 0 or 1 (R122). -/
def WellFormed.bit (v : U32) : Bool := decide (v.toNat ≤ 1)

/-- A direct count is at most MAX_DIRECT = 32 (R122). -/
def WellFormed.directCount (n : CountField) : Bool := decide (n.toNat ≤ 32)

/-- A direct value is below 2^n, which for n = 32 every VAL is (R122). -/
def WellFormed.directValue (n : CountField) (v : U32) : Bool := decide (v.toNat < 2 ^ n.toNat)

/-- A depth is in 1 .. MAX_DEPTH = 16 (R122). -/
def WellFormed.depth (d : CountField) : Bool := decide (1 ≤ d.toNat ∧ d.toNat ≤ 16)

/-- A symbol is below 2^d (R122). -/
def WellFormed.symbol (d : CountField) (s : U32) : Bool := decide (s.toNat < 2 ^ d.toNat)

/-- A register selector is in 0 .. 11 (`10_state.md` R62). -/
def WellFormed.selector (sel : AddrField) : Bool := decide (sel.toNat ≤ 11)

/-- The word-only part of R127, per command. -/
def Instr.wellFormed : Instr → Bool
  | .nop => true
  | .encInit => true
  | .decInit => true
  | .probInit _ _ => true
  | .probRead _ => true
  | .regRead sel => WellFormed.selector sel
  | .encBit _ b => WellFormed.bit b
  | .encDirect n v => WellFormed.directCount n && WellFormed.directValue n v
  | .encBt _ d s => WellFormed.depth d && WellFormed.symbol d s
  | .encRbt _ d s => WellFormed.depth d && WellFormed.symbol d s
  | .encFlush => true
  | .decBit _ => true
  | .decDirect n => WellFormed.directCount n
  | .decBt _ d => WellFormed.depth d
  | .decRbt _ d => WellFormed.depth d
  | .priceBit _ b => WellFormed.bit b
  | .priceDirect n => WellFormed.directCount n
  | .priceBt _ d s => WellFormed.depth d && WellFormed.symbol d s
  | .priceRbt _ d s => WellFormed.depth d && WellFormed.symbol d s

end Sys2Proof
end

