-- ==== Sys2Proof/Decode.lean ====
section
/-! DEFINITION. The decoder and the encoder of format C (`30_encoding.md` R120, R121, R125, R128). -/

namespace Sys2Proof

/-- `word = OP * 2^58 + N * 2^52 + ADDR * 2^32 + VAL` (R120): the fields side by side. -/
def packWord (op : BitVec 6) (n : CountField) (addr : AddrField) (val : U32) : Word :=
  op ++ n ++ addr ++ val

/-- `OP = word[63:58]` (R121). -/
def opField (w : Word) : BitVec 6 := w.extractLsb' 58 6

/-- `N = word[57:52]` (R121). -/
def countField (w : Word) : CountField := w.extractLsb' 52 6

/-- `ADDR = word[51:32]` (R121). -/
def addrField (w : Word) : AddrField := w.extractLsb' 32 20

/-- `VAL = word[31:0]` (R121). -/
def valField (w : Word) : U32 := w.extractLsb' 0 32

/-- Why a word is no command (R128). -/
inductive Reject where
  /-- OP is one of the 45 values that R125 does not assign. -/
  | reservedOpcode
  /-- A field the command does not use is nonzero. -/
  | unusedField
  deriving DecidableEq, Repr

/-- What a 64-bit word is: a command, or an illegal one by the reason for it. -/
inductive Decoded where
  | command (i : Instr)
  | illegal (r : Reject)
  deriving DecidableEq, Repr

/-- The unused fields are checked after the opcode (R128). -/
def needZero (unusedAreZero : Bool) (i : Instr) : Decoded :=
  bif unusedAreZero then .command i else .illegal .unusedField

/-- R125's table with R128's two cases. The full OP value is matched, since the table has gaps (R126). -/
def decode (w : Word) : Decoded :=
  let n := countField w
  let a := addrField w
  let v := valField w
  match (opField w).toNat with
  | 0x00 => needZero (n == 0 && a == 0 && v == 0) .nop
  | 0x01 => needZero (n == 0 && a == 0 && v == 0) .encInit
  | 0x02 => needZero (n == 0 && a == 0 && v == 0) .decInit
  | 0x03 => needZero (n == 0) (.probInit a v)
  | 0x04 => needZero (n == 0 && v == 0) (.probRead a)
  | 0x05 => needZero (n == 0 && v == 0) (.regRead a)
  | 0x08 => needZero (n == 0) (.encBit a v)
  | 0x09 => needZero (a == 0) (.encDirect n v)
  | 0x0A => .command (.encBt a n v)
  | 0x0B => .command (.encRbt a n v)
  | 0x0C => needZero (n == 0 && a == 0 && v == 0) .encFlush
  | 0x10 => needZero (n == 0 && v == 0) (.decBit a)
  | 0x11 => needZero (a == 0 && v == 0) (.decDirect n)
  | 0x12 => needZero (v == 0) (.decBt a n)
  | 0x13 => needZero (v == 0) (.decRbt a n)
  | 0x18 => needZero (n == 0) (.priceBit a v)
  | 0x19 => needZero (a == 0 && v == 0) (.priceDirect n)
  | 0x1A => .command (.priceBt a n v)
  | 0x1B => .command (.priceRbt a n v)
  | _ => .illegal .reservedOpcode

/-- The word of a command (R125): its opcode, its operands in their fields, 0 in the others. It is also
the datum that WRONG_MODE and OPERAND_RANGE record (`60_exceptions.md` R341). -/
def encode : Instr → Word
  | .nop => packWord 0x00 0 0 0
  | .encInit => packWord 0x01 0 0 0
  | .decInit => packWord 0x02 0 0 0
  | .probInit a c => packWord 0x03 0 a c
  | .probRead a => packWord 0x04 0 a 0
  | .regRead sel => packWord 0x05 0 sel 0
  | .encBit a b => packWord 0x08 0 a b
  | .encDirect n v => packWord 0x09 n 0 v
  | .encBt b d s => packWord 0x0A d b s
  | .encRbt b d s => packWord 0x0B d b s
  | .encFlush => packWord 0x0C 0 0 0
  | .decBit a => packWord 0x10 0 a 0
  | .decDirect n => packWord 0x11 n 0 0
  | .decBt b d => packWord 0x12 d b 0
  | .decRbt b d => packWord 0x13 d b 0
  | .priceBit a x => packWord 0x18 0 a x
  | .priceDirect n => packWord 0x19 n 0 0
  | .priceBt b d s => packWord 0x1A d b s
  | .priceRbt b d s => packWord 0x1B d b s

/-- The word the opcode table numbers, bits above `nbits` zero. A word is transferred whole, so there
is no byte order to lay out (`20_memory.md` R86). -/
def tableWord (nbits w : Nat) : Word := BitVec.ofNat 64 (w % 2 ^ nbits)

/-- The command the decoder reads from a word of spec/opcode_table.json, none where it refuses. -/
def decodeTableWord (nbits w : Nat) : Option Instr :=
  match decode (tableWord nbits w) with
  | .command i => some i
  | .illegal _ => none

end Sys2Proof
end

