-- ==== Sys2Proof/Config.lean ====
section
/-! DEFINITION. What an implementation fixes (`00_scope.md` R9): the size of the probability memory.
The spec leaves PROB_WORDS open (decision D22), so it is a field of State that no step changes and a
claim about every state holds for every value; only `State.reset` needs one number, which stands here.
The machine has no free value: the spec leaves no result of a command unstated. -/

namespace Sys2Proof

/-- The largest PROB_WORDS (`00_scope.md` R9). -/
def Config.maxProbWords : Nat := 2 ^ 20

/-- DESIGN CHOICE, unsafe (log entry 1): the PROB_WORDS of `State.reset`. The spec leaves the value
open and its own vectors use 4096 (`95_test_vectors.md`, conventions). No claim may rest on it. -/
def Config.resetProbWords : Nat := 4096

end Sys2Proof
end

