-- ==== Sys2Proof/Machine/State.lean ====
section
/-! DEFINITION. Everything `10_state.md` gives the block, as plain data: the registers of R42, the
probability memory of R54, the position CSP of R41, the stalled command of R58, and the host's side of
the ports of R56. The price ROM of R55 is a constant (Machine/Price.lean). -/

namespace Sys2Proof.Machine

/-- MODE, `10_state.md` R43. The encoding 3 is never held, so it has no name. -/
inductive Mode where
  | idle
  | enc
  | dec
  deriving DecidableEq, Repr

/-- The block's fault codes 1 to 8 (`60_exceptions.md` R341). -/
inductive FaultCode where
  | illegalCommand
  | wrongMode
  | operandRange
  | probAddrRange
  | uninitProb
  | truncatedInput
  | corruptStream
  | counterOverflow
  deriving DecidableEq, Repr

/-- What an encoder command still has to do, one entry per operation of its pseudocode. A command
of the encoder is a list of these: its symbol, hence every bit and every node, is known at the start. -/
inductive EncOp where
  /-- EncBit(addr, bit) up to its NormEnc included (`41_range_coder.md` R208). -/
  | modelBit (addr : Nat) (bit : Bool)
  /-- One direct bit, its NormEnc included (R220). -/
  | directBit (bit : Bool)
  /-- NormEnc, or the rest of it (R206). -/
  | norm
  /-- ShiftLow (R205). -/
  | shift
  /-- ShiftLow from its send loop on: `temp` is the byte before the carry; the carry is LOW[32], which
  the loop does not change, and the bytes still to send are CACHE_SIZE. -/
  | send (temp : Byte)
  /-- MODE <- IDLE, the end of ENC_FLUSH (R230). -/
  | close
  deriving DecidableEq, Repr

/-- What a decoder command still has to do once its NormDec is through, with its local variables. -/
inductive DecRest where
  /-- DEC_BIT: RES <- bit (R215). -/
  | bit (bit : Bool)
  /-- DEC_DIRECT: `left` bits to decode, `r` so far (R225). -/
  | direct (left : Nat) (r : U32)
  /-- DEC_BT: `left` levels to walk from node `m` (`42_bit_tree.md` R270). -/
  | tree (base : AddrField) (depth left m : Nat)
  /-- DEC_RBT: `left` levels to walk from node `m`, `r` so far (R280). -/
  | revTree (base : AddrField) (depth left m : Nat) (r : U32)
  deriving DecidableEq, Repr

/-- A command stalled at a byte-port handshake (`10_state.md` R58): where, and what is left of it.
BUSY = 1 exactly while there is one (log entry 2). -/
inductive Wait where
  /-- An encoder command at WriteByte (`20_memory.md` R84); the first operation left is the `send`. -/
  | enc (ops : List EncOp)
  /-- DEC_INIT at its first ReadByte (`40_control.md` R165). -/
  | decFirst
  /-- DEC_INIT at a later ReadByte: `left` bytes to read, `first` is b0. -/
  | decRest (left : Nat) (first : Byte)
  /-- A decoder command at the ReadByte of NormDec (`41_range_coder.md` R207). -/
  | decNorm (rest : DecRest)
  deriving DecidableEq, Repr

/-- The probability memory P (`10_state.md` R54): the DEFINED words, addresses strictly rising. An
address that is not listed is undefined, and reading it is UNINIT_PROB (U5). A word is 11 bits, so an
entry is an address and an 11-bit word (log entry 3). -/
abbrev Memory := List (Nat × Prob)

/-- The one canonical form: addresses strictly rising. -/
abbrev Memory.wf (m : Memory) : Prop := m.Pairwise (fun x y => x.1 < y.1)

structure State where
  /-- MODE (R43). -/
  mode : Mode
  /-- RANGE (R44). -/
  range : U32
  /-- LOW (R45): bit 32 is the pending carry. -/
  low : BitVec 33
  /-- CACHE (R47). -/
  cache : Byte
  /-- CACHE_SIZE (R48). -/
  cacheSize : U64
  /-- CODE (R49). -/
  code : U32
  /-- OUT_COUNT (R50). -/
  outCount : U64
  /-- IN_COUNT (R51). -/
  inCount : U64
  /-- RES (R46). -/
  res : U32
  /-- STATUS.FAULTED (R52). -/
  faulted : Bool
  /-- STATUS.FAULT_CODE (R52). -/
  faultCode : BitVec 4
  /-- FAULT_INFO (R53). -/
  faultInfo : U64
  /-- The stalled command (R58); STATUS.BUSY (R52) is whether there is one. -/
  wait : Option Wait
  /-- The probability memory P (R54). -/
  prob : Memory
  /-- CSP (R41). -/
  csp : Nat
  /-- PROB_WORDS (`00_scope.md` R9), which no step changes (log entry 1). -/
  probWords : Nat
  /-- Command port (R56): the words the host presents, the next one first. -/
  cmdIn : List Word
  /-- Byte-in port (R56): the bytes offered, the next one first. -/
  byteIn : List Byte
  /-- Byte-in port (R56): EOS, no byte will come after those offered. -/
  eos : Bool
  /-- The bytes the block has consumed, oldest first (`70_reset_and_hazards.md` R397). -/
  consumed : List Byte
  /-- Byte-out port (R56): how many bytes the sink takes before it is not ready; none is no limit. -/
  sinkRoom : Option Nat
  /-- The bytes the sink has taken, oldest first (`20_memory.md` R84, R397). -/
  sent : List Byte
  /-- Reset port (R56), a level. -/
  resetIn : Bool
  deriving DecidableEq, Repr

/-- The reset state of `70_reset_and_hazards.md` R380 for a block of `probWords` words, with the level
released. The ports are the host's; that nothing is presented, offered or sent yet and the sink is
ready is a DESIGN CHOICE (log entry 4). -/
def State.resetOf (probWords : Nat) : State where
  mode := .idle
  range := 0
  low := 0
  cache := 0
  cacheSize := 0
  code := 0
  outCount := 0
  inCount := 0
  res := 0
  faulted := false
  faultCode := 0
  faultInfo := 0
  wait := none
  prob := []
  csp := 0
  probWords := probWords
  cmdIn := []
  byteIn := []
  eos := false
  consumed := []
  sinkRoom := none
  sent := []
  resetIn := false

/-- The machine right after reset. Its PROB_WORDS is a DESIGN CHOICE (log entry 1). -/
def State.reset : State := State.resetOf Config.resetProbWords

/-- The model's own stops, each in states that no run reaches, where the spec gives no effect. A fault
of the block is no such stop: it is a NEXT state (`60_exceptions.md` R340). -/
inductive Fault where
  /-- Raised by NormEnc and NormDec when RANGE = 0: shifting it never ends the loop of R206 and R207,
  and R247 says that no reachable state has it. Safe: the model stops where the loop would go on. -/
  | renormForever
  /-- Raised by ShiftLow when it sends with CACHE_SIZE = 0: R205 would take 1 from 0, which R10's exact
  arithmetic does not give, and R243 says that no reachable state has it. Safe: the model stops. -/
  | cacheSizeUnderflow
  /-- Raised by Price when the index is past the ROM's 512 words, which only a stored probability of 0
  could cause (R302); R303 says that no reachable state has one. Safe: the model stops. -/
  | priceIndexOutside
  deriving DecidableEq, Repr

/-- Why an instruction has no meaning. Every instruction has one, so no step answers this. -/
inductive Refusal where
  /-- Raised by an arm of `exec` whose instruction is not modelled yet: none is left. Safe: it claims
  nothing about the hardware. -/
  | notModelled (mnemonic : String)
  deriving DecidableEq, Repr

end Sys2Proof.Machine
end

