-- ==== Sys2Proof/Machine/Consts.lean ====
section
/-! DEFINITION. The constants of `00_scope.md` R7, R8 and R9, and the codes of MODE and FAULT_CODE. -/

namespace Sys2Proof.Machine

/-- TOP = 2^24, the renormalization threshold (R7, `41_range_coder.md` R202). -/
def top : Nat := 2 ^ 24

/-- RANGE_INIT (R8). -/
def rangeInit : U32 := 0xFFFFFFFF

/-- CACHE_SIZE_INIT (R8). -/
def cacheSizeInit : U64 := 1

/-- PROB_INIT_VALUE = TOTAL / 2 (R8). -/
def probInitValue : Prob := 1024

/-- FLUSH_SHIFTS (R8). -/
def flushShifts : Nat := 5

/-- DEC_INIT_BYTES (R8) less the first byte. -/
def decInitLaterBytes : Nat := 4

/-- The 64-bit counters' last value: an increment past it is COUNTER_OVERFLOW (decision D21). -/
def counterMax : U64 := 0xFFFFFFFFFFFFFFFF

/-- MODE's encoding (`10_state.md` R43). -/
def modeBits : Mode → BitVec 2
  | .idle => 0
  | .enc => 1
  | .dec => 2

/-- FAULT_CODE's encoding (`60_exceptions.md` R341). -/
def faultBits : FaultCode → BitVec 4
  | .illegalCommand => 1
  | .wrongMode => 2
  | .operandRange => 3
  | .probAddrRange => 4
  | .uninitProb => 5
  | .truncatedInput => 6
  | .corruptStream => 7
  | .counterOverflow => 8

end Sys2Proof.Machine
end

