-- ==== Sys2Proof/Machine/Memory.lean ====
section
/-! DEFINITION. The probability memory as a store: read, write, fill a run, and the first undefined
word of a run (`20_memory.md` R81, R82). -/

namespace Sys2Proof.Machine

/-- The word at `a`, none where it is undefined. -/
def memRead : Memory → Nat → Option Prob
  | [], _ => none
  | (k, v) :: t, a => if k = a then some v else memRead t a

/-- `P[a] <- v`: stores v and makes the word defined (R82). The list stays in canonical form. -/
def memWrite : Memory → Nat → Prob → Memory
  | [], a, v => [(a, v)]
  | (k, x) :: t, a, v =>
    if a < k then (a, v) :: (k, x) :: t
    else if a = k then (a, v) :: t
    else (k, x) :: memWrite t a v

/-- `P[a + i] <- v` for i = 0 .. c - 1, all at once (`40_control.md` R170). -/
def memFill (m : Memory) (a c : Nat) (v : Prob) : Memory :=
  m.filter (fun e => decide (e.1 < a)) ++ (List.range' a c).map (fun x => (x, v))
    ++ m.filter (fun e => decide (a + c ≤ e.1))

/-- The lowest undefined address among `a .. a + n - 1`, none where all are defined
(`42_bit_tree.md` R261, check 4). One walk along the rising list. -/
def memFirstGap : Memory → Nat → Nat → Option Nat
  | _, _, 0 => none
  | [], a, _ + 1 => some a
  | (k, _) :: t, a, n + 1 =>
    if k < a then memFirstGap t a (n + 1)
    else if k = a then memFirstGap t (a + 1) n
    else some a

end Sys2Proof.Machine
end

