-- ==== Sys2Proof/Machine/Ops.lean ====
section
/-! DEFINITION. The shared operations: completing a command, taking a fault, reset, the checks before a
command, and the byte ports. -/

namespace Sys2Proof.Machine

/-- A command completes: BUSY <- 0 and CSP advances by 1 (`10_state.md` R41, R52). -/
def complete (s : State) : Host.Outcome State Fault Refusal :=
  .next { s with wait := none, csp := s.csp + 1 }

/-- A command completes with a result: RES is written first (`10_state.md` R46). -/
def completeWith (r : U32) (s : State) : Host.Outcome State Fault Refusal :=
  complete { s with res := r }

/-- Fault entry (`60_exceptions.md` R340): FAULTED, FAULT_CODE and FAULT_INFO are written, BUSY <- 0,
CSP advances by 1; nothing else changes, no state is saved elsewhere and control goes nowhere. -/
def enterFault (c : FaultCode) (info : U64) (s : State) : State :=
  { s with faulted := true, faultCode := faultBits c, faultInfo := info, wait := none, csp := s.csp + 1 }

/-- `raise Fault(code, info)`: the command stops in the state it has reached (R340). -/
def raiseFault (c : FaultCode) (info : U64) (s : State) : Host.Outcome State Fault Refusal :=
  .next (enterFault c info s)

/-- The way out of a fault (R344) and the reset itself (`70_reset_and_hazards.md` R380, R381): every
register, P and CSP at their reset values and the command in flight dropped, whatever the state was.
The host's side stays: the words it presents, the bytes it offers, those consumed and those taken. -/
def applyReset (s : State) : State :=
  { State.resetOf s.probWords with
    cmdIn := s.cmdIn, byteIn := s.byteIn, eos := s.eos, consumed := s.consumed,
    sinkRoom := s.sinkRoom, sent := s.sent, resetIn := s.resetIn }

/-- A taken word is discarded while FAULTED = 1: CSP advances by 1 and nothing else (R342). -/
def discard (s : State) : State := { s with csp := s.csp + 1 }

/-- The command stalls: BUSY stays 1 and `w` is what is left of it (`10_state.md` R58). -/
def stallAt (w : Wait) (s : State) : Host.Outcome State Fault Refusal :=
  .next { s with wait := some w }

/-- One check of a command: none where it passes, else the fault it raises. -/
abbrev Check := Option (FaultCode × U64)

/-- The first failing check is the one reported (R342). -/
def firstFailing : List Check → Check
  | [] => none
  | none :: cs => firstFailing cs
  | some f :: _ => some f

/-- All checks come before any state change (R342): a failing one is the command's whole effect. -/
def afterChecks (cs : List Check) (s : State)
    (run : State → Host.Outcome State Fault Refusal) : Host.Outcome State Fault Refusal :=
  match firstFailing cs with
  | some (c, info) => raiseFault c info s
  | none => run s

/-- What a micro-operation ends in: its value and the state after it; a stall at a port, with what is
left of it; a fault of the block; or a stop of the model. -/
inductive Flow (α ω : Type) where
  | ok (a : α) (s : State)
  | stall (left : ω) (s : State)
  | raise (c : FaultCode) (info : U64) (s : State)
  | stuck (f : Fault)
  deriving DecidableEq, Repr

/-- ReadByte (`20_memory.md` R83): an offered byte is consumed, unless IN_COUNT is at its last value;
with no byte and EOS the input is truncated; with neither the command stalls and nothing changes. -/
def readByte (s : State) : Flow Byte Unit :=
  match s.byteIn with
  | b :: rest =>
    if s.inCount = counterMax then .raise .counterOverflow 1 s
    else .ok b { s with byteIn := rest, consumed := s.consumed ++ [b], inCount := s.inCount + 1 }
  | [] => if s.eos then .raise .truncatedInput s.inCount s else .stall () s

/-- Whether the sink is ready for a byte (R84). -/
def sinkReady (s : State) : Bool := s.sinkRoom != some 0

/-- WriteByte (R84): the overflow check comes first, then the transfer, or a stall that changes
nothing while the sink is not ready. -/
def writeByte (b : Byte) (s : State) : Flow Unit Unit :=
  if s.outCount = counterMax then .raise .counterOverflow 0 s
  else if sinkReady s then
    .ok () { s with sent := s.sent ++ [b], outCount := s.outCount + 1,
                    sinkRoom := s.sinkRoom.map (fun k => k - 1) }
  else .stall () s

/-- `P[a]` (`20_memory.md` R81): the checks make it readable; if it is not, it faults and yields no
value. -/
def readProb (a : Nat) (s : State) : Except (FaultCode × U64) Prob :=
  if s.probWords ≤ a then .error (.probAddrRange, BitVec.ofNat 64 a)
  else match memRead s.prob a with
    | none => .error (.uninitProb, BitVec.ofNat 64 a)
    | some p => .ok p

/-- `P[a] <- v` (R82). -/
def writeProb (a : Nat) (v : Prob) (s : State) : State := { s with prob := memWrite s.prob a v }

end Sys2Proof.Machine
end

