-- ==== Sys2Proof/Machine/Operands.lean ====
section
/-! DEFINITION. Every operand form of `30_encoding.md` R122 and R127 with the check it needs, the bit
orders of the tree and direct commands, the context mapper of `42_bit_tree.md` R260, and the register
views of `10_state.md` R62. -/

namespace Sys2Proof.Machine

/-- WRONG_MODE, with the command word (`60_exceptions.md` R341). -/
def checkMode (m : Mode) (w : Word) (s : State) : Check :=
  if s.mode = m then none else some (.wrongMode, w)

/-- OPERAND_RANGE, with the command word (R341). -/
def checkOperand (inDomain : Bool) (w : Word) : Check :=
  bif inDomain then none else some (.operandRange, w)

/-- A bit operand: 0 or 1 (R122). -/
def bitInDomain (v : U32) : Bool := decide (v.toNat ≤ 1)

/-- A direct count: at most MAX_DIRECT = 32 (R122). -/
def countInDomain (n : CountField) : Bool := decide (n.toNat ≤ 32)

/-- A direct value: below 2^n, and any value for n = 32 (R122). -/
def valueInDomain (n : CountField) (v : U32) : Bool := decide (v.toNat < 2 ^ n.toNat)

/-- A depth: 1 to MAX_DEPTH = 16 (R122). -/
def depthInDomain (d : CountField) : Bool := decide (1 ≤ d.toNat ∧ d.toNat ≤ 16)

/-- A symbol: below 2^d (R122). -/
def symbolInDomain (d : CountField) (v : U32) : Bool := decide (v.toNat < 2 ^ d.toNat)

/-- A register selector: 0 to 11 (R62). -/
def selectorInDomain (sel : AddrField) : Bool := decide (sel.toNat ≤ 11)

/-- The bit a VAL field in {0, 1} stands for. -/
def bitOf (v : U32) : Bool := v.getLsbD 0

/-- PROB_ADDR_RANGE for the addresses `a .. a + n - 1`, n ≥ 1, ascending: the first one outside P
(R341; `42_bit_tree.md` R261, check 3). -/
def checkSpan (a n : Nat) (s : State) : Check :=
  if a + n ≤ s.probWords then none
  else some (.probAddrRange, BitVec.ofNat 64 (max a s.probWords))

/-- UNINIT_PROB for the addresses `a .. a + n - 1`, ascending: the first undefined one
(R341; R261, check 4). -/
def checkDefined (a n : Nat) (s : State) : Check :=
  (memFirstGap s.prob a n).map (fun x => (.uninitProb, BitVec.ofNat 64 x))

/-- A single context address: in P, and defined (R127, R341). -/
def contextChecks (a : AddrField) (s : State) : List Check :=
  [checkSpan a.toNat 1 s, checkDefined a.toNat 1 s]

/-- The span of a depth-d tree at base b: words b + 1 .. b + 2^d - 1, computed exactly (R260). -/
def treeChecks (b : AddrField) (d : CountField) (s : State) : List Check :=
  [checkSpan (b.toNat + 1) (2 ^ d.toNat - 1) s, checkDefined (b.toNat + 1) (2 ^ d.toNat - 1) s]

/-- `Node(b, m) = b + m`, the context mapper (R260). -/
def treeNode (b : AddrField) (m : Nat) : Nat := b.toNat + m

/-- Bits n - 1 downto 0 of v, most significant first. -/
def msbFirst (n : Nat) (v : U32) : List Bool := (List.range n).reverse.map (fun i => v.getLsbD i)

/-- Bits 0 to n - 1 of v, least significant first. -/
def lsbFirst (n : Nat) (v : U32) : List Bool := (List.range n).map (fun i => v.getLsbD i)

/-- The walk of a tree from node m: each bit with its node, `m <- 2*m + x` between (R260). -/
def treePath : Nat → List Bool → List (Nat × Bool)
  | _, [] => []
  | m, x :: xs => (m, x) :: treePath (2 * m + x.toNat) xs

/-- The register views of REG_READ (`10_state.md` R62); none for the reserved selectors. -/
def regView (sel : AddrField) (s : State) : Option U32 :=
  match sel.toNat with
  | 0 => some ((modeBits s.mode).setWidth 32)
  | 1 => some s.range
  | 2 => some (s.low.extractLsb' 0 32)
  | 3 => some ((s.low.extractLsb' 32 1).setWidth 32)
  | 4 => some (s.cache.setWidth 32)
  | 5 => some (s.cacheSize.extractLsb' 0 32)
  | 6 => some (s.cacheSize.extractLsb' 32 32)
  | 7 => some s.code
  | 8 => some (s.outCount.extractLsb' 0 32)
  | 9 => some (s.outCount.extractLsb' 32 32)
  | 10 => some (s.inCount.extractLsb' 0 32)
  | 11 => some (s.inCount.extractLsb' 32 32)
  | _ => none

end Sys2Proof.Machine
end

