-- ==== Sys2Proof/Machine/Coder.lean ====
section
/-! DEFINITION. The micro-operations of `41_range_coder.md` R203 to R209: the update, the split, the
encoder's byte output with delayed carry, the two renormalizations, and the running of a list of encoder
operations. -/

namespace Sys2Proof.Machine

/-- `Update(p, b)` (R203): toward 2048 after a 0, toward 0 after a 1. -/
def updateProb (p : Prob) (b : Bool) : Prob :=
  if b then BitVec.ofNat 11 (p.toNat - p.toNat / 2 ^ 5)
  else BitVec.ofNat 11 (p.toNat + (2048 - p.toNat) / 2 ^ 5)

/-- `Bound(r, p) = (r >> 11) * p` (R204). -/
def boundOf (r : U32) (p : Prob) : U32 := BitVec.ofNat 32 (r.toNat / 2 ^ 11 * p.toNat)

/-- ShiftLow's last two steps (R205): one more byte is owed, and LOW loses its top byte and carry. -/
def shiftEnd (s : State) : Flow Unit (List EncOp) :=
  if s.cacheSize = counterMax then .raise .counterOverflow 2 s
  else .ok () { s with cacheSize := s.cacheSize + 1, low := (s.low.extractLsb' 0 24 ++ (0 : BitVec 8)).setWidth 33 }

/-- The carry of R205: LOW[32] as a byte. -/
def carryByte (s : State) : Byte := (s.low.extractLsb' 32 1).setWidth 8

/-- R205's `repeat` loop, `n` bytes to go: send temp + carry, then 0xFF + carry for each byte after it.
A stall leaves the rest of the loop to do. -/
def sendPending : Nat → Byte → State → Flow Unit (List EncOp)
  | 0, _, s => .ok () s
  | n + 1, temp, s =>
    match writeByte (temp + carryByte s) s with
    | .ok _ s' => sendPending n 0xFF { s' with cacheSize := s'.cacheSize - 1 }
    | .stall _ s' => .stall [.send temp] s'
    | .raise c info s' => .raise c info s'
    | .stuck f => .stuck f

/-- ShiftLow from its send loop on: the loop, then CACHE <- LOW[31:24], then the last two steps. -/
def sendFrom (temp : Byte) (s : State) : Flow Unit (List EncOp) :=
  if s.cacheSize = 0 then .stuck .cacheSizeUnderflow
  else match sendPending s.cacheSize.toNat temp s with
    | .ok _ s' => shiftEnd { s' with cache := s'.low.extractLsb' 24 8 }
    | .stall left s' => .stall left s'
    | .raise c info s' => .raise c info s'
    | .stuck f => .stuck f

/-- Whether ShiftLow sends: `LOW[31:0] < 0xFF000000 or LOW[32] = 1` (R205). -/
def sendsNow (s : State) : Bool :=
  decide ((s.low.extractLsb' 0 32).toNat < 0xFF000000) || s.low.getLsbD 32

/-- `ShiftLow()` (R205). -/
def shiftLow (s : State) : Flow Unit (List EncOp) :=
  if sendsNow s then sendFrom s.cache s else shiftEnd s

/-- How often the loops of R206 and R207 may turn before the model stops: a RANGE of at least 1 is at
least 2^24 after three turns, and the fourth test ends the loop (log entry 6). -/
def renormTurns : Nat := 4

/-- `NormEnc()` (R206), with `turns` loop tests left. A stall leaves the ShiftLow to finish and then the
rest of the loop. -/
def normEnc : Nat → State → Flow Unit (List EncOp)
  | 0, _ => .stuck .renormForever
  | turns + 1, s =>
    if s.range.toNat < top then
      match shiftLow { s with range := s.range <<< 8 } with
      | .ok _ s' => normEnc turns s'
      | .stall left s' => .stall (left ++ [.norm]) s'
      | .raise c info s' => .raise c info s'
      | .stuck f => .stuck f
    else .ok () s

/-- `NormDec()` (R207), with `turns` loop tests left. A stall changes nothing: the loop starts again. -/
def normDec : Nat → State → Flow Unit Unit
  | 0, _ => .stuck .renormForever
  | turns + 1, s =>
    if s.range.toNat < top then
      match readByte s with
      | .ok b s' => normDec turns { s' with code := (s'.code <<< 8) ||| b.setWidth 32, range := s'.range <<< 8 }
      | .stall _ s' => .stall () s'
      | .raise c info s' => .raise c info s'
      | .stuck f => .stuck f
    else .ok () s

/-- EncBit's split (R208): a 0 takes the lower sub-interval, a 1 the upper one. -/
def splitEnc (p : Prob) (b : Bool) (s : State) : State :=
  let bound := boundOf s.range p
  if b then { s with low := s.low + bound.setWidth 33, range := s.range - bound }
  else { s with range := bound }

/-- The bit DecBit finds (R209): 0 below the boundary, 1 from it on. -/
def decodedBit (p : Prob) (s : State) : Bool := decide ((boundOf s.range p).toNat ≤ s.code.toNat)

/-- DecBit's split (R209), for the bit it found. -/
def splitDec (p : Prob) (b : Bool) (s : State) : State :=
  let bound := boundOf s.range p
  if b then { s with code := s.code - bound, range := s.range - bound }
  else { s with range := bound }

/-- A direct bit's halving (`41_range_coder.md` R220): a 1 takes the upper half. -/
def halveEnc (b : Bool) (s : State) : State :=
  let half := s.range >>> 1
  if b then { s with range := half, low := s.low + half.setWidth 33 } else { s with range := half }

/-- The bit a direct decode finds (R225): `CODE >= RANGE` after the halving. -/
def directBitOf (s : State) : Bool := decide ((s.range >>> 1).toNat ≤ s.code.toNat)

/-- A direct decode's halving (R225), for the bit it found. -/
def halveDec (b : Bool) (s : State) : State :=
  let half := s.range >>> 1
  if b then { s with range := half, code := s.code - half } else { s with range := half }

/-- EncBit(a, b) up to its NormEnc (R208): read, split, update. -/
def encBitOp (a : Nat) (b : Bool) (s : State) : Flow Unit (List EncOp) :=
  match readProb a s with
  | .ok p => normEnc renormTurns (writeProb a (updateProb p b) (splitEnc p b s))
  | .error (c, info) => .raise c info s

/-- One operation of an encoder command. -/
def runEncOp (op : EncOp) (s : State) : Flow Unit (List EncOp) :=
  match op with
  | .modelBit a b => encBitOp a b s
  | .directBit b => normEnc renormTurns (halveEnc b s)
  | .norm => normEnc renormTurns s
  | .shift => shiftLow s
  | .send temp => sendFrom temp s
  | .close => .ok () { s with mode := .idle }

/-- An encoder command: its operations in order, to completion, to a fault, or to a stall that keeps
what is left of it. -/
def runEnc : List EncOp → State → Host.Outcome State Fault Refusal
  | [], s => complete s
  | op :: ops, s =>
    match runEncOp op s with
    | .ok _ s' => runEnc ops s'
    | .stall left s' => stallAt (.enc (left ++ ops)) s'
    | .raise c info s' => raiseFault c info s'
    | .stuck f => .fault f

/-- NormDec, then the rest of a decoder command, `k`; `rest` is `k` as data, kept if NormDec stalls. -/
def normThen (rest : DecRest) (k : State → Host.Outcome State Fault Refusal) (s : State) :
    Host.Outcome State Fault Refusal :=
  match normDec renormTurns s with
  | .ok _ s' => k s'
  | .stall _ s' => stallAt (.decNorm rest) s'
  | .raise c info s' => raiseFault c info s'
  | .stuck f => .fault f

/-- DecBit(a) (R209) and the rest of the command, `k`, which takes the bit: read, split, update, NormDec.
`rest b` is what is left for the bit b, kept if NormDec stalls. -/
def decBitThen (a : Nat) (rest : Bool → DecRest) (k : Bool → State → Host.Outcome State Fault Refusal)
    (s : State) : Host.Outcome State Fault Refusal :=
  match readProb a s with
  | .ok p =>
    let b := decodedBit p s
    normThen (rest b) (k b) (writeProb a (updateProb p b) (splitDec p b s))
  | .error (c, info) => raiseFault c info s

end Sys2Proof.Machine
end

