-- ==== Sys2Proof/Machine/BitTree.lean ====
section
/-! DEFINITION. The bit-tree commands of `42_bit_tree.md`: ENC_BT, DEC_BT, ENC_RBT and DEC_RBT. -/

namespace Sys2Proof.Machine

/-- The encoder operations of a walk from the root that codes `bits` (R265, R275). -/
def treeOps (b : AddrField) (bits : List Bool) : List EncOp :=
  (treePath 1 bits).map fun e => .modelBit (treeNode b e.1) e.2

/-- ENC_BT (R265): the symbol's bits most significant first. -/
def execEncBt (b : AddrField) (d : CountField) (v : U32) (s : State) :
    Host.Outcome State Fault Refusal :=
  let w := encode (.encBt b d v)
  afterChecks (checkMode .enc w s :: checkOperand (depthInDomain d && symbolInDomain d v) w
      :: treeChecks b d s) s
    (runEnc (treeOps b (msbFirst d.toNat v)))

/-- ENC_RBT (R275): the symbol's bits least significant first. -/
def execEncRbt (b : AddrField) (d : CountField) (v : U32) (s : State) :
    Host.Outcome State Fault Refusal :=
  let w := encode (.encRbt b d v)
  afterChecks (checkMode .enc w s :: checkOperand (depthInDomain d && symbolInDomain d v) w
      :: treeChecks b d s) s
    (runEnc (treeOps b (lsbFirst d.toNat v)))

/-- DEC_BT's walk (R270), `left` levels to go from node `m`; RES <- m - 2^d at its end. -/
def decTreeLoop (b : AddrField) (d : Nat) : Nat → Nat → State → Host.Outcome State Fault Refusal
  | 0, m, s => completeWith (BitVec.ofNat 32 (m - 2 ^ d)) s
  | left + 1, m, s =>
    decBitThen (treeNode b m) (fun x => .tree b d left (2 * m + x.toNat))
      (fun x => decTreeLoop b d left (2 * m + x.toNat)) s

/-- DEC_BT (R270). -/
def execDecBt (b : AddrField) (d : CountField) (s : State) : Host.Outcome State Fault Refusal :=
  let w := encode (.decBt b d)
  afterChecks (checkMode .dec w s :: checkOperand (depthInDomain d) w :: treeChecks b d s) s
    (decTreeLoop b d.toNat d.toNat 1)

/-- `r | (x << i)` (R280). -/
def orBitAt (r : U32) (x : Bool) (i : Nat) : U32 := r ||| ((BitVec.ofBool x).setWidth 32 <<< i)

/-- DEC_RBT's walk (R280), `left` levels to go from node `m`, so bit d - left is the next one. -/
def decRevTreeLoop (b : AddrField) (d : Nat) :
    Nat → Nat → U32 → State → Host.Outcome State Fault Refusal
  | 0, _, r, s => completeWith r s
  | left + 1, m, r, s =>
    decBitThen (treeNode b m)
      (fun x => .revTree b d left (2 * m + x.toNat) (orBitAt r x (d - (left + 1))))
      (fun x => decRevTreeLoop b d left (2 * m + x.toNat) (orBitAt r x (d - (left + 1)))) s

/-- DEC_RBT (R280). -/
def execDecRbt (b : AddrField) (d : CountField) (s : State) : Host.Outcome State Fault Refusal :=
  let w := encode (.decRbt b d)
  afterChecks (checkMode .dec w s :: checkOperand (depthInDomain d) w :: treeChecks b d s) s
    (decRevTreeLoop b d.toNat d.toNat 1 0)

end Sys2Proof.Machine
end

