-- ==== Sys2Proof/Machine/Control.lean ====
section
/-! DEFINITION. The control commands of `40_control.md`: NOP, ENC_INIT, DEC_INIT, PROB_INIT, PROB_READ
and REG_READ. The unused fields are already 0 when a meaning runs (Decode.lean). -/

namespace Sys2Proof.Machine

/-- NOP (R160). -/
def execNop (s : State) : Host.Outcome State Fault Refusal := complete s

/-- ENC_INIT (R162). -/
def execEncInit (s : State) : Host.Outcome State Fault Refusal :=
  complete { s with
    mode := .enc, low := 0, range := rangeInit, cache := 0, cacheSize := cacheSizeInit, outCount := 0 }

/-- DEC_INIT's last step (R165): b0 ≠ 0 or CODE = 0xFFFFFFFF marks a stream no encoder produced. -/
def decInitEnd (first : Byte) (s : State) : Host.Outcome State Fault Refusal :=
  if first ≠ 0 ∨ s.code = rangeInit then raiseFault .corruptStream s.inCount s else complete s

/-- `CODE <- ((CODE << 8) | b) mod 2^32` (R165). -/
def pushCode (b : Byte) (s : State) : State := { s with code := (s.code <<< 8) ||| b.setWidth 32 }

/-- DEC_INIT's loop over the later start-up bytes (R165), `left` of them to read. -/
def decInitRest : Nat → Byte → State → Host.Outcome State Fault Refusal
  | 0, first, s => decInitEnd first s
  | left + 1, first, s =>
    match readByte s with
    | .ok b s' => decInitRest left first (pushCode b s')
    | .stall _ s' => stallAt (.decRest (left + 1) first) s'
    | .raise c info s' => raiseFault c info s'
    | .stuck f => .fault f

/-- DEC_INIT from its first ReadByte on (R165): CODE <- b0, then the later bytes. -/
def decInitFirst (s : State) : Host.Outcome State Fault Refusal :=
  match readByte s with
  | .ok b s' => decInitRest decInitLaterBytes b { s' with code := b.setWidth 32 }
  | .stall _ s' => stallAt .decFirst s'
  | .raise c info s' => raiseFault c info s'
  | .stuck f => .fault f

/-- DEC_INIT (R165). -/
def execDecInit (s : State) : Host.Outcome State Fault Refusal :=
  decInitFirst { s with mode := .dec, range := rangeInit, code := 0, inCount := 0 }

/-- PROB_INIT (R170). -/
def execProbInit (a : AddrField) (c : U32) (s : State) : Host.Outcome State Fault Refusal :=
  afterChecks [checkSpan a.toNat c.toNat s] s fun s =>
    complete { s with prob := memFill s.prob a.toNat c.toNat probInitValue }

/-- PROB_READ (R173). -/
def execProbRead (a : AddrField) (s : State) : Host.Outcome State Fault Refusal :=
  afterChecks (contextChecks a s) s fun s =>
    match readProb a.toNat s with
    | .ok p => completeWith (p.setWidth 32) s
    | .error (c, info) => raiseFault c info s

/-- REG_READ (R176): a reserved selector is OPERAND_RANGE with the command word. -/
def execRegRead (sel : AddrField) (s : State) : Host.Outcome State Fault Refusal :=
  match regView sel s with
  | some v => completeWith v s
  | none => raiseFault .operandRange (encode (.regRead sel)) s

end Sys2Proof.Machine
end

