-- ==== Sys2Proof/Machine/Price.lean ====
section
/-! DEFINITION. The price ROM and the price commands of `43_price.md`: PRICE_BIT, PRICE_DIRECT,
PRICE_BT and PRICE_RBT. They read P and the ROM and write only RES (R300). -/

namespace Sys2Proof.Machine

/-- The number of words of the price ROM (`10_state.md` R55). -/
def priceRomWords : Nat := 512

/-- R301's entry for j in 2^e .. 2^(e+1) - 1, where i = 8 - e and k - i - 1 = e:
`(i << 6) + (((end - j) << 6) >> e)`. -/
def priceEntry (j : Nat) : Nat :=
  let e := Nat.log2 j
  (8 - e) * 2 ^ 6 + (2 ^ (e + 1) - j) * 2 ^ 6 / 2 ^ e

/-- The price ROM PT (R301): 512 read-only words, PT[0] = 0; none past its end. -/
def priceRom (j : Nat) : Option U32 :=
  if j = 0 then some 0 else if j < priceRomWords then some (BitVec.ofNat 32 (priceEntry j)) else none

/-- The ROM index of `Price(p, x)` (R302). -/
def priceIndex (p : Prob) (x : Bool) : Nat := if x then (2048 - p.toNat) / 2 ^ 2 else p.toNat / 2 ^ 2

/-- The price of a walk (R311, R314): for each node and bit in order, `t <- t + Price(P[b + m], x)`. -/
def pricePath (base : Nat) : List (Nat × Bool) → U32 → State → Host.Outcome State Fault Refusal
  | [], t, s => completeWith t s
  | (m, x) :: rest, t, s =>
    match readProb (base + m) s with
    | .error (c, info) => raiseFault c info s
    | .ok p =>
      match priceRom (priceIndex p x) with
      | none => .fault .priceIndexOutside
      | some v => pricePath base rest (t + v) s

/-- PRICE_BIT (R305): the price of the one node at ADDR. -/
def execPriceBit (a : AddrField) (x : U32) (s : State) : Host.Outcome State Fault Refusal :=
  afterChecks (checkOperand (bitInDomain x) (encode (.priceBit a x)) :: contextChecks a s) s
    (pricePath a.toNat [(0, bitOf x)] 0)

/-- PRICE_DIRECT (R308): 64 units a bit. -/
def execPriceDirect (n : CountField) (s : State) : Host.Outcome State Fault Refusal :=
  afterChecks [checkOperand (countInDomain n) (encode (.priceDirect n))] s
    (completeWith (n.setWidth 32 <<< 6))

/-- PRICE_BT (R311): the nodes of ENC_BT. -/
def execPriceBt (b : AddrField) (d : CountField) (v : U32) (s : State) :
    Host.Outcome State Fault Refusal :=
  afterChecks (checkOperand (depthInDomain d && symbolInDomain d v) (encode (.priceBt b d v))
      :: treeChecks b d s) s
    (pricePath b.toNat (treePath 1 (msbFirst d.toNat v)) 0)

/-- PRICE_RBT (R314): the nodes of ENC_RBT. -/
def execPriceRbt (b : AddrField) (d : CountField) (v : U32) (s : State) :
    Host.Outcome State Fault Refusal :=
  afterChecks (checkOperand (depthInDomain d && symbolInDomain d v) (encode (.priceRbt b d v))
      :: treeChecks b d s) s
    (pricePath b.toNat (treePath 1 (lsbFirst d.toNat v)) 0)

end Sys2Proof.Machine
end

