-- ==== Sys2Proof/Machine/RangeCoder.lean ====
section
/-! DEFINITION. The range coder's commands of `41_range_coder.md`: ENC_BIT, DEC_BIT, ENC_DIRECT,
DEC_DIRECT and ENC_FLUSH. -/

namespace Sys2Proof.Machine

/-- ENC_BIT (R210). -/
def execEncBit (a : AddrField) (b : U32) (s : State) : Host.Outcome State Fault Refusal :=
  let w := encode (.encBit a b)
  afterChecks (checkMode .enc w s :: checkOperand (bitInDomain b) w :: contextChecks a s) s
    (runEnc [.modelBit a.toNat (bitOf b)])

/-- DEC_BIT's result (R215). -/
def decBitEnd (b : Bool) (s : State) : Host.Outcome State Fault Refusal :=
  completeWith ((BitVec.ofBool b).setWidth 32) s

/-- DEC_BIT (R215). -/
def execDecBit (a : AddrField) (s : State) : Host.Outcome State Fault Refusal :=
  let w := encode (.decBit a)
  afterChecks (checkMode .dec w s :: contextChecks a s) s
    (decBitThen a.toNat .bit decBitEnd)

/-- ENC_DIRECT (R220). -/
def execEncDirect (n : CountField) (v : U32) (s : State) : Host.Outcome State Fault Refusal :=
  let w := encode (.encDirect n v)
  afterChecks [checkMode .enc w s, checkOperand (countInDomain n && valueInDomain n v) w] s
    (runEnc ((msbFirst n.toNat v).map .directBit))

/-- DEC_DIRECT's loop (R225), `left` bits to go, `r` so far. -/
def decDirectLoop : Nat → U32 → State → Host.Outcome State Fault Refusal
  | 0, r, s => completeWith r s
  | left + 1, r, s =>
    let b := directBitOf s
    let s' := halveDec b s
    if s'.code = s'.range then raiseFault .corruptStream s'.inCount s'
    else
      let r' := (r <<< 1) ||| (BitVec.ofBool b).setWidth 32
      normThen (.direct left r') (decDirectLoop left r') s'

/-- DEC_DIRECT (R225). -/
def execDecDirect (n : CountField) (s : State) : Host.Outcome State Fault Refusal :=
  let w := encode (.decDirect n)
  afterChecks [checkMode .dec w s, checkOperand (countInDomain n) w] s (decDirectLoop n.toNat 0)

/-- ENC_FLUSH's operations (R230): five ShiftLows, then MODE <- IDLE. -/
def flushOps : List EncOp := List.replicate flushShifts .shift ++ [.close]

/-- ENC_FLUSH (R230). -/
def execEncFlush (s : State) : Host.Outcome State Fault Refusal :=
  afterChecks [checkMode .enc (encode .encFlush) s] s (runEnc flushOps)

end Sys2Proof.Machine
end

