-- ==== Sys2Proof/Machine/Dispatch.lean ====
section
/-! DEFINITION. One arm per command: from its acceptance to its completion, its fault or its wait
(`60_exceptions.md` R342). -/

namespace Sys2Proof.Machine

def exec (i : Instr) (s : State) : Host.Outcome State Fault Refusal :=
  match i with
  | .nop => Sys2Proof.Machine.execNop s
  | .encInit => Sys2Proof.Machine.execEncInit s
  | .decInit => Sys2Proof.Machine.execDecInit s
  | .probInit a c => Sys2Proof.Machine.execProbInit a c s
  | .probRead a => Sys2Proof.Machine.execProbRead a s
  | .regRead sel => Sys2Proof.Machine.execRegRead sel s
  | .encBit a b => Sys2Proof.Machine.execEncBit a b s
  | .encDirect n v => Sys2Proof.Machine.execEncDirect n v s
  | .encBt b d v => Sys2Proof.Machine.execEncBt b d v s
  | .encRbt b d v => Sys2Proof.Machine.execEncRbt b d v s
  | .encFlush => Sys2Proof.Machine.execEncFlush s
  | .decBit a => Sys2Proof.Machine.execDecBit a s
  | .decDirect n => Sys2Proof.Machine.execDecDirect n s
  | .decBt b d => Sys2Proof.Machine.execDecBt b d s
  | .decRbt b d => Sys2Proof.Machine.execDecRbt b d s
  | .priceBit a x => Sys2Proof.Machine.execPriceBit a x s
  | .priceDirect n => Sys2Proof.Machine.execPriceDirect n s
  | .priceBt b d v => Sys2Proof.Machine.execPriceBt b d v s
  | .priceRbt b d v => Sys2Proof.Machine.execPriceRbt b d v s

end Sys2Proof.Machine
end

