-- ==== Sys2Proof/Machine/Resume.lean ====
section
/-! DEFINITION. A stalled command goes on (`10_state.md` R58, `70_reset_and_hazards.md` R396): one step
up to the wait and one step after it. -/

namespace Sys2Proof.Machine

/-- The rest of a decoder command after its NormDec. -/
def decContinue : DecRest → State → Host.Outcome State Fault Refusal
  | .bit b, s => decBitEnd b s
  | .direct left r, s => decDirectLoop left r s
  | .tree b d left m, s => decTreeLoop b d left m s
  | .revTree b d left m r, s => decRevTreeLoop b d left m r s

/-- The waiting command tries its handshake again and, if the port serves it, goes on. -/
def resume : Wait → State → Host.Outcome State Fault Refusal
  | .enc ops, s => runEnc ops s
  | .decFirst, s => decInitFirst s
  | .decRest left first, s => decInitRest left first s
  | .decNorm rest, s => normThen rest (decContinue rest) s

end Sys2Proof.Machine
end

