-- ==== Sys2Proof/Machine/Fetch.lean ====
section
/-! DEFINITION. Taking a word from the command port (`60_exceptions.md` R342) and one step of the block
(`00_scope.md` R3, `70_reset_and_hazards.md` R396). -/

namespace Sys2Proof.Machine

/-- A word accepted with FAULTED = 0: an illegal one faults and changes nothing else
(`30_encoding.md` R128); any other runs. -/
def runWord (w : Word) (s : State) : Host.Outcome State Fault Refusal :=
  match decode w with
  | .illegal _ => raiseFault .illegalCommand w s
  | .command i => exec i s

/-- A word taken (R342): discarded while FAULTED = 1, else run. -/
def takeWord (w : Word) (s : State) : Host.Outcome State Fault Refusal :=
  if s.faulted then .next (discard s) else runWord w s

/-- One step. While reset is asserted the block is held in its reset state (`10_state.md` R56, R381).
A waiting command (BUSY = 1) tries its port again; no word is taken meanwhile (R56, U8). Otherwise the
next presented word is taken, and with none presented nothing happens (`70_reset_and_hazards.md` R397). -/
def advance (s : State) : Host.Outcome State Fault Refusal :=
  if s.resetIn then .next (applyReset s)
  else match s.wait with
    | some w => resume w s
    | none => match s.cmdIn with
      | [] => .next s
      | w :: rest => takeWord w { s with cmdIn := rest }

/-- The word `w` presented as the next one, to a block that will take and run it: reset released, no
command waiting, not faulted. -/
def presentNext (w : Word) (s : State) : State :=
  { s with cmdIn := w :: s.cmdIn, resetIn := false, wait := none,
           faulted := false, faultCode := 0, faultInfo := 0 }

end Sys2Proof.Machine
end

