-- ==== Sys2Proof/Machine/Step.lean ====
section
/-! DEFINITION. The step, and the placing of one command word where the step takes its next one: the
block has no program counter, so that place is the command port (`10_state.md` R41, log entry 9). -/

namespace Sys2Proof.Machine

/-- One step of the block (`00_scope.md` R3). -/
def step (s : State) : Host.Outcome State Fault Refusal := advance s

/-- `s` with the opcode table's word `w` presented next, so that the very next step runs it. -/
def State.withFetchWord (s : State) (nbits w : Nat) : State := presentNext (tableWord nbits w) s

end Sys2Proof.Machine
end

