-- ==== Sys2Proof/Machine/Flags.lean ====
section
/-! DEFINITION. The status port (`10_state.md` R52, R56): the block's only flags, composed from where
they are stored, and the pending bytes of R57. -/

namespace Sys2Proof.Machine

/-- BUSY: 1 from when a command is accepted until it completes or faults (R52). A command that does not
wait is one step (`70_reset_and_hazards.md` R396), so between steps BUSY is 1 exactly while one waits. -/
def busyFlag (s : State) : Bool := s.wait.isSome

/-- STATUS (R52): MODE in 7:6, FAULT_CODE in 5:2, FAULTED in 1, BUSY in 0. -/
def statusReg (s : State) : BitVec 8 :=
  modeBits s.mode ++ s.faultCode ++ BitVec.ofBool s.faulted ++ BitVec.ofBool (busyFlag s)

/-- The status port: STATUS, RES and FAULT_INFO, readable at any time (R56). -/
def statusPort (s : State) : BitVec 8 × U32 × U64 := (statusReg s, s.res, s.faultInfo)

/-- The bytes owed to the sink: CACHE, then CACHE_SIZE - 1 bytes of 0xFF (R48, R57). -/
def pendingBytes (s : State) : List Byte :=
  match s.cacheSize.toNat with
  | 0 => []
  | n + 1 => s.cache :: List.replicate n 0xFF

/-- OUT_COUNT + CACHE_SIZE + 4: the length an immediate ENC_FLUSH gives the stream (R50). -/
def predictedLength (s : State) : Nat := s.outCount.toNat + s.cacheSize.toNat + 4

end Sys2Proof.Machine
end

