-- ==== Sys2Proof/Machine/HostMoves.lean ====
section
/-! DEFINITION. What the host can do (`60_exceptions.md` R360, R361): its moves on the four ports and
the reset, between two steps of the block. They touch the ports only (`10_state.md` R56). -/

namespace Sys2Proof.Machine

/-- Present a word after those already presented. -/
def hostPresent (w : Word) (s : State) : State := { s with cmdIn := s.cmdIn ++ [w] }

/-- Offer bytes after those already offered. That it offers none after EOS, before it releases EOS, is the
host's duty (R360). -/
def hostOffer (bs : List Byte) (s : State) : State := { s with byteIn := s.byteIn ++ bs }

/-- Assert EOS: no more bytes of this stream will come. -/
def hostEndInput (s : State) : State := { s with eos := true }

/-- The host decides anew what its byte-in port offers (`70_reset_and_hazards.md` R380): these bytes instead
of those still offered, and EOS released. So it begins a next stream, stops offering (no byte) after a
stream that ended, or sets the port up after a reset.
DESIGN CHOICE, safe (log entry 12): the spec does not say whether and when a host may withdraw an offered
byte or release EOS, and here it may between any two steps, after a reset or not. -/
def hostNewInput (bs : List Byte) (s : State) : State := { s with byteIn := bs, eos := false }

/-- The sink will take this many bytes before it is not ready; none: it is always ready. -/
def hostSinkRoom (room : Option Nat) (s : State) : State := { s with sinkRoom := room }

/-- Raise or release the reset level. -/
def hostResetLevel (level : Bool) (s : State) : State := { s with resetIn := level }

/-- One move of the host. EOS is released and offered bytes are withdrawn by `newInput` alone (log entry 12);
a reset leaves the port as the host has it. -/
inductive HostMove where
  | present (w : Word)
  | offer (bs : List Byte)
  | endInput
  | newInput (bs : List Byte)
  | sinkRoom (room : Option Nat)
  | resetLevel (level : Bool)
  deriving DecidableEq, Repr

/-- The state after a move of the host. -/
def hostMove : HostMove → State → State
  | .present w, s => hostPresent w s
  | .offer bs, s => hostOffer bs s
  | .endInput, s => hostEndInput s
  | .newInput bs, s => hostNewInput bs s
  | .sinkRoom room, s => hostSinkRoom room s
  | .resetLevel level, s => hostResetLevel level s

end Sys2Proof.Machine
end

