-- ==== Sys2Proof/Safety.lean ====
section
/-! DEFINITION. What the claims are stated in: the invariant of every run, what a command needs of the
ports to complete, and the results of the coding steps written out as arithmetic (`41_range_coder.md`
R203 to R209), apart from the machine's own loops. -/

namespace Sys2Proof.Machine

/-! ### The invariant -/

/-- Between two operations of an open encoder stream: R240, R242 and R243; and R250, that a carry still
to come finds CACHE below 0xFF (a CACHE of 0xFF leaves no room for one above LOW). -/
structure EncOk (s : State) : Prop where
  range : top ≤ s.range.toNat
  low : s.low.toNat + s.range.toNat < 2 ^ 33
  owed : 1 ≤ s.cacheSize.toNat
  carry : s.cache = 0xFF → s.low.toNat + s.range.toNat ≤ 2 ^ 32

/-- Between two commands of an open decoder stream: R240 and R241. -/
structure DecOk (s : State) : Prop where
  range : top ≤ s.range.toNat
  code : s.code.toNat < s.range.toNat

/-- The operations a coding command may leave behind a stalled ShiftLow. -/
def isCodingOp : EncOp → Bool
  | .modelBit _ _ => true
  | .directBit _ => true
  | .norm => true
  | .shift => false
  | .send _ => false
  | .close => false

/-- What stands behind a stalled ShiftLow: the rest of a coding command, or the rest of ENC_FLUSH. -/
def EncRestOk (ops : List EncOp) : Prop :=
  ops.all isCodingOp = true ∨ ∃ k, k < flushShifts ∧ ops = List.replicate k .shift ++ [.close]

/-- A waiting command (R58): where it waits, and what its registers keep while it does. -/
def WaitOk (s : State) : Wait → Prop
  | .enc (.send _ :: rest) =>
    s.mode = .enc ∧ top ≤ s.range.toNat ∧ 1 ≤ s.cacheSize.toNat ∧ sendsNow s = true
      ∧ s.low.toNat * 2 ^ 8 + s.range.toNat < 2 ^ 41 ∧ EncRestOk rest
  | .enc _ => False
  | .decFirst => s.mode = .dec ∧ s.range = rangeInit ∧ s.code = 0
  | .decRest left _ => s.mode = .dec ∧ s.range = rangeInit ∧ 1 ≤ left ∧ left ≤ decInitLaterBytes
  | .decNorm _ =>
    s.mode = .dec ∧ 2 ^ 16 ≤ s.range.toNat ∧ s.range.toNat < top ∧ s.code.toNat < s.range.toNat

/-- The coder's part of the invariant, for a block that is not faulted. -/
def CoderOk (s : State) : Prop :=
  match s.wait with
  | none => (s.mode = .enc → EncOk s) ∧ (s.mode = .dec → DecOk s)
  | some w => WaitOk s w

/-- The fault registers (R52, R53, U3): 0 until a fault is taken; then a code of 1 to 8, and no command
waits. -/
def FaultRegsOk (s : State) : Prop :=
  (s.faulted = false → s.faultCode = 0 ∧ s.faultInfo = 0)
    ∧ (s.faulted = true → 1 ≤ s.faultCode.toNat ∧ s.faultCode.toNat ≤ 8 ∧ s.wait = none)

/-- The invariant of every run: PROB_WORDS is legal (`00_scope.md` R9), P is in canonical form, within
its size and within [31, 2017] (R54, R244), and the coder is as R240 to R243 say unless the block has
faulted, which leaves the coder where the fault found it (`60_exceptions.md` R343). -/
structure Inv (s : State) : Prop where
  words : 1 ≤ s.probWords ∧ s.probWords ≤ Config.maxProbWords
  memory : s.prob.wf
  probs : ∀ e ∈ s.prob, e.1 < s.probWords ∧ 31 ≤ e.2.toNat ∧ e.2.toNat ≤ 2017
  faultRegs : FaultRegsOk s
  coder : s.faulted = false → CoderOk s

/-! ### What a command needs of its operands and of the ports -/

/-- The block is between commands and will run the next one: not faulted, BUSY = 0. -/
def Accepts (s : State) : Prop := s.faulted = false ∧ s.wait = none

/-- Every word of `a .. a + n - 1` is in P and defined. -/
def SpanDefined (a n : Nat) (s : State) : Prop :=
  a + n ≤ s.probWords ∧ ∀ x, a ≤ x → x < a + n → (memRead s.prob x).isSome = true

/-- The span of a depth-d tree at base b (`42_bit_tree.md` R260) is in P and defined. -/
def TreeDefined (b : AddrField) (d : CountField) (s : State) : Prop :=
  SpanDefined (b.toNat + 1) (2 ^ d.toNat - 1) s

/-- The sink has room for the bytes sent from `s` to its result `t`. -/
def SinkFits (s t : State) : Prop :=
  ∀ room, s.sinkRoom = some room → t.sent.length ≤ s.sent.length + room

/-! ### The results of the coding steps -/

/-- The first `n` bytes owed to the sink, each plus the carry (R205): CACHE, then 0xFF bytes. -/
def owedBytes (s : State) : Nat → List Byte
  | 0 => []
  | n + 1 =>
    BitVec.ofNat 8 (s.cache.toNat + s.low.toNat / 2 ^ 32)
      :: List.replicate n (BitVec.ofNat 8 (0xFF + s.low.toNat / 2 ^ 32))

/-- Whether ShiftLow sends (R205): the top byte of LOW is below 0xFF, or a carry is due. -/
abbrev Sends (s : State) : Prop := s.low.toNat % 2 ^ 32 < 0xFF000000 ∨ s.low.toNat / 2 ^ 32 = 1

/-- What ShiftLow leaves when it runs through (R205): CACHE and the 0xFF bytes behind it are sent, each plus
the carry, or one more byte is pending. -/
def shiftedOut (s : State) : State :=
  let low' : BitVec 33 := BitVec.ofNat 33 (s.low.toNat % 2 ^ 24 * 2 ^ 8)
  if Sends s then
    { s with
      sent := s.sent ++ owedBytes s s.cacheSize.toNat
      outCount := s.outCount + s.cacheSize
      sinkRoom := s.sinkRoom.map (fun room => room - s.cacheSize.toNat)
      cache := BitVec.ofNat 8 (s.low.toNat / 2 ^ 24)
      cacheSize := 1
      low := low' }
  else { s with cacheSize := s.cacheSize + 1, low := low' }

/-- Where ShiftLow runs into a counter's end (R205, R341, R343), none where it does not: the datum of
COUNTER_OVERFLOW and the state it leaves. OUT_COUNT ends in the middle of the owed bytes (datum 0), those
before it sent and no longer owed; or CACHE_SIZE cannot count one more (datum 2). -/
def shiftOverflow (s : State) : Option (U64 × State) :=
  let fit := 2 ^ 64 - 1 - s.outCount.toNat
  if Sends s then
    if s.cacheSize.toNat ≤ fit then none
    else some (0, { s with
      sent := s.sent ++ owedBytes s fit
      outCount := 0xFFFFFFFFFFFFFFFF
      sinkRoom := s.sinkRoom.map (fun room => room - fit)
      cacheSize := BitVec.ofNat 64 (s.cacheSize.toNat - fit) })
  else if s.cacheSize = 0xFFFFFFFFFFFFFFFF then some (2, s) else none

/-- What `n` ShiftLows in a row run into, if anything: ENC_FLUSH does five (R230). -/
def shiftsOverflow : Nat → State → Option (U64 × State)
  | 0, _ => none
  | n + 1, s =>
    match shiftOverflow s with
    | some stop => some stop
    | none => shiftsOverflow n (shiftedOut s)

/-- RANGE moved up by one byte, the first half of a renormalization step (R206). -/
def rangeShifted (s : State) : State := { s with range := BitVec.ofNat 32 (s.range.toNat * 2 ^ 8) }

/-- One renormalization step of the encoder if RANGE < 2^24 (R206, R245). -/
def renormalizedEnc (s : State) : State :=
  if s.range.toNat < 2 ^ 24 then shiftedOut (rangeShifted s) else s

/-- What that step runs into, if anything. -/
def renormOverflow (s : State) : Option (U64 × State) :=
  if s.range.toNat < 2 ^ 24 then shiftOverflow (rangeShifted s) else none

/-- The updated probability (R203). -/
def adapted (p : Nat) (b : Bool) : Nat := if b then p - p / 2 ^ 5 else p + (2048 - p) / 2 ^ 5

/-- The state EncBit(a, b) is in before its NormEnc (R208), for a defined word `a`. -/
def encSplitResult (a : Nat) (b : Bool) (s : State) : State :=
  match memRead s.prob a with
  | none => s
  | some p =>
    let bound := s.range.toNat / 2 ^ 11 * p.toNat
    { s with
      range := BitVec.ofNat 32 (if b then s.range.toNat - bound else bound)
      low := BitVec.ofNat 33 (if b then s.low.toNat + bound else s.low.toNat)
      prob := memWrite s.prob a (BitVec.ofNat 11 (adapted p.toNat b)) }

/-- What EncBit(a, b) leaves (R208). -/
def encBitResult (a : Nat) (b : Bool) (s : State) : State := renormalizedEnc (encSplitResult a b s)

/-- What EncBit leaves after each node and bit of a walk (`42_bit_tree.md` R265, R275). -/
def encWalkResult (base : Nat) : List (Nat × Bool) → State → State
  | [], s => s
  | (m, x) :: rest, s => encWalkResult base rest (encBitResult (base + m) x s)

/-- What the EncBits of a walk run into, if anything (R343). -/
def encWalkOverflow (base : Nat) : List (Nat × Bool) → State → Option (U64 × State)
  | [], _ => none
  | (m, x) :: rest, s =>
    match renormOverflow (encSplitResult (base + m) x s) with
    | some stop => some stop
    | none => encWalkOverflow base rest (encBitResult (base + m) x s)

/-- The state after a direct bit's halving (R220), before its NormEnc. -/
def encHalveResult (b : Bool) (s : State) : State :=
  let half := s.range.toNat / 2
  { s with
    range := BitVec.ofNat 32 half
    low := BitVec.ofNat 33 (if b then s.low.toNat + half else s.low.toNat) }

/-- What one direct bit leaves (R220). -/
def encDirectResult (b : Bool) (s : State) : State := renormalizedEnc (encHalveResult b s)

/-- What the direct bits leave, the first one first (R220). -/
def encDirectsResult : List Bool → State → State
  | [], s => s
  | b :: rest, s => encDirectsResult rest (encDirectResult b s)

/-- What the direct bits run into, if anything (R343). -/
def encDirectsOverflow : List Bool → State → Option (U64 × State)
  | [], _ => none
  | b :: rest, s =>
    match renormOverflow (encHalveResult b s) with
    | some stop => some stop
    | none => encDirectsOverflow rest (encDirectResult b s)

/-- Why a NormDec cannot take the byte it needs (`20_memory.md` R83). -/
inductive InputStop where
  /-- No byte is offered: TRUNCATED_INPUT at EOS, else a wait. -/
  | exhausted
  /-- A byte is offered and IN_COUNT is at 2^64 - 1: COUNTER_OVERFLOW. -/
  | overflow
  deriving DecidableEq, Repr

/-- Whether the NormDec of this state is stopped: it needs a byte, and cannot take one. -/
def inputStop (s : State) : Option InputStop :=
  if s.range.toNat < 2 ^ 24 then
    if s.byteIn = [] then some .exhausted
    else if s.inCount = 0xFFFFFFFFFFFFFFFF then some .overflow
    else none
  else none

/-- One renormalization step of the decoder if RANGE < 2^24, with the next byte offered (R207, R245). -/
def renormalizedDec (s : State) : State :=
  if s.range.toNat < 2 ^ 24 then
    match s.byteIn with
    | [] => s
    | b :: rest =>
      { s with
        byteIn := rest
        consumed := s.consumed ++ [b]
        inCount := s.inCount + 1
        code := BitVec.ofNat 32 (s.code.toNat * 2 ^ 8 + b.toNat)
        range := BitVec.ofNat 32 (s.range.toNat * 2 ^ 8) }
  else s

/-- The state DecBit(a) is in before its NormDec (R209), for a defined word `a`, and the bit it found. -/
def decSplitResult (a : Nat) (s : State) : Bool × State :=
  match memRead s.prob a with
  | none => (false, s)
  | some p =>
    let bound := s.range.toNat / 2 ^ 11 * p.toNat
    if s.code.toNat < bound then
      (false, { s with
        range := BitVec.ofNat 32 bound
        prob := memWrite s.prob a (BitVec.ofNat 11 (adapted p.toNat false)) })
    else
      (true, { s with
        code := BitVec.ofNat 32 (s.code.toNat - bound)
        range := BitVec.ofNat 32 (s.range.toNat - bound)
        prob := memWrite s.prob a (BitVec.ofNat 11 (adapted p.toNat true)) })

/-- What DecBit(a) leaves, and the bit (R209), when the input port has a byte for it. -/
def decBitResult (a : Nat) (s : State) : Bool × State :=
  ((decSplitResult a s).1, renormalizedDec (decSplitResult a s).2)

/-- The bits a decoder's walk of `n` levels finds from node m, and what it leaves (R270, R280). -/
def decWalkResult (base : Nat) : Nat → Nat → State → List Bool × State
  | 0, _, s => ([], s)
  | n + 1, m, s =>
    let r := decBitResult (base + m) s
    let rest := decWalkResult base n (2 * m + r.1.toNat) r.2
    (r.1 :: rest.1, rest.2)

/-- Where a decoder's walk is stopped at a NormDec, and why (R343): the state before that NormDec; none if
no NormDec is stopped. -/
def decWalkStop (base : Nat) : Nat → Nat → State → Option (InputStop × State)
  | 0, _, _ => none
  | n + 1, m, s =>
    let r := decSplitResult (base + m) s
    match inputStop r.2 with
    | some why => some (why, r.2)
    | none => decWalkStop base n (2 * m + r.1.toNat) (renormalizedDec r.2)

/-- One direct bit of the decoder before its NormDec (R225): the bit, and the state. -/
def decHalveResult (s : State) : Bool × State :=
  let half := s.range.toNat / 2
  if half ≤ s.code.toNat then
    (true, { s with range := BitVec.ofNat 32 half, code := BitVec.ofNat 32 (s.code.toNat - half) })
  else (false, { s with range := BitVec.ofNat 32 half })

/-- How the direct bits of the decoder end (R225, R343). -/
inductive DirectsEnd where
  /-- All bits decoded: the bits, and the state. -/
  | done (bits : List Bool) (s : State)
  /-- A step left CODE = RANGE: the state it left. -/
  | corrupt (s : State)
  /-- A NormDec is stopped: why, and the state before it. -/
  | stopped (why : InputStop) (s : State)
  deriving DecidableEq, Repr

/-- The bit decoded first stands before the later ones. -/
def DirectsEnd.push (b : Bool) : DirectsEnd → DirectsEnd
  | .done bits s => .done (b :: bits) s
  | .corrupt s => .corrupt s
  | .stopped why s => .stopped why s

/-- The `n` direct bits of the decoder (R225). -/
def decDirectsResult : Nat → State → DirectsEnd
  | 0, s => .done [] s
  | n + 1, s =>
    let r := decHalveResult s
    if r.2.code = r.2.range then .corrupt r.2
    else match inputStop r.2 with
      | some why => .stopped why r.2
      | none => (decDirectsResult n (renormalizedDec r.2)).push r.1

/-- The value of bits, the first one most significant. -/
def valueMsb (bits : List Bool) : Nat := bits.foldl (fun v b => 2 * v + b.toNat) 0

/-- The value of bits, the first one least significant. -/
def valueLsb (bits : List Bool) : Nat := bits.foldr (fun b v => 2 * v + b.toNat) 0

/-- The price of coding bit x with probability p (`43_price.md` R302), by R301's formula for the entry
j: with e = log2 j, `((8 - e) << 6) + (((2^(e+1) - j) << 6) >> e)`. -/
def priceOf (p : Nat) (x : Bool) : Nat :=
  let j := (if x then 2048 - p else p) / 4
  (8 - Nat.log2 j) * 64 + (2 ^ (Nat.log2 j + 1) - j) * 64 / 2 ^ Nat.log2 j

/-- The sum of the prices along a walk (R311, R314). -/
def walkPrice (base : Nat) (path : List (Nat × Bool)) (s : State) : Nat :=
  (path.map fun e => priceOf ((memRead s.prob (base + e.1)).getD 0).toNat e.2).sum

/-- A completed command: BUSY = 0, CSP one further, everything else as `s` has it (`10_state.md` R41). -/
def completed (s : State) : State := { s with wait := none, csp := s.csp + 1 }

/-- A command that faulted in state `s` (`60_exceptions.md` R340). -/
def faultedWith (code : Nat) (info : U64) (s : State) : State :=
  { s with
    faulted := true, faultCode := BitVec.ofNat 4 code, faultInfo := info, wait := none, csp := s.csp + 1 }

/-! ### The opcode table -/

/-- A command's mnemonic (`30_encoding.md` R125). -/
def mnemonicOf : Instr → String
  | .nop => "NOP"
  | .encInit => "ENC_INIT"
  | .decInit => "DEC_INIT"
  | .probInit _ _ => "PROB_INIT"
  | .probRead _ => "PROB_READ"
  | .regRead _ => "REG_READ"
  | .encBit _ _ => "ENC_BIT"
  | .encDirect _ _ => "ENC_DIRECT"
  | .encBt _ _ _ => "ENC_BT"
  | .encRbt _ _ _ => "ENC_RBT"
  | .encFlush => "ENC_FLUSH"
  | .decBit _ => "DEC_BIT"
  | .decDirect _ => "DEC_DIRECT"
  | .decBt _ _ => "DEC_BT"
  | .decRbt _ _ => "DEC_RBT"
  | .priceBit _ _ => "PRICE_BIT"
  | .priceDirect _ => "PRICE_DIRECT"
  | .priceBt _ _ _ => "PRICE_BT"
  | .priceRbt _ _ _ => "PRICE_RBT"

/-- spec/opcode_table.json: mnemonic, match and mask of each row. A word is the row's command exactly
when the bits of the mask are those of the match. -/
def opcodeRows : List (String × Word × Word) :=
  [("NOP", 0x0000000000000000, 0xFFFFFFFFFFFFFFFF),
   ("ENC_INIT", 0x0400000000000000, 0xFFFFFFFFFFFFFFFF),
   ("DEC_INIT", 0x0800000000000000, 0xFFFFFFFFFFFFFFFF),
   ("PROB_INIT", 0x0C00000000000000, 0xFFF0000000000000),
   ("PROB_READ", 0x1000000000000000, 0xFFF00000FFFFFFFF),
   ("REG_READ", 0x1400000000000000, 0xFFF00000FFFFFFFF),
   ("ENC_BIT", 0x2000000000000000, 0xFFF0000000000000),
   ("ENC_DIRECT", 0x2400000000000000, 0xFC0FFFFF00000000),
   ("ENC_BT", 0x2800000000000000, 0xFC00000000000000),
   ("ENC_RBT", 0x2C00000000000000, 0xFC00000000000000),
   ("ENC_FLUSH", 0x3000000000000000, 0xFFFFFFFFFFFFFFFF),
   ("DEC_BIT", 0x4000000000000000, 0xFFF00000FFFFFFFF),
   ("DEC_DIRECT", 0x4400000000000000, 0xFC0FFFFFFFFFFFFF),
   ("DEC_BT", 0x4800000000000000, 0xFC000000FFFFFFFF),
   ("DEC_RBT", 0x4C00000000000000, 0xFC000000FFFFFFFF),
   ("PRICE_BIT", 0x6000000000000000, 0xFFF0000000000000),
   ("PRICE_DIRECT", 0x6400000000000000, 0xFC0FFFFFFFFFFFFF),
   ("PRICE_BT", 0x6800000000000000, 0xFC00000000000000),
   ("PRICE_RBT", 0x6C00000000000000, 0xFC00000000000000)]

/-- The encoder commands, which need MODE = ENC (`30_encoding.md` R125). -/
def needsEnc : Instr → Bool
  | .encBit _ _ | .encDirect _ _ | .encBt _ _ _ | .encRbt _ _ _ | .encFlush => true
  | .nop | .encInit | .decInit | .probInit _ _ | .probRead _ | .regRead _ => false
  | .decBit _ | .decDirect _ | .decBt _ _ | .decRbt _ _ => false
  | .priceBit _ _ | .priceDirect _ | .priceBt _ _ _ | .priceRbt _ _ _ => false

/-- The decoder commands, which need MODE = DEC (`30_encoding.md` R125). -/
def needsDec : Instr → Bool
  | .decBit _ | .decDirect _ | .decBt _ _ | .decRbt _ _ => true
  | .nop | .encInit | .decInit | .probInit _ _ | .probRead _ | .regRead _ => false
  | .encBit _ _ | .encDirect _ _ | .encBt _ _ _ | .encRbt _ _ _ | .encFlush => false
  | .priceBit _ _ | .priceDirect _ | .priceBt _ _ _ | .priceRbt _ _ _ => false

/-- The command runs in the block's MODE (R125). -/
def ModeFits (i : Instr) (s : State) : Prop :=
  (needsEnc i = true → s.mode = .enc) ∧ (needsDec i = true → s.mode = .dec)

/-- The addresses `a .. a + n - 1` of P a command names, as (a, n) (`30_encoding.md` R127). -/
def namedSpan : Instr → Option (Nat × Nat)
  | .probInit a c => some (a.toNat, c.toNat)
  | .probRead a => some (a.toNat, 1)
  | .encBit a _ => some (a.toNat, 1)
  | .decBit a => some (a.toNat, 1)
  | .priceBit a _ => some (a.toNat, 1)
  | .encBt b d _ => some (b.toNat + 1, 2 ^ d.toNat - 1)
  | .encRbt b d _ => some (b.toNat + 1, 2 ^ d.toNat - 1)
  | .decBt b d => some (b.toNat + 1, 2 ^ d.toNat - 1)
  | .decRbt b d => some (b.toNat + 1, 2 ^ d.toNat - 1)
  | .priceBt b d _ => some (b.toNat + 1, 2 ^ d.toNat - 1)
  | .priceRbt b d _ => some (b.toNat + 1, 2 ^ d.toNat - 1)
  | .nop | .encInit | .decInit | .regRead _ | .encDirect _ _ | .encFlush => none
  | .decDirect _ | .priceDirect _ => none

/-- PROB_INIT writes its span and reads none of it; every other command with a span reads it. -/
def readsSpan : Instr → Bool
  | .probInit _ _ => false
  | .nop | .encInit | .decInit | .regRead _ | .encDirect _ _ | .encFlush => false
  | .decDirect _ | .priceDirect _ => false
  | .probRead _ | .encBit _ _ | .decBit _ | .priceBit _ _ => true
  | .encBt _ _ _ | .encRbt _ _ _ | .decBt _ _ | .decRbt _ _ => true
  | .priceBt _ _ _ | .priceRbt _ _ _ => true

/-- The addresses of P a command may write: its run (PROB_INIT), its context, the nodes of its symbol's
walk (the encoder's trees), or, since the walk depends on the stream, its tree (the decoder's). -/
def mayWriteProb : Instr → Nat → Prop
  | .probInit a c, x => a.toNat ≤ x ∧ x < a.toNat + c.toNat
  | .encBit a _, x => x = a.toNat
  | .decBit a, x => x = a.toNat
  | .encBt b d v, x => ∃ e ∈ treePath 1 (msbFirst d.toNat v), x = b.toNat + e.1
  | .encRbt b d v, x => ∃ e ∈ treePath 1 (lsbFirst d.toNat v), x = b.toNat + e.1
  | .decBt b d, x => b.toNat + 1 ≤ x ∧ x < b.toNat + 2 ^ d.toNat
  | .decRbt b d, x => b.toNat + 1 ≤ x ∧ x < b.toNat + 2 ^ d.toNat
  | .nop, _ | .encInit, _ | .decInit, _ | .probRead _, _ | .regRead _, _ => False
  | .encDirect _ _, _ | .encFlush, _ | .decDirect _, _ => False
  | .priceBit _ _, _ | .priceDirect _, _ | .priceBt _ _ _, _ | .priceRbt _ _ _, _ => False

/-- The commands that write RES (`10_state.md` R46). -/
def writesRes : Instr → Bool
  | .probRead _ | .regRead _ | .decBit _ | .decDirect _ | .decBt _ _ | .decRbt _ _ => true
  | .priceBit _ _ | .priceDirect _ | .priceBt _ _ _ | .priceRbt _ _ _ => true
  | .nop | .encInit | .decInit | .probInit _ _ | .encFlush => false
  | .encBit _ _ | .encDirect _ _ | .encBt _ _ _ | .encRbt _ _ _ => false

/-- The decoder command that mirrors a coding command of the encoder (`70_reset_and_hazards.md` R390). -/
def counterpart : Instr → Option Instr
  | .encBit a _ => some (.decBit a)
  | .encDirect n _ => some (.decDirect n)
  | .encBt b d _ => some (.decBt b d)
  | .encRbt b d _ => some (.decRbt b d)
  | .nop | .encInit | .decInit | .probInit _ _ | .probRead _ | .regRead _ | .encFlush => none
  | .decBit _ | .decDirect _ | .decBt _ _ | .decRbt _ _ => none
  | .priceBit _ _ | .priceDirect _ | .priceBt _ _ _ | .priceRbt _ _ _ => none

/-- The bit, value or symbol an encoder's coding command codes. -/
def codedValue : Instr → U32
  | .encBit _ b => b
  | .encDirect _ v => v
  | .encBt _ _ v => v
  | .encRbt _ _ v => v
  | .nop | .encInit | .decInit | .probInit _ _ | .probRead _ | .regRead _ | .encFlush => 0
  | .decBit _ | .decDirect _ | .decBt _ _ | .decRbt _ _ => 0
  | .priceBit _ _ | .priceDirect _ | .priceBt _ _ _ | .priceRbt _ _ _ => 0

/-! ### Sequences of commands -/

/-- Commands one after the other, each run to its completion; none if one does not complete. -/
def runAll : List Instr → State → Option State
  | [], s => some s
  | i :: is, s =>
    match exec i s with
    | .next t => if t.faulted = false ∧ t.wait = none then runAll is t else none
    | .fault _ => none
    | .refused _ => none

/-- As `runAll`, with the value RES holds after each command. -/
def runResults : List Instr → State → Option (List U32 × State)
  | [], s => some ([], s)
  | i :: is, s =>
    match exec i s with
    | .next t =>
      if t.faulted = false ∧ t.wait = none then
        (runResults is t).map fun r => (t.res :: r.1, r.2)
      else none
    | .fault _ => none
    | .refused _ => none

end Sys2Proof.Machine
end

