-- ==== Sys2Proof/Certificates/Slice0/Obligations.lean ====
section
/-! DEFINITION. The statements for the provers, from the numbered rules of spec/. Each docstring names the
rules its statement rests on; OBLIGATIONS.json lists them. -/

open Sys2Proof Sys2Proof.Machine

/-! ### Words and commands -/

/-- `30_encoding.md` R120, R121: a word is the sum of its fields at their places, and each field is read
back as it was put in. -/
def Obligations.FormatCFieldsAddUp : Prop :=
  ∀ (op : BitVec 6) (n : CountField) (a : AddrField) (v : U32),
    (packWord op n a v).toNat = op.toNat * 2 ^ 58 + n.toNat * 2 ^ 52 + a.toNat * 2 ^ 32 + v.toNat
    ∧ opField (packWord op n a v) = op ∧ countField (packWord op n a v) = n
    ∧ addrField (packWord op n a v) = a ∧ valField (packWord op n a v) = v

/-- `30_encoding.md` R125: every command, with every operand its fields can hold, is read back from its
word. -/
def Obligations.EncodeThenDecodeGivesCommand : Prop :=
  ∀ i : Instr, decode (encode i) = .command i

/-- `30_encoding.md` R123, R128: a word that decodes to a command is that command's only word. -/
def Obligations.DecodeThenEncodeGivesWord : Prop :=
  ∀ (w : Word) (i : Instr), decode w = .command i → encode i = w

/-- `30_encoding.md` R125, R128: a word is a command exactly when it matches a row of the opcode table, and
then it is that row's. -/
def Obligations.DecodeMatchesOpcodeTable : Prop :=
  (∀ (w : Word) (i : Instr), decode w = .command i →
    ∃ row ∈ opcodeRows, row.1 = mnemonicOf i ∧ w &&& row.2.2 = row.2.1)
  ∧ ∀ (w : Word), ∀ row ∈ opcodeRows, w &&& row.2.2 = row.2.1 →
    ∃ i, decode w = .command i ∧ mnemonicOf i = row.1

/-- `30_encoding.md` R134 and the encodings of `40_control.md` to `43_price.md`: the spec's example words. -/
def Obligations.SpecExampleWordsDecode : Prop :=
  decode 0x0000000000000000 = .command .nop
  ∧ decode 0x0400000000000000 = .command .encInit
  ∧ decode 0x0800000000000000 = .command .decInit
  ∧ decode 0x0C00000000000040 = .command (.probInit 0 64)
  ∧ decode 0x1000000500000000 = .command (.probRead 5)
  ∧ decode 0x1400000100000000 = .command (.regRead 1)
  ∧ decode 0x2000000500000001 = .command (.encBit 5 1)
  ∧ decode 0x244000000000000A = .command (.encDirect 4 0xA)
  ∧ decode 0x2830001000000005 = .command (.encBt 16 3 5)
  ∧ decode 0x2C40002000000006 = .command (.encRbt 32 4 6)
  ∧ decode 0x3000000000000000 = .command .encFlush
  ∧ decode 0x4830001000000000 = .command (.decBt 16 3)
  ∧ decode 0x65A0000000000000 = .command (.priceDirect 26)
  ∧ decode 0x6C40002000000006 = .command (.priceRbt 32 4 6)

/-! ### The step -/

/-- `10_state.md` R41, R56, R58; `60_exceptions.md` R342: between commands the step takes the next word
presented and runs its command; while a command waits it resumes that one and takes no word; with no word
presented it changes nothing (one command, one step up to a wait: the model's reading, log entry 2). The
word leaves the port; nothing else is done around `exec`. -/
def Obligations.StepRunsPresentedCommand : Prop :=
  (∀ (s : State) (w : Word) (rest : List Word) (i : Instr),
    s.resetIn = false → Accepts s → s.cmdIn = w :: rest → decode w = .command i →
      step s = exec i { s with cmdIn := rest })
  ∧ (∀ (s : State) (w : Wait), s.resetIn = false → s.wait = some w → step s = resume w s)
  ∧ (∀ s : State, s.resetIn = false → s.wait = none → s.cmdIn = [] → step s = .next s)

/-- `10_state.md` R52, `30_encoding.md` R128: STATUS has MODE in 7:6, FAULT_CODE in 5:2, FAULTED in 1 and BUSY
in 0, in every state; an illegal word raises ILLEGAL_COMMAND with the whole word in FAULT_INFO and changes
no other state. -/
def Obligations.IllegalWordIsPreciseFault : Prop :=
  (∀ s : State, (statusReg s).toNat =
    (match s.mode with | .idle => 0 | .enc => 1 | .dec => 2) * 2 ^ 6 + s.faultCode.toNat * 2 ^ 2
      + (if s.faulted then 1 else 0) * 2 + (if s.wait = none then 0 else 1))
  ∧ ∀ (s : State) (w : Word) (rest : List Word) (r : Reject),
    s.resetIn = false → Accepts s → s.cmdIn = w :: rest → decode w = .illegal r →
      step s = .next (faultedWith 1 w { s with cmdIn := rest })

/-- `60_exceptions.md` R342: with FAULTED = 1 a taken word is discarded, whatever it is. -/
def Obligations.FaultedBlockDiscardsWords : Prop :=
  ∀ (s : State) (w : Word) (rest : List Word),
    s.resetIn = false → s.faulted = true → s.wait = none → s.cmdIn = w :: rest →
      step s = .next { s with cmdIn := rest, csp := s.csp + 1 }

/-- `60_exceptions.md` R344: no number of steps without a reset clears a fault, overwrites it, or changes
a register, P or a byte stream. -/
def Obligations.FaultLastsUntilReset : Prop :=
  ∀ (n : Nat) (s t : State), s.resetIn = false → s.faulted = true → s.wait = none →
    core.run n s = .next t →
      t = { s with csp := t.csp, cmdIn := t.cmdIn } ∧ t.cmdIn = s.cmdIn.drop n
      ∧ t.csp = s.csp + (s.cmdIn.length - t.cmdIn.length)

/-- `70_reset_and_hazards.md` R380, R381: whatever the state, reset leaves every register at 0, every word
of P undefined, no command in flight and CSP 0; what the host presents and offers, and the bytes already
consumed or taken, stay (the ports as data, and that no byte moves at the instant of a reset: the model's
choice, log entries 4 and 5). -/
def Obligations.ResetLeavesResetState : Prop :=
  ∀ s : State, s.resetIn = true → ∃ t, step s = .next t
    ∧ t.mode = .idle ∧ t.range = 0 ∧ t.low = 0 ∧ t.cache = 0 ∧ t.cacheSize = 0 ∧ t.code = 0
    ∧ t.outCount = 0 ∧ t.inCount = 0 ∧ t.res = 0 ∧ statusReg t = 0 ∧ t.faultInfo = 0
    ∧ t.wait = none ∧ (∀ a, memRead t.prob a = none) ∧ t.csp = 0
    ∧ t.probWords = s.probWords ∧ t.cmdIn = s.cmdIn ∧ t.byteIn = s.byteIn ∧ t.eos = s.eos
    ∧ t.consumed = s.consumed ∧ t.sinkRoom = s.sinkRoom ∧ t.sent = s.sent ∧ t.resetIn = true

/-- The invariant holds after reset for every legal PROB_WORDS, the one `State.reset` fixes among them
(that value is the model's, log entry 1). -/
def Obligations.ResetStateMeetsInvariant : Prop :=
  (∀ n, 1 ≤ n → n ≤ 2 ^ 20 → Inv (State.resetOf n)) ∧ Inv State.reset

/-- `41_range_coder.md` R240 to R244: from every state that meets the invariant, reachable or not, a step
leads to one that meets it, for any bytes offered and any behaviour of the sink. -/
def Obligations.EveryStepKeepsInvariant : Prop :=
  ∀ s t : State, Inv s → step s = .next t → Inv t

/-- `41_range_coder.md` R245, R247: under the invariant no step gets stuck: no renormalization loops
forever, ShiftLow never counts below 0, and no price index leaves the ROM (the model's own stops, log
entries 6, 7 and 8). -/
def Obligations.NoStepGetsStuck : Prop :=
  ∀ s : State, Inv s → ∃ t, step s = .next t

/-- `60_exceptions.md` R360, `10_state.md` R56: the host's moves keep the invariant, and each writes its own
port only: no register, no word of P, no fault. That the host may replace what its byte-in port offers, and
release EOS with it, is the model's choice (log entry 12). -/
def Obligations.HostMovesKeepInvariant : Prop :=
  (∀ (m : HostMove) (s : State), Inv s → Inv (hostMove m s))
  ∧ ∀ s : State,
    (∀ w, hostMove (.present w) s = { s with cmdIn := s.cmdIn ++ [w] })
    ∧ (∀ bs, hostMove (.offer bs) s = { s with byteIn := s.byteIn ++ bs })
    ∧ hostMove .endInput s = { s with eos := true }
    ∧ (∀ bs, hostMove (.newInput bs) s = { s with byteIn := bs, eos := false })
    ∧ (∀ room, hostMove (.sinkRoom room) s = { s with sinkRoom := room })
    ∧ ∀ level, hostMove (.resetLevel level) s = { s with resetIn := level }

/-- `20_memory.md` R83, R84: while the port a command waits at does not serve it, a step changes nothing
and BUSY stays 1. -/
def Obligations.WaitingStepChangesNothing : Prop :=
  ∀ (s : State) (w : Wait), Inv s → s.resetIn = false → s.wait = some w →
    (s.mode = .enc → s.sinkRoom = some 0 ∧ s.outCount ≠ 0xFFFFFFFFFFFFFFFF) →
    (s.mode = .dec → s.byteIn = [] ∧ s.eos = false) →
      step s = .next s ∧ (statusReg s).getLsbD 0 = true

/-- `70_reset_and_hazards.md` R396, `10_state.md` R58: stopping at a port and going on later comes to the
same as finding the port ready: for the sink's room, and for the bytes offered. -/
def Obligations.StallIsTransparent : Prop :=
  (∀ (i : Instr) (s t : State) (w : Wait) (k m : Nat), Inv s → Accepts s → s.mode = .enc →
    exec i { s with sinkRoom := some k } = .next t → t.wait = some w → t.mode = .enc →
      resume w { t with sinkRoom := some m } = exec i { s with sinkRoom := some (k + m) })
  ∧ ∀ (i : Instr) (s t : State) (w : Wait) (later : List Byte) (e : Bool), Inv s → Accepts s →
    exec i { s with eos := false } = .next t → t.wait = some w → t.mode = .dec →
      resume w { t with byteIn := later, eos := e }
        = exec i { s with byteIn := s.byteIn ++ later, eos := e }

/-- `10_state.md` R41, `60_exceptions.md` R342: every word taken, whether a command, an illegal word or one
discarded, advances CSP by exactly 1 when it completes, faults or is discarded, at once or after a wait, and
not while its command waits (one command, one step up to a wait: the model's reading, log entry 2). -/
def Obligations.EveryTakenWordAdvancesCspOnce : Prop :=
  (∀ (s t : State), s.resetIn = false → s.wait = none → s.cmdIn ≠ [] → step s = .next t →
    t.cmdIn = s.cmdIn.tail
    ∧ ((t.wait = none ∧ t.csp = s.csp + 1) ∨ (t.wait.isSome = true ∧ t.csp = s.csp)))
  ∧ (∀ (i : Instr) (s t : State), exec i s = .next t →
    (t.wait = none ∧ t.csp = s.csp + 1) ∨ (t.wait.isSome = true ∧ t.csp = s.csp))
  ∧ ∀ (w : Wait) (s t : State), resume w s = .next t →
    (t.wait = none ∧ t.csp = s.csp + 1) ∨ (t.wait.isSome = true ∧ t.csp = s.csp)

/-! ### What a command leaves unchanged -/

/-- `10_state.md` R43, `60_exceptions.md` R340, R343: ENC_INIT writes ENC, DEC_INIT writes DEC, ENC_FLUSH
writes IDLE when it completes, at once or after a wait, and leaves MODE when it faults or waits; no other
command changes MODE. -/
def Obligations.ModeChangesOnlyByThreeCommands : Prop :=
  (∀ (i : Instr) (s t : State), exec i s = .next t →
    (i = .encInit → t.mode = .enc) ∧ (i = .decInit → t.mode = .dec)
    ∧ (i = .encFlush → t.faulted = false → t.wait = none → t.mode = .idle)
    ∧ (i = .encFlush → s.faulted = false → t.faulted = true ∨ t.wait ≠ none → t.mode = s.mode)
    ∧ (i ≠ .encInit → i ≠ .decInit → i ≠ .encFlush → t.mode = s.mode))
  ∧ (∀ (w : Wait) (s t : State), resume w s = .next t → (∀ ops, w = .enc ops → EncOp.close ∉ ops) →
    t.mode = s.mode)
  ∧ ∀ (ops : List EncOp) (s t : State), EncOp.close ∉ ops → s.faulted = false →
    resume (.enc (ops ++ [.close])) s = .next t →
      (t.faulted = false → t.wait = none → t.mode = .idle)
      ∧ (t.faulted = true ∨ t.wait ≠ none → t.mode = s.mode)

/-- `20_memory.md` R82: only PROB_INIT, EncBit and DecBit write P. Every word outside the ones a command
names or walks reads as before; a command that writes none leaves P as it is. -/
def Obligations.ProbChangesOnlyWhereNamed : Prop :=
  ∀ (i : Instr) (s t : State), exec i s = .next t →
    (∀ x, ¬ mayWriteProb i x → memRead t.prob x = memRead s.prob x)
    ∧ (s.prob.wf → (∀ x, ¬ mayWriteProb i x) → t.prob = s.prob)

/-- `10_state.md` R46, `60_exceptions.md` R343 (decision D38): only the ten result commands write RES, and
only when they complete. -/
def Obligations.ResultChangesOnlyOnCompletion : Prop :=
  ∀ (i : Instr) (s t : State), s.faulted = false → exec i s = .next t →
    (writesRes i = false ∨ t.faulted = true ∨ t.wait ≠ none) → t.res = s.res

/-- `20_memory.md` R84, R93; `10_state.md` R50: a command only adds bytes to the sink's, and OUT_COUNT
counts them (from 0 for ENC_INIT); the sink's room shrinks by as many. -/
def Obligations.BytesLeaveInOrder : Prop :=
  ∀ (i : Instr) (s t : State), exec i s = .next t → ∃ bs : List Byte,
    t.sent = s.sent ++ bs
    ∧ t.outCount.toNat = (if i = .encInit then 0 else s.outCount.toNat) + bs.length
    ∧ (∀ room, s.sinkRoom = some room → bs.length ≤ room)
    ∧ t.sinkRoom = s.sinkRoom.map (fun room => room - bs.length)

/-- `20_memory.md` R83, R93; `10_state.md` R51: a command only takes bytes from the front of those offered,
each once, and IN_COUNT counts them (from 0 for DEC_INIT). -/
def Obligations.BytesEnterInOrder : Prop :=
  ∀ (i : Instr) (s t : State), exec i s = .next t → ∃ bs : List Byte,
    s.byteIn = bs ++ t.byteIn ∧ t.consumed = s.consumed ++ bs
    ∧ t.inCount.toNat = (if i = .decInit then 0 else s.inCount.toNat) + bs.length

/-- `41_range_coder.md` R210, R220, R230, `42_bit_tree.md` R265, R275: what ENC_BIT, ENC_DIRECT, ENC_BT,
ENC_RBT and ENC_FLUSH leave unchanged in every next state. MODE is ENC_FLUSH's to write; P is
ProbChangesOnlyWhereNamed's. -/
def Obligations.EncoderCommandFrame : Prop :=
  ∀ (i : Instr) (s t : State), needsEnc i = true → exec i s = .next t →
    t.code = s.code ∧ t.inCount = s.inCount ∧ t.res = s.res ∧ t.byteIn = s.byteIn
    ∧ t.consumed = s.consumed ∧ t.eos = s.eos ∧ t.cmdIn = s.cmdIn ∧ t.probWords = s.probWords
    ∧ t.resetIn = s.resetIn ∧ (i = .encFlush → t.range = s.range)
    ∧ (((∃ n v, i = .encDirect n v) ∨ i = .encFlush) → t.prob = s.prob)
    ∧ ((t.faulted = s.faulted ∧ t.faultCode = s.faultCode ∧ t.faultInfo = s.faultInfo)
        ∨ (t.faulted = true ∧ 2 ≤ t.faultCode.toNat ∧ t.faultCode.toNat ≤ 8))

/-- `41_range_coder.md` R215, R225, `42_bit_tree.md` R270, R280: what DEC_BIT, DEC_DIRECT, DEC_BT and DEC_RBT
leave unchanged in every next state. -/
def Obligations.DecoderCommandFrame : Prop :=
  ∀ (i : Instr) (s t : State), needsDec i = true → exec i s = .next t →
    t.mode = s.mode ∧ t.low = s.low ∧ t.cache = s.cache ∧ t.cacheSize = s.cacheSize
    ∧ t.outCount = s.outCount ∧ t.sent = s.sent ∧ t.sinkRoom = s.sinkRoom ∧ t.eos = s.eos
    ∧ t.cmdIn = s.cmdIn ∧ t.probWords = s.probWords ∧ t.resetIn = s.resetIn
    ∧ ((∃ n, i = .decDirect n) → t.prob = s.prob)
    ∧ ((t.faulted = s.faulted ∧ t.faultCode = s.faultCode ∧ t.faultInfo = s.faultInfo)
        ∨ (t.faulted = true ∧ 2 ≤ t.faultCode.toNat ∧ t.faultCode.toNat ≤ 8))

/-- `43_price.md` R300, `40_control.md` R160, R173, R176: NOP, PROB_READ, REG_READ and the price commands
change nothing but RES, the fault registers and CSP, and never wait. -/
def Obligations.ObserverCommandFrame : Prop :=
  ∀ (i : Instr) (s t : State), needsEnc i = false → needsDec i = false →
    i ≠ .encInit → i ≠ .decInit → (∀ a c, i ≠ .probInit a c) → exec i s = .next t →
      t = { s with
        res := t.res, faulted := t.faulted, faultCode := t.faultCode, faultInfo := t.faultInfo,
        wait := none, csp := s.csp + 1 }
      ∧ (i = .nop → t.res = s.res)
      ∧ ((t.faulted = s.faulted ∧ t.faultCode = s.faultCode ∧ t.faultInfo = s.faultInfo)
          ∨ (t.faulted = true ∧ t.res = s.res))

/-- `40_control.md` R162, R165, R170: what ENC_INIT, DEC_INIT and PROB_INIT leave unchanged in every next
state. -/
def Obligations.InitCommandFrame : Prop :=
  (∀ s t : State, exec .encInit s = .next t →
    t = { s with mode := t.mode, low := t.low, range := t.range, cache := t.cache,
                 cacheSize := t.cacheSize, outCount := t.outCount, wait := none, csp := s.csp + 1 })
  ∧ (∀ s t : State, exec .decInit s = .next t →
    t = { s with mode := t.mode, range := t.range, code := t.code, inCount := t.inCount,
                 byteIn := t.byteIn, consumed := t.consumed, faulted := t.faulted,
                 faultCode := t.faultCode, faultInfo := t.faultInfo, wait := t.wait, csp := t.csp })
  ∧ ∀ (a : AddrField) (c : U32) (s t : State), exec (.probInit a c) s = .next t →
    t = { s with prob := t.prob, faulted := t.faulted, faultCode := t.faultCode,
                 faultInfo := t.faultInfo, wait := none, csp := s.csp + 1 }

/-! ### The checks -/

/-- `60_exceptions.md` R341, R342; `42_bit_tree.md` R261: the checks come in one order, mode, operand,
address, definedness; the first that fails is reported, with the command word, or the lowest address that
fails, in FAULT_INFO; and it is the command's whole effect. -/
def Obligations.FailingCheckIsWholeEffect : Prop :=
  ∀ (i : Instr) (s : State),
    (¬ ModeFits i s → exec i s = .next (faultedWith 2 (encode i) s))
    ∧ (ModeFits i s → i.wellFormed = false → exec i s = .next (faultedWith 3 (encode i) s))
    ∧ (∀ a n, ModeFits i s → i.wellFormed = true → namedSpan i = some (a, n) → s.probWords < a + n →
        exec i s = .next (faultedWith 4 (BitVec.ofNat 64 (max a s.probWords)) s))
    ∧ ∀ a n x, ModeFits i s → i.wellFormed = true → namedSpan i = some (a, n) → readsSpan i = true →
        a + n ≤ s.probWords → s.prob.wf → a ≤ x → x < a + n → memRead s.prob x = none →
        (∀ y, a ≤ y → y < x → (memRead s.prob y).isSome = true) →
          exec i s = .next (faultedWith 5 (BitVec.ofNat 64 x) s)

/-! ### The byte ports and the probability memory -/

/-- `20_memory.md` R83: the four outcomes of ReadByte; a command that stalls there changes nothing but
BUSY, which is 1. -/
def Obligations.ReadByteHandshake : Prop :=
  ∀ (s : State),
    (∀ b rest, s.byteIn = b :: rest → s.inCount ≠ 0xFFFFFFFFFFFFFFFF →
      readByte s = .ok b { s with
        byteIn := rest, consumed := s.consumed ++ [b], inCount := s.inCount + 1 })
    ∧ (∀ b rest, s.byteIn = b :: rest → s.inCount = 0xFFFFFFFFFFFFFFFF →
      readByte s = .raise .counterOverflow 1 s)
    ∧ (s.byteIn = [] → s.eos = true → readByte s = .raise .truncatedInput s.inCount s)
    ∧ (s.byteIn = [] → s.eos = false → readByte s = .stall () s)
    ∧ ∀ w, ∃ t, stallAt w s = .next t ∧ t = { s with wait := t.wait } ∧ (statusReg t).getLsbD 0 = true

/-- `20_memory.md` R84: the three outcomes of WriteByte; the overflow check comes before the sink's
readiness; a command that stalls there changes nothing but BUSY, which is 1. -/
def Obligations.WriteByteHandshake : Prop :=
  ∀ (s : State) (b : Byte),
    (s.outCount = 0xFFFFFFFFFFFFFFFF → writeByte b s = .raise .counterOverflow 0 s)
    ∧ (s.outCount ≠ 0xFFFFFFFFFFFFFFFF → s.sinkRoom ≠ some 0 →
      writeByte b s = .ok () { s with
        sent := s.sent ++ [b], outCount := s.outCount + 1,
        sinkRoom := s.sinkRoom.map (fun room => room - 1) })
    ∧ (s.outCount ≠ 0xFFFFFFFFFFFFFFFF → s.sinkRoom = some 0 → writeByte b s = .stall () s)
    ∧ ∀ w, ∃ t, stallAt w s = .next t ∧ t = { s with wait := t.wait } ∧ (statusReg t).getLsbD 0 = true

/-- `20_memory.md` R81, R82: a defined word in range reads as its value, any other address is a fault and
never a value; a write makes its word read as written and leaves every other address as it was. -/
def Obligations.ProbWordAccess : Prop :=
  ∀ (s : State) (a : Nat),
    (s.probWords ≤ a → readProb a s = .error (.probAddrRange, BitVec.ofNat 64 a))
    ∧ (a < s.probWords → memRead s.prob a = none →
        readProb a s = .error (.uninitProb, BitVec.ofNat 64 a))
    ∧ (∀ p, a < s.probWords → memRead s.prob a = some p → readProb a s = .ok p)
    ∧ ∀ v, a < s.probWords → readProb a (writeProb a v s) = .ok v
        ∧ ∀ x, x ≠ a → readProb x (writeProb a v s) = readProb x s

/-! ### The coding steps -/

/-- `41_range_coder.md` R203: the update is the two formulas, exactly, and keeps [31, 2017]. -/
def Obligations.UpdateFollowsFormulaInRange : Prop :=
  ∀ p : Prob,
    (updateProb p false).toNat = p.toNat + ((2048 - p.toNat) >>> 5)
    ∧ (updateProb p true).toNat = p.toNat - (p.toNat >>> 5)
    ∧ (31 ≤ p.toNat → p.toNat ≤ 2017 → ∀ b,
        31 ≤ (updateProb p b).toNat ∧ (updateProb p b).toNat ≤ 2017)

/-- `41_range_coder.md` R204, R208, R209: the bound, that it lies strictly inside the range, and that the 0
sub-interval is the lower one, for the encoder and the decoder. In a state where LOW + bound or CODE - bound
would leave its width, which no run reaches, it wraps: the model's choice (log entry 11). -/
def Obligations.SplitDividesRange : Prop :=
  (∀ (r : U32) (p : Prob), (boundOf r p).toNat = (r.toNat >>> 11) * p.toNat
    ∧ (2 ^ 24 ≤ r.toNat → 1 ≤ p.toNat → 0 < (boundOf r p).toNat ∧ (boundOf r p).toNat < r.toNat))
  ∧ ∀ (p : Prob) (s : State),
    splitEnc p false s = { s with range := boundOf s.range p }
    ∧ splitEnc p true s = { s with
        low := s.low + (boundOf s.range p).setWidth 33, range := s.range - boundOf s.range p }
    ∧ (decodedBit p s = true ↔ (boundOf s.range p).toNat ≤ s.code.toNat)
    ∧ splitDec p false s = { s with range := boundOf s.range p }
    ∧ splitDec p true s = { s with
        code := s.code - boundOf s.range p, range := s.range - boundOf s.range p }

/-- `41_range_coder.md` R205, R243, `60_exceptions.md` R343: with a sink that takes what it sends, ShiftLow sends
CACHE and the 0xFF bytes behind it, each plus the carry, or counts one more, and OUT_COUNT + CACHE_SIZE grows
by exactly 1; or it is stopped at a counter's end, what it sent before that being kept. -/
def Obligations.ShiftLowSendsPending : Prop :=
  ∀ s : State, 1 ≤ s.cacheSize.toNat →
    (shiftOverflow s = none → SinkFits s (shiftedOut s) →
      shiftLow s = .ok () (shiftedOut s)
      ∧ (shiftedOut s).outCount.toNat + (shiftedOut s).cacheSize.toNat
        = s.outCount.toNat + s.cacheSize.toNat + 1)
    ∧ ∀ d u, shiftOverflow s = some (d, u) → SinkFits s u → shiftLow s = .raise .counterOverflow d u

/-- `41_range_coder.md` R245: from a RANGE of at least 2^16, which every split of a reachable state leaves,
the loops of NormEnc and NormDec and the single-step `if` are the same. -/
def Obligations.RenormalizationIsOneStep : Prop :=
  ∀ s : State, 2 ^ 16 ≤ s.range.toNat →
    normEnc renormTurns s =
      (if s.range.toNat < 2 ^ 24 then
        match shiftLow { s with range := s.range <<< 8 } with
        | .ok _ s' => .ok () s'
        | .stall left s' => .stall (left ++ [.norm]) s'
        | .raise c info s' => .raise c info s'
        | .stuck f => .stuck f
      else .ok () s)
    ∧ normDec renormTurns s =
      (if s.range.toNat < 2 ^ 24 then
        match readByte s with
        | .ok b s' => .ok () { s' with
            code := (s'.code <<< 8) ||| b.setWidth 32, range := s'.range <<< 8 }
        | .stall _ s' => .stall () s'
        | .raise c info s' => .raise c info s'
        | .stuck f => .stuck f
      else .ok () s)

/-- `41_range_coder.md` R250: from an encoder state between operations, no ShiftLow that a bit's
renormalization does finds a carry over a CACHE of 0xFF, and the state after the bit is such a state again;
neither does ENC_FLUSH's first. -/
def Obligations.CarryNeverOverflowsCache : Prop :=
  ∀ s : State, EncOk s →
    (s.low.toNat ≥ 2 ^ 32 → s.cache.toNat ≤ 0xFE)
    ∧ (∀ (p : Prob) (b : Bool), 31 ≤ p.toNat → p.toNat ≤ 2017 →
        (splitEnc p b s).low.toNat ≥ 2 ^ 32 → (splitEnc p b s).cache.toNat ≤ 0xFE)
    ∧ (∀ b : Bool, (halveEnc b s).low.toNat ≥ 2 ^ 32 → (halveEnc b s).cache.toNat ≤ 0xFE)
    ∧ (∀ (a : Nat) (p : Prob) (b : Bool), memRead s.prob a = some p → 31 ≤ p.toNat → p.toNat ≤ 2017 →
        renormOverflow (encSplitResult a b s) = none → EncOk (encBitResult a b s))
    ∧ (∀ b : Bool, renormOverflow (encHalveResult b s) = none → EncOk (encDirectResult b s))

/-! ### The control commands -/

/-- `40_control.md` R160. -/
def Obligations.NopCompletesAlone : Prop :=
  decode 0 = .command .nop
  ∧ (∀ w : Word, opField w = 0x00 → w ≠ 0 → decode w = .illegal .unusedField)
  ∧ ∀ s : State, exec .nop s = .next (completed s)

/-- `40_control.md` R162. -/
def Obligations.EncInitOpensStream : Prop :=
  decode 0x0400000000000000 = .command .encInit
  ∧ (∀ w : Word, opField w = 0x01 → w ≠ 0x0400000000000000 → decode w = .illegal .unusedField)
  ∧ ∀ s : State, exec .encInit s = .next (completed { s with
      mode := .enc, low := 0, range := 0xFFFFFFFF, cache := 0, cacheSize := 1, outCount := 0 })

/-- `40_control.md` R165, `60_exceptions.md` R343: DEC_INIT with its five bytes offered, which completes or
is CORRUPT_STREAM; and with fewer, which is TRUNCATED_INPUT at EOS, or a wait. -/
def Obligations.DecInitLoadsCode : Prop :=
  decode 0x0800000000000000 = .command .decInit
  ∧ (∀ w : Word, opField w = 0x02 → w ≠ 0x0800000000000000 → decode w = .illegal .unusedField)
  ∧ (∀ (s : State) (b0 b1 b2 b3 b4 : Byte) (rest : List Byte),
      s.byteIn = b0 :: b1 :: b2 :: b3 :: b4 :: rest →
      let u : State := { s with
        mode := .dec, range := 0xFFFFFFFF
        code := BitVec.ofNat 32
          (b1.toNat * 2 ^ 24 + b2.toNat * 2 ^ 16 + b3.toNat * 2 ^ 8 + b4.toNat)
        inCount := 5, byteIn := rest, consumed := s.consumed ++ [b0, b1, b2, b3, b4] }
      (b0 = 0 → u.code ≠ 0xFFFFFFFF → exec .decInit s = .next (completed u))
      ∧ ((b0 ≠ 0 ∨ u.code = 0xFFFFFFFF) → exec .decInit s = .next (faultedWith 7 5 u)))
  ∧ ∀ s : State, s.byteIn.length < 5 →
      let u : State := { s with
        mode := .dec, range := 0xFFFFFFFF
        code := BitVec.ofNat 32 (s.byteIn.foldl (fun c b => c * 2 ^ 8 + b.toNat) 0)
        inCount := BitVec.ofNat 64 s.byteIn.length, byteIn := [], consumed := s.consumed ++ s.byteIn }
      (s.eos = true →
        exec .decInit s = .next (faultedWith 6 (BitVec.ofNat 64 s.byteIn.length) u))
      ∧ (s.eos = false → ∃ w, exec .decInit s = .next { u with wait := some w })

/-- `40_control.md` R170. -/
def Obligations.ProbInitDefinesRun : Prop :=
  (∀ w : Word, opField w = 0x03 → countField w ≠ 0 → decode w = .illegal .unusedField)
  ∧ ∀ (s : State) (a : AddrField) (c : U32),
    (a.toNat + c.toNat ≤ s.probWords → ∃ t, exec (.probInit a c) s = .next t
      ∧ t = completed { s with prob := t.prob }
      ∧ ∀ x, memRead t.prob x
          = (if a.toNat ≤ x ∧ x < a.toNat + c.toNat then some 1024 else memRead s.prob x))
    ∧ (s.probWords < a.toNat + c.toNat →
        exec (.probInit a c) s
          = .next (faultedWith 4 (BitVec.ofNat 64 (max a.toNat s.probWords)) s))

/-- `40_control.md` R173. -/
def Obligations.ProbReadReturnsWord : Prop :=
  (∀ w : Word, opField w = 0x04 → countField w ≠ 0 ∨ valField w ≠ 0 →
    decode w = .illegal .unusedField)
  ∧ ∀ (s : State) (a : AddrField),
    (∀ p, a.toNat < s.probWords → s.prob.wf → memRead s.prob a.toNat = some p →
      exec (.probRead a) s = .next (completed { s with res := BitVec.ofNat 32 p.toNat })
      ∧ (Inv s → 31 ≤ p.toNat ∧ p.toNat ≤ 2017))
    ∧ (s.probWords ≤ a.toNat →
        exec (.probRead a) s = .next (faultedWith 4 (BitVec.ofNat 64 a.toNat) s))
    ∧ (a.toNat < s.probWords → s.prob.wf → memRead s.prob a.toNat = none →
        exec (.probRead a) s = .next (faultedWith 5 (BitVec.ofNat 64 a.toNat) s))

/-- `40_control.md` R176, `10_state.md` R62: every selector's view, and the reserved selectors. -/
def Obligations.RegReadReturnsView : Prop :=
  (∀ w : Word, opField w = 0x05 → countField w ≠ 0 ∨ valField w ≠ 0 →
    decode w = .illegal .unusedField)
  ∧ ∀ s : State,
    exec (.regRead 0) s = .next (completed { s with
      res := match s.mode with | .idle => 0 | .enc => 1 | .dec => 2 })
    ∧ exec (.regRead 1) s = .next (completed { s with res := s.range })
    ∧ exec (.regRead 2) s = .next (completed { s with res := BitVec.ofNat 32 (s.low.toNat % 2 ^ 32) })
    ∧ exec (.regRead 3) s = .next (completed { s with res := BitVec.ofNat 32 (s.low.toNat / 2 ^ 32) })
    ∧ exec (.regRead 4) s = .next (completed { s with res := BitVec.ofNat 32 s.cache.toNat })
    ∧ exec (.regRead 5) s
        = .next (completed { s with res := BitVec.ofNat 32 (s.cacheSize.toNat % 2 ^ 32) })
    ∧ exec (.regRead 6) s
        = .next (completed { s with res := BitVec.ofNat 32 (s.cacheSize.toNat / 2 ^ 32) })
    ∧ exec (.regRead 7) s = .next (completed { s with res := s.code })
    ∧ exec (.regRead 8) s
        = .next (completed { s with res := BitVec.ofNat 32 (s.outCount.toNat % 2 ^ 32) })
    ∧ exec (.regRead 9) s
        = .next (completed { s with res := BitVec.ofNat 32 (s.outCount.toNat / 2 ^ 32) })
    ∧ exec (.regRead 10) s
        = .next (completed { s with res := BitVec.ofNat 32 (s.inCount.toNat % 2 ^ 32) })
    ∧ exec (.regRead 11) s
        = .next (completed { s with res := BitVec.ofNat 32 (s.inCount.toNat / 2 ^ 32) })
    ∧ ∀ sel : AddrField, 12 ≤ sel.toNat →
        exec (.regRead sel) s = .next (faultedWith 3 (encode (.regRead sel)) s)

/-! ### The encoder -/

/-- `41_range_coder.md` R208, R210: ENC_BIT's result, when its word is readable, no counter ends and the sink
takes the bytes it sends, if any. -/
def Obligations.EncBitCodesOneBit : Prop :=
  ∀ (s : State) (a : AddrField) (b : U32), Inv s → Accepts s → s.mode = .enc → b.toNat ≤ 1 →
    SpanDefined a.toNat 1 s →
    let t := encBitResult a.toNat (decide (b = 1)) s
    renormOverflow (encSplitResult a.toNat (decide (b = 1)) s) = none → SinkFits s t →
      exec (.encBit a b) s = .next (completed t)

/-- `41_range_coder.md` R220: ENC_DIRECT's result, bit n - 1 first; every VAL for n = 32, and nothing for
n = 0; when no counter ends and the sink takes the bytes it sends, if any. -/
def Obligations.EncDirectCodesValue : Prop :=
  ∀ (s : State) (n : CountField) (v : U32), Inv s → Accepts s → s.mode = .enc →
    n.toNat ≤ 32 → v.toNat < 2 ^ n.toNat →
    let bits := (List.range n.toNat).reverse.map v.getLsbD
    encDirectsOverflow bits s = none → SinkFits s (encDirectsResult bits s) →
      exec (.encDirect n v) s = .next (completed (encDirectsResult bits s))

/-- `42_bit_tree.md` R260, R265: ENC_BT's result: EncBit at each node of the walk, bit d - 1 first; when no
counter ends and the sink takes the bytes it sends, if any. -/
def Obligations.EncBtWalksForwardTree : Prop :=
  ∀ (s : State) (b : AddrField) (d : CountField) (v : U32), Inv s → Accepts s → s.mode = .enc →
    1 ≤ d.toNat → d.toNat ≤ 16 → v.toNat < 2 ^ d.toNat → TreeDefined b d s →
    let path := treePath 1 ((List.range d.toNat).reverse.map v.getLsbD)
    encWalkOverflow b.toNat path s = none → SinkFits s (encWalkResult b.toNat path s) →
      exec (.encBt b d v) s = .next (completed (encWalkResult b.toNat path s))

/-- `42_bit_tree.md` R260, R275: ENC_RBT's result: EncBit at each node of the walk, bit 0 first; when no
counter ends and the sink takes the bytes it sends, if any. -/
def Obligations.EncRbtWalksReverseTree : Prop :=
  ∀ (s : State) (b : AddrField) (d : CountField) (v : U32), Inv s → Accepts s → s.mode = .enc →
    1 ≤ d.toNat → d.toNat ≤ 16 → v.toNat < 2 ^ d.toNat → TreeDefined b d s →
    let path := treePath 1 ((List.range d.toNat).map v.getLsbD)
    encWalkOverflow b.toNat path s = none → SinkFits s (encWalkResult b.toNat path s) →
      exec (.encRbt b d v) s = .next (completed (encWalkResult b.toNat path s))

/-- `41_range_coder.md` R230, R246; `10_state.md` R50: ENC_FLUSH sends the pending bytes with the carry and
then LOW's four bytes, closes the stream, and gives it the length predicted before it. -/
def Obligations.EncFlushSendsInterval : Prop :=
  ∀ s : State, Inv s → Accepts s → s.mode = .enc → s.outCount.toNat + s.cacheSize.toNat + 4 < 2 ^ 64 →
    (∀ room, s.sinkRoom = some room → s.cacheSize.toNat + 4 ≤ room) →
    let carry := s.low.toNat / 2 ^ 32
    ∃ t, exec .encFlush s = .next t
    ∧ t = completed { s with
        mode := .idle, low := 0, cache := 0, cacheSize := 1
        sent := s.sent ++ BitVec.ofNat 8 (s.cache.toNat + carry)
          :: List.replicate (s.cacheSize.toNat - 1) (BitVec.ofNat 8 (0xFF + carry))
          ++ [BitVec.ofNat 8 (s.low.toNat / 2 ^ 24), BitVec.ofNat 8 (s.low.toNat / 2 ^ 16),
              BitVec.ofNat 8 (s.low.toNat / 2 ^ 8), BitVec.ofNat 8 s.low.toNat]
        outCount := s.outCount + s.cacheSize + 4
        sinkRoom := s.sinkRoom.map (fun room => room - (s.cacheSize.toNat + 4)) }
    ∧ t.outCount.toNat = predictedLength s

/-! ### The decoder -/

/-- `41_range_coder.md` R209, R215: DEC_BIT's result, when its word is readable and NormDec has its byte
if it needs one. -/
def Obligations.DecBitDecodesOneBit : Prop :=
  ∀ (s : State) (a : AddrField), Inv s → Accepts s → s.mode = .dec → SpanDefined a.toNat 1 s →
    inputStop (decSplitResult a.toNat s).2 = none →
      exec (.decBit a) s = .next (completed { (decBitResult a.toNat s).2 with
        res := if (decBitResult a.toNat s).1 then 1 else 0 })

/-- `41_range_coder.md` R225: DEC_DIRECT's result, the first bit decoded most significant, when its halvings
end with every bit decoded. With n bytes offered that IN_COUNT can count, no NormDec is stopped (R245). -/
def Obligations.DecDirectDecodesValue : Prop :=
  ∀ (s u : State) (n : CountField) (bits : List Bool), Inv s → Accepts s → s.mode = .dec → n.toNat ≤ 32 →
    (n.toNat ≤ s.byteIn.length → s.inCount.toNat + n.toNat < 2 ^ 64 →
      ∀ why v, decDirectsResult n.toNat s ≠ .stopped why v)
    ∧ (decDirectsResult n.toNat s = .done bits u →
      exec (.decDirect n) s = .next (completed { u with res := BitVec.ofNat 32 (valueMsb bits) }))

/-- `42_bit_tree.md` R260, R270: DEC_BT's result, the first bit decoded most significant, when every NormDec
that needs a byte has one. With d bytes offered that IN_COUNT can count, every one has, in DEC_RBT's walk too
(R245). -/
def Obligations.DecBtWalksForwardTree : Prop :=
  ∀ (s : State) (b : AddrField) (d : CountField), Inv s → Accepts s → s.mode = .dec →
    1 ≤ d.toNat → d.toNat ≤ 16 → TreeDefined b d s →
    (d.toNat ≤ s.byteIn.length → s.inCount.toNat + d.toNat < 2 ^ 64 →
      decWalkStop b.toNat d.toNat 1 s = none)
    ∧ (decWalkStop b.toNat d.toNat 1 s = none →
      exec (.decBt b d) s = .next (completed { (decWalkResult b.toNat d.toNat 1 s).2 with
        res := BitVec.ofNat 32 (valueMsb (decWalkResult b.toNat d.toNat 1 s).1) }))

/-- `42_bit_tree.md` R260, R280: DEC_RBT's result, the first bit decoded least significant. -/
def Obligations.DecRbtWalksReverseTree : Prop :=
  ∀ (s : State) (b : AddrField) (d : CountField), Inv s → Accepts s → s.mode = .dec →
    1 ≤ d.toNat → d.toNat ≤ 16 → TreeDefined b d s → decWalkStop b.toNat d.toNat 1 s = none →
      exec (.decRbt b d) s = .next (completed { (decWalkResult b.toNat d.toNat 1 s).2 with
        res := BitVec.ofNat 32 (valueLsb (decWalkResult b.toNat d.toNat 1 s).1) })

/-- `60_exceptions.md` R343: a decoder command that runs out of input leaves what it had done: the splits
and updates up to the level that needs the byte, RES unchanged; at EOS it is TRUNCATED_INPUT with IN_COUNT,
else it waits in that state. DEC_DIRECT also stops where a step leaves CODE = RANGE (R225). -/
def Obligations.DecoderStopKeepsPartialState : Prop :=
  ∀ s : State, Inv s → Accepts s → s.mode = .dec →
    let stopsIn := fun (o : Host.Outcome State Fault Refusal) (u : State) =>
      (s.eos = true → o = .next (faultedWith 6 u.inCount u))
      ∧ (s.eos = false → ∃ w, o = .next { u with wait := some w })
    (∀ a : AddrField, SpanDefined a.toNat 1 s → inputStop (decSplitResult a.toNat s).2 = some .exhausted →
      stopsIn (exec (.decBit a) s) (decSplitResult a.toNat s).2)
    ∧ (∀ (b : AddrField) (d : CountField) (u : State), 1 ≤ d.toNat → d.toNat ≤ 16 → TreeDefined b d s →
      decWalkStop b.toNat d.toNat 1 s = some (.exhausted, u) →
        stopsIn (exec (.decBt b d) s) u ∧ stopsIn (exec (.decRbt b d) s) u)
    ∧ (∀ (n : CountField) (u : State), n.toNat ≤ 32 →
      decDirectsResult n.toNat s = .stopped .exhausted u → stopsIn (exec (.decDirect n) s) u)
    ∧ ∀ (n : CountField) (u : State), n.toNat ≤ 32 → decDirectsResult n.toNat s = .corrupt u →
      exec (.decDirect n) s = .next (faultedWith 7 u.inCount u)

/-- `60_exceptions.md` R341, R343: an increment past 2^64 - 1 is COUNTER_OVERFLOW with the counter's datum (0
OUT_COUNT, 1 IN_COUNT, 2 CACHE_SIZE), for every coding command and ENC_FLUSH, wherever in the command it comes,
in the middle of ShiftLow's bytes too. Every byte, split and update before it is kept, and the failing counter
and RES are unchanged. -/
def Obligations.CounterOverflowKeepsPartialState : Prop :=
  (∀ (s : State) (c : U64) (u : State), Inv s → Accepts s → s.mode = .enc → SinkFits s u →
    (∀ (a : AddrField) (b : U32), b.toNat ≤ 1 → SpanDefined a.toNat 1 s →
      renormOverflow (encSplitResult a.toNat (decide (b = 1)) s) = some (c, u) →
        exec (.encBit a b) s = .next (faultedWith 8 c u))
    ∧ (∀ (n : CountField) (v : U32), n.toNat ≤ 32 → v.toNat < 2 ^ n.toNat →
      encDirectsOverflow ((List.range n.toNat).reverse.map v.getLsbD) s = some (c, u) →
        exec (.encDirect n v) s = .next (faultedWith 8 c u))
    ∧ (∀ (b : AddrField) (d : CountField) (v : U32), 1 ≤ d.toNat → d.toNat ≤ 16 → v.toNat < 2 ^ d.toNat →
      TreeDefined b d s →
        (encWalkOverflow b.toNat (treePath 1 ((List.range d.toNat).reverse.map v.getLsbD)) s = some (c, u) →
          exec (.encBt b d v) s = .next (faultedWith 8 c u))
        ∧ (encWalkOverflow b.toNat (treePath 1 ((List.range d.toNat).map v.getLsbD)) s = some (c, u) →
          exec (.encRbt b d v) s = .next (faultedWith 8 c u)))
    ∧ (shiftsOverflow 5 s = some (c, u) → exec .encFlush s = .next (faultedWith 8 c u)))
  ∧ ∀ (s u : State), Inv s → Accepts s → s.mode = .dec →
    (∀ a : AddrField, SpanDefined a.toNat 1 s → inputStop (decSplitResult a.toNat s).2 = some .overflow →
      exec (.decBit a) s = .next (faultedWith 8 1 (decSplitResult a.toNat s).2))
    ∧ (∀ n : CountField, n.toNat ≤ 32 → decDirectsResult n.toNat s = .stopped .overflow u →
      exec (.decDirect n) s = .next (faultedWith 8 1 u))
    ∧ ∀ (b : AddrField) (d : CountField), 1 ≤ d.toNat → d.toNat ≤ 16 → TreeDefined b d s →
      decWalkStop b.toNat d.toNat 1 s = some (.overflow, u) →
        exec (.decBt b d) s = .next (faultedWith 8 1 u) ∧ exec (.decRbt b d) s = .next (faultedWith 8 1 u)

/-! ### The prices -/

/-- `43_price.md` R301: the ROM's 512 words follow the formula. -/
def Obligations.PriceRomFollowsFormula : Prop :=
  priceRom 0 = some 0
  ∧ (∀ i j, i ≤ 8 → 2 ^ (9 - i - 1) ≤ j → j < 2 ^ (9 - i) →
      priceRom j = some (BitVec.ofNat 32 ((i <<< 6) + (((2 ^ (9 - i) - j) <<< 6) >>> (9 - i - 1)))))
  ∧ ∀ j, priceRom j = none ↔ 512 ≤ j

/-- `43_price.md` R303, R304: the table falls from its second entry on and sums to 48640; every index a
probability of [31, 2017] gives is in 7 .. 504 and every price in 2 .. 400; a tree price is at most 6400. -/
def Obligations.PricesStayInBounds : Prop :=
  (∀ i j, 1 ≤ i → i ≤ j → j < 512 → ((priceRom j).getD 0).toNat ≤ ((priceRom i).getD 0).toNat)
  ∧ ((List.range 512).map fun j => ((priceRom j).getD 0).toNat).sum = 48640
  ∧ (∀ (p : Prob) (x : Bool), 31 ≤ p.toNat → p.toNat ≤ 2017 →
      7 ≤ priceIndex p x ∧ priceIndex p x ≤ 504 ∧ 2 ≤ priceOf p.toNat x ∧ priceOf p.toNat x ≤ 400
      ∧ priceRom (priceIndex p x) = some (BitVec.ofNat 32 (priceOf p.toNat x)))
  ∧ ∀ (s : State) (base : Nat) (path : List (Nat × Bool)), path.length ≤ 16 →
      (∀ e ∈ path, ∃ p, memRead s.prob (base + e.1) = some p ∧ 31 ≤ p.toNat ∧ p.toNat ≤ 2017) →
        walkPrice base path s ≤ 6400

/-- `43_price.md` R302, R305: PRICE_BIT in any MODE, and its checks. -/
def Obligations.PriceBitReturnsPrice : Prop :=
  (∀ w : Word, opField w = 0x18 → countField w ≠ 0 → decode w = .illegal .unusedField)
  ∧ ∀ (s : State) (a : AddrField) (x : U32), Inv s →
    (2 ≤ x.toNat → exec (.priceBit a x) s = .next (faultedWith 3 (encode (.priceBit a x)) s))
    ∧ (x.toNat ≤ 1 → s.probWords ≤ a.toNat →
        exec (.priceBit a x) s = .next (faultedWith 4 (BitVec.ofNat 64 a.toNat) s))
    ∧ (x.toNat ≤ 1 → a.toNat < s.probWords → memRead s.prob a.toNat = none →
        exec (.priceBit a x) s = .next (faultedWith 5 (BitVec.ofNat 64 a.toNat) s))
    ∧ ∀ p, x.toNat ≤ 1 → memRead s.prob a.toNat = some p →
        exec (.priceBit a x) s = .next (completed { s with
          res := BitVec.ofNat 32 (priceOf p.toNat (decide (x = 1))) })

/-- `43_price.md` R308: PRICE_DIRECT in any MODE, and its checks. -/
def Obligations.PriceDirectReturnsPrice : Prop :=
  (∀ w : Word, opField w = 0x19 → addrField w ≠ 0 ∨ valField w ≠ 0 →
    decode w = .illegal .unusedField)
  ∧ ∀ (s : State) (n : CountField),
    (n.toNat ≤ 32 →
      exec (.priceDirect n) s = .next (completed { s with res := BitVec.ofNat 32 (n.toNat * 64) }))
    ∧ (33 ≤ n.toNat →
      exec (.priceDirect n) s = .next (faultedWith 3 (encode (.priceDirect n)) s))

/-- `43_price.md` R311, R314: the sums of the prices along the walks of ENC_BT and ENC_RBT, in any MODE. -/
def Obligations.PriceTreesReturnSum : Prop :=
  ∀ (s : State) (b : AddrField) (d : CountField) (v : U32), Inv s →
    1 ≤ d.toNat → d.toNat ≤ 16 → v.toNat < 2 ^ d.toNat → TreeDefined b d s →
      exec (.priceBt b d v) s = .next (completed { s with
        res := BitVec.ofNat 32
          (walkPrice b.toNat (treePath 1 ((List.range d.toNat).reverse.map v.getLsbD)) s) })
      ∧ exec (.priceRbt b d v) s = .next (completed { s with
        res := BitVec.ofNat 32
          (walkPrice b.toNat (treePath 1 ((List.range d.toNat).map v.getLsbD)) s) })

/-! ### Commands together -/

/-- `42_bit_tree.md` R275, R280, `43_price.md` R314: a reverse tree command is the forward one on the
reversed symbol; for the decoder, the reversed result. -/
def Obligations.ReverseTreeIsReversedForwardTree : Prop :=
  ∀ (s : State) (b : AddrField) (d : CountField), 1 ≤ d.toNat → d.toNat ≤ 16 → s.prob.wf →
    TreeDefined b d s →
    (∀ v : U32, v.toNat < 2 ^ d.toNat →
      let r : U32 := BitVec.ofNat 32 (valueLsb ((List.range d.toNat).reverse.map v.getLsbD))
      r.toNat < 2 ^ d.toNat
      ∧ (s.mode = .enc → exec (.encRbt b d v) s = exec (.encBt b d r) s)
      ∧ exec (.priceRbt b d v) s = exec (.priceBt b d r) s)
    ∧ ∀ t, s.mode = .dec → exec (.decBt b d) s = .next t → t.faulted = false → t.wait = none →
      exec (.decRbt b d) s = .next { t with
        res := BitVec.ofNat 32 (valueLsb ((List.range d.toNat).reverse.map t.res.getLsbD)) }

/-- `42_bit_tree.md` R265: ENC_BT leaves what the ENC_BIT commands at the nodes of its walk leave, one
command after the other, but for CSP, which counts them. -/
def Obligations.TreeCodesAsSequenceOfBits : Prop :=
  ∀ (s : State) (b : AddrField) (d : CountField) (v : U32), Inv s → Accepts s → s.mode = .enc →
    1 ≤ d.toNat → d.toNat ≤ 16 → v.toNat < 2 ^ d.toNat → TreeDefined b d s →
    let path := treePath 1 ((List.range d.toNat).reverse.map v.getLsbD)
    encWalkOverflow b.toNat path s = none → SinkFits s (encWalkResult b.toNat path s) →
      ∃ t, runAll (path.map fun e =>
          .encBit (BitVec.ofNat 20 (b.toNat + e.1)) (if e.2 then 1 else 0)) s = some t
      ∧ exec (.encBt b d v) s = .next { t with csp := s.csp + 1 }

/-- `41_range_coder.md` R249, `70_reset_and_hazards.md` R390, R393: a decoder that starts with the same P,
is given exactly the encoder's bytes and runs the counterpart of each coding command returns each value the
encoder coded; the two P memories and RANGEs are the same after each pair; and the decoder consumes exactly
OUT_COUNT bytes and nothing behind them. -/
def Obligations.DecoderStaysInLockstep : Prop :=
  ∀ (s d e : State) (cmds mirror : List Instr) (extra : List Byte),
    Inv s → Accepts s → Inv d → Accepts d → d.prob = s.prob → d.probWords = s.probWords →
    cmds.map counterpart = mirror.map some →
    runAll (.encInit :: cmds ++ [.encFlush]) s = some e →
    d.byteIn = e.sent.drop s.sent.length ++ extra →
      ∃ results t, runResults (.decInit :: mirror) d = some (d.res :: results, t)
      ∧ results = cmds.map codedValue
      ∧ t.byteIn = extra ∧ t.inCount = e.outCount
      ∧ ∀ n, n ≤ cmds.length → ∃ en dn,
          runAll (.encInit :: cmds.take n) s = some en ∧ runAll (.decInit :: mirror.take n) d = some dn
          ∧ en.prob = dn.prob ∧ en.range = dn.range
end

