-- ==== Sys2Proof/Laws/Memory.lean ====
section
/-! SUPPORT. The laws of the probability memory as a store: every operation keeps the canonical form, a
read after a write, a read after a fill, and the first gap of a run. -/

namespace Sys2Proof.Machine

/-! ### Reading -/

@[simp] theorem memRead_nil (a : Nat) : memRead [] a = none := rfl

theorem memRead_cons (k : Nat) (v : Prob) (t : Memory) (a : Nat) :
    memRead ((k, v) :: t) a = if k = a then some v else memRead t a := rfl

theorem memRead_append (m n : Memory) (a : Nat) :
    memRead (m ++ n) a = (memRead m a).or (memRead n a) := by
  induction m with
  | nil => simp
  | cons e t ih =>
    obtain ⟨k, v⟩ := e
    simp only [List.cons_append, memRead_cons, ih]
    split <;> simp

theorem memRead_eq_none {m : Memory} {a : Nat} (h : ∀ e ∈ m, e.1 ≠ a) : memRead m a = none := by
  induction m with
  | nil => rfl
  | cons e t ih =>
    obtain ⟨k, v⟩ := e
    rw [memRead_cons, if_neg (h (k, v) (by simp)), ih fun e he => h e (by simp [he])]

/-- A word that reads is an entry. -/
theorem mem_of_memRead {m : Memory} {a : Nat} {v : Prob} (h : memRead m a = some v) : (a, v) ∈ m := by
  induction m with
  | nil => simp at h
  | cons e t ih =>
    obtain ⟨k, x⟩ := e
    rw [memRead_cons] at h
    split at h
    · simp_all
    · simp [ih h]

theorem memRead_filter (m : Memory) (q : Nat → Bool) (a : Nat) :
    memRead (m.filter fun e => q e.1) a = if q a then memRead m a else none := by
  induction m with
  | nil => simp
  | cons e t ih =>
    obtain ⟨k, v⟩ := e
    by_cases hk : q k
    · rw [List.filter_cons_of_pos (by simpa using hk), memRead_cons, memRead_cons, ih]
      by_cases e : k = a
      · subst e; simp [hk]
      · simp [e]
    · rw [List.filter_cons_of_neg (by simpa using hk), ih, memRead_cons]
      by_cases e : k = a
      · subst e; simp [hk]
      · simp [e]

/-! ### Writing -/

theorem memRead_memWrite (m : Memory) (a x : Nat) (v : Prob) :
    memRead (memWrite m a v) x = if x = a then some v else memRead m x := by
  induction m with
  | nil => simp [memWrite, memRead_cons, eq_comm]
  | cons e t ih =>
    obtain ⟨k, w⟩ := e
    rw [memWrite]
    split
    · rw [memRead_cons]; simp only [eq_comm (a := a)]
    · split
      · subst_vars; simp only [memRead_cons, eq_comm (a := x)]; split <;> rfl
      · rw [memRead_cons, memRead_cons, ih]
        by_cases h : k = x
        · subst h; simp [Ne.symm (by assumption)]
        · simp [h]

@[simp] theorem memRead_memWrite_same (m : Memory) (a : Nat) (v : Prob) :
    memRead (memWrite m a v) a = some v := by simp [memRead_memWrite]

theorem memRead_memWrite_other (m : Memory) {a x : Nat} (v : Prob) (h : x ≠ a) :
    memRead (memWrite m a v) x = memRead m x := by simp [memRead_memWrite, h]

/-- An entry after a write is the one written or one that was there. -/
theorem mem_memWrite {m : Memory} {a : Nat} {v : Prob} {e : Nat × Prob} (h : e ∈ memWrite m a v) :
    e = (a, v) ∨ e ∈ m := by
  induction m with
  | nil => simpa [memWrite] using h
  | cons c t ih =>
    obtain ⟨k, w⟩ := c
    rw [memWrite] at h
    split at h
    · simpa using h
    · split at h
      · simp only [List.mem_cons] at h ⊢; tauto
      · simp only [List.mem_cons] at h ⊢; rcases h with h | h
        · exact .inr (.inl h)
        · rcases ih h with h | h
          · exact .inl h
          · exact .inr (.inr h)

theorem memWrite_wf {m : Memory} (h : m.wf) (a : Nat) (v : Prob) : (memWrite m a v).wf := by
  induction m with
  | nil => simp [memWrite, Memory.wf]
  | cons c t ih =>
    obtain ⟨k, w⟩ := c
    simp only [Memory.wf, List.pairwise_cons] at h
    obtain ⟨hk, ht⟩ := h
    rw [memWrite]
    split
    · rename_i hlt
      simp only [Memory.wf, List.pairwise_cons, List.mem_cons, forall_eq_or_imp]
      exact ⟨⟨hlt, fun e he => Nat.lt_trans hlt (hk e he)⟩, hk, ht⟩
    · split
      · subst_vars; exact List.pairwise_cons.2 ⟨hk, ht⟩
      · simp only [Memory.wf, List.pairwise_cons]
        refine ⟨fun e he => ?_, ih ht⟩
        rcases mem_memWrite he with rfl | he
        · show k < a; omega
        · exact hk e he

/-! ### Filling -/

theorem memRead_map_range' (v : Prob) (a c x : Nat) :
    memRead ((List.range' a c).map fun y => (y, v)) x = if a ≤ x ∧ x < a + c then some v else none := by
  induction c generalizing a with
  | zero => simp
  | succ c ih =>
    rw [List.range'_succ, List.map_cons, memRead_cons, ih]
    by_cases h : a = x
    · simp [h]
    · by_cases h2 : a + 1 ≤ x ∧ x < a + 1 + c
      · rw [if_neg h, if_pos h2, if_pos (by omega)]
      · rw [if_neg h, if_neg h2, if_neg (by omega)]

theorem memRead_memFill (m : Memory) (a c x : Nat) (v : Prob) :
    memRead (memFill m a c v) x = if a ≤ x ∧ x < a + c then some v else memRead m x := by
  rw [memFill, memRead_append, memRead_append, memRead_map_range',
    memRead_filter m (fun y => decide (y < a)), memRead_filter m (fun y => decide (a + c ≤ y))]
  simp only [decide_eq_true_eq]
  by_cases h1 : x < a
  · rw [if_pos h1, if_neg (by omega), if_neg (by omega), if_neg (by omega)]; simp
  · by_cases h2 : a + c ≤ x
    · rw [if_neg h1, if_neg (by omega), if_pos h2]; simp [if_neg (show ¬(a ≤ x ∧ x < a + c) by omega)]
    · rw [if_neg h1, if_pos (by omega), if_neg h2]; simp [if_pos (show a ≤ x ∧ x < a + c by omega)]

/-- An entry after a fill is in the run with the run's value, or was there outside the run. -/
theorem mem_memFill {m : Memory} {a c : Nat} {v : Prob} {e : Nat × Prob} (h : e ∈ memFill m a c v) :
    (a ≤ e.1 ∧ e.1 < a + c ∧ e.2 = v) ∨ e ∈ m := by
  simp only [memFill, List.mem_append, List.mem_filter, List.mem_map, List.mem_range'_1] at h
  rcases h with (⟨h, -⟩ | ⟨y, ⟨h1, h2⟩, rfl⟩) | ⟨h, -⟩
  · exact .inr h
  · exact .inl ⟨h1, h2, rfl⟩
  · exact .inr h

theorem memFill_wf {m : Memory} (h : m.wf) (a c : Nat) (v : Prob) : (memFill m a c v).wf := by
  unfold Memory.wf at *
  rw [memFill, List.pairwise_append, List.pairwise_append]
  refine ⟨⟨h.filter _, ?_, ?_⟩, h.filter _, ?_⟩
  · rw [List.pairwise_map]; exact List.pairwise_lt_range'
  · intro x hx y hy
    simp only [List.mem_filter, List.mem_map, List.mem_range'_1, decide_eq_true_eq] at hx hy
    obtain ⟨z, ⟨h1, -⟩, rfl⟩ := hy
    exact Nat.lt_of_lt_of_le hx.2 h1
  · intro x hx y hy
    simp only [List.mem_append, List.mem_filter, List.mem_map, List.mem_range'_1,
      decide_eq_true_eq] at hx hy
    rcases hx with ⟨-, hx⟩ | ⟨z, ⟨-, hz⟩, rfl⟩
    · omega
    · exact Nat.lt_of_lt_of_le hz hy.2

/-- The run filled at once is the run written word by word, as R170's loop writes it. -/
theorem memFill_succ_read (m : Memory) (a c x : Nat) (v : Prob) :
    memRead (memFill m a (c + 1) v) x = memRead (memWrite (memFill m a c v) (a + c) v) x := by
  rw [memRead_memFill, memRead_memWrite, memRead_memFill]
  by_cases h : x = a + c
  · rw [if_pos (by omega), if_pos h]
  · by_cases h2 : a ≤ x ∧ x < a + c
    · rw [if_pos (by omega), if_neg h, if_pos h2]
    · rw [if_neg (by omega), if_neg h, if_neg h2]

/-! ### The first gap -/

/-- No gap: every word of the run reads. -/
theorem memFirstGap_eq_none {m : Memory} (hm : m.wf) {a n : Nat} :
    memFirstGap m a n = none ↔ ∀ x, a ≤ x → x < a + n → (memRead m x).isSome = true := by
  induction m generalizing a n with
  | nil =>
    cases n with
    | zero => simp only [memFirstGap, true_iff]; intro x h1 h2; omega
    | succ n =>
      simp only [memFirstGap, reduceCtorEq, false_iff]
      intro h; simpa using h a (Nat.le_refl _) (by omega)
  | cons e t ih =>
    obtain ⟨k, v⟩ := e
    simp only [Memory.wf, List.pairwise_cons] at hm
    obtain ⟨hk, ht⟩ := hm
    cases n with
    | zero => simp only [memFirstGap, true_iff]; intro x h1 h2; omega
    | succ n =>
      rw [memFirstGap]
      split
      · rename_i hlt
        rw [ih ht]
        constructor <;> intro h x h1 h2 <;> have := h x h1 h2
        · rwa [memRead_cons, if_neg (by omega)]
        · rwa [memRead_cons, if_neg (by omega)] at this
      · split
        · subst_vars
          rw [ih ht]
          constructor <;> intro h x h1 h2
          · by_cases e : k = x
            · simp [memRead_cons, e]
            · rw [memRead_cons, if_neg e]; exact h x (by omega) (by omega)
          · have := h x (by omega) (by omega); rwa [memRead_cons, if_neg (by omega)] at this
        · simp only [reduceCtorEq, false_iff]
          intro h
          have := h a (Nat.le_refl _) (by omega)
          rw [memRead_cons, if_neg (by omega), memRead_eq_none] at this
          · simp at this
          · intro e he; have := hk e he; omega

/-- A gap: the lowest word of the run that does not read. -/
theorem memFirstGap_eq_some {m : Memory} (hm : m.wf) {a n x : Nat} :
    memFirstGap m a n = some x ↔ (a ≤ x ∧ x < a + n ∧ memRead m x = none
      ∧ ∀ y, a ≤ y → y < x → (memRead m y).isSome = true) := by
  induction m generalizing a n with
  | nil =>
    cases n with
    | zero => simp only [memFirstGap, reduceCtorEq, false_iff]; omega
    | succ n =>
      simp only [memFirstGap, Option.some.injEq, memRead_nil, Option.isSome_none, true_and]
      constructor
      · rintro rfl; exact ⟨Nat.le_refl _, by omega, fun y h1 h2 => by omega⟩
      · rintro ⟨h1, h2, h3⟩
        by_contra hne
        exact absurd (h3 a (Nat.le_refl _) (by omega)) (by simp)
  | cons e t ih =>
    obtain ⟨k, v⟩ := e
    simp only [Memory.wf, List.pairwise_cons] at hm
    obtain ⟨hk, ht⟩ := hm
    cases n with
    | zero => simp only [memFirstGap, reduceCtorEq, false_iff]; omega
    | succ n =>
      have low : ∀ y, y ≤ k → memRead t y = none := fun y hy =>
        memRead_eq_none fun e he => by have := hk e he; omega
      rw [memFirstGap]
      split
      · rename_i hlt
        have eqr : ∀ y, a ≤ y → memRead ((k, v) :: t) y = memRead t y := fun y hy => by
          rw [memRead_cons, if_neg (by omega)]
        rw [ih ht]
        constructor
        · rintro ⟨h1, h2, h3, h4⟩
          exact ⟨h1, h2, by rw [eqr x h1, h3], fun y hy hx => by rw [eqr y hy]; exact h4 y hy hx⟩
        · rintro ⟨h1, h2, h3, h4⟩
          exact ⟨h1, h2, by rw [← eqr x h1, h3], fun y hy hx => by rw [← eqr y hy]; exact h4 y hy hx⟩
      · split
        · rename_i h1 h2
          subst h2
          rw [ih ht]
          constructor
          · rintro ⟨g1, g2, g3, g4⟩
            refine ⟨by omega, by omega, by rw [memRead_cons, if_neg (by omega), g3], fun y hy hx => ?_⟩
            by_cases e : k = y
            · simp [memRead_cons, e]
            · rw [memRead_cons, if_neg e]; exact g4 y (by omega) hx
          · rintro ⟨g1, g2, g3, g4⟩
            have hne : k ≠ x := by rintro rfl; simp [memRead_cons] at g3
            rw [memRead_cons, if_neg hne] at g3
            refine ⟨by omega, by omega, g3, fun y hy hx => ?_⟩
            have := g4 y (by omega) hx
            rwa [memRead_cons, if_neg (by omega)] at this
        · rename_i h1 h2
          have gap : memRead ((k, v) :: t) a = none := by
            rw [memRead_cons, if_neg (by omega), low a (by omega)]
          simp only [Option.some.injEq]
          constructor
          · rintro rfl; exact ⟨Nat.le_refl _, by omega, gap, fun y hy hx => by omega⟩
          · rintro ⟨g1, g2, g3, g4⟩
            by_contra hne
            have := g4 a (Nat.le_refl _) (by omega)
            simp [gap] at this

end Sys2Proof.Machine
end

