-- ==== Sys2Proof/Laws/State.lean ====
section
/-! SUPPORT. The small lemmas of the state's updates: one per field and update. -/

namespace Sys2Proof.Machine

section

variable (c : FaultCode) (info : U64) (s : State)

@[simp] theorem enterFault_mode : (enterFault c info s).mode = s.mode := rfl
@[simp] theorem enterFault_range : (enterFault c info s).range = s.range := rfl
@[simp] theorem enterFault_low : (enterFault c info s).low = s.low := rfl
@[simp] theorem enterFault_cache : (enterFault c info s).cache = s.cache := rfl
@[simp] theorem enterFault_cacheSize : (enterFault c info s).cacheSize = s.cacheSize := rfl
@[simp] theorem enterFault_code : (enterFault c info s).code = s.code := rfl
@[simp] theorem enterFault_outCount : (enterFault c info s).outCount = s.outCount := rfl
@[simp] theorem enterFault_inCount : (enterFault c info s).inCount = s.inCount := rfl
@[simp] theorem enterFault_res : (enterFault c info s).res = s.res := rfl
@[simp] theorem enterFault_faulted : (enterFault c info s).faulted = true := rfl
@[simp] theorem enterFault_faultCode : (enterFault c info s).faultCode = faultBits c := rfl
@[simp] theorem enterFault_faultInfo : (enterFault c info s).faultInfo = info := rfl
@[simp] theorem enterFault_wait : (enterFault c info s).wait = none := rfl
@[simp] theorem enterFault_prob : (enterFault c info s).prob = s.prob := rfl
@[simp] theorem enterFault_csp : (enterFault c info s).csp = s.csp + 1 := rfl
@[simp] theorem enterFault_probWords : (enterFault c info s).probWords = s.probWords := rfl
@[simp] theorem enterFault_cmdIn : (enterFault c info s).cmdIn = s.cmdIn := rfl
@[simp] theorem enterFault_byteIn : (enterFault c info s).byteIn = s.byteIn := rfl
@[simp] theorem enterFault_eos : (enterFault c info s).eos = s.eos := rfl
@[simp] theorem enterFault_consumed : (enterFault c info s).consumed = s.consumed := rfl
@[simp] theorem enterFault_sinkRoom : (enterFault c info s).sinkRoom = s.sinkRoom := rfl
@[simp] theorem enterFault_sent : (enterFault c info s).sent = s.sent := rfl
@[simp] theorem enterFault_resetIn : (enterFault c info s).resetIn = s.resetIn := rfl

end

section

variable (s : State)

@[simp] theorem discard_mode : (discard s).mode = s.mode := rfl
@[simp] theorem discard_range : (discard s).range = s.range := rfl
@[simp] theorem discard_low : (discard s).low = s.low := rfl
@[simp] theorem discard_cache : (discard s).cache = s.cache := rfl
@[simp] theorem discard_cacheSize : (discard s).cacheSize = s.cacheSize := rfl
@[simp] theorem discard_code : (discard s).code = s.code := rfl
@[simp] theorem discard_outCount : (discard s).outCount = s.outCount := rfl
@[simp] theorem discard_inCount : (discard s).inCount = s.inCount := rfl
@[simp] theorem discard_res : (discard s).res = s.res := rfl
@[simp] theorem discard_faulted : (discard s).faulted = s.faulted := rfl
@[simp] theorem discard_faultCode : (discard s).faultCode = s.faultCode := rfl
@[simp] theorem discard_faultInfo : (discard s).faultInfo = s.faultInfo := rfl
@[simp] theorem discard_wait : (discard s).wait = s.wait := rfl
@[simp] theorem discard_prob : (discard s).prob = s.prob := rfl
@[simp] theorem discard_csp : (discard s).csp = s.csp + 1 := rfl
@[simp] theorem discard_probWords : (discard s).probWords = s.probWords := rfl
@[simp] theorem discard_cmdIn : (discard s).cmdIn = s.cmdIn := rfl
@[simp] theorem discard_byteIn : (discard s).byteIn = s.byteIn := rfl
@[simp] theorem discard_eos : (discard s).eos = s.eos := rfl
@[simp] theorem discard_consumed : (discard s).consumed = s.consumed := rfl
@[simp] theorem discard_sinkRoom : (discard s).sinkRoom = s.sinkRoom := rfl
@[simp] theorem discard_sent : (discard s).sent = s.sent := rfl
@[simp] theorem discard_resetIn : (discard s).resetIn = s.resetIn := rfl

end

section

variable (s : State)

@[simp] theorem applyReset_mode : (applyReset s).mode = .idle := rfl
@[simp] theorem applyReset_range : (applyReset s).range = 0 := rfl
@[simp] theorem applyReset_low : (applyReset s).low = 0 := rfl
@[simp] theorem applyReset_cache : (applyReset s).cache = 0 := rfl
@[simp] theorem applyReset_cacheSize : (applyReset s).cacheSize = 0 := rfl
@[simp] theorem applyReset_code : (applyReset s).code = 0 := rfl
@[simp] theorem applyReset_outCount : (applyReset s).outCount = 0 := rfl
@[simp] theorem applyReset_inCount : (applyReset s).inCount = 0 := rfl
@[simp] theorem applyReset_res : (applyReset s).res = 0 := rfl
@[simp] theorem applyReset_faulted : (applyReset s).faulted = false := rfl
@[simp] theorem applyReset_faultCode : (applyReset s).faultCode = 0 := rfl
@[simp] theorem applyReset_faultInfo : (applyReset s).faultInfo = 0 := rfl
@[simp] theorem applyReset_wait : (applyReset s).wait = none := rfl
@[simp] theorem applyReset_prob : (applyReset s).prob = [] := rfl
@[simp] theorem applyReset_csp : (applyReset s).csp = 0 := rfl
@[simp] theorem applyReset_probWords : (applyReset s).probWords = s.probWords := rfl
@[simp] theorem applyReset_cmdIn : (applyReset s).cmdIn = s.cmdIn := rfl
@[simp] theorem applyReset_byteIn : (applyReset s).byteIn = s.byteIn := rfl
@[simp] theorem applyReset_eos : (applyReset s).eos = s.eos := rfl
@[simp] theorem applyReset_consumed : (applyReset s).consumed = s.consumed := rfl
@[simp] theorem applyReset_sinkRoom : (applyReset s).sinkRoom = s.sinkRoom := rfl
@[simp] theorem applyReset_sent : (applyReset s).sent = s.sent := rfl
@[simp] theorem applyReset_resetIn : (applyReset s).resetIn = s.resetIn := rfl

end

section

variable (a : Nat) (v : Prob) (s : State)

@[simp] theorem writeProb_mode : (writeProb a v s).mode = s.mode := rfl
@[simp] theorem writeProb_range : (writeProb a v s).range = s.range := rfl
@[simp] theorem writeProb_low : (writeProb a v s).low = s.low := rfl
@[simp] theorem writeProb_cache : (writeProb a v s).cache = s.cache := rfl
@[simp] theorem writeProb_cacheSize : (writeProb a v s).cacheSize = s.cacheSize := rfl
@[simp] theorem writeProb_code : (writeProb a v s).code = s.code := rfl
@[simp] theorem writeProb_outCount : (writeProb a v s).outCount = s.outCount := rfl
@[simp] theorem writeProb_inCount : (writeProb a v s).inCount = s.inCount := rfl
@[simp] theorem writeProb_res : (writeProb a v s).res = s.res := rfl
@[simp] theorem writeProb_faulted : (writeProb a v s).faulted = s.faulted := rfl
@[simp] theorem writeProb_faultCode : (writeProb a v s).faultCode = s.faultCode := rfl
@[simp] theorem writeProb_faultInfo : (writeProb a v s).faultInfo = s.faultInfo := rfl
@[simp] theorem writeProb_wait : (writeProb a v s).wait = s.wait := rfl
@[simp] theorem writeProb_prob : (writeProb a v s).prob = memWrite s.prob a v := rfl
@[simp] theorem writeProb_csp : (writeProb a v s).csp = s.csp := rfl
@[simp] theorem writeProb_probWords : (writeProb a v s).probWords = s.probWords := rfl
@[simp] theorem writeProb_cmdIn : (writeProb a v s).cmdIn = s.cmdIn := rfl
@[simp] theorem writeProb_byteIn : (writeProb a v s).byteIn = s.byteIn := rfl
@[simp] theorem writeProb_eos : (writeProb a v s).eos = s.eos := rfl
@[simp] theorem writeProb_consumed : (writeProb a v s).consumed = s.consumed := rfl
@[simp] theorem writeProb_sinkRoom : (writeProb a v s).sinkRoom = s.sinkRoom := rfl
@[simp] theorem writeProb_sent : (writeProb a v s).sent = s.sent := rfl
@[simp] theorem writeProb_resetIn : (writeProb a v s).resetIn = s.resetIn := rfl

end

section

variable (b : Byte) (s : State)

@[simp] theorem pushCode_mode : (pushCode b s).mode = s.mode := rfl
@[simp] theorem pushCode_range : (pushCode b s).range = s.range := rfl
@[simp] theorem pushCode_low : (pushCode b s).low = s.low := rfl
@[simp] theorem pushCode_cache : (pushCode b s).cache = s.cache := rfl
@[simp] theorem pushCode_cacheSize : (pushCode b s).cacheSize = s.cacheSize := rfl
@[simp] theorem pushCode_code : (pushCode b s).code = (s.code <<< 8) ||| b.setWidth 32 := rfl
@[simp] theorem pushCode_outCount : (pushCode b s).outCount = s.outCount := rfl
@[simp] theorem pushCode_inCount : (pushCode b s).inCount = s.inCount := rfl
@[simp] theorem pushCode_res : (pushCode b s).res = s.res := rfl
@[simp] theorem pushCode_faulted : (pushCode b s).faulted = s.faulted := rfl
@[simp] theorem pushCode_faultCode : (pushCode b s).faultCode = s.faultCode := rfl
@[simp] theorem pushCode_faultInfo : (pushCode b s).faultInfo = s.faultInfo := rfl
@[simp] theorem pushCode_wait : (pushCode b s).wait = s.wait := rfl
@[simp] theorem pushCode_prob : (pushCode b s).prob = s.prob := rfl
@[simp] theorem pushCode_csp : (pushCode b s).csp = s.csp := rfl
@[simp] theorem pushCode_probWords : (pushCode b s).probWords = s.probWords := rfl
@[simp] theorem pushCode_cmdIn : (pushCode b s).cmdIn = s.cmdIn := rfl
@[simp] theorem pushCode_byteIn : (pushCode b s).byteIn = s.byteIn := rfl
@[simp] theorem pushCode_eos : (pushCode b s).eos = s.eos := rfl
@[simp] theorem pushCode_consumed : (pushCode b s).consumed = s.consumed := rfl
@[simp] theorem pushCode_sinkRoom : (pushCode b s).sinkRoom = s.sinkRoom := rfl
@[simp] theorem pushCode_sent : (pushCode b s).sent = s.sent := rfl
@[simp] theorem pushCode_resetIn : (pushCode b s).resetIn = s.resetIn := rfl

end

section

variable (w : Word) (s : State)

@[simp] theorem presentNext_mode : (presentNext w s).mode = s.mode := rfl
@[simp] theorem presentNext_range : (presentNext w s).range = s.range := rfl
@[simp] theorem presentNext_low : (presentNext w s).low = s.low := rfl
@[simp] theorem presentNext_cache : (presentNext w s).cache = s.cache := rfl
@[simp] theorem presentNext_cacheSize : (presentNext w s).cacheSize = s.cacheSize := rfl
@[simp] theorem presentNext_code : (presentNext w s).code = s.code := rfl
@[simp] theorem presentNext_outCount : (presentNext w s).outCount = s.outCount := rfl
@[simp] theorem presentNext_inCount : (presentNext w s).inCount = s.inCount := rfl
@[simp] theorem presentNext_res : (presentNext w s).res = s.res := rfl
@[simp] theorem presentNext_faulted : (presentNext w s).faulted = false := rfl
@[simp] theorem presentNext_faultCode : (presentNext w s).faultCode = 0 := rfl
@[simp] theorem presentNext_faultInfo : (presentNext w s).faultInfo = 0 := rfl
@[simp] theorem presentNext_wait : (presentNext w s).wait = none := rfl
@[simp] theorem presentNext_prob : (presentNext w s).prob = s.prob := rfl
@[simp] theorem presentNext_csp : (presentNext w s).csp = s.csp := rfl
@[simp] theorem presentNext_probWords : (presentNext w s).probWords = s.probWords := rfl
@[simp] theorem presentNext_cmdIn : (presentNext w s).cmdIn = w :: s.cmdIn := rfl
@[simp] theorem presentNext_byteIn : (presentNext w s).byteIn = s.byteIn := rfl
@[simp] theorem presentNext_eos : (presentNext w s).eos = s.eos := rfl
@[simp] theorem presentNext_consumed : (presentNext w s).consumed = s.consumed := rfl
@[simp] theorem presentNext_sinkRoom : (presentNext w s).sinkRoom = s.sinkRoom := rfl
@[simp] theorem presentNext_sent : (presentNext w s).sent = s.sent := rfl
@[simp] theorem presentNext_resetIn : (presentNext w s).resetIn = false := rfl

end

section

variable (p : Prob) (b : Bool) (s : State)

@[simp] theorem splitEnc_mode : (splitEnc p b s).mode = s.mode := by cases b <;> rfl
@[simp] theorem splitEnc_range : (splitEnc p b s).range = if b then s.range - boundOf s.range p else boundOf s.range p := by cases b <;> rfl
@[simp] theorem splitEnc_low : (splitEnc p b s).low = if b then s.low + (boundOf s.range p).setWidth 33 else s.low := by cases b <;> rfl
@[simp] theorem splitEnc_cache : (splitEnc p b s).cache = s.cache := by cases b <;> rfl
@[simp] theorem splitEnc_cacheSize : (splitEnc p b s).cacheSize = s.cacheSize := by cases b <;> rfl
@[simp] theorem splitEnc_code : (splitEnc p b s).code = s.code := by cases b <;> rfl
@[simp] theorem splitEnc_outCount : (splitEnc p b s).outCount = s.outCount := by cases b <;> rfl
@[simp] theorem splitEnc_inCount : (splitEnc p b s).inCount = s.inCount := by cases b <;> rfl
@[simp] theorem splitEnc_res : (splitEnc p b s).res = s.res := by cases b <;> rfl
@[simp] theorem splitEnc_faulted : (splitEnc p b s).faulted = s.faulted := by cases b <;> rfl
@[simp] theorem splitEnc_faultCode : (splitEnc p b s).faultCode = s.faultCode := by cases b <;> rfl
@[simp] theorem splitEnc_faultInfo : (splitEnc p b s).faultInfo = s.faultInfo := by cases b <;> rfl
@[simp] theorem splitEnc_wait : (splitEnc p b s).wait = s.wait := by cases b <;> rfl
@[simp] theorem splitEnc_prob : (splitEnc p b s).prob = s.prob := by cases b <;> rfl
@[simp] theorem splitEnc_csp : (splitEnc p b s).csp = s.csp := by cases b <;> rfl
@[simp] theorem splitEnc_probWords : (splitEnc p b s).probWords = s.probWords := by cases b <;> rfl
@[simp] theorem splitEnc_cmdIn : (splitEnc p b s).cmdIn = s.cmdIn := by cases b <;> rfl
@[simp] theorem splitEnc_byteIn : (splitEnc p b s).byteIn = s.byteIn := by cases b <;> rfl
@[simp] theorem splitEnc_eos : (splitEnc p b s).eos = s.eos := by cases b <;> rfl
@[simp] theorem splitEnc_consumed : (splitEnc p b s).consumed = s.consumed := by cases b <;> rfl
@[simp] theorem splitEnc_sinkRoom : (splitEnc p b s).sinkRoom = s.sinkRoom := by cases b <;> rfl
@[simp] theorem splitEnc_sent : (splitEnc p b s).sent = s.sent := by cases b <;> rfl
@[simp] theorem splitEnc_resetIn : (splitEnc p b s).resetIn = s.resetIn := by cases b <;> rfl

end

section

variable (p : Prob) (b : Bool) (s : State)

@[simp] theorem splitDec_mode : (splitDec p b s).mode = s.mode := by cases b <;> rfl
@[simp] theorem splitDec_range : (splitDec p b s).range = if b then s.range - boundOf s.range p else boundOf s.range p := by cases b <;> rfl
@[simp] theorem splitDec_low : (splitDec p b s).low = s.low := by cases b <;> rfl
@[simp] theorem splitDec_cache : (splitDec p b s).cache = s.cache := by cases b <;> rfl
@[simp] theorem splitDec_cacheSize : (splitDec p b s).cacheSize = s.cacheSize := by cases b <;> rfl
@[simp] theorem splitDec_code : (splitDec p b s).code = if b then s.code - boundOf s.range p else s.code := by cases b <;> rfl
@[simp] theorem splitDec_outCount : (splitDec p b s).outCount = s.outCount := by cases b <;> rfl
@[simp] theorem splitDec_inCount : (splitDec p b s).inCount = s.inCount := by cases b <;> rfl
@[simp] theorem splitDec_res : (splitDec p b s).res = s.res := by cases b <;> rfl
@[simp] theorem splitDec_faulted : (splitDec p b s).faulted = s.faulted := by cases b <;> rfl
@[simp] theorem splitDec_faultCode : (splitDec p b s).faultCode = s.faultCode := by cases b <;> rfl
@[simp] theorem splitDec_faultInfo : (splitDec p b s).faultInfo = s.faultInfo := by cases b <;> rfl
@[simp] theorem splitDec_wait : (splitDec p b s).wait = s.wait := by cases b <;> rfl
@[simp] theorem splitDec_prob : (splitDec p b s).prob = s.prob := by cases b <;> rfl
@[simp] theorem splitDec_csp : (splitDec p b s).csp = s.csp := by cases b <;> rfl
@[simp] theorem splitDec_probWords : (splitDec p b s).probWords = s.probWords := by cases b <;> rfl
@[simp] theorem splitDec_cmdIn : (splitDec p b s).cmdIn = s.cmdIn := by cases b <;> rfl
@[simp] theorem splitDec_byteIn : (splitDec p b s).byteIn = s.byteIn := by cases b <;> rfl
@[simp] theorem splitDec_eos : (splitDec p b s).eos = s.eos := by cases b <;> rfl
@[simp] theorem splitDec_consumed : (splitDec p b s).consumed = s.consumed := by cases b <;> rfl
@[simp] theorem splitDec_sinkRoom : (splitDec p b s).sinkRoom = s.sinkRoom := by cases b <;> rfl
@[simp] theorem splitDec_sent : (splitDec p b s).sent = s.sent := by cases b <;> rfl
@[simp] theorem splitDec_resetIn : (splitDec p b s).resetIn = s.resetIn := by cases b <;> rfl

end

section

variable (b : Bool) (s : State)

@[simp] theorem halveEnc_mode : (halveEnc b s).mode = s.mode := by cases b <;> rfl
@[simp] theorem halveEnc_range : (halveEnc b s).range = s.range >>> 1 := by cases b <;> rfl
@[simp] theorem halveEnc_low : (halveEnc b s).low = if b then s.low + (s.range >>> 1).setWidth 33 else s.low := by cases b <;> rfl
@[simp] theorem halveEnc_cache : (halveEnc b s).cache = s.cache := by cases b <;> rfl
@[simp] theorem halveEnc_cacheSize : (halveEnc b s).cacheSize = s.cacheSize := by cases b <;> rfl
@[simp] theorem halveEnc_code : (halveEnc b s).code = s.code := by cases b <;> rfl
@[simp] theorem halveEnc_outCount : (halveEnc b s).outCount = s.outCount := by cases b <;> rfl
@[simp] theorem halveEnc_inCount : (halveEnc b s).inCount = s.inCount := by cases b <;> rfl
@[simp] theorem halveEnc_res : (halveEnc b s).res = s.res := by cases b <;> rfl
@[simp] theorem halveEnc_faulted : (halveEnc b s).faulted = s.faulted := by cases b <;> rfl
@[simp] theorem halveEnc_faultCode : (halveEnc b s).faultCode = s.faultCode := by cases b <;> rfl
@[simp] theorem halveEnc_faultInfo : (halveEnc b s).faultInfo = s.faultInfo := by cases b <;> rfl
@[simp] theorem halveEnc_wait : (halveEnc b s).wait = s.wait := by cases b <;> rfl
@[simp] theorem halveEnc_prob : (halveEnc b s).prob = s.prob := by cases b <;> rfl
@[simp] theorem halveEnc_csp : (halveEnc b s).csp = s.csp := by cases b <;> rfl
@[simp] theorem halveEnc_probWords : (halveEnc b s).probWords = s.probWords := by cases b <;> rfl
@[simp] theorem halveEnc_cmdIn : (halveEnc b s).cmdIn = s.cmdIn := by cases b <;> rfl
@[simp] theorem halveEnc_byteIn : (halveEnc b s).byteIn = s.byteIn := by cases b <;> rfl
@[simp] theorem halveEnc_eos : (halveEnc b s).eos = s.eos := by cases b <;> rfl
@[simp] theorem halveEnc_consumed : (halveEnc b s).consumed = s.consumed := by cases b <;> rfl
@[simp] theorem halveEnc_sinkRoom : (halveEnc b s).sinkRoom = s.sinkRoom := by cases b <;> rfl
@[simp] theorem halveEnc_sent : (halveEnc b s).sent = s.sent := by cases b <;> rfl
@[simp] theorem halveEnc_resetIn : (halveEnc b s).resetIn = s.resetIn := by cases b <;> rfl

end

section

variable (b : Bool) (s : State)

@[simp] theorem halveDec_mode : (halveDec b s).mode = s.mode := by cases b <;> rfl
@[simp] theorem halveDec_range : (halveDec b s).range = s.range >>> 1 := by cases b <;> rfl
@[simp] theorem halveDec_low : (halveDec b s).low = s.low := by cases b <;> rfl
@[simp] theorem halveDec_cache : (halveDec b s).cache = s.cache := by cases b <;> rfl
@[simp] theorem halveDec_cacheSize : (halveDec b s).cacheSize = s.cacheSize := by cases b <;> rfl
@[simp] theorem halveDec_code : (halveDec b s).code = if b then s.code - (s.range >>> 1) else s.code := by cases b <;> rfl
@[simp] theorem halveDec_outCount : (halveDec b s).outCount = s.outCount := by cases b <;> rfl
@[simp] theorem halveDec_inCount : (halveDec b s).inCount = s.inCount := by cases b <;> rfl
@[simp] theorem halveDec_res : (halveDec b s).res = s.res := by cases b <;> rfl
@[simp] theorem halveDec_faulted : (halveDec b s).faulted = s.faulted := by cases b <;> rfl
@[simp] theorem halveDec_faultCode : (halveDec b s).faultCode = s.faultCode := by cases b <;> rfl
@[simp] theorem halveDec_faultInfo : (halveDec b s).faultInfo = s.faultInfo := by cases b <;> rfl
@[simp] theorem halveDec_wait : (halveDec b s).wait = s.wait := by cases b <;> rfl
@[simp] theorem halveDec_prob : (halveDec b s).prob = s.prob := by cases b <;> rfl
@[simp] theorem halveDec_csp : (halveDec b s).csp = s.csp := by cases b <;> rfl
@[simp] theorem halveDec_probWords : (halveDec b s).probWords = s.probWords := by cases b <;> rfl
@[simp] theorem halveDec_cmdIn : (halveDec b s).cmdIn = s.cmdIn := by cases b <;> rfl
@[simp] theorem halveDec_byteIn : (halveDec b s).byteIn = s.byteIn := by cases b <;> rfl
@[simp] theorem halveDec_eos : (halveDec b s).eos = s.eos := by cases b <;> rfl
@[simp] theorem halveDec_consumed : (halveDec b s).consumed = s.consumed := by cases b <;> rfl
@[simp] theorem halveDec_sinkRoom : (halveDec b s).sinkRoom = s.sinkRoom := by cases b <;> rfl
@[simp] theorem halveDec_sent : (halveDec b s).sent = s.sent := by cases b <;> rfl
@[simp] theorem halveDec_resetIn : (halveDec b s).resetIn = s.resetIn := by cases b <;> rfl

end

section

variable (w : Word) (s : State)

@[simp] theorem hostPresent_mode : (hostPresent w s).mode = s.mode := rfl
@[simp] theorem hostPresent_range : (hostPresent w s).range = s.range := rfl
@[simp] theorem hostPresent_low : (hostPresent w s).low = s.low := rfl
@[simp] theorem hostPresent_cache : (hostPresent w s).cache = s.cache := rfl
@[simp] theorem hostPresent_cacheSize : (hostPresent w s).cacheSize = s.cacheSize := rfl
@[simp] theorem hostPresent_code : (hostPresent w s).code = s.code := rfl
@[simp] theorem hostPresent_outCount : (hostPresent w s).outCount = s.outCount := rfl
@[simp] theorem hostPresent_inCount : (hostPresent w s).inCount = s.inCount := rfl
@[simp] theorem hostPresent_res : (hostPresent w s).res = s.res := rfl
@[simp] theorem hostPresent_faulted : (hostPresent w s).faulted = s.faulted := rfl
@[simp] theorem hostPresent_faultCode : (hostPresent w s).faultCode = s.faultCode := rfl
@[simp] theorem hostPresent_faultInfo : (hostPresent w s).faultInfo = s.faultInfo := rfl
@[simp] theorem hostPresent_wait : (hostPresent w s).wait = s.wait := rfl
@[simp] theorem hostPresent_prob : (hostPresent w s).prob = s.prob := rfl
@[simp] theorem hostPresent_csp : (hostPresent w s).csp = s.csp := rfl
@[simp] theorem hostPresent_probWords : (hostPresent w s).probWords = s.probWords := rfl
@[simp] theorem hostPresent_cmdIn : (hostPresent w s).cmdIn = s.cmdIn ++ [w] := rfl
@[simp] theorem hostPresent_byteIn : (hostPresent w s).byteIn = s.byteIn := rfl
@[simp] theorem hostPresent_eos : (hostPresent w s).eos = s.eos := rfl
@[simp] theorem hostPresent_consumed : (hostPresent w s).consumed = s.consumed := rfl
@[simp] theorem hostPresent_sinkRoom : (hostPresent w s).sinkRoom = s.sinkRoom := rfl
@[simp] theorem hostPresent_sent : (hostPresent w s).sent = s.sent := rfl
@[simp] theorem hostPresent_resetIn : (hostPresent w s).resetIn = s.resetIn := rfl

end

section

variable (bs : List Byte) (s : State)

@[simp] theorem hostOffer_mode : (hostOffer bs s).mode = s.mode := rfl
@[simp] theorem hostOffer_range : (hostOffer bs s).range = s.range := rfl
@[simp] theorem hostOffer_low : (hostOffer bs s).low = s.low := rfl
@[simp] theorem hostOffer_cache : (hostOffer bs s).cache = s.cache := rfl
@[simp] theorem hostOffer_cacheSize : (hostOffer bs s).cacheSize = s.cacheSize := rfl
@[simp] theorem hostOffer_code : (hostOffer bs s).code = s.code := rfl
@[simp] theorem hostOffer_outCount : (hostOffer bs s).outCount = s.outCount := rfl
@[simp] theorem hostOffer_inCount : (hostOffer bs s).inCount = s.inCount := rfl
@[simp] theorem hostOffer_res : (hostOffer bs s).res = s.res := rfl
@[simp] theorem hostOffer_faulted : (hostOffer bs s).faulted = s.faulted := rfl
@[simp] theorem hostOffer_faultCode : (hostOffer bs s).faultCode = s.faultCode := rfl
@[simp] theorem hostOffer_faultInfo : (hostOffer bs s).faultInfo = s.faultInfo := rfl
@[simp] theorem hostOffer_wait : (hostOffer bs s).wait = s.wait := rfl
@[simp] theorem hostOffer_prob : (hostOffer bs s).prob = s.prob := rfl
@[simp] theorem hostOffer_csp : (hostOffer bs s).csp = s.csp := rfl
@[simp] theorem hostOffer_probWords : (hostOffer bs s).probWords = s.probWords := rfl
@[simp] theorem hostOffer_cmdIn : (hostOffer bs s).cmdIn = s.cmdIn := rfl
@[simp] theorem hostOffer_byteIn : (hostOffer bs s).byteIn = s.byteIn ++ bs := rfl
@[simp] theorem hostOffer_eos : (hostOffer bs s).eos = s.eos := rfl
@[simp] theorem hostOffer_consumed : (hostOffer bs s).consumed = s.consumed := rfl
@[simp] theorem hostOffer_sinkRoom : (hostOffer bs s).sinkRoom = s.sinkRoom := rfl
@[simp] theorem hostOffer_sent : (hostOffer bs s).sent = s.sent := rfl
@[simp] theorem hostOffer_resetIn : (hostOffer bs s).resetIn = s.resetIn := rfl

end

section

variable (s : State)

@[simp] theorem hostEndInput_mode : (hostEndInput s).mode = s.mode := rfl
@[simp] theorem hostEndInput_range : (hostEndInput s).range = s.range := rfl
@[simp] theorem hostEndInput_low : (hostEndInput s).low = s.low := rfl
@[simp] theorem hostEndInput_cache : (hostEndInput s).cache = s.cache := rfl
@[simp] theorem hostEndInput_cacheSize : (hostEndInput s).cacheSize = s.cacheSize := rfl
@[simp] theorem hostEndInput_code : (hostEndInput s).code = s.code := rfl
@[simp] theorem hostEndInput_outCount : (hostEndInput s).outCount = s.outCount := rfl
@[simp] theorem hostEndInput_inCount : (hostEndInput s).inCount = s.inCount := rfl
@[simp] theorem hostEndInput_res : (hostEndInput s).res = s.res := rfl
@[simp] theorem hostEndInput_faulted : (hostEndInput s).faulted = s.faulted := rfl
@[simp] theorem hostEndInput_faultCode : (hostEndInput s).faultCode = s.faultCode := rfl
@[simp] theorem hostEndInput_faultInfo : (hostEndInput s).faultInfo = s.faultInfo := rfl
@[simp] theorem hostEndInput_wait : (hostEndInput s).wait = s.wait := rfl
@[simp] theorem hostEndInput_prob : (hostEndInput s).prob = s.prob := rfl
@[simp] theorem hostEndInput_csp : (hostEndInput s).csp = s.csp := rfl
@[simp] theorem hostEndInput_probWords : (hostEndInput s).probWords = s.probWords := rfl
@[simp] theorem hostEndInput_cmdIn : (hostEndInput s).cmdIn = s.cmdIn := rfl
@[simp] theorem hostEndInput_byteIn : (hostEndInput s).byteIn = s.byteIn := rfl
@[simp] theorem hostEndInput_eos : (hostEndInput s).eos = true := rfl
@[simp] theorem hostEndInput_consumed : (hostEndInput s).consumed = s.consumed := rfl
@[simp] theorem hostEndInput_sinkRoom : (hostEndInput s).sinkRoom = s.sinkRoom := rfl
@[simp] theorem hostEndInput_sent : (hostEndInput s).sent = s.sent := rfl
@[simp] theorem hostEndInput_resetIn : (hostEndInput s).resetIn = s.resetIn := rfl

end

section

variable (bs : List Byte) (s : State)

@[simp] theorem hostNewInput_mode : (hostNewInput bs s).mode = s.mode := rfl
@[simp] theorem hostNewInput_range : (hostNewInput bs s).range = s.range := rfl
@[simp] theorem hostNewInput_low : (hostNewInput bs s).low = s.low := rfl
@[simp] theorem hostNewInput_cache : (hostNewInput bs s).cache = s.cache := rfl
@[simp] theorem hostNewInput_cacheSize : (hostNewInput bs s).cacheSize = s.cacheSize := rfl
@[simp] theorem hostNewInput_code : (hostNewInput bs s).code = s.code := rfl
@[simp] theorem hostNewInput_outCount : (hostNewInput bs s).outCount = s.outCount := rfl
@[simp] theorem hostNewInput_inCount : (hostNewInput bs s).inCount = s.inCount := rfl
@[simp] theorem hostNewInput_res : (hostNewInput bs s).res = s.res := rfl
@[simp] theorem hostNewInput_faulted : (hostNewInput bs s).faulted = s.faulted := rfl
@[simp] theorem hostNewInput_faultCode : (hostNewInput bs s).faultCode = s.faultCode := rfl
@[simp] theorem hostNewInput_faultInfo : (hostNewInput bs s).faultInfo = s.faultInfo := rfl
@[simp] theorem hostNewInput_wait : (hostNewInput bs s).wait = s.wait := rfl
@[simp] theorem hostNewInput_prob : (hostNewInput bs s).prob = s.prob := rfl
@[simp] theorem hostNewInput_csp : (hostNewInput bs s).csp = s.csp := rfl
@[simp] theorem hostNewInput_probWords : (hostNewInput bs s).probWords = s.probWords := rfl
@[simp] theorem hostNewInput_cmdIn : (hostNewInput bs s).cmdIn = s.cmdIn := rfl
@[simp] theorem hostNewInput_byteIn : (hostNewInput bs s).byteIn = bs := rfl
@[simp] theorem hostNewInput_eos : (hostNewInput bs s).eos = false := rfl
@[simp] theorem hostNewInput_consumed : (hostNewInput bs s).consumed = s.consumed := rfl
@[simp] theorem hostNewInput_sinkRoom : (hostNewInput bs s).sinkRoom = s.sinkRoom := rfl
@[simp] theorem hostNewInput_sent : (hostNewInput bs s).sent = s.sent := rfl
@[simp] theorem hostNewInput_resetIn : (hostNewInput bs s).resetIn = s.resetIn := rfl

end

section

variable (room : Option Nat) (s : State)

@[simp] theorem hostSinkRoom_mode : (hostSinkRoom room s).mode = s.mode := rfl
@[simp] theorem hostSinkRoom_range : (hostSinkRoom room s).range = s.range := rfl
@[simp] theorem hostSinkRoom_low : (hostSinkRoom room s).low = s.low := rfl
@[simp] theorem hostSinkRoom_cache : (hostSinkRoom room s).cache = s.cache := rfl
@[simp] theorem hostSinkRoom_cacheSize : (hostSinkRoom room s).cacheSize = s.cacheSize := rfl
@[simp] theorem hostSinkRoom_code : (hostSinkRoom room s).code = s.code := rfl
@[simp] theorem hostSinkRoom_outCount : (hostSinkRoom room s).outCount = s.outCount := rfl
@[simp] theorem hostSinkRoom_inCount : (hostSinkRoom room s).inCount = s.inCount := rfl
@[simp] theorem hostSinkRoom_res : (hostSinkRoom room s).res = s.res := rfl
@[simp] theorem hostSinkRoom_faulted : (hostSinkRoom room s).faulted = s.faulted := rfl
@[simp] theorem hostSinkRoom_faultCode : (hostSinkRoom room s).faultCode = s.faultCode := rfl
@[simp] theorem hostSinkRoom_faultInfo : (hostSinkRoom room s).faultInfo = s.faultInfo := rfl
@[simp] theorem hostSinkRoom_wait : (hostSinkRoom room s).wait = s.wait := rfl
@[simp] theorem hostSinkRoom_prob : (hostSinkRoom room s).prob = s.prob := rfl
@[simp] theorem hostSinkRoom_csp : (hostSinkRoom room s).csp = s.csp := rfl
@[simp] theorem hostSinkRoom_probWords : (hostSinkRoom room s).probWords = s.probWords := rfl
@[simp] theorem hostSinkRoom_cmdIn : (hostSinkRoom room s).cmdIn = s.cmdIn := rfl
@[simp] theorem hostSinkRoom_byteIn : (hostSinkRoom room s).byteIn = s.byteIn := rfl
@[simp] theorem hostSinkRoom_eos : (hostSinkRoom room s).eos = s.eos := rfl
@[simp] theorem hostSinkRoom_consumed : (hostSinkRoom room s).consumed = s.consumed := rfl
@[simp] theorem hostSinkRoom_sinkRoom : (hostSinkRoom room s).sinkRoom = room := rfl
@[simp] theorem hostSinkRoom_sent : (hostSinkRoom room s).sent = s.sent := rfl
@[simp] theorem hostSinkRoom_resetIn : (hostSinkRoom room s).resetIn = s.resetIn := rfl

end

section

variable (level : Bool) (s : State)

@[simp] theorem hostResetLevel_mode : (hostResetLevel level s).mode = s.mode := rfl
@[simp] theorem hostResetLevel_range : (hostResetLevel level s).range = s.range := rfl
@[simp] theorem hostResetLevel_low : (hostResetLevel level s).low = s.low := rfl
@[simp] theorem hostResetLevel_cache : (hostResetLevel level s).cache = s.cache := rfl
@[simp] theorem hostResetLevel_cacheSize : (hostResetLevel level s).cacheSize = s.cacheSize := rfl
@[simp] theorem hostResetLevel_code : (hostResetLevel level s).code = s.code := rfl
@[simp] theorem hostResetLevel_outCount : (hostResetLevel level s).outCount = s.outCount := rfl
@[simp] theorem hostResetLevel_inCount : (hostResetLevel level s).inCount = s.inCount := rfl
@[simp] theorem hostResetLevel_res : (hostResetLevel level s).res = s.res := rfl
@[simp] theorem hostResetLevel_faulted : (hostResetLevel level s).faulted = s.faulted := rfl
@[simp] theorem hostResetLevel_faultCode : (hostResetLevel level s).faultCode = s.faultCode := rfl
@[simp] theorem hostResetLevel_faultInfo : (hostResetLevel level s).faultInfo = s.faultInfo := rfl
@[simp] theorem hostResetLevel_wait : (hostResetLevel level s).wait = s.wait := rfl
@[simp] theorem hostResetLevel_prob : (hostResetLevel level s).prob = s.prob := rfl
@[simp] theorem hostResetLevel_csp : (hostResetLevel level s).csp = s.csp := rfl
@[simp] theorem hostResetLevel_probWords : (hostResetLevel level s).probWords = s.probWords := rfl
@[simp] theorem hostResetLevel_cmdIn : (hostResetLevel level s).cmdIn = s.cmdIn := rfl
@[simp] theorem hostResetLevel_byteIn : (hostResetLevel level s).byteIn = s.byteIn := rfl
@[simp] theorem hostResetLevel_eos : (hostResetLevel level s).eos = s.eos := rfl
@[simp] theorem hostResetLevel_consumed : (hostResetLevel level s).consumed = s.consumed := rfl
@[simp] theorem hostResetLevel_sinkRoom : (hostResetLevel level s).sinkRoom = s.sinkRoom := rfl
@[simp] theorem hostResetLevel_sent : (hostResetLevel level s).sent = s.sent := rfl
@[simp] theorem hostResetLevel_resetIn : (hostResetLevel level s).resetIn = level := rfl

end

end Sys2Proof.Machine
end

