-- ==== Sys2Proof/Laws/Ops.lean ====
section
/-! SUPPORT. What the shared operations of Machine/Ops.lean and the checks of Machine/Operands.lean can do,
said once each. -/

namespace Sys2Proof.Machine

/-! ### Checks -/

@[simp] theorem firstFailing_nil : firstFailing [] = none := rfl

@[simp] theorem firstFailing_cons_none (cs : List Check) :
    firstFailing (none :: cs) = firstFailing cs := rfl

@[simp] theorem firstFailing_cons_some (f : FaultCode × U64) (cs : List Check) :
    firstFailing (some f :: cs) = some f := rfl

theorem afterChecks_pass {cs : List Check} {s : State}
    {run : State → Host.Outcome State Fault Refusal} (h : firstFailing cs = none) :
    afterChecks cs s run = run s := by rw [afterChecks, h]

theorem afterChecks_fail {cs : List Check} {s : State}
    {run : State → Host.Outcome State Fault Refusal} {c : FaultCode} {info : U64}
    (h : firstFailing cs = some (c, info)) :
    afterChecks cs s run = .next (enterFault c info s) := by rw [afterChecks, h]; rfl

/-- A command after its checks: the fault of a check on the untouched state, or the command's run. -/
theorem afterChecks_next {cs : List Check} {s t : State}
    {run : State → Host.Outcome State Fault Refusal} (h : afterChecks cs s run = .next t) :
    (∃ c info, firstFailing cs = some (c, info) ∧ t = enterFault c info s)
      ∨ (firstFailing cs = none ∧ run s = .next t) := by
  cases hc : firstFailing cs with
  | none => rw [afterChecks_pass hc] at h; exact .inr ⟨rfl, h⟩
  | some f =>
    rw [afterChecks_fail hc] at h
    exact .inl ⟨f.1, f.2, rfl, by simpa using h.symm⟩

theorem checkMode_pass {m : Mode} {w : Word} {s : State} (h : s.mode = m) : checkMode m w s = none :=
  if_pos h

theorem checkMode_fail {m : Mode} {w : Word} {s : State} (h : s.mode ≠ m) :
    checkMode m w s = some (.wrongMode, w) := if_neg h

@[simp] theorem checkOperand_true (w : Word) : checkOperand true w = none := rfl

@[simp] theorem checkOperand_false (w : Word) : checkOperand false w = some (.operandRange, w) := rfl

theorem checkSpan_pass {a n : Nat} {s : State} (h : a + n ≤ s.probWords) : checkSpan a n s = none :=
  if_pos h

theorem checkSpan_fail {a n : Nat} {s : State} (h : s.probWords < a + n) :
    checkSpan a n s = some (.probAddrRange, BitVec.ofNat 64 (max a s.probWords)) :=
  if_neg (Nat.not_le.2 h)

theorem checkDefined_pass {a n : Nat} {s : State} (hm : s.prob.wf)
    (h : ∀ x, a ≤ x → x < a + n → (memRead s.prob x).isSome = true) : checkDefined a n s = none := by
  rw [checkDefined, (memFirstGap_eq_none hm).2 h]; rfl

theorem checkDefined_fail {a n x : Nat} {s : State} (hm : s.prob.wf) (h1 : a ≤ x) (h2 : x < a + n)
    (h3 : memRead s.prob x = none) (h4 : ∀ y, a ≤ y → y < x → (memRead s.prob y).isSome = true) :
    checkDefined a n s = some (.uninitProb, BitVec.ofNat 64 x) := by
  rw [checkDefined, (memFirstGap_eq_some hm).2 ⟨h1, h2, h3, h4⟩]; rfl

/-! ### The ends of a command -/

theorem complete_eq (s : State) : complete s = .next { s with wait := none, csp := s.csp + 1 } := rfl

theorem completeWith_eq (r : U32) (s : State) :
    completeWith r s = .next { s with res := r, wait := none, csp := s.csp + 1 } := rfl

theorem raiseFault_eq (c : FaultCode) (info : U64) (s : State) :
    raiseFault c info s = .next (enterFault c info s) := rfl

theorem stallAt_eq (w : Wait) (s : State) : stallAt w s = .next { s with wait := some w } := rfl

/-- Every fault code is 1 to 8 (`60_exceptions.md` R341, U3). -/
theorem faultBits_bounds (c : FaultCode) : 1 ≤ (faultBits c).toNat ∧ (faultBits c).toNat ≤ 8 := by
  cases c <;> decide

/-! ### The counters -/

theorem eq_counterMax {x : U64} : x = counterMax ↔ x.toNat = 2 ^ 64 - 1 :=
  ⟨fun h => by rw [h]; rfl, fun h => BitVec.eq_of_toNat_eq (h.trans rfl)⟩

theorem ne_counterMax {x : U64} : x ≠ counterMax ↔ x.toNat + 1 < 2 ^ 64 := by
  rw [Ne, eq_counterMax]; have := x.isLt; omega

/-- A counter below its last value counts one more. -/
theorem toNat_add_one {x : U64} (h : x ≠ counterMax) : (x + 1).toNat = x.toNat + 1 := by
  have := ne_counterMax.1 h
  rw [BitVec.toNat_add]
  exact Nat.mod_eq_of_lt this

/-- A count of at least 1 counts one less. -/
theorem toNat_sub_one {x : U64} (h : 1 ≤ x.toNat) : (x - 1).toNat = x.toNat - 1 := by
  have := x.isLt
  rw [BitVec.toNat_sub]
  show (2 ^ 64 - 1 + x.toNat) % 2 ^ 64 = x.toNat - 1
  omega

/-! ### The ports -/

/-- ReadByte yields a byte only by taking the first one offered. -/
theorem readByte_ok {s t : State} {b : Byte} (h : readByte s = .ok b t) :
    ∃ rest, s.byteIn = b :: rest ∧ s.inCount ≠ counterMax
      ∧ t = { s with byteIn := rest, consumed := s.consumed ++ [b], inCount := s.inCount + 1 } := by
  unfold readByte at h
  split at h
  · rename_i c rest hb
    split at h
    · cases h
    · cases h; exact ⟨rest, hb, by assumption, rfl⟩
  · split at h <;> cases h

/-- ReadByte faults on the state it found. -/
theorem readByte_raise {s t : State} {c : FaultCode} {info : U64} (h : readByte s = .raise c info t) :
    t = s ∧ ((c = .counterOverflow ∧ info = 1 ∧ s.byteIn ≠ [] ∧ s.inCount = counterMax)
      ∨ (c = .truncatedInput ∧ info = s.inCount ∧ s.byteIn = [] ∧ s.eos = true)) := by
  unfold readByte at h
  split at h
  · rename_i b rest hb
    split at h
    · cases h; exact ⟨rfl, .inl ⟨rfl, rfl, by simp [hb], by assumption⟩⟩
    · cases h
  · rename_i hb
    split at h <;> cases h
    exact ⟨rfl, .inr ⟨rfl, rfl, hb, by assumption⟩⟩

/-- ReadByte stalls only with nothing offered and no EOS, and changes nothing. -/
theorem readByte_stall {s t : State} {u : Unit} (h : readByte s = .stall u t) :
    t = s ∧ s.byteIn = [] ∧ s.eos = false := by
  unfold readByte at h
  split at h
  · split at h <;> cases h
  · rename_i hb
    split at h
    · cases h
    · rename_i he; cases h; exact ⟨rfl, hb, by simpa using he⟩

theorem readByte_ne_stuck (s : State) (f : Fault) : readByte s ≠ .stuck f := by
  unfold readByte; split <;> split <;> simp

/-- ReadByte with a byte offered and room in IN_COUNT. -/
theorem readByte_offered {s : State} {b : Byte} {rest : List Byte} (h : s.byteIn = b :: rest)
    (hc : s.inCount ≠ counterMax) :
    readByte s = .ok b
      { s with byteIn := rest, consumed := s.consumed ++ [b], inCount := s.inCount + 1 } := by
  unfold readByte; rw [h]; simp [hc]

/-- WriteByte hands over a byte only to a ready sink, and only with room in OUT_COUNT. -/
theorem writeByte_ok {s t : State} {b : Byte} {u : Unit} (h : writeByte b s = .ok u t) :
    s.outCount ≠ counterMax ∧ s.sinkRoom ≠ some 0
      ∧ t = { s with sent := s.sent ++ [b], outCount := s.outCount + 1,
                     sinkRoom := s.sinkRoom.map (fun k => k - 1) } := by
  unfold writeByte at h
  split at h
  · cases h
  · split at h
    · rename_i hn hr
      cases h
      exact ⟨hn, by simpa [sinkReady] using hr, rfl⟩
    · cases h

theorem writeByte_raise {s t : State} {b : Byte} {c : FaultCode} {info : U64}
    (h : writeByte b s = .raise c info t) :
    t = s ∧ c = .counterOverflow ∧ info = 0 ∧ s.outCount = counterMax := by
  unfold writeByte at h
  split at h
  · cases h; exact ⟨rfl, rfl, rfl, by assumption⟩
  · split at h <;> cases h

/-- WriteByte stalls only while the sink is not ready, and changes nothing. -/
theorem writeByte_stall {s t : State} {b : Byte} {u : Unit} (h : writeByte b s = .stall u t) :
    t = s ∧ s.outCount ≠ counterMax ∧ s.sinkRoom = some 0 := by
  unfold writeByte at h
  split at h
  · cases h
  · split at h
    · cases h
    · rename_i hn hr
      cases h; exact ⟨rfl, hn, by simpa [sinkReady] using hr⟩

theorem writeByte_ne_stuck (b : Byte) (s : State) (f : Fault) : writeByte b s ≠ .stuck f := by
  unfold writeByte; split
  · simp
  · split <;> simp

/-- `P[a]` yields a value only for a defined word in range. -/
theorem readProb_ok {s : State} {a : Nat} {p : Prob} :
    readProb a s = .ok p ↔ a < s.probWords ∧ memRead s.prob a = some p := by
  unfold readProb
  by_cases h : s.probWords ≤ a
  · simp [h]
  · cases hm : memRead s.prob a <;> simp [h, Nat.not_le.1 h]

/-- `P[a]` faults with PROB_ADDR_RANGE or UNINIT_PROB. -/
theorem readProb_error {s : State} {a : Nat} {e : FaultCode × U64} (h : readProb a s = .error e) :
    (e = (.probAddrRange, BitVec.ofNat 64 a) ∧ s.probWords ≤ a)
      ∨ (e = (.uninitProb, BitVec.ofNat 64 a) ∧ a < s.probWords ∧ memRead s.prob a = none) := by
  unfold readProb at h
  split at h
  · cases h; exact .inl ⟨rfl, by assumption⟩
  · split at h
    · cases h; exact .inr ⟨rfl, by omega, by assumption⟩
    · cases h

end Sys2Proof.Machine
end

