-- ==== Sys2Proof/Laws/Decoder.lean ====
section
/-! SUPPORT. What a decoder operation can do, said once for each: the state it answers, in every outcome,
differs from the one before only in the decoder's registers, the words of P it decodes with and the bytes
it took from the input port. -/

namespace Sys2Proof.Machine

/-- What a decoder operation may change from `s` to `t`. -/
structure DecFrame (s t : State) : Prop where
  rest : t = { s with range := t.range, code := t.code, inCount := t.inCount, prob := t.prob,
                      byteIn := t.byteIn, consumed := t.consumed }
  bytes : ∃ bs : List Byte, s.byteIn = bs ++ t.byteIn ∧ t.consumed = s.consumed ++ bs
    ∧ t.inCount.toNat = s.inCount.toNat + bs.length

/-- No byte taken: the registers alone changed. -/
theorem DecFrame.of_registers {s t : State}
    (h : t = { s with range := t.range, code := t.code, prob := t.prob }) : DecFrame s t where
  rest := by rw [h]
  bytes := ⟨[], by rw [h]; simp⟩

theorem DecFrame.refl (s : State) : DecFrame s s := .of_registers rfl

theorem DecFrame.trans {s t u : State} (h : DecFrame s t) (k : DecFrame t u) : DecFrame s u where
  rest := by rw [k.rest, h.rest]
  bytes := by
    obtain ⟨bs, h1, h2, h3⟩ := h.bytes
    obtain ⟨cs, k1, k2, k3⟩ := k.bytes
    refine ⟨bs ++ cs, by rw [h1, k1, List.append_assoc], by rw [k2, h2, List.append_assoc], ?_⟩
    rw [k3, h3, List.length_append]; omega

/-- One byte read. -/
theorem readByte_frame {s t : State} {b : Byte} (h : readByte s = .ok b t) : DecFrame s t := by
  obtain ⟨rest, hb, hc, rfl⟩ := readByte_ok h
  exact ⟨rfl, [b], hb, rfl, toNat_add_one hc⟩

theorem splitDec_frame (p : Prob) (b : Bool) (s : State) : DecFrame s (splitDec p b s) :=
  .of_registers (by cases b <;> rfl)

theorem halveDec_frame (b : Bool) (s : State) : DecFrame s (halveDec b s) :=
  .of_registers (by cases b <;> rfl)

/-- How NormDec ends from `s`: in a frame of it; a stall needs an empty port without EOS. -/
def NormDecEnds (s : State) : Flow Unit Unit → Prop
  | .ok _ t => DecFrame s t
  | .stall _ t => DecFrame s t ∧ t.byteIn = [] ∧ t.eos = false
  | .raise c info t => DecFrame s t ∧ ((c = .counterOverflow ∧ info = 1)
      ∨ (c = .truncatedInput ∧ info = t.inCount))
  | .stuck _ => True

theorem NormDecEnds.of_frame {s u : State} {f : Flow Unit Unit} (h : DecFrame s u)
    (k : NormDecEnds u f) : NormDecEnds s f := by
  cases f with
  | ok _ t => exact DecFrame.trans h k
  | stall _ t => exact ⟨h.trans k.1, k.2⟩
  | raise c info t => exact ⟨h.trans k.1, k.2⟩
  | stuck f => trivial

theorem normDec_ends (turns : Nat) (s : State) : NormDecEnds s (normDec turns s) := by
  induction turns generalizing s with
  | zero => trivial
  | succ n ih =>
    rw [normDec]
    by_cases hr : s.range.toNat < top
    · rw [if_pos hr]
      cases h : readByte s with
      | ok b t =>
        have step : DecFrame s { t with code := (t.code <<< 8) ||| b.setWidth 32, range := t.range <<< 8 } :=
          (readByte_frame h).trans (.of_registers rfl)
        exact (ih _).of_frame step
      | stall _ t =>
        obtain ⟨rfl, hb, he⟩ := readByte_stall h
        exact ⟨.refl _, hb, he⟩
      | raise c info t =>
        obtain ⟨rfl, hx⟩ := readByte_raise h
        refine ⟨.refl _, ?_⟩
        rcases hx with ⟨hc, hi, -⟩ | ⟨hc, hi, -⟩
        · exact .inl ⟨hc, hi⟩
        · exact .inr ⟨hc, hi⟩
      | stuck f => exact absurd h (readByte_ne_stuck s f)
    · rw [if_neg hr]; exact DecFrame.refl s

/-- How a decoder command ends from `s`: in a state `u` it reached, completed with a result, faulted there,
or waiting there for a byte with the port empty and no EOS. -/
def DecEnds (s t : State) : Prop :=
  ∃ u, DecFrame s u ∧ ((∃ r, t = { u with res := r, wait := none, csp := u.csp + 1 })
    ∨ (∃ c info, t = enterFault c info u ∧ c ≠ .illegalCommand)
    ∨ ∃ w, t = { u with wait := some w } ∧ u.byteIn = [] ∧ u.eos = false)

theorem DecEnds.of_frame {s u t : State} (h : DecFrame s u) (k : DecEnds u t) : DecEnds s t := by
  obtain ⟨v, hv, hend⟩ := k
  exact ⟨v, h.trans hv, hend⟩

theorem decEnds_completeWith {r : U32} {s t : State} (h : completeWith r s = .next t) : DecEnds s t := by
  rw [completeWith_eq] at h
  exact ⟨s, .refl s, .inl ⟨r, by simpa using h.symm⟩⟩

/-- NormDec and a continuation that ends as a decoder command does. -/
theorem normThen_ends {rest : DecRest} {k : State → Host.Outcome State Fault Refusal} {s t : State}
    (hk : ∀ u v, k u = .next v → DecEnds u v) (h : normThen rest k s = .next t) : DecEnds s t := by
  unfold normThen at h
  have hn := normDec_ends renormTurns s
  cases hr : normDec renormTurns s with
  | ok _ u => rw [hr] at h hn; exact .of_frame hn (hk u t h)
  | stall _ u =>
    rw [hr] at h hn
    exact ⟨u, hn.1, .inr (.inr ⟨_, by simpa [stallAt_eq] using h.symm, hn.2⟩)⟩
  | raise c info u =>
    rw [hr] at h hn
    refine ⟨u, hn.1, .inr (.inl ⟨c, info, by simpa [raiseFault_eq] using h.symm, ?_⟩)⟩
    rcases hn.2 with ⟨rfl, -⟩ | ⟨rfl, -⟩ <;> decide
  | stuck f => rw [hr] at h; cases h

/-- DecBit and a continuation that ends as a decoder command does. -/
theorem decBitThen_ends {a : Nat} {rest : Bool → DecRest}
    {k : Bool → State → Host.Outcome State Fault Refusal} {s t : State}
    (hk : ∀ b u v, k b u = .next v → DecEnds u v) (h : decBitThen a rest k s = .next t) : DecEnds s t := by
  unfold decBitThen at h
  cases hp : readProb a s with
  | ok p =>
    rw [hp] at h
    have step : DecFrame s (writeProb a (updateProb p (decodedBit p s)) (splitDec p (decodedBit p s) s)) :=
      (splitDec_frame p _ s).trans (.of_registers rfl)
    exact .of_frame step (normThen_ends (hk _) h)
  | error e =>
    rw [hp] at h
    refine ⟨s, .refl s, .inr (.inl ⟨e.1, e.2, by simpa [raiseFault_eq] using h.symm, ?_⟩)⟩
    rcases readProb_error hp with ⟨he, -⟩ | ⟨he, -⟩ <;> rw [he] <;> simp

theorem decBitEnd_ends {b : Bool} {s t : State} (h : decBitEnd b s = .next t) : DecEnds s t :=
  decEnds_completeWith h

theorem decDirectLoop_ends (left : Nat) : ∀ (r : U32) (s t : State),
    decDirectLoop left r s = .next t → DecEnds s t := by
  induction left with
  | zero => intro r s t h; exact decEnds_completeWith h
  | succ n ih =>
    intro r s t h
    rw [decDirectLoop] at h
    simp only at h
    split at h
    · refine ⟨halveDec (directBitOf s) s, halveDec_frame _ s, .inr (.inl ⟨.corruptStream,
        (halveDec (directBitOf s) s).inCount, by simpa [raiseFault_eq] using h.symm, by decide⟩)⟩
    · exact .of_frame (halveDec_frame _ s) (normThen_ends (ih _) h)

theorem decTreeLoop_ends (b : AddrField) (d left : Nat) : ∀ (m : Nat) (s t : State),
    decTreeLoop b d left m s = .next t → DecEnds s t := by
  induction left with
  | zero => intro m s t h; exact decEnds_completeWith h
  | succ n ih => intro m s t h; exact decBitThen_ends (fun x u v => ih _ u v) h

theorem decRevTreeLoop_ends (b : AddrField) (d left : Nat) : ∀ (m : Nat) (r : U32) (s t : State),
    decRevTreeLoop b d left m r s = .next t → DecEnds s t := by
  induction left with
  | zero => intro m r s t h; exact decEnds_completeWith h
  | succ n ih => intro m r s t h; exact decBitThen_ends (fun x u v => ih _ _ u v) h

/-! ### DEC_INIT -/

/-- How DEC_INIT's reading ends from `s`: as a decoder command does, but RES is never written. -/
def DecInitEnds (s t : State) : Prop :=
  ∃ u, DecFrame s u ∧ (t = { u with wait := none, csp := u.csp + 1 }
    ∨ (∃ c info, t = enterFault c info u ∧ (c = .counterOverflow ∨ c = .truncatedInput ∨ c = .corruptStream))
    ∨ ∃ w, t = { u with wait := some w } ∧ u.byteIn = [] ∧ u.eos = false)

theorem DecInitEnds.of_frame {s u t : State} (h : DecFrame s u) (k : DecInitEnds u t) :
    DecInitEnds s t := by
  obtain ⟨v, hv, hend⟩ := k
  exact ⟨v, h.trans hv, hend⟩

/-- A ReadByte that does not yield a byte ends DEC_INIT where it stands. -/
theorem readByte_initEnds {s t : State} {w : Wait} {f : Byte → State → Host.Outcome State Fault Refusal}
    (hf : ∀ b u, DecFrame s u → f b u = .next t → DecInitEnds u t)
    (h : (match readByte s with
      | .ok b s' => f b s'
      | .stall _ s' => stallAt w s'
      | .raise c info s' => raiseFault c info s'
      | .stuck e => .fault e) = .next t) : DecInitEnds s t := by
  cases hr : readByte s with
  | ok b u =>
    rw [hr] at h
    exact .of_frame (readByte_frame hr) (hf b u (readByte_frame hr) h)
  | stall _ u =>
    rw [hr] at h
    obtain ⟨rfl, hb, he⟩ := readByte_stall hr
    exact ⟨_, .refl _, .inr (.inr ⟨w, by simpa [stallAt_eq] using h.symm, hb, he⟩)⟩
  | raise c info u =>
    rw [hr] at h
    obtain ⟨rfl, hx⟩ := readByte_raise hr
    refine ⟨_, .refl _, .inr (.inl ⟨c, info, by simpa [raiseFault_eq] using h.symm, ?_⟩)⟩
    rcases hx with ⟨hc, -⟩ | ⟨hc, -⟩
    · exact .inl hc
    · exact .inr (.inl hc)
  | stuck f => exact absurd hr (readByte_ne_stuck s f)

theorem decInitEnd_ends {first : Byte} {s t : State} (h : decInitEnd first s = .next t) :
    DecInitEnds s t := by
  unfold decInitEnd at h
  split at h
  · exact ⟨s, .refl s, .inr (.inl ⟨_, _, by simpa [raiseFault_eq] using h.symm, .inr (.inr rfl)⟩)⟩
  · exact ⟨s, .refl s, .inl (by simpa [complete_eq] using h.symm)⟩

theorem decInitRest_ends (left : Nat) (first : Byte) : ∀ s t : State,
    decInitRest left first s = .next t → DecInitEnds s t := by
  induction left with
  | zero => intro s t h; exact decInitEnd_ends h
  | succ n ih =>
    intro s t h
    exact readByte_initEnds (fun b u _ hk =>
      .of_frame (.of_registers rfl : DecFrame u (pushCode b u)) (ih _ t hk)) h

theorem decInitFirst_ends {s t : State} (h : decInitFirst s = .next t) : DecInitEnds s t :=
  readByte_initEnds (fun b u _ hk =>
    .of_frame (.of_registers rfl : DecFrame u { u with code := b.setWidth 32 })
      (decInitRest_ends _ _ _ t hk)) h

/-! ### Going on -/

/-- The rest of a stalled decoder command. -/
theorem decContinue_ends {rest : DecRest} {s t : State} (h : decContinue rest s = .next t) :
    DecEnds s t := by
  cases rest with
  | bit b => exact decBitEnd_ends h
  | direct left r => exact decDirectLoop_ends left r s t h
  | tree b d left m => exact decTreeLoop_ends b d left m s t h
  | revTree b d left m r => exact decRevTreeLoop_ends b d left m r s t h

end Sys2Proof.Machine
end

