-- ==== Sys2Proof/Laws/Encoder.lean ====
section
/-! SUPPORT. What an encoder operation can do, said once for each: the state it answers, in every outcome,
differs from the one before only in the encoder's registers, the words of P it codes with and the bytes the
sink took. -/

namespace Sys2Proof.Machine

/-- The state of a flow, in whichever way it ends, satisfies `P`; and no micro-operation raises
ILLEGAL_COMMAND. -/
def Flow.Sat {α ω : Type} (P : State → Prop) : Flow α ω → Prop
  | .ok _ t => P t
  | .stall _ t => P t
  | .raise c _ t => P t ∧ c ≠ .illegalCommand
  | .stuck _ => True

theorem Flow.Sat.imp {α ω : Type} {P Q : State → Prop} {f : Flow α ω} (h : f.Sat P)
    (i : ∀ t, P t → Q t) : f.Sat Q := by
  cases f with
  | ok _ t => exact i t h
  | stall _ t => exact i t h
  | raise _ _ t => exact ⟨i t h.1, h.2⟩
  | stuck _ => trivial

/-- What an encoder operation may change from `s` to `t`. -/
structure EncFrame (s t : State) : Prop where
  rest : t = { s with mode := t.mode, range := t.range, low := t.low, cache := t.cache,
                      cacheSize := t.cacheSize, outCount := t.outCount, sent := t.sent,
                      sinkRoom := t.sinkRoom, prob := t.prob }
  bytes : ∃ bs : List Byte, t.sent = s.sent ++ bs
    ∧ t.outCount.toNat = s.outCount.toNat + bs.length
    ∧ (∀ room, s.sinkRoom = some room → bs.length ≤ room)
    ∧ t.sinkRoom = s.sinkRoom.map (fun room => room - bs.length)

/-- No byte sent: the registers alone changed. -/
theorem EncFrame.of_registers {s t : State}
    (h : t = { s with mode := t.mode, range := t.range, low := t.low, cache := t.cache,
                      cacheSize := t.cacheSize, prob := t.prob }) : EncFrame s t where
  rest := by rw [h]
  bytes := ⟨[], by rw [h]; simp⟩

theorem EncFrame.refl (s : State) : EncFrame s s := .of_registers rfl

theorem EncFrame.trans {s t u : State} (h : EncFrame s t) (k : EncFrame t u) : EncFrame s u where
  rest := by rw [k.rest, h.rest]
  bytes := by
    obtain ⟨bs, h1, h2, h3, h4⟩ := h.bytes
    obtain ⟨cs, k1, k2, k3, k4⟩ := k.bytes
    refine ⟨bs ++ cs, by rw [k1, h1, List.append_assoc], by rw [k2, h2, List.length_append]; omega, ?_, ?_⟩
    · intro room hr
      have := h3 room hr
      have := k3 (room - bs.length) (by rw [h4, hr]; rfl)
      rw [List.length_append]; omega
    · rw [k4, h4, Option.map_map, List.length_append]
      congr 1; funext room; simp only [Function.comp_apply]; omega

theorem writeByte_frame (b : Byte) (s : State) : (writeByte b s).Sat (EncFrame s) := by
  cases h : writeByte b s with
  | ok _ t =>
    obtain ⟨hc, hr, rfl⟩ := writeByte_ok h
    refine ⟨rfl, [b], rfl, ?_, ?_, rfl⟩
    · exact toNat_add_one hc
    · intro room h0
      have : room ≠ 0 := fun e => hr (by rw [h0, e])
      simp only [List.length_cons, List.length_nil]; omega
  | stall _ t => obtain ⟨rfl, -⟩ := writeByte_stall h; exact .refl _
  | raise _ _ t => obtain ⟨rfl, rfl, -⟩ := writeByte_raise h; exact ⟨.refl _, by decide⟩
  | stuck f => trivial

theorem shiftEnd_frame (s : State) : (shiftEnd s).Sat (EncFrame s) := by
  unfold shiftEnd; split
  · exact ⟨.refl s, by decide⟩
  · exact .of_registers rfl

theorem sendPending_frame (n : Nat) (temp : Byte) (s : State) :
    (sendPending n temp s).Sat (EncFrame s) := by
  induction n generalizing temp s with
  | zero => exact .refl s
  | succ n ih =>
    rw [sendPending]
    have hw := writeByte_frame (temp + carryByte s) s
    cases h : writeByte (temp + carryByte s) s <;> rw [h] at hw <;> simp only
    case ok _ t =>
      have step : EncFrame t { t with cacheSize := t.cacheSize - 1 } := .of_registers rfl
      exact (ih 0xFF { t with cacheSize := t.cacheSize - 1 }).imp fun u hu =>
        EncFrame.trans hw (step.trans hu)
    all_goals exact hw

theorem sendFrom_frame (temp : Byte) (s : State) : (sendFrom temp s).Sat (EncFrame s) := by
  unfold sendFrom; split
  · trivial
  · have hp := sendPending_frame s.cacheSize.toNat temp s
    cases h : sendPending s.cacheSize.toNat temp s <;> rw [h] at hp <;> simp only
    case ok _ t =>
      have step : EncFrame t { t with cache := t.low.extractLsb' 24 8 } := .of_registers rfl
      exact (shiftEnd_frame _).imp fun u hu => EncFrame.trans hp (step.trans hu)
    all_goals exact hp

theorem shiftLow_frame (s : State) : (shiftLow s).Sat (EncFrame s) := by
  unfold shiftLow; split
  · exact sendFrom_frame _ s
  · exact shiftEnd_frame s

theorem normEnc_frame (turns : Nat) (s : State) : (normEnc turns s).Sat (EncFrame s) := by
  induction turns generalizing s with
  | zero => trivial
  | succ n ih =>
    rw [normEnc]; split
    · have step : EncFrame s { s with range := s.range <<< 8 } := .of_registers rfl
      have hs := shiftLow_frame { s with range := s.range <<< 8 }
      cases h : shiftLow { s with range := s.range <<< 8 } <;> rw [h] at hs <;> simp only
      case ok _ t => exact (ih t).imp fun u hu => step.trans (EncFrame.trans hs hu)
      case stall _ t => exact step.trans hs
      case raise _ _ t => exact ⟨step.trans hs.1, hs.2⟩
      case stuck => trivial
    · exact .refl s

theorem splitEnc_frame (p : Prob) (b : Bool) (s : State) : EncFrame s (splitEnc p b s) :=
  .of_registers (by cases b <;> rfl)

theorem halveEnc_frame (b : Bool) (s : State) : EncFrame s (halveEnc b s) :=
  .of_registers (by cases b <;> rfl)

theorem runEncOp_frame (op : EncOp) (s : State) : (runEncOp op s).Sat (EncFrame s) := by
  cases op with
  | modelBit a b =>
    show (encBitOp a b s).Sat _
    unfold encBitOp
    split
    · rename_i p hp
      have step : EncFrame s (writeProb a (updateProb p b) (splitEnc p b s)) :=
        (splitEnc_frame p b s).trans (.of_registers rfl)
      exact (normEnc_frame _ _).imp fun t ht => step.trans ht
    · rename_i c info he
      refine ⟨.refl s, ?_⟩
      rcases readProb_error he with ⟨h, -⟩ | ⟨h, -⟩ <;> cases h <;> decide
  | directBit b => exact (normEnc_frame _ _).imp fun t ht => (halveEnc_frame b s).trans ht
  | norm => exact normEnc_frame _ s
  | shift => exact shiftLow_frame s
  | send temp => exact sendFrom_frame temp s
  | close => exact .of_registers rfl

/-- How an encoder command ends from `s`: in a state `u` its operations reached, completed, faulted there,
or waiting there. -/
def EncEnds (s t : State) : Prop :=
  ∃ u, EncFrame s u ∧ (t = { u with wait := none, csp := u.csp + 1 }
    ∨ (∃ c info, t = enterFault c info u ∧ c ≠ .illegalCommand)
    ∨ ∃ left, t = { u with wait := some (.enc left) })

theorem runEnc_ends {ops : List EncOp} {s t : State} (h : runEnc ops s = .next t) : EncEnds s t := by
  induction ops generalizing s with
  | nil =>
    rw [runEnc, complete_eq] at h
    exact ⟨s, .refl s, .inl (by simpa using h.symm)⟩
  | cons op ops ih =>
    have hf := runEncOp_frame op s
    rw [runEnc] at h
    cases hr : runEncOp op s <;> rw [hr] at h hf <;> simp only at h
    case ok _ u =>
      obtain ⟨v, hv, hend⟩ := ih h
      exact ⟨v, EncFrame.trans hf hv, hend⟩
    case stall left u =>
      rw [stallAt_eq] at h
      exact ⟨u, hf, .inr (.inr ⟨left ++ ops, by simpa using h.symm⟩)⟩
    case raise c info u =>
      rw [raiseFault_eq] at h
      exact ⟨u, hf.1, .inr (.inl ⟨c, info, by simpa using h.symm, hf.2⟩)⟩
    case stuck => cases h

end Sys2Proof.Machine
end

