-- ==== Sys2Proof/Laws/EncoderResults.lean ====
section
/-! SUPPORT. The encoder's micro-operations against their results as arithmetic (Safety.lean), when the sink
takes what they send. -/

namespace Sys2Proof.Machine

/-- The carry of R205 as a number. -/
theorem carryByte_toNat (s : State) : (carryByte s).toNat = s.low.toNat / 2 ^ 32 := by
  have := s.low.isLt
  simp only [carryByte, BitVec.toNat_setWidth, BitVec.extractLsb'_toNat, Nat.shiftRight_eq_div_pow]
  omega

theorem sendsNow_iff (s : State) :
    sendsNow s = true ↔ s.low.toNat % 2 ^ 32 < 0xFF000000 ∨ s.low.toNat / 2 ^ 32 = 1 := by
  have := s.low.isLt
  simp only [sendsNow, Bool.or_eq_true, decide_eq_true_eq, BitVec.extractLsb'_toNat,
    Nat.shiftRight_eq_div_pow, BitVec.getLsbD, Nat.testBit_eq_decide_div_mod_eq]
  omega

/-- ShiftLow's new LOW: its low 24 bits, one byte up. -/
theorem shiftedLow_eq (x : BitVec 33) :
    (x.extractLsb' 0 24 ++ (0 : BitVec 8)).setWidth 33 = BitVec.ofNat 33 (x.toNat % 2 ^ 24 * 2 ^ 8) := by
  apply BitVec.eq_of_toNat_eq
  rw [BitVec.toNat_setWidth, BitVec.toNat_append, BitVec.extractLsb'_toNat]
  simp [Nat.shiftLeft_eq]

theorem ofNat_add_one (n : Nat) : BitVec.ofNat 64 n + 1 = BitVec.ofNat 64 (n + 1) := by
  apply BitVec.eq_of_toNat_eq; simp

/-- The bytes of R205's loop, `n` of them from `temp`. -/
def loopBytes (temp : Byte) (carry : Byte) : Nat → List Byte
  | 0 => []
  | n + 1 => (temp + carry) :: List.replicate n (0xFF + carry)

theorem loopBytes_length (temp carry : Byte) (n : Nat) : (loopBytes temp carry n).length = n := by
  cases n <;> simp [loopBytes]

/-- A ready sink takes the byte. -/
theorem writeByte_ready {b : Byte} {s : State} (hc : s.outCount.toNat + 1 < 2 ^ 64)
    (hr : ∀ room, s.sinkRoom = some room → 1 ≤ room) :
    writeByte b s = .ok () { s with
      sent := s.sent ++ [b], outCount := s.outCount + 1, sinkRoom := s.sinkRoom.map (fun k => k - 1) } := by
  have h0 : s.sinkRoom ≠ some 0 := fun e => absurd (hr 0 e) (by omega)
  rw [writeByte, if_neg (ne_counterMax.2 hc), if_pos (by simp [sinkReady, h0])]

/-- R205's loop with a sink that takes all of it. -/
theorem sendPending_ready (n : Nat) (temp : Byte) (s : State) (hn : n ≤ s.cacheSize.toNat)
    (hc : s.outCount.toNat + n < 2 ^ 64) (hr : ∀ room, s.sinkRoom = some room → n ≤ room) :
    sendPending n temp s = .ok () { s with
      sent := s.sent ++ loopBytes temp (carryByte s) n
      outCount := s.outCount + BitVec.ofNat 64 n
      cacheSize := s.cacheSize - BitVec.ofNat 64 n
      sinkRoom := s.sinkRoom.map (fun k => k - n) } := by
  induction n generalizing temp s with
  | zero =>
    rw [sendPending]
    cases s; simp [loopBytes]
  | succ n ih =>
    have hr1 : ∀ room, s.sinkRoom = some room → 1 ≤ room := fun r h => by have := hr r h; omega
    rw [sendPending, writeByte_ready (by omega) hr1]
    have hne := ne_counterMax.2 (show s.outCount.toNat + 1 < 2 ^ 64 by omega)
    simp only
    rw [ih]
    · have hb : carryByte { s with
          sent := s.sent ++ [temp + carryByte s], outCount := s.outCount + 1,
          sinkRoom := s.sinkRoom.map (fun k => k - 1), cacheSize := s.cacheSize - 1 } = carryByte s := rfl
      have e1 : s.outCount + 1 + BitVec.ofNat 64 n = s.outCount + BitVec.ofNat 64 (n + 1) := by
        rw [BitVec.add_assoc, BitVec.add_comm 1, ofNat_add_one]
      have e2 : s.cacheSize - 1 - BitVec.ofNat 64 n = s.cacheSize - BitVec.ofNat 64 (n + 1) := by
        rw [BitVec.sub_sub, BitVec.add_comm 1, ofNat_add_one]
      have e3 : loopBytes 0xFF (carryByte s) n = List.replicate n (0xFF + carryByte s) := by
        cases n <;> simp [loopBytes, List.replicate_succ]
      simp only [hb, e1, e2, e3, loopBytes.eq_2, Option.map_map, List.append_assoc, List.singleton_append]
      congr 3
      funext k; simp only [Function.comp_apply]; omega
    · rw [toNat_sub_one (by omega)]; omega
    · show (s.outCount + 1).toNat + n < 2 ^ 64
      rw [toNat_add_one hne]; omega
    · intro room h
      simp only [Option.map_eq_some_iff] at h
      obtain ⟨r, h1, rfl⟩ := h
      have := hr r h1; omega

/-! ### The counters of the closed forms -/

/-- No counter ends while there is room for the bytes owed and one more. -/
theorem shiftOverflow_eq_none {s : State} (h : s.outCount.toNat + s.cacheSize.toNat + 1 < 2 ^ 64) :
    shiftOverflow s = none := by
  have hc : s.cacheSize ≠ 0xFFFFFFFFFFFFFFFF := ne_counterMax.2 (by omega)
  have hf : s.cacheSize.toNat ≤ 2 ^ 64 - 1 - s.outCount.toNat := by omega
  simp only [shiftOverflow, if_pos hf, if_neg hc, ite_self]

/-- A ShiftLow adds one to the bytes sent and owed, and at least one byte stays owed. -/
theorem shiftedOut_counts {s : State} (h : s.outCount.toNat + s.cacheSize.toNat + 1 < 2 ^ 64) :
    1 ≤ (shiftedOut s).cacheSize.toNat ∧ (shiftedOut s).outCount.toNat + (shiftedOut s).cacheSize.toNat
      = s.outCount.toNat + s.cacheSize.toNat + 1 := by
  unfold shiftedOut
  by_cases hs : Sends s
  · rw [if_pos hs]
    simp only [BitVec.toNat_add]
    have h1 : (1 : U64).toNat = 1 := rfl
    rw [h1]
    omega
  · rw [if_neg hs]
    have := toNat_add_one (ne_counterMax.2 (show s.cacheSize.toNat + 1 < 2 ^ 64 by omega))
    exact ⟨by rw [this]; omega, by rw [this, Nat.add_assoc]⟩

/-- One renormalization step: it runs into no counter's end, and adds at most one. -/
theorem renormalizedEnc_counts {s : State} (h : s.outCount.toNat + s.cacheSize.toNat + 1 < 2 ^ 64) :
    renormOverflow s = none ∧ (renormalizedEnc s).outCount.toNat + (renormalizedEnc s).cacheSize.toNat
      ≤ s.outCount.toNat + s.cacheSize.toNat + 1 := by
  unfold renormOverflow renormalizedEnc
  split
  · exact ⟨shiftOverflow_eq_none (s := rangeShifted s) h, (shiftedOut_counts (s := rangeShifted s) h).2.le⟩
  · exact ⟨rfl, by omega⟩

/-- A walk runs into no counter's end while there is room for one more byte a node. -/
theorem encWalkOverflow_eq_none {base : Nat} {path : List (Nat × Bool)} {s : State}
    (h : s.outCount.toNat + s.cacheSize.toNat + path.length < 2 ^ 64) :
    encWalkOverflow base path s = none := by
  induction path generalizing s with
  | nil => rfl
  | cons e rest ih =>
    obtain ⟨m, x⟩ := e
    rw [List.length_cons] at h
    have hs : (encSplitResult (base + m) x s).outCount = s.outCount
        ∧ (encSplitResult (base + m) x s).cacheSize = s.cacheSize := by
      unfold encSplitResult; split <;> exact ⟨rfl, rfl⟩
    have hr := renormalizedEnc_counts (s := encSplitResult (base + m) x s)
      (by rw [hs.1, hs.2]; omega)
    rw [hs.1, hs.2] at hr
    rw [encWalkOverflow, hr.1]
    exact ih (by have := hr.2; unfold encBitResult; omega)

end Sys2Proof.Machine
end

