-- ==== Sys2Proof/Laws/Exec.lean ====
section
/-! SUPPORT. What `exec` can do, once for each kind of command. -/

namespace Sys2Proof.Machine

/-! ### The faults of the checks -/

theorem firstFailing_mem {cs : List Check} {f : FaultCode × U64} (h : firstFailing cs = some f) :
    some f ∈ cs := by
  induction cs with
  | nil => cases h
  | cons c cs ih =>
    cases c with
    | none => exact List.mem_cons_of_mem _ (ih h)
    | some g => rw [firstFailing_cons_some] at h; rw [← h]; exact List.mem_cons_self

theorem checkMode_code {m : Mode} {w : Word} {s : State} {f : FaultCode × U64}
    (h : checkMode m w s = some f) : f = (.wrongMode, w) := by
  unfold checkMode at h; split at h <;> cases h; rfl

theorem checkOperand_code {b : Bool} {w : Word} {f : FaultCode × U64} (h : checkOperand b w = some f) :
    f = (.operandRange, w) := by
  cases b <;> cases h; rfl

theorem checkSpan_code {a n : Nat} {s : State} {f : FaultCode × U64} (h : checkSpan a n s = some f) :
    f = (.probAddrRange, BitVec.ofNat 64 (max a s.probWords)) := by
  unfold checkSpan at h; split at h <;> cases h; rfl

theorem checkDefined_code {a n : Nat} {s : State} {f : FaultCode × U64}
    (h : checkDefined a n s = some f) : f.1 = .uninitProb := by
  unfold checkDefined at h
  cases hg : memFirstGap s.prob a n <;> rw [hg] at h <;> cases h; rfl

/-- The checks of the coding and price commands raise codes 2 to 5 only. -/
def NoIllegal (cs : List Check) : Prop := ∀ f, some f ∈ cs → f.1 ≠ .illegalCommand

theorem noIllegal_nil : NoIllegal [] := fun _ h => by cases h

theorem NoIllegal.cons {c : Check} {cs : List Check} (h : ∀ f, c = some f → f.1 ≠ .illegalCommand)
    (k : NoIllegal cs) : NoIllegal (c :: cs) := by
  intro f hf
  rcases List.mem_cons.1 hf with hc | hc
  · exact h f hc.symm
  · exact k f hc

theorem NoIllegal.mode {m : Mode} {w : Word} {s : State} {cs : List Check} (k : NoIllegal cs) :
    NoIllegal (checkMode m w s :: cs) :=
  .cons (fun _ h => by rw [checkMode_code h]; simp) k

theorem NoIllegal.operand {b : Bool} {w : Word} {cs : List Check} (k : NoIllegal cs) :
    NoIllegal (checkOperand b w :: cs) :=
  .cons (fun _ h => by rw [checkOperand_code h]; simp) k

theorem noIllegal_span (a n : Nat) (s : State) : NoIllegal [checkSpan a n s, checkDefined a n s] :=
  .cons (fun _ h => by rw [checkSpan_code h]; simp)
    (.cons (fun _ h => by rw [checkDefined_code h]; simp) noIllegal_nil)

theorem NoIllegal.first {cs : List Check} (k : NoIllegal cs) {c : FaultCode} {info : U64}
    (h : firstFailing cs = some (c, info)) : c ≠ .illegalCommand := k _ (firstFailing_mem h)

/-! ### The kinds of command -/

/-- An encoder command after its checks. -/
theorem afterChecks_enc {cs : List Check} {ops : List EncOp} {s t : State} (k : NoIllegal cs)
    (h : afterChecks cs s (runEnc ops) = .next t) : EncEnds s t := by
  rcases afterChecks_next h with ⟨c, info, hc, rfl⟩ | ⟨-, h⟩
  · exact ⟨s, .refl s, .inr (.inl ⟨c, info, rfl, k.first hc⟩)⟩
  · exact runEnc_ends h

theorem exec_enc_ends {i : Instr} {s t : State} (hi : needsEnc i = true) (h : exec i s = .next t) :
    EncEnds s t := by
  cases i with
  | encBit a b => exact afterChecks_enc (.mode (.operand (noIllegal_span _ _ _))) h
  | encDirect n v => exact afterChecks_enc (.mode (.operand noIllegal_nil)) h
  | encBt b d v => exact afterChecks_enc (.mode (.operand (noIllegal_span _ _ _))) h
  | encRbt b d v => exact afterChecks_enc (.mode (.operand (noIllegal_span _ _ _))) h
  | encFlush => exact afterChecks_enc (.mode noIllegal_nil) h
  | _ => cases hi

/-- A decoder command after its checks. -/
theorem afterChecks_dec {cs : List Check} {run : State → Host.Outcome State Fault Refusal} {s t : State}
    (k : NoIllegal cs) (hr : run s = .next t → DecEnds s t) (h : afterChecks cs s run = .next t) :
    DecEnds s t := by
  rcases afterChecks_next h with ⟨c, info, hc, rfl⟩ | ⟨-, h⟩
  · exact ⟨s, .refl s, .inr (.inl ⟨c, info, rfl, k.first hc⟩)⟩
  · exact hr h

theorem exec_dec_ends {i : Instr} {s t : State} (hi : needsDec i = true) (h : exec i s = .next t) :
    DecEnds s t := by
  cases i with
  | decBit a =>
    exact afterChecks_dec (.mode (noIllegal_span _ _ _))
      (decBitThen_ends fun _ _ _ hk => decBitEnd_ends hk) h
  | decDirect n =>
    exact afterChecks_dec (.mode (.operand noIllegal_nil)) (decDirectLoop_ends _ _ s t) h
  | decBt b d =>
    exact afterChecks_dec (.mode (.operand (noIllegal_span _ _ _))) (decTreeLoop_ends _ _ _ _ s t) h
  | decRbt b d =>
    exact afterChecks_dec (.mode (.operand (noIllegal_span _ _ _))) (decRevTreeLoop_ends _ _ _ _ _ s t) h
  | _ => cases hi

/-- How a command that only observes ends: completed with a result, or faulted. -/
def ObsEnds (s t : State) : Prop :=
  (∃ r, t = { s with res := r, wait := none, csp := s.csp + 1 }) ∨ ∃ c info, t = enterFault c info s

theorem obsEnds_completeWith {r : U32} {s t : State} (h : completeWith r s = .next t) : ObsEnds s t :=
  .inl ⟨r, by simpa [completeWith_eq] using h.symm⟩

theorem obsEnds_raise {c : FaultCode} {info : U64} {s t : State} (h : raiseFault c info s = .next t) :
    ObsEnds s t := .inr ⟨c, info, by simpa [raiseFault_eq] using h.symm⟩

theorem afterChecks_obs {cs : List Check} {run : State → Host.Outcome State Fault Refusal} {s t : State}
    (hr : run s = .next t → ObsEnds s t) (h : afterChecks cs s run = .next t) : ObsEnds s t := by
  rcases afterChecks_next h with ⟨c, info, -, rfl⟩ | ⟨-, h⟩
  · exact .inr ⟨c, info, rfl⟩
  · exact hr h

theorem pricePath_ends {base : Nat} {path : List (Nat × Bool)} {p : U32} {s t : State}
    (h : pricePath base path p s = .next t) : ObsEnds s t := by
  induction path generalizing p with
  | nil => exact obsEnds_completeWith h
  | cons e rest ih =>
    rw [pricePath] at h
    split at h
    · exact obsEnds_raise h
    · split at h
      · cases h
      · exact ih h

/-- PROB_READ, REG_READ and the price commands. -/
theorem exec_obs_ends {i : Instr} {s t : State} (hi : writesRes i = true) (hd : needsDec i = false)
    (h : exec i s = .next t) : ObsEnds s t := by
  cases i with
  | probRead a =>
    rw [exec, execProbRead] at h
    refine afterChecks_obs (fun hr => ?_) h
    split at hr
    · exact obsEnds_completeWith hr
    · exact obsEnds_raise hr
  | regRead sel =>
    change (match regView sel s with
      | some v => completeWith v s
      | none => raiseFault .operandRange (encode (.regRead sel)) s) = .next t at h
    split at h
    · exact obsEnds_completeWith h
    · exact obsEnds_raise h
  | priceBit a x => exact afterChecks_obs pricePath_ends h
  | priceDirect n => exact afterChecks_obs obsEnds_completeWith h
  | priceBt b d v => exact afterChecks_obs pricePath_ends h
  | priceRbt b d v => exact afterChecks_obs pricePath_ends h
  | decBit a => cases hd
  | decDirect n => cases hd
  | decBt b d => cases hd
  | decRbt b d => cases hd
  | _ => cases hi

/-- DEC_INIT, from the state with its registers set. -/
theorem exec_decInit_ends {s t : State} (h : exec .decInit s = .next t) :
    DecInitEnds { s with mode := .dec, range := rangeInit, code := 0, inCount := 0 } t :=
  decInitFirst_ends h

/-- PROB_INIT: its run filled, or the one fault it can raise. -/
theorem exec_probInit_next {a : AddrField} {c : U32} {s t : State} (h : exec (.probInit a c) s = .next t) :
    (a.toNat + c.toNat ≤ s.probWords
        ∧ t = { s with prob := memFill s.prob a.toNat c.toNat probInitValue, wait := none, csp := s.csp + 1 })
      ∨ (s.probWords < a.toNat + c.toNat
        ∧ t = enterFault .probAddrRange (BitVec.ofNat 64 (max a.toNat s.probWords)) s) := by
  by_cases hs : a.toNat + c.toNat ≤ s.probWords
  · rw [exec, execProbInit, checkSpan_pass hs, afterChecks_pass rfl] at h
    exact .inl ⟨hs, by simpa [complete_eq] using h.symm⟩
  · have hs := Nat.not_le.1 hs
    rw [exec, execProbInit, checkSpan_fail hs, afterChecks_fail rfl] at h
    exact .inr ⟨hs, by simpa using h.symm⟩

/-! ### A waiting command goes on -/

theorem resume_enc_ends {ops : List EncOp} {s t : State} (h : resume (.enc ops) s = .next t) : EncEnds s t :=
  runEnc_ends h

theorem resume_decNorm_ends {rest : DecRest} {s t : State} (h : resume (.decNorm rest) s = .next t) :
    DecEnds s t :=
  normThen_ends (fun _ _ hk => decContinue_ends hk) h

theorem resume_decInit_ends {s t : State} : (resume .decFirst s = .next t → DecInitEnds s t)
    ∧ ∀ left first, resume (.decRest left first) s = .next t → DecInitEnds s t :=
  ⟨decInitFirst_ends, fun left first h => decInitRest_ends left first s t h⟩

end Sys2Proof.Machine
end

