-- ==== Sys2Proof/Laws/PerInstr.lean ====
section
/-! SUPPORT. What holds of each command as syntax: its word carries its row's opcode of `30_encoding.md`
R125, whatever its operands are. One lemma per command. -/

namespace Sys2Proof.Laws

/-- OP is read back from a word as it was put in (`30_encoding.md` R120, R121). -/
theorem opField_packWord (op : BitVec 6) (n : CountField) (a : AddrField) (v : U32) :
    opField (packWord op n a v) = op := by
  unfold opField packWord
  apply BitVec.eq_of_toNat_eq
  have h1 := n.isLt
  have h2 := a.isLt
  have h3 := v.isLt
  simp only [BitVec.extractLsb'_toNat, BitVec.toNat_append, Nat.shiftRight_eq_div_pow]
  rw [← Nat.shiftLeft_add_eq_or_of_lt h3, ← Nat.shiftLeft_add_eq_or_of_lt h2,
    ← Nat.shiftLeft_add_eq_or_of_lt h1]
  have := op.isLt
  simp only [Nat.shiftLeft_eq]
  omega

/-- The OP of each row of `30_encoding.md` R125. -/
def EncodeOpcode.opcodeOf : Instr → BitVec 6
  | .nop => 0x00
  | .encInit => 0x01
  | .decInit => 0x02
  | .probInit _ _ => 0x03
  | .probRead _ => 0x04
  | .regRead _ => 0x05
  | .encBit _ _ => 0x08
  | .encDirect _ _ => 0x09
  | .encBt _ _ _ => 0x0A
  | .encRbt _ _ _ => 0x0B
  | .encFlush => 0x0C
  | .decBit _ => 0x10
  | .decDirect _ => 0x11
  | .decBt _ _ => 0x12
  | .decRbt _ _ => 0x13
  | .priceBit _ _ => 0x18
  | .priceDirect _ => 0x19
  | .priceBt _ _ _ => 0x1A
  | .priceRbt _ _ _ => 0x1B

/-- The word of a command has the command's OP in bits 63:58. -/
def EncodeOpcode.Statement (i : Instr) : Prop := opField (encode i) = EncodeOpcode.opcodeOf i

namespace EncodeOpcode

theorem nop : Statement .nop := opField_packWord _ _ _ _
theorem encInit : Statement .encInit := opField_packWord _ _ _ _
theorem decInit : Statement .decInit := opField_packWord _ _ _ _
theorem probInit (addr : AddrField) (count : U32) : Statement (.probInit addr count) :=
  opField_packWord _ _ _ _
theorem probRead (addr : AddrField) : Statement (.probRead addr) := opField_packWord _ _ _ _
theorem regRead (sel : AddrField) : Statement (.regRead sel) := opField_packWord _ _ _ _
theorem encBit (addr : AddrField) (bit : U32) : Statement (.encBit addr bit) :=
  opField_packWord _ _ _ _
theorem encDirect (count : CountField) (value : U32) : Statement (.encDirect count value) :=
  opField_packWord _ _ _ _
theorem encBt (base : AddrField) (depth : CountField) (symbol : U32) :
    Statement (.encBt base depth symbol) := opField_packWord _ _ _ _
theorem encRbt (base : AddrField) (depth : CountField) (symbol : U32) :
    Statement (.encRbt base depth symbol) := opField_packWord _ _ _ _
theorem encFlush : Statement .encFlush := opField_packWord _ _ _ _
theorem decBit (addr : AddrField) : Statement (.decBit addr) := opField_packWord _ _ _ _
theorem decDirect (count : CountField) : Statement (.decDirect count) := opField_packWord _ _ _ _
theorem decBt (base : AddrField) (depth : CountField) : Statement (.decBt base depth) :=
  opField_packWord _ _ _ _
theorem decRbt (base : AddrField) (depth : CountField) : Statement (.decRbt base depth) :=
  opField_packWord _ _ _ _
theorem priceBit (addr : AddrField) (bit : U32) : Statement (.priceBit addr bit) :=
  opField_packWord _ _ _ _
theorem priceDirect (count : CountField) : Statement (.priceDirect count) := opField_packWord _ _ _ _
theorem priceBt (base : AddrField) (depth : CountField) (symbol : U32) :
    Statement (.priceBt base depth symbol) := opField_packWord _ _ _ _
theorem priceRbt (base : AddrField) (depth : CountField) (symbol : U32) :
    Statement (.priceRbt base depth symbol) := opField_packWord _ _ _ _

end EncodeOpcode

end Sys2Proof.Laws
end

