-- ==== Sys2Proof/Machine/Assembler.lean ====
section
/-! DEFINITION. The pseudo-instructions of `30_encoding.md` R135 to R140, each the core commands it
expands to, and REG_READ's selector names (R134). -/

namespace Sys2Proof.Machine

/-- REG_READ's selector names (R134), with their numbers. -/
def selectorNames : List (String × Nat) :=
  [("MODE", 0), ("RANGE", 1), ("LOW_LO", 2), ("LOW_HI", 3), ("CACHE", 4), ("CSIZE_LO", 5),
   ("CSIZE_HI", 6), ("CODE", 7), ("OUTC_LO", 8), ("OUTC_HI", 9), ("INC_LO", 10), ("INC_HI", 11)]

/-- The pseudo-instructions, their operands as numbers. That an ENC_BITS item (R137) or an ENC_BYTE value
(R140) may be any number, not only a bit or a byte, is a DESIGN CHOICE, safe (log entry 13): see `expand`. -/
inductive Pseudo where
  | treeInit (base depth : Nat)
  | probInit1 (addr : Nat)
  | encBits (addr : Nat) (bits : List Nat)
  | decBits (addr count : Nat)
  | rdLow
  | rdCsize
  | rdOutc
  | rdInc
  | encByte (base value : Nat)
  | decByte (base : Nat)
  deriving DecidableEq, Repr

/-- A number as an ADDR field (R134), none where it is not in the field's range. -/
def addrOperand (x : Nat) : Option AddrField := if x < 2 ^ 20 then some (BitVec.ofNat 20 x) else none

/-- A number as a VAL field (R134), none where it is not in the field's range. -/
def valOperand (x : Nat) : Option U32 := if x < 2 ^ 32 then some (BitVec.ofNat 32 x) else none

/-- The core commands a pseudo-instruction expands to.
DESIGN CHOICE, safe (log entry 13): R134 has every operand evaluate to a number in its field's range and
gives no expansion for one outside it (TREE_INIT 0xFFFFF, whose base + 1 is 2^20; a TREE_INIT depth above
32; an address of 2^20 or more; an item or a value of 2^32 or more), so there is none here either.
An ENC_BITS item that is in VAL's range and no bit, and an ENC_BYTE value there that is no byte, expand as
R137 and R140 write it, `ENC_BIT addr, b` and `ENC_BT base, 8, v`; the command is outside its domain (R127)
and raises OPERAND_RANGE when it runs. The two rules speak of bits and of a byte and give no such case:
DESIGN CHOICE, safe (log entry 13). -/
def expand : Pseudo → Option (List Instr)
  | .treeInit b d => do
    let a ← addrOperand (b + 1)
    let c ← valOperand (2 ^ d - 1)
    return [.probInit a c]
  | .probInit1 a => do return [.probInit (← addrOperand a) 1]
  | .encBits a bits => do
    let a ← addrOperand a
    let xs ← bits.mapM valOperand
    return xs.map (.encBit a)
  | .decBits a k => do return List.replicate k (.decBit (← addrOperand a))
  | .rdLow => some [.regRead 2, .regRead 3]
  | .rdCsize => some [.regRead 5, .regRead 6]
  | .rdOutc => some [.regRead 8, .regRead 9]
  | .rdInc => some [.regRead 10, .regRead 11]
  | .encByte b v => do
    let a ← addrOperand b
    let x ← valOperand v
    return [.encBt a 8 x]
  | .decByte b => do return [.decBt (← addrOperand b) 8]

end Sys2Proof.Machine
end

