-- ==== Sys2Proof/Tests/Slice0.lean ====
section
/-! SUPPORT. Small tests whose results come from `95_test_vectors.md` (the vector is named at each), the
decoding of words written out from the encodings of the spec, and a witness for the hypotheses of each
obligation. -/

namespace Sys2Proof.Tests

open Sys2Proof Sys2Proof.Machine

/-! ### Well-formedness: for each check a command it lets pass and one it refuses -/

theorem test_wf_bit : (Instr.encBit 0 1).wellFormed = true ∧ (Instr.encBit 0 2).wellFormed = false
    ∧ (Instr.priceBit 0 2).wellFormed = false := by decide

theorem test_wf_directCount : (Instr.decDirect 32).wellFormed = true
    ∧ (Instr.decDirect 33).wellFormed = false ∧ (Instr.priceDirect 33).wellFormed = false
    ∧ (Instr.encDirect 33 0).wellFormed = false := by decide

theorem test_wf_directValue : (Instr.encDirect 4 15).wellFormed = true
    ∧ (Instr.encDirect 4 16).wellFormed = false ∧ (Instr.encDirect 0 1).wellFormed = false
    ∧ (Instr.encDirect 32 0xFFFFFFFF).wellFormed = true := by decide

theorem test_wf_depth : (Instr.decBt 0 16).wellFormed = true ∧ (Instr.decBt 0 0).wellFormed = false
    ∧ (Instr.decBt 0 17).wellFormed = false ∧ (Instr.decRbt 0 0).wellFormed = false := by decide

theorem test_wf_symbol : (Instr.encBt 0 3 7).wellFormed = true ∧ (Instr.encBt 0 3 8).wellFormed = false
    ∧ (Instr.encRbt 0 3 8).wellFormed = false ∧ (Instr.priceBt 0 3 8).wellFormed = false
    ∧ (Instr.priceRbt 0 3 8).wellFormed = false := by decide

theorem test_wf_selector : (Instr.regRead 11).wellFormed = true
    ∧ (Instr.regRead 12).wellFormed = false := by decide

/-! ### Decoding: one word per command, its fields put together by hand (R120, R125) -/

theorem test_decode_nop :
    decode (0b000000#6 ++ 0b000000#6 ++ 0b00000000000000000000#20 ++ 0b00000000000000000000000000000000#32)
      = .command (.nop) := by decide

theorem test_decode_encInit :
    decode (0b000001#6 ++ 0b000000#6 ++ 0b00000000000000000000#20 ++ 0b00000000000000000000000000000000#32)
      = .command (.encInit) := by decide

theorem test_decode_decInit :
    decode (0b000010#6 ++ 0b000000#6 ++ 0b00000000000000000000#20 ++ 0b00000000000000000000000000000000#32)
      = .command (.decInit) := by decide

theorem test_decode_probInit :
    decode (0b000011#6 ++ 0b000000#6 ++ 0b11111111111111111111#20 ++ 0b11111111111111111111111111111111#32)
      = .command (.probInit 0xFFFFF 0xFFFFFFFF) := by decide

theorem test_decode_probRead :
    decode (0b000100#6 ++ 0b000000#6 ++ 0b10000000000000000001#20 ++ 0b00000000000000000000000000000000#32)
      = .command (.probRead 0x80001) := by decide

theorem test_decode_regRead :
    decode (0b000101#6 ++ 0b000000#6 ++ 0b00000000000000001011#20 ++ 0b00000000000000000000000000000000#32)
      = .command (.regRead 11) := by decide

theorem test_decode_encBit :
    decode (0b001000#6 ++ 0b000000#6 ++ 0b00010010001101000101#20 ++ 0b00000000000000000000000000000001#32)
      = .command (.encBit 0x12345 1) := by decide

theorem test_decode_encDirect :
    decode (0b001001#6 ++ 0b100001#6 ++ 0b00000000000000000000#20 ++ 0b10000000000000000000000000000001#32)
      = .command (.encDirect 33 0x80000001) := by decide

theorem test_decode_encBt :
    decode (0b001010#6 ++ 0b010000#6 ++ 0b10000000000000000001#20 ++ 0b00000000000000001111111111111111#32)
      = .command (.encBt 0x80001 16 0xFFFF) := by decide

theorem test_decode_encRbt :
    decode (0b001011#6 ++ 0b111111#6 ++ 0b00010010001101000101#20 ++ 0b10001001101010111100110111101111#32)
      = .command (.encRbt 0x12345 63 0x89ABCDEF) := by decide

theorem test_decode_encFlush :
    decode (0b001100#6 ++ 0b000000#6 ++ 0b00000000000000000000#20 ++ 0b00000000000000000000000000000000#32)
      = .command (.encFlush) := by decide

theorem test_decode_decBit :
    decode (0b010000#6 ++ 0b000000#6 ++ 0b11111111111111111111#20 ++ 0b00000000000000000000000000000000#32)
      = .command (.decBit 0xFFFFF) := by decide

theorem test_decode_decDirect :
    decode (0b010001#6 ++ 0b100000#6 ++ 0b00000000000000000000#20 ++ 0b00000000000000000000000000000000#32)
      = .command (.decDirect 32) := by decide

theorem test_decode_decBt :
    decode (0b010010#6 ++ 0b010000#6 ++ 0b00010000000000000000#20 ++ 0b00000000000000000000000000000000#32)
      = .command (.decBt 0x10000 16) := by decide

theorem test_decode_decRbt :
    decode (0b010011#6 ++ 0b000100#6 ++ 0b00000000000100101100#20 ++ 0b00000000000000000000000000000000#32)
      = .command (.decRbt 300 4) := by decide

theorem test_decode_priceBit :
    decode (0b011000#6 ++ 0b000000#6 ++ 0b00000000000000000101#20 ++ 0b00000000000000000000000000000001#32)
      = .command (.priceBit 5 1) := by decide

theorem test_decode_priceDirect :
    decode (0b011001#6 ++ 0b011010#6 ++ 0b00000000000000000000#20 ++ 0b00000000000000000000000000000000#32)
      = .command (.priceDirect 26) := by decide

theorem test_decode_priceBt :
    decode (0b011010#6 ++ 0b000011#6 ++ 0b00000000000000010000#20 ++ 0b00000000000000000000000000000101#32)
      = .command (.priceBt 16 3 5) := by decide

theorem test_decode_priceRbt :
    decode (0b011011#6 ++ 0b000100#6 ++ 0b00000000000000100000#20 ++ 0b00000000000000000000000000000110#32)
      = .command (.priceRbt 32 4 6) := by decide

/-- V50, V51: an unused field is not 0; OP 0x06 is not assigned (R128). -/
theorem test_decode_rejects : decode 0x0000000000000001 = .illegal .unusedField
    ∧ decode 0x1800000000000000 = .illegal .reservedOpcode
    ∧ decode 0xFC00000000000000 = .illegal .reservedOpcode := by decide

/-- R135, R140: two pseudo-instructions and their words, and one whose address leaves its field. -/
theorem test_expand : (expand (.treeInit 16 3)).map (List.map encode) = some [0x0C00001100000007]
    ∧ (expand (.encByte 16 0x41)).map (List.map encode) = some [0x2880001000000041]
    ∧ expand (.treeInit 0xFFFFF 3) = none := by decide

/-- R137's expansion, item by item; and an item that is no bit and a value that is no byte (log entry 13):
commands outside their domain, or none where VAL cannot hold the number. -/
theorem test_expand_items : (expand (.encBits 5 [1, 0])).map (List.map encode)
      = some [0x2000000500000001, 0x2000000500000000]
    ∧ expand (.encBits 5 [1, 2]) = some [.encBit 5 1, .encBit 5 2]
    ∧ (Instr.encBit 5 2).wellFormed = false
    ∧ expand (.encByte 16 256) = some [.encBt 16 8 256] ∧ (Instr.encBt 16 8 256).wellFormed = false
    ∧ expand (.encBits 5 [2 ^ 32]) = none ∧ expand (.encByte 16 (2 ^ 32)) = none := by decide

/-! ### Small states -/

/-- `n` words of P from `a` on, all `v`. -/
def words (a n : Nat) (v : Prob) : Memory := (List.range' a n).map fun x => (x, v)

/-- A block of 64 words with an open encoder stream. -/
def encAt (range : U32) (low : BitVec 33) (cache : Byte) (cacheSize outCount : U64) (p : Memory) : State :=
  { State.resetOf 64 with
    mode := .enc, range := range, low := low, cache := cache, cacheSize := cacheSize
    outCount := outCount, prob := p }

/-- A block of 64 words with an open decoder stream that has read `count` bytes. -/
def decAt (range code : U32) (count : U64) (p : Memory) (offered : List Byte) : State :=
  { State.resetOf 64 with
    mode := .dec, range := range, code := code, inCount := count, prob := p, byteIn := offered, eos := true }

/-- After ENC_INIT. -/
def encFresh (p : Memory) : State := encAt 0xFFFFFFFF 0 0 1 0 p

/-- After DEC_INIT with this CODE. -/
def decFresh (code : U32) (p : Memory) (offered : List Byte) : State := decAt 0xFFFFFFFF code 5 p offered

/-- The next state has the property; false where there is none. -/
def after (o : Host.Outcome State Fault Refusal) (f : State → Bool) : Bool :=
  match o with
  | .next t => f t
  | .fault _ => false
  | .refused _ => false

/-- A fault of the block, as the vectors write it: code / datum. -/
def faulted (code : Nat) (info : U64) (t : State) : Bool :=
  t.faulted && t.faultCode.toNat == code && t.faultInfo == info && t.wait == none

/-! ### One step of each command -/

/-- V2. -/
theorem test_nop :
    after (exec .nop (State.resetOf 64))
      (fun t => t.mode == .idle && t.res == 0 && t.csp == 1 && !t.faulted) = true := by
  decide

/-- V4, V5, from a stream left with a carry pending. -/
theorem test_encInit :
    after (exec .encInit (encAt 0x01000000 0x100000000 0x0E 2 1 []))
      (fun t => t.range == 0xFFFFFFFF && t.low == 0 && t.cacheSize == 1 && t.outCount == 0) = true := by
  decide

/-- V6. -/
theorem test_decInit :
    after (exec .decInit { State.resetOf 64 with byteIn := [0, 0x12, 0x34, 0x56, 0x78], eos := true })
      (fun t => t.mode == .dec && t.code == 0x12345678 && t.inCount == 5 && t.csp == 1) = true := by
  decide

/-- V7. -/
theorem test_decInit_corrupt :
    after (exec .decInit { State.resetOf 64 with byteIn := [1, 0x12, 0x34, 0x56, 0x78], eos := true })
      (fun t => faulted 7 5 t && t.code == 0x12345678) = true := by
  decide

/-- V3. -/
theorem test_probInit :
    after (exec (.probInit 0 4) (State.resetOf 4096))
      (fun t => memRead t.prob 3 == some 1024 && memRead t.prob 4 == none) = true := by
  decide

/-- V62. -/
theorem test_probInit_outside :
    after (exec (.probInit 4090 10) (State.resetOf 4096))
      (fun t => faulted 4 4096 t && t.prob == []) = true := by
  decide

/-- V3. -/
theorem test_probRead :
    after (exec (.probRead 3) { State.resetOf 64 with prob := words 0 4 1024 })
      (fun t => t.res == 1024) = true := by
  decide

/-- V61. -/
theorem test_probRead_undefined :
    after (exec (.probRead 5) (State.resetOf 64))
      (fun t => faulted 5 5 t && t.res == 0) = true := by
  decide

/-- The upper half of a LOW with its carry bit set, P1 after step 7. -/
theorem test_regRead :
    after (exec (.regRead 3) (encAt 0x3E000000 0x130000000 0xE5 1 2 []))
      (fun t => t.res == 1) = true := by
  decide

/-- V58. -/
theorem test_regRead_reserved :
    after (exec (.regRead 12) (State.resetOf 64))
      (fun t => faulted 3 0x1400000C00000000 t) = true := by
  decide

/-- V11. -/
theorem test_encBit :
    after (exec (.encBit 0 1) (encFresh [(0, 1024)]))
      (fun t => t.range == 0x800003FF && t.low == 0x07FFFFC00 && memRead t.prob 0 == some 992) = true := by
  decide

/-- V53. -/
theorem test_encBit_operand :
    after (exec (.encBit 0 2) (encFresh [(0, 1024)]))
      (fun t => faulted 3 0x2000000000000002 t && t.range == 0xFFFFFFFF && memRead t.prob 0 == some 1024) = true := by
  decide

/-- V21, which renormalizes. -/
theorem test_encDirect :
    after (exec (.encDirect 8 0xFF) (encFresh []))
      (fun t => t.range == 0xFFFFFF00 && t.low == 0x0FFFFF800 && t.cache == 0xFE && t.sent == [0]) = true := by
  decide

/-- V20. -/
theorem test_encDirect_bits :
    after (exec (.encDirect 4 0xA) (encFresh []))
      (fun t => t.range == 0x0FFFFFFF && t.low == 0x09FFFFFFE) = true := by
  decide

/-- V33. -/
theorem test_encBt :
    after (exec (.encBt 16 3 5) (encFresh (words 16 8 1024)))
      (fun t => t.range == 0x20000000 && t.low == 0x09FFFFC00 && (t.prob.map (fun e => e.2)) == [1024, 992,
        1024, 1056, 1024, 1024, 992, 1024]) = true := by
  decide

/-- V64 in small: words 20 to 23 are defined, so 24 is the lowest undefined word of the span. -/
theorem test_encBt_undefined :
    after (exec (.encBt 20 3 0) (encFresh (words 20 4 1024)))
      (fun t => faulted 5 24 t && t.range == 0xFFFFFFFF) = true := by
  decide

/-- V34. -/
theorem test_encRbt :
    after (exec (.encRbt 32 4 6) (encFresh (words 32 16 1024)))
      (fun t => t.range == 0x10000000 && t.low == 0x05FFFFC00 && memRead t.prob 33 == some 1056 && memRead
        t.prob 34 == some 992 && memRead t.prob 37 == some 992 && memRead t.prob 43 == some 1056) = true := by
  decide

/-- P3's last step: the carry turns the pending 0E FF into 0F 00. -/
theorem test_encFlush :
    after (exec .encFlush (encAt 0x685ADF64 0x15504A39C 0x0E 2 1 []))
      (fun t => t.sent == [0x0F, 0x00, 0x55, 0x04, 0xA3, 0x9C] && t.outCount == 7 && t.mode == .idle && t.low ==
        0 && t.cacheSize == 1) = true := by
  decide

/-- V65: the stream is closed. -/
theorem test_encFlush_mode :
    after (exec .encFlush (State.resetOf 64))
      (fun t => faulted 2 0x3000000000000000 t) = true := by
  decide

/-- V27: CODE = bound decodes 1. -/
theorem test_decBit :
    after (exec (.decBit 0) (decFresh 0x7FFFFC00 [(0, 1024)] []))
      (fun t => t.res == 1 && t.range == 0x800003FF && t.code == 0 && memRead t.prob 0 == some 992) = true := by
  decide

/-- V59's last command: the split stands and the byte is missing. RANGE before it is the one V43's tenth bit
starts from. -/
theorem test_decBit_truncated :
    after (exec (.decBit 0) (decAt 0x0150F4D8 0 5 [(0, 1276)] []))
      (fun t => faulted 6 5 t && t.range == 0x00D1ED88 && memRead t.prob 0 == some 1300) = true := by
  decide

/-- V31. -/
theorem test_decDirect :
    after (exec (.decDirect 32) { decFresh 0xDEADBEE8 [] [0x52, 0x41, 0x11, 0] with inCount := 5 })
      (fun t => t.res == 0xDEADBEEF) = true := by
  decide

/-- V30. -/
theorem test_decDirect_corrupt :
    after (exec (.decDirect 1) (decFresh 0xFFFFFFFE [] []))
      (fun t => faulted 7 5 t && t.range == 0x7FFFFFFF && t.code == 0x7FFFFFFF && t.res == 0) = true := by
  decide

/-- V35. -/
theorem test_decBt :
    after (exec (.decBt 16 3) (decFresh 0x9FFFFC00 (words 16 8 1024) []))
      (fun t => t.res == 5 && memRead t.prob 17 == some 992 && memRead t.prob 19 == some 1056 && memRead t.prob
        22 == some 992) = true := by
  decide

/-- V36. -/
theorem test_decRbt :
    after (exec (.decRbt 32 4) (decFresh 0x5FFFFC00 (words 32 16 1024) []))
      (fun t => t.res == 6 && t.inCount == 5) = true := by
  decide

/-- V44, from V43's P[0] = 1300. -/
theorem test_priceBit :
    after (exec (.priceBit 0 1) (encFresh [(0, 1300)]))
      (fun t => t.res == 98 && t.range == 0xFFFFFFFF) = true := by
  decide

/-- V43. -/
theorem test_priceBit_zero :
    after (exec (.priceBit 0 0) (encFresh [(0, 1300)]))
      (fun t => t.res == 46) = true := by
  decide

/-- V46. -/
theorem test_priceDirect :
    after (exec (.priceDirect 26) (State.resetOf 64))
      (fun t => t.res == 1664) = true := by
  decide

/-- P5's seventh step. -/
theorem test_priceBt :
    after (exec (.priceBt 0 3 2) { State.resetOf 64 with prob := [(1, 931), (2, 1024), (3, 1117), (4, 1024),
      (5, 1024), (6, 931), (7, 1024)] })
      (fun t => t.res == 204 && t.mode == .idle) = true := by
  decide

/-- P5's ninth step. -/
theorem test_priceRbt :
    after (exec (.priceRbt 0 3 5) { State.resetOf 64 with prob := [(1, 931), (2, 1024), (3, 1117), (4, 1024),
      (5, 1024), (6, 931), (7, 1024)] })
      (fun t => t.res == 174) = true := by
  decide

/-- V40: entries of the price ROM. -/
theorem test_priceRom : [0, 1, 7, 232, 256, 279, 325, 504, 511, 512].map priceRom
    = [some 0, some 576, some 400, some 76, some 64, some 58, some 46, some 2, some 0, none] := by decide

/-! ### The step -/

/-- V68's ENC_INIT as the first command after reset. -/
theorem test_first_command :
    after (step (State.reset.withFetchWord 64 0x0400000000000000)) (fun t =>
      t.mode == .enc && t.range == 0xFFFFFFFF && t.cmdIn == []) = true := by decide

/-- P4's fifth and sixth words: discarded while FAULTED = 1, whether legal or not. -/
theorem test_discard :
    after (step { encFresh [] with
      faulted := true, faultCode := 5, faultInfo := 8, csp := 4, cmdIn := [0x3000000000000000, 1] })
      (fun t => t.csp == 5 && t.mode == .enc && faulted 5 8 t) = true := by decide

/-- R52: STATUS at P4's end (MODE 1, FAULT_CODE 5, FAULTED 1), and while a flush waits (MODE 1, BUSY 1). -/
theorem test_status :
    statusReg { encFresh [] with faulted := true, faultCode := 5, faultInfo := 8 } = 0b01010110
    ∧ statusReg { encFresh [] with wait := some (.enc []) } = 0b01000001 := by decide

/-- V67: reset. -/
theorem test_reset :
    after (step { encFresh [(0, 992)] with resetIn := true, faulted := true, faultCode := 8, csp := 9 })
      (fun t => statusReg t == 0 && t.range == 0 && memRead t.prob 0 == none && t.csp == 0) = true := by
  decide

/-- R380, R360: EOS and a truncated stream, then a reset; the host offers nothing and no EOS, and DEC_INIT
waits. -/
theorem test_new_input_after_reset :
    after (exec .decInit (hostMove (.newInput []) (applyReset { decFresh 0 [] [] with
        faulted := true, faultCode := 6, faultInfo := 5, byteIn := [7] })))
      (fun t => busyFlag t && !t.faulted && t.mode == .dec && t.inCount == 0) = true := by
  decide

/-- R84, R58: a sink that takes one byte makes the flush wait with the rest pending; BUSY is 1. -/
theorem test_flush_waits :
    after (exec .encFlush { encAt 0x685ADF64 0x15504A39C 0x0E 2 1 [] with sinkRoom := some 1 })
      (fun t => t.sent == [0x0F] && t.cacheSize == 1 && t.mode == .enc && busyFlag t && t.csp == 0) = true := by
  decide

/-- R58: the waiting flush goes on where it stood. -/
theorem test_flush_goes_on :
    after (resume (.enc (.send 0xFF :: List.replicate 4 .shift ++ [.close]))
        (encAt 0x685ADF64 0x15504A39C 0x0E 1 2 []))
      (fun t => t.sent == [0x00, 0x55, 0x04, 0xA3, 0x9C] && t.outCount == 7 && t.mode == .idle) = true := by
  decide

/-! ### States for the witnesses -/

theorem words_read (a n x : Nat) (v : Prob) :
    memRead (words a n v) x = if a ≤ x ∧ x < a + n then some v else none := by
  rw [words, memRead_map_range']

theorem words_wf (a n : Nat) (v : Prob) : (words a n v).wf := by
  rw [words, Memory.wf, List.pairwise_map]
  exact List.pairwise_lt_range'

theorem words_mem {a n : Nat} {v : Prob} {e : Nat × Prob} (h : e ∈ words a n v) :
    e.1 < a + n ∧ e.2 = v := by
  rw [words, List.mem_map] at h
  obtain ⟨x, hx, rfl⟩ := h
  rw [List.mem_range'_1] at hx
  exact ⟨hx.2, rfl⟩

theorem words_defined {s : State} {a n b c : Nat} {v : Prob} (hp : s.prob = words b c v)
    (h : a + n ≤ s.probWords) (h1 : b ≤ a) (h2 : a + n ≤ b + c) : SpanDefined a n s := by
  refine ⟨h, fun x hx hx' => ?_⟩
  rw [hp, words_read, if_pos ⟨by omega, by omega⟩]; rfl

/-- A block with `n` defined words of P, no fault, and a coder as the invariant wants it. -/
theorem inv_of_words {s : State} {n : Nat} {v : Prob} (hp : s.prob = words 0 n v) (hn : n ≤ s.probWords)
    (hw : 1 ≤ s.probWords ∧ s.probWords ≤ Config.maxProbWords) (hv : 31 ≤ v.toNat ∧ v.toNat ≤ 2017)
    (hf : s.faulted = false ∧ s.faultCode = 0 ∧ s.faultInfo = 0) (hc : CoderOk s) : Inv s where
  words := hw
  memory := by rw [hp]; exact words_wf _ _ _
  probs := fun e he => by
    rw [hp] at he
    obtain ⟨h1, h2⟩ := words_mem he
    exact ⟨by omega, by rw [h2]; exact hv⟩
  faultRegs := ⟨fun _ => hf.2, fun h => absurd (hf.1.symm.trans h) (by decide)⟩
  coder := fun _ => hc

/-- An open encoder stream over sixteen words of P, all `v`. -/
def enc16 (range : U32) (low : BitVec 33) (cache : Byte) (v : Prob) : State :=
  encAt range low cache 1 0 (words 0 16 v)

/-- An open decoder stream over sixteen words of P, all `v`. -/
def dec16 (range code : U32) (v : Prob) (offered : List Byte) (eos : Bool) : State :=
  { decAt range code 5 (words 0 16 v) offered with eos := eos }

/-- The largest block, every word defined, with a fresh encoder stream: for the trees of depth 16. -/
def encLarge : State := { encFresh (words 0 (2 ^ 20) 1024) with probWords := 2 ^ 20 }

theorem inv_enc {s : State} {n : Nat} {v : Prob} (hp : s.prob = words 0 n v) (hn : n ≤ s.probWords)
    (hw : 1 ≤ s.probWords ∧ s.probWords ≤ Config.maxProbWords) (hv : 31 ≤ v.toNat ∧ v.toNat ≤ 2017)
    (hf : s.faulted = false ∧ s.faultCode = 0 ∧ s.faultInfo = 0) (hm : s.wait = none ∧ s.mode = .enc)
    (hc : EncOk s) : Inv s :=
  inv_of_words hp hn hw hv hf (by
    rw [CoderOk, hm.1]; exact ⟨fun _ => hc, fun h => absurd (hm.2.symm.trans h) (by decide)⟩)

theorem inv_dec {s : State} {n : Nat} {v : Prob} (hp : s.prob = words 0 n v) (hn : n ≤ s.probWords)
    (hw : 1 ≤ s.probWords ∧ s.probWords ≤ Config.maxProbWords) (hv : 31 ≤ v.toNat ∧ v.toNat ≤ 2017)
    (hf : s.faulted = false ∧ s.faultCode = 0 ∧ s.faultInfo = 0) (hm : s.wait = none ∧ s.mode = .dec)
    (hc : DecOk s) : Inv s :=
  inv_of_words hp hn hw hv hf (by
    rw [CoderOk, hm.1]; exact ⟨fun h => absurd (hm.2.symm.trans h) (by decide), fun _ => hc⟩)

theorem inv_fresh : Inv (enc16 0xFFFFFFFF 0 0 1024) :=
  inv_enc rfl (by decide) (by decide) (by decide) (by decide) (by decide)
    ⟨by decide, by decide, by decide, by decide⟩

/-- At the edges of the invariant: the smallest RANGE, LOW right below a carry over a CACHE of 0xFF. -/
theorem inv_edge : Inv (enc16 0x01000000 0xFF000000 0xFF 31) :=
  inv_enc rfl (by decide) (by decide) (by decide) (by decide) (by decide)
    ⟨by decide, by decide, by decide, by decide⟩

theorem inv_large : Inv encLarge :=
  inv_enc rfl (by decide) (by decide) (by decide) (by decide) (by decide)
    ⟨by decide, by decide, by decide, by decide⟩

theorem inv_dec16 (offered : List Byte) (eos : Bool) : Inv (dec16 0x01000000 0 31 offered eos) :=
  inv_dec rfl (show 16 ≤ 64 by decide) (show 1 ≤ 64 ∧ 64 ≤ 2 ^ 20 by decide) (by decide) ⟨rfl, rfl, rfl⟩
    ⟨rfl, rfl⟩ ⟨show 2 ^ 24 ≤ 2 ^ 24 by decide, show 0 < 2 ^ 24 by decide⟩

/-- A flush that waits for the sink with its carry still to send. -/
def encWaiting : State :=
  { enc16 0x01000000 0x100000000 0x0E 1024 with
    sinkRoom := some 0, wait := some (.enc (.send 0x0E :: List.replicate 4 .shift ++ [.close])) }

theorem inv_encWaiting : Inv encWaiting :=
  inv_of_words rfl (by decide) (by decide) (by decide) (by decide)
    ⟨rfl, by decide, by decide, by decide, by decide, .inr ⟨4, by decide, rfl⟩⟩

/-- A DEC_BIT that waits for its byte. -/
def decWaiting : State :=
  { dec16 0x00FFFFFF 0 1024 [] false with wait := some (.decNorm (.bit false)) }

theorem inv_decWaiting : Inv decWaiting :=
  inv_of_words rfl (by decide) (by decide) (by decide) (by decide)
    ⟨rfl, by decide, by decide, by decide⟩

/-! ### A witness for the hypotheses of each obligation, clause by clause -/

theorem witness_DecodeThenEncodeGivesWord : ∃ w i, decode w = .command i :=
  ⟨0x6FFFFFFFFFFFFFFF, .priceRbt 0xFFFFF 63 0xFFFFFFFF, by decide⟩

theorem witness_DecodeMatchesOpcodeTable : ∃ w, ∃ row ∈ opcodeRows, w &&& row.2.2 = row.2.1 :=
  ⟨0x67F0000000000000, ("PRICE_DIRECT", 0x6400000000000000, 0xFC0FFFFFFFFFFFFF), by decide, by decide⟩

theorem witness_StepRunsPresentedCommand :
    (∃ (s : State) (w : Word) (rest : List Word) (i : Instr),
      s.resetIn = false ∧ Accepts s ∧ s.cmdIn = w :: rest ∧ decode w = .command i)
    ∧ (∃ (s : State) (w : Wait), s.resetIn = false ∧ s.wait = some w)
    ∧ ∃ s : State, s.resetIn = false ∧ s.wait = none ∧ s.cmdIn = [] :=
  ⟨⟨{ encFresh [] with cmdIn := [0x3000000000000000, 0] }, _, _, .encFlush, rfl, ⟨rfl, rfl⟩, rfl, by decide⟩,
    ⟨encWaiting, _, rfl, rfl⟩, ⟨State.reset, rfl, rfl, rfl⟩⟩

theorem witness_IllegalWordIsPreciseFault :
    ∃ (s : State) (w v : Word) (rest : List Word),
      s.resetIn = false ∧ Accepts s ∧ s.cmdIn = w :: v :: rest
        ∧ decode w = .illegal .unusedField ∧ decode v = .illegal .reservedOpcode :=
  ⟨{ encFresh [] with cmdIn := [1, 0xFC00000000000000] }, _, _, _, rfl, ⟨rfl, rfl⟩, rfl, by decide, by decide⟩

theorem witness_FaultedBlockDiscardsWords :
    ∃ (s : State) (w : Word) (rest : List Word),
      s.resetIn = false ∧ s.faulted = true ∧ s.wait = none ∧ s.cmdIn = w :: rest :=
  ⟨{ encFresh [] with faulted := true, faultCode := 5, cmdIn := [0] }, _, _, rfl, rfl, rfl, rfl⟩

/-- One word discarded, then a step with none presented. -/
theorem witness_FaultLastsUntilReset :
    ∃ s t : State, s.resetIn = false ∧ s.faulted = true ∧ s.wait = none ∧ core.run 2 s = .next t :=
  ⟨{ encFresh [] with faulted := true, faultCode := 5, cmdIn := [0] }, _, rfl, rfl, rfl, rfl⟩

theorem witness_ResetLeavesResetState : ∃ s : State, s.resetIn = true ∧ s.wait ≠ none :=
  ⟨{ encWaiting with resetIn := true }, rfl, by decide⟩

theorem witness_ResetStateMeetsInvariant : (1 ≤ 1 ∧ 1 ≤ 2 ^ 20) ∧ (1 ≤ 2 ^ 20 ∧ 2 ^ 20 ≤ 2 ^ 20) := by
  decide

theorem witness_EveryStepKeepsInvariant :
    (∃ s t, Inv s ∧ s.wait ≠ none ∧ step s = .next t) ∧ ∃ s t, Inv s ∧ s.cmdIn ≠ [] ∧ step s = .next t :=
  ⟨⟨{ encWaiting with sinkRoom := some 1 }, _, inv_of_words rfl (by decide) (by decide) (by decide)
      (by decide) ⟨rfl, by decide, by decide, by decide, by decide, .inr ⟨4, by decide, rfl⟩⟩, by decide, rfl⟩,
    ⟨{ enc16 0x01000000 0xFF000000 0xFF 31 with cmdIn := [0x2000000000000001] }, _,
      inv_enc rfl (by decide) (by decide) (by decide) (by decide) (by decide)
        ⟨by decide, by decide, by decide, by decide⟩, by decide, rfl⟩⟩

theorem witness_NoStepGetsStuck : (∃ s, Inv s ∧ s.mode = .enc) ∧ ∃ s, Inv s ∧ s.mode = .dec :=
  ⟨⟨_, inv_edge, rfl⟩, ⟨_, inv_dec16 [] true, rfl⟩⟩

theorem witness_HostMovesKeepInvariant : (∃ s, Inv s ∧ s.wait ≠ none) ∧ ∃ s, Inv s ∧ s.eos = true :=
  ⟨⟨_, inv_decWaiting, by decide⟩, ⟨_, inv_dec16 [7] true, rfl⟩⟩

theorem witness_WaitingStepChangesNothing :
    (∃ s w, Inv s ∧ s.resetIn = false ∧ s.wait = some w ∧ s.mode = .enc ∧ s.sinkRoom = some 0
      ∧ s.outCount ≠ 0xFFFFFFFFFFFFFFFF)
    ∧ ∃ s w, Inv s ∧ s.resetIn = false ∧ s.wait = some w ∧ s.mode = .dec ∧ s.byteIn = [] ∧ s.eos = false :=
  ⟨⟨_, _, inv_encWaiting, rfl, rfl, rfl, rfl, by decide⟩, ⟨_, _, inv_decWaiting, rfl, rfl, rfl, rfl, rfl⟩⟩

theorem witness_StallIsTransparent :
    (∃ (i : Instr) (s t : State) (w : Wait) (k : Nat), Inv s ∧ Accepts s ∧ s.mode = .enc
      ∧ exec i { s with sinkRoom := some k } = .next t ∧ t.wait = some w ∧ t.mode = .enc)
    ∧ ∃ (i : Instr) (s t : State) (w : Wait), Inv s ∧ Accepts s
      ∧ exec i { s with eos := false } = .next t ∧ t.wait = some w ∧ t.mode = .dec :=
  ⟨⟨.encFlush, _, _, _, 2, inv_fresh, ⟨rfl, rfl⟩, rfl, rfl, rfl, rfl⟩,
    ⟨.decBit 0, _, _, _, inv_dec16 [] true, ⟨rfl, rfl⟩, rfl, rfl, rfl⟩⟩

/-- A command, an illegal word and a discarded word taken; a command run; a wait resumed. -/
theorem witness_EveryTakenWordAdvancesCspOnce :
    (∃ s t : State, s.resetIn = false ∧ s.wait = none ∧ s.cmdIn ≠ [] ∧ step s = .next t ∧ t.faulted = false)
    ∧ (∃ s t : State, s.resetIn = false ∧ s.wait = none ∧ s.cmdIn ≠ [] ∧ step s = .next t
      ∧ s.faulted = false ∧ t.faulted = true)
    ∧ (∃ s t : State, s.resetIn = false ∧ s.wait = none ∧ s.cmdIn ≠ [] ∧ step s = .next t ∧ s.faulted = true)
    ∧ (∃ (i : Instr) (s t : State), exec i s = .next t) ∧ ∃ (w : Wait) (s t : State), resume w s = .next t :=
  ⟨⟨{ State.reset with cmdIn := [0] }, _, rfl, rfl, by decide, rfl, rfl⟩,
    ⟨{ State.reset with cmdIn := [1] }, _, rfl, rfl, by decide, rfl, rfl, rfl⟩,
    ⟨{ State.reset with cmdIn := [1], faulted := true, faultCode := 1 }, _, rfl, rfl, by decide, rfl, rfl⟩,
    ⟨.nop, State.reset, _, rfl⟩, ⟨.decNorm (.bit false), decWaiting, _, rfl⟩⟩

theorem witness_ModeChangesOnlyByThreeCommands :
    (∃ s t, exec .encInit s = .next t) ∧ (∃ s t, exec .decInit s = .next t)
    ∧ (∃ s t, exec .encFlush s = .next t ∧ t.faulted = false ∧ t.wait = none)
    ∧ (∃ s t, exec .encFlush s = .next t ∧ s.faulted = false ∧ t.faulted = true ∧ s.mode = .enc)
    ∧ (∃ s t, exec .encFlush s = .next t ∧ s.faulted = false ∧ t.wait ≠ none)
    ∧ (∃ s t, exec (.encBit 0 1) s = .next t ∧ t.faulted = false)
    ∧ (∃ (w : Wait) (s t : State), resume w s = .next t ∧ (∀ ops, w = .enc ops → EncOp.close ∉ ops))
    ∧ (∃ (ops : List EncOp) (s t : State), EncOp.close ∉ ops ∧ s.faulted = false
      ∧ resume (.enc (ops ++ [.close])) s = .next t ∧ t.faulted = false ∧ t.wait = none)
    ∧ ∃ (ops : List EncOp) (s t : State), EncOp.close ∉ ops ∧ s.faulted = false
      ∧ resume (.enc (ops ++ [.close])) s = .next t ∧ t.wait ≠ none :=
  ⟨⟨State.reset, _, rfl⟩, ⟨State.reset, _, rfl⟩, ⟨enc16 0xFFFFFFFF 0 0 1024, _, rfl, rfl, rfl⟩,
    ⟨{ enc16 0xFFFFFFFF 0 0 1024 with outCount := 0xFFFFFFFFFFFFFFFE }, _, rfl, rfl, rfl, rfl⟩,
    ⟨{ enc16 0xFFFFFFFF 0 0 1024 with sinkRoom := some 1 }, _, rfl, rfl, by decide⟩,
    ⟨enc16 0xFFFFFFFF 0 0 1024, _, rfl, rfl⟩,
    ⟨.decNorm (.bit false), decWaiting, _, rfl, fun _ h => by cases h⟩,
    ⟨.send 0x0E :: List.replicate 4 .shift, { encWaiting with sinkRoom := none }, _, by decide, rfl, rfl, rfl, rfl⟩,
    ⟨.send 0x0E :: List.replicate 4 .shift, encWaiting, _, by decide, rfl, rfl, by decide⟩⟩

theorem witness_ProbChangesOnlyWhereNamed :
    (∃ s t x, exec (.encBit 5 1) s = .next t ∧ t.faulted = false ∧ ¬ mayWriteProb (.encBit 5 1) x)
    ∧ ∃ (i : Instr) (s t : State), exec i s = .next t ∧ s.prob.wf ∧ ∀ x, ¬ mayWriteProb i x :=
  ⟨⟨enc16 0xFFFFFFFF 0 0 1024, _, 4, rfl, rfl, show ¬ 4 = 5 by decide⟩,
    ⟨.encFlush, enc16 0xFFFFFFFF 0 0 1024, _, rfl, words_wf _ _ _, fun _ h => h⟩⟩

theorem witness_ResultChangesOnlyOnCompletion :
    (∃ (i : Instr) (s t : State), s.faulted = false ∧ exec i s = .next t ∧ writesRes i = false)
    ∧ (∃ (i : Instr) (s t : State), s.faulted = false ∧ exec i s = .next t ∧ t.faulted = true
      ∧ writesRes i = true)
    ∧ ∃ (i : Instr) (s t : State), s.faulted = false ∧ exec i s = .next t ∧ t.wait ≠ none
      ∧ writesRes i = true :=
  ⟨⟨.nop, State.reset, _, rfl, rfl, rfl⟩, ⟨.regRead 12, State.reset, _, rfl, rfl, rfl, rfl⟩,
    ⟨.decBit 0, dec16 0x01000000 0 31 [] false, _, rfl, rfl, by decide, rfl⟩⟩

theorem witness_BytesLeaveInOrder :
    (∃ s t room, exec .encFlush s = .next t ∧ s.sinkRoom = some room ∧ t.wait ≠ none)
    ∧ ∃ s t, exec .encInit s = .next t ∧ s.outCount ≠ 0 :=
  ⟨⟨{ enc16 0xFFFFFFFF 0 0 1024 with sinkRoom := some 3 }, _, 3, rfl, rfl, by decide⟩,
    ⟨{ enc16 0xFFFFFFFF 0 0 1024 with outCount := 3 }, _, rfl, by decide⟩⟩

theorem witness_BytesEnterInOrder : ∃ (i : Instr) (s t : State), exec i s = .next t ∧ t.consumed ≠ [] :=
  ⟨.decBit 0, dec16 0x01000000 0 31 [7] true, _, rfl, by decide⟩

theorem witness_EncoderCommandFrame :
    (∃ (i : Instr) (s t : State), needsEnc i = true ∧ exec i s = .next t ∧ t.faulted = false ∧ i = .encFlush)
    ∧ (∃ (i : Instr) (s t : State), needsEnc i = true ∧ exec i s = .next t ∧ t.faulted = false
      ∧ ∃ n v, i = .encDirect n v)
    ∧ ∃ (i : Instr) (s t : State), needsEnc i = true ∧ exec i s = .next t ∧ t.faulted = true :=
  ⟨⟨.encFlush, enc16 0xFFFFFFFF 0 0 1024, _, rfl, rfl, rfl, rfl⟩,
    ⟨.encDirect 4 10, enc16 0xFFFFFFFF 0 0 1024, _, rfl, rfl, rfl, 4, 10, rfl⟩,
    ⟨.encBit 16 0, enc16 0xFFFFFFFF 0 0 1024, _, rfl, rfl, rfl⟩⟩

theorem witness_DecoderCommandFrame :
    (∃ (i : Instr) (s t : State), needsDec i = true ∧ exec i s = .next t ∧ t.faulted = false
      ∧ ∃ n, i = .decDirect n)
    ∧ ∃ (i : Instr) (s t : State), needsDec i = true ∧ exec i s = .next t ∧ t.faulted = true :=
  ⟨⟨.decDirect 1, dec16 0x01000000 0 31 [7] true, _, rfl, rfl, rfl, 1, rfl⟩,
    ⟨.decBt 0 2, dec16 0x01000000 0 31 [] true, _, rfl, rfl, rfl⟩⟩

theorem witness_ObserverCommandFrame :
    ∃ (i : Instr) (s t : State), needsEnc i = false ∧ needsDec i = false ∧ i ≠ .encInit ∧ i ≠ .decInit
      ∧ (∀ a c, i ≠ .probInit a c) ∧ exec i s = .next t ∧ t.faulted = false :=
  ⟨.priceBit 15 1, enc16 0xFFFFFFFF 0 0 1024, _, rfl, rfl, by decide, by decide, fun _ _ h => (by cases h),
    rfl, rfl⟩

theorem witness_InitCommandFrame :
    (∃ s t, exec .encInit s = .next t) ∧ (∃ s t, exec .decInit s = .next t ∧ t.wait ≠ none)
    ∧ ∃ a c s t, exec (.probInit a c) s = .next t ∧ t.faulted = false :=
  ⟨⟨State.reset, _, rfl⟩, ⟨State.reset, _, rfl, by decide⟩, ⟨63, 1, encFresh [], _, rfl, rfl⟩⟩

theorem witness_FailingCheckIsWholeEffect :
    (∃ (i : Instr) (s : State), ¬ ModeFits i s)
    ∧ (∃ (i : Instr) (s : State), ModeFits i s ∧ i.wellFormed = false)
    ∧ (∃ (i : Instr) (s : State) (a n : Nat), ModeFits i s ∧ i.wellFormed = true
      ∧ namedSpan i = some (a, n) ∧ s.probWords < a + n)
    ∧ ∃ (i : Instr) (s : State) (a n x : Nat), ModeFits i s ∧ i.wellFormed = true
      ∧ namedSpan i = some (a, n) ∧ readsSpan i = true ∧ a + n ≤ s.probWords ∧ s.prob.wf ∧ a ≤ x ∧ x < a + n
      ∧ memRead s.prob x = none ∧ ∀ y, a ≤ y → y < x → (memRead s.prob y).isSome = true :=
  ⟨⟨.encFlush, State.reset, fun h => by cases h.1 rfl⟩,
    ⟨.encDirect 4 16, enc16 0xFFFFFFFF 0 0 1024, ⟨fun _ => rfl, fun h => by cases h⟩, by decide⟩,
    ⟨.encBt 61 2 0, enc16 0xFFFFFFFF 0 0 1024, 62, 3, ⟨fun _ => rfl, fun h => by cases h⟩, by decide,
      by decide, by decide⟩,
    ⟨.encBt 14 2 0, enc16 0xFFFFFFFF 0 0 1024, 15, 3, 16, ⟨fun _ => rfl, fun h => by cases h⟩, by decide,
      by decide, rfl, by decide, words_wf _ _ _, by decide, by decide, by decide, fun y h h' => by
        have : y = 15 := by omega
        subst this; decide⟩⟩

theorem witness_ReadByteHandshake :
    (∃ (s : State) (b : Byte) (rest : List Byte), s.byteIn = b :: rest ∧ s.inCount ≠ 0xFFFFFFFFFFFFFFFF)
    ∧ (∃ (s : State) (b : Byte) (rest : List Byte), s.byteIn = b :: rest ∧ s.inCount = 0xFFFFFFFFFFFFFFFF)
    ∧ (∃ s : State, s.byteIn = [] ∧ s.eos = true) ∧ ∃ s : State, s.byteIn = [] ∧ s.eos = false :=
  ⟨⟨{ dec16 0x01000000 0 31 [7] true with inCount := 0xFFFFFFFFFFFFFFFE }, _, _, rfl, by decide⟩,
    ⟨{ dec16 0x01000000 0 31 [7] true with inCount := 0xFFFFFFFFFFFFFFFF }, _, _, rfl, rfl⟩,
    ⟨dec16 0x01000000 0 31 [] true, rfl, rfl⟩, ⟨dec16 0x01000000 0 31 [] false, rfl, rfl⟩⟩

theorem witness_WriteByteHandshake :
    (∃ s : State, s.outCount = 0xFFFFFFFFFFFFFFFF)
    ∧ (∃ s : State, s.outCount ≠ 0xFFFFFFFFFFFFFFFF ∧ s.sinkRoom ≠ some 0)
    ∧ ∃ s : State, s.outCount ≠ 0xFFFFFFFFFFFFFFFF ∧ s.sinkRoom = some 0 :=
  ⟨⟨{ encFresh [] with outCount := 0xFFFFFFFFFFFFFFFF }, rfl⟩,
    ⟨{ encFresh [] with outCount := 0xFFFFFFFFFFFFFFFE, sinkRoom := some 1 }, by decide, by decide⟩,
    ⟨encWaiting, by decide, rfl⟩⟩

theorem witness_ProbWordAccess :
    ∃ s : State, s.probWords ≤ 64 ∧ (63 < s.probWords ∧ memRead s.prob 63 = none)
      ∧ (15 < s.probWords ∧ memRead s.prob 15 = some 31) ∧ 14 ≠ 15 :=
  ⟨enc16 0xFFFFFFFF 0 0 31, by decide, by decide, by decide, by decide⟩

theorem witness_UpdateFollowsFormulaInRange :
    (∃ p : Prob, 31 ≤ p.toNat ∧ p.toNat ≤ 2017 ∧ p.toNat = 31)
    ∧ ∃ p : Prob, 31 ≤ p.toNat ∧ p.toNat ≤ 2017 ∧ p.toNat = 2017 :=
  ⟨⟨31, by decide⟩, ⟨2017, by decide⟩⟩

theorem witness_SplitDividesRange : ∃ (r : U32) (p : Prob), 2 ^ 24 ≤ r.toNat ∧ 1 ≤ p.toNat :=
  ⟨0x01000000, 1, by decide, by decide⟩

/-- A sink that is always ready takes every byte. -/
theorem sink_fits {s t : State} (hr : s.sinkRoom = none) : SinkFits s t :=
  fun room h => absurd (hr.symm.trans h) (by simp)

/-- A sink that is not ready takes no byte. -/
theorem sink_fits_none {s t : State} (h : t.sent = s.sent) : SinkFits s t :=
  fun room _ => by rw [h]; omega

/-- A carry sent, a byte kept pending with a sink that is not ready, and both counters' ends: OUT_COUNT's in
the middle of the owed bytes. -/
theorem witness_ShiftLowSendsPending :
    (∃ s, 1 ≤ s.cacheSize.toNat ∧ shiftOverflow s = none ∧ SinkFits s (shiftedOut s)
      ∧ s.low.toNat / 2 ^ 32 = 1)
    ∧ (∃ s, 1 ≤ s.cacheSize.toNat ∧ shiftOverflow s = none ∧ SinkFits s (shiftedOut s)
      ∧ s.low.toNat = 0xFF000000 ∧ s.sinkRoom = some 0)
    ∧ (∃ s u, 1 ≤ s.cacheSize.toNat ∧ shiftOverflow s = some (0, u) ∧ SinkFits s u ∧ u.sent ≠ s.sent)
    ∧ ∃ s u, 1 ≤ s.cacheSize.toNat ∧ shiftOverflow s = some (2, u) ∧ SinkFits s u :=
  ⟨⟨enc16 0x01000000 0x100000000 0x0E 31, by decide, by decide, sink_fits rfl, by decide⟩,
    ⟨{ enc16 0x01000000 0xFF000000 0xFF 31 with sinkRoom := some 0 }, by decide, by decide,
      sink_fits_none rfl, by decide, rfl⟩,
    ⟨{ enc16 0x01000000 0 0xFF 31 with cacheSize := 3, outCount := 0xFFFFFFFFFFFFFFFE }, _, by decide, rfl,
      sink_fits rfl, by decide⟩,
    ⟨{ enc16 0x01000000 0xFF000000 0 31 with cacheSize := 0xFFFFFFFFFFFFFFFF }, _, by decide, rfl,
      sink_fits rfl⟩⟩

theorem witness_RenormalizationIsOneStep : ∃ s : State, 2 ^ 16 ≤ s.range.toNat ∧ s.range.toNat < 2 ^ 24 :=
  ⟨enc16 0x00010000 0 0 31, by decide, by decide⟩

theorem witness_CarryNeverOverflowsCache :
    (∃ s, EncOk s ∧ s.low.toNat ≥ 2 ^ 32)
    ∧ (∃ (s : State) (p : Prob) (b : Bool), EncOk s ∧ 31 ≤ p.toNat ∧ p.toNat ≤ 2017
      ∧ s.low.toNat < 2 ^ 32 ∧ (splitEnc p b s).low.toNat ≥ 2 ^ 32)
    ∧ (∃ (s : State) (b : Bool), EncOk s ∧ s.low.toNat < 2 ^ 32 ∧ (halveEnc b s).low.toNat ≥ 2 ^ 32)
    ∧ (∃ (s : State) (a : Nat) (p : Prob), EncOk s ∧ memRead s.prob a = some p ∧ 31 ≤ p.toNat
      ∧ p.toNat ≤ 2017 ∧ renormOverflow (encSplitResult a true s) = none)
    ∧ ∃ s, EncOk s ∧ renormOverflow (encHalveResult true s) = none :=
  ⟨⟨enc16 0x01000000 0x1FEFFFFFF 0xFE 31, ⟨by decide, by decide, by decide, by decide⟩, by decide⟩,
    ⟨enc16 0xFFFFFFFF 0xFFFFFFFF 0xFE 31, 2017, true, ⟨by decide, by decide, by decide, by decide⟩,
      by decide, by decide, by decide, by decide⟩,
    ⟨enc16 0xFFFFFFFF 0xFFFFFFFF 0xFE 31, true, ⟨by decide, by decide, by decide, by decide⟩,
      by decide, by decide⟩,
    ⟨enc16 0x01000000 0xFF000000 0xFF 31, 0, 31, ⟨by decide, by decide, by decide, by decide⟩,
      by decide, by decide, by decide, by decide⟩,
    ⟨enc16 0x01000000 0xFF000000 0xFF 31, ⟨by decide, by decide, by decide, by decide⟩, by decide⟩⟩

/-- Words with an unused field set: NOP, ENC_INIT, DEC_INIT, PROB_INIT, PROB_READ, REG_READ, PRICE_BIT and
PRICE_DIRECT, each in its last bit of the field. -/
theorem witness_unused_fields :
    (opField 0x0000000000000001 = 0x00 ∧ (0x0000000000000001 : Word) ≠ 0)
    ∧ (opField 0x0410000000000000 = 0x01 ∧ (0x0410000000000000 : Word) ≠ 0x0400000000000000)
    ∧ (opField 0x0800000100000000 = 0x02 ∧ (0x0800000100000000 : Word) ≠ 0x0800000000000000)
    ∧ (opField 0x0C10000000000000 = 0x03 ∧ countField 0x0C10000000000000 ≠ 0)
    ∧ (opField 0x1010000000000000 = 0x04 ∧ countField 0x1010000000000000 ≠ 0)
    ∧ (opField 0x1000000000000001 = 0x04 ∧ valField 0x1000000000000001 ≠ 0)
    ∧ (opField 0x1410000000000000 = 0x05 ∧ countField 0x1410000000000000 ≠ 0)
    ∧ (opField 0x1400000000000001 = 0x05 ∧ valField 0x1400000000000001 ≠ 0)
    ∧ (opField 0x6010000000000000 = 0x18 ∧ countField 0x6010000000000000 ≠ 0)
    ∧ (opField 0x6400000100000000 = 0x19 ∧ addrField 0x6400000100000000 ≠ 0)
    ∧ (opField 0x6400000000000001 = 0x19 ∧ valField 0x6400000000000001 ≠ 0) := by decide

theorem witness_DecInitLoadsCode :
    (∃ s : State, s.byteIn = [0, 0xFF, 0xFF, 0xFF, 0xFE] ∧ (0xFFFFFFFE : U32) ≠ 0xFFFFFFFF)
    ∧ (∃ s : State, s.byteIn = [1, 0, 0, 0, 0] ∧ (1 : Byte) ≠ 0)
    ∧ (∃ s : State, s.byteIn.length < 5 ∧ s.eos = true) ∧ ∃ s : State, s.byteIn.length < 5 ∧ s.eos = false :=
  ⟨⟨{ State.reset with byteIn := [0, 0xFF, 0xFF, 0xFF, 0xFE] }, rfl, by decide⟩,
    ⟨{ State.reset with byteIn := [1, 0, 0, 0, 0] }, rfl, by decide⟩,
    ⟨{ State.reset with byteIn := [0, 1, 2, 3], eos := true }, by decide, rfl⟩,
    ⟨{ State.reset with byteIn := [0, 1, 2, 3] }, by decide, rfl⟩⟩

theorem witness_ProbInitDefinesRun :
    (∃ (s : State) (a : AddrField) (c : U32), a.toNat + c.toNat ≤ s.probWords ∧ a.toNat + c.toNat = 64)
    ∧ ∃ (s : State) (a : AddrField) (c : U32), s.probWords < a.toNat + c.toNat ∧ c.toNat = 0 :=
  ⟨⟨encFresh [], 60, 4, by decide⟩, ⟨encFresh [], 65, 0, by decide⟩⟩

theorem witness_ProbReadReturnsWord :
    (∃ (s : State) (a : AddrField) (p : Prob), a.toNat < s.probWords ∧ s.prob.wf
      ∧ memRead s.prob a.toNat = some p)
    ∧ (∃ (s : State) (a : AddrField), s.probWords ≤ a.toNat)
    ∧ ∃ (s : State) (a : AddrField), a.toNat < s.probWords ∧ s.prob.wf ∧ memRead s.prob a.toNat = none :=
  ⟨⟨enc16 0xFFFFFFFF 0 0 31, 15, 31, by decide, words_wf _ _ _, by decide⟩,
    ⟨enc16 0xFFFFFFFF 0 0 31, 64, by decide⟩,
    ⟨enc16 0xFFFFFFFF 0 0 31, 16, by decide, words_wf _ _ _, by decide⟩⟩

theorem witness_RegReadReturnsView : 12 ≤ (12 : AddrField).toNat ∧ 12 ≤ (0xFFFFF : AddrField).toNat := by
  decide

/-- The last word, at the edges of the coder's state; and a sink that is not ready while no byte is sent. -/
theorem witness_EncBitCodesOneBit :
    (∃ (s : State) (a : AddrField) (b : U32), Inv s ∧ Accepts s ∧ s.mode = .enc ∧ b.toNat ≤ 1
      ∧ SpanDefined a.toNat 1 s ∧ renormOverflow (encSplitResult a.toNat (decide (b = 1)) s) = none
      ∧ SinkFits s (encBitResult a.toNat (decide (b = 1)) s) ∧ a = 15)
    ∧ ∃ (s : State) (a : AddrField) (b : U32), Inv s ∧ Accepts s ∧ s.mode = .enc ∧ b.toNat ≤ 1
      ∧ SpanDefined a.toNat 1 s ∧ renormOverflow (encSplitResult a.toNat (decide (b = 1)) s) = none
      ∧ SinkFits s (encBitResult a.toNat (decide (b = 1)) s) ∧ s.sinkRoom = some 0 :=
  ⟨⟨_, 15, 1, inv_edge, ⟨rfl, rfl⟩, rfl, by decide, words_defined rfl (by decide) (by decide) (by decide),
      by decide, sink_fits rfl, rfl⟩,
    ⟨{ enc16 0xFFFFFFFF 0 0 1024 with sinkRoom := some 0 }, 0, 0,
      inv_enc rfl (by decide) (by decide) (by decide) (by decide) (by decide)
        ⟨by decide, by decide, by decide, by decide⟩,
      ⟨rfl, rfl⟩, rfl, by decide, words_defined rfl (by decide) (by decide) (by decide), by decide,
      sink_fits_none rfl, rfl⟩⟩

theorem witness_EncDirectCodesValue :
    (∃ (s : State) (n : CountField) (v : U32), Inv s ∧ Accepts s ∧ s.mode = .enc ∧ n.toNat ≤ 32
      ∧ v.toNat < 2 ^ n.toNat ∧ encDirectsOverflow ((List.range n.toNat).reverse.map v.getLsbD) s = none
      ∧ SinkFits s (encDirectsResult ((List.range n.toNat).reverse.map v.getLsbD) s)
      ∧ n = 32 ∧ v = 0xFFFFFFFF)
    ∧ ∃ (s : State) (n : CountField) (v : U32), Inv s ∧ Accepts s ∧ s.mode = .enc ∧ n.toNat ≤ 32
      ∧ v.toNat < 2 ^ n.toNat ∧ encDirectsOverflow ((List.range n.toNat).reverse.map v.getLsbD) s = none
      ∧ SinkFits s (encDirectsResult ((List.range n.toNat).reverse.map v.getLsbD) s)
      ∧ n = 0 ∧ s.sinkRoom = some 0 :=
  ⟨⟨_, 32, 0xFFFFFFFF, inv_fresh, ⟨rfl, rfl⟩, rfl, by decide, by decide, by decide, sink_fits rfl, rfl, rfl⟩,
    ⟨{ enc16 0xFFFFFFFF 0 0 1024 with sinkRoom := some 0 }, 0, 0,
      inv_enc rfl (by decide) (by decide) (by decide) (by decide) (by decide)
        ⟨by decide, by decide, by decide, by decide⟩,
      ⟨rfl, rfl⟩, rfl, by decide, by decide, by decide, sink_fits_none rfl, rfl, rfl⟩⟩

/-- For ENC_BT, the sequence of ENC_BIT commands and ENC_RBT: the deepest tree at the largest base it fits
at, and the smallest. -/
theorem witness_EncTrees :
    (∃ (s : State) (b : AddrField) (d : CountField) (v : U32), Inv s ∧ Accepts s ∧ s.mode = .enc
      ∧ 1 ≤ d.toNat ∧ d.toNat ≤ 16 ∧ v.toNat < 2 ^ d.toNat ∧ TreeDefined b d s
      ∧ (∀ path, path.length = 16 → encWalkOverflow b.toNat path s = none)
      ∧ (∀ t, SinkFits s t) ∧ d = 16 ∧ v = 0xFFFF)
    ∧ ∃ (s : State) (b : AddrField) (d : CountField) (v : U32), Inv s ∧ Accepts s ∧ s.mode = .enc
      ∧ 1 ≤ d.toNat ∧ d.toNat ≤ 16 ∧ v.toNat < 2 ^ d.toNat ∧ TreeDefined b d s
      ∧ encWalkOverflow b.toNat (treePath 1 ((List.range d.toNat).reverse.map v.getLsbD)) s = none
      ∧ encWalkOverflow b.toNat (treePath 1 ((List.range d.toNat).map v.getLsbD)) s = none
      ∧ (∀ t, SinkFits s t) ∧ d = 1 :=
  ⟨⟨_, 0xF0000, 16, 0xFFFF, inv_large, ⟨rfl, rfl⟩, rfl, by decide, by decide, by decide,
      words_defined rfl (by decide) (by decide) (by decide),
      fun path h => encWalkOverflow_eq_none (by rw [h]; decide), fun _ => sink_fits rfl, rfl, rfl⟩,
    ⟨_, 14, 1, 1, inv_edge, ⟨rfl, rfl⟩, rfl, by decide, by decide, by decide,
      words_defined rfl (by decide) (by decide) (by decide), by decide, by decide,
      fun _ => sink_fits rfl, rfl⟩⟩

/-- OUT_COUNT ends exactly with the last byte, and the sink's room too. -/
theorem witness_EncFlushSendsInterval :
    ∃ s, Inv s ∧ Accepts s ∧ s.mode = .enc ∧ s.outCount.toNat + s.cacheSize.toNat + 4 < 2 ^ 64
      ∧ (∀ room, s.sinkRoom = some room → s.cacheSize.toNat + 4 ≤ room) ∧ s.sinkRoom = some 5 :=
  ⟨{ enc16 0x01000000 0xFF000000 0xFF 31 with outCount := 0xFFFFFFFFFFFFFFFA, sinkRoom := some 5 },
    inv_enc rfl (by decide) (by decide) (by decide) (by decide) (by decide)
      ⟨by decide, by decide, by decide, by decide⟩,
    ⟨rfl, rfl⟩, rfl, by decide, fun room h => by cases h; decide, rfl⟩

/-- With a byte taken at IN_COUNT's last step, and with none needed on an empty port. -/
theorem witness_DecBitDecodesOneBit :
    (∃ (s : State) (a : AddrField), Inv s ∧ Accepts s ∧ s.mode = .dec ∧ SpanDefined a.toNat 1 s
      ∧ inputStop (decSplitResult a.toNat s).2 = none ∧ (decSplitResult a.toNat s).2.range.toNat < 2 ^ 24)
    ∧ ∃ (s : State) (a : AddrField), Inv s ∧ Accepts s ∧ s.mode = .dec ∧ SpanDefined a.toNat 1 s
      ∧ inputStop (decSplitResult a.toNat s).2 = none ∧ s.byteIn = [] :=
  ⟨⟨{ dec16 0x01000000 0 31 [0xFF] true with inCount := 0xFFFFFFFFFFFFFFFE }, 15,
      inv_dec rfl (by decide) (by decide) (by decide) (by decide) (by decide) ⟨by decide, by decide⟩,
      ⟨rfl, rfl⟩, rfl, words_defined rfl (by decide) (by decide) (by decide), by decide, by decide⟩,
    ⟨dec16 0xFFFFFFFF 0 1024 [] true, 0, inv_dec rfl (by decide) (by decide) (by decide) (by decide)
      (by decide) ⟨by decide, by decide⟩, ⟨rfl, rfl⟩, rfl,
      words_defined rfl (by decide) (by decide) (by decide), by decide, rfl⟩⟩

theorem witness_DecDirectDecodesValue :
    (∃ (s u : State) (n : CountField) (bits : List Bool), Inv s ∧ Accepts s ∧ s.mode = .dec ∧ n.toNat ≤ 32
      ∧ decDirectsResult n.toNat s = .done bits u ∧ n = 32)
    ∧ (∃ (s u : State) (n : CountField) (bits : List Bool), Inv s ∧ Accepts s ∧ s.mode = .dec ∧ n.toNat ≤ 32
      ∧ decDirectsResult n.toNat s = .done bits u ∧ n = 0)
    ∧ ∃ (s : State) (n : CountField), Inv s ∧ Accepts s ∧ s.mode = .dec ∧ n.toNat ≤ 32
      ∧ n.toNat ≤ s.byteIn.length ∧ s.inCount.toNat + n.toNat < 2 ^ 64 ∧ n = 5 :=
  ⟨⟨_, _, 32, _, inv_dec16 [1, 2, 3, 4, 5] true, ⟨rfl, rfl⟩, rfl, by decide, rfl, rfl⟩,
    ⟨_, _, 0, _, inv_dec16 [] true, ⟨rfl, rfl⟩, rfl, by decide, rfl, rfl⟩,
    ⟨_, 5, inv_dec16 [1, 2, 3, 4, 5] true, ⟨rfl, rfl⟩, rfl, by decide, by decide, by decide, rfl⟩⟩

theorem witness_DecTrees :
    ∃ (s : State) (b : AddrField) (d : CountField), Inv s ∧ Accepts s ∧ s.mode = .dec
      ∧ 1 ≤ d.toNat ∧ d.toNat ≤ 16 ∧ TreeDefined b d s
      ∧ (d.toNat ≤ s.byteIn.length ∧ s.inCount.toNat + d.toNat < 2 ^ 64)
      ∧ decWalkStop b.toNat d.toNat 1 s = none :=
  ⟨_, 8, 3, inv_dec16 [1, 2, 3] true, ⟨rfl, rfl⟩, rfl, by decide, by decide,
    words_defined rfl (by decide) (by decide) (by decide), by decide, by decide⟩

theorem witness_DecoderStopKeepsPartialState :
    (∀ eos, ∃ (s : State) (a : AddrField), Inv s ∧ Accepts s ∧ s.mode = .dec ∧ SpanDefined a.toNat 1 s
      ∧ inputStop (decSplitResult a.toNat s).2 = some .exhausted ∧ s.eos = eos)
    ∧ (∀ eos, ∃ (s u : State) (b : AddrField) (d : CountField), Inv s ∧ Accepts s ∧ s.mode = .dec
      ∧ 1 ≤ d.toNat ∧ d.toNat ≤ 16 ∧ TreeDefined b d s
      ∧ decWalkStop b.toNat d.toNat 1 s = some (.exhausted, u) ∧ s.eos = eos)
    ∧ (∀ eos, ∃ (s u : State) (n : CountField), Inv s ∧ Accepts s ∧ s.mode = .dec ∧ n.toNat ≤ 32
      ∧ decDirectsResult n.toNat s = .stopped .exhausted u ∧ s.eos = eos)
    ∧ ∃ (s u : State) (n : CountField), Inv s ∧ Accepts s ∧ s.mode = .dec ∧ n.toNat ≤ 32
      ∧ decDirectsResult n.toNat s = .corrupt u :=
  ⟨fun eos => ⟨_, 15, inv_dec16 [] eos, ⟨rfl, rfl⟩, rfl, words_defined rfl (show 16 ≤ 64 by decide) (by decide)
      (by decide), by cases eos <;> decide, rfl⟩,
    fun eos => by
      cases eos <;>
        exact ⟨_, _, 8, 3, inv_dec16 [7] _, ⟨rfl, rfl⟩, rfl, by decide, by decide,
          words_defined rfl (by decide) (by decide) (by decide), rfl, rfl⟩,
    fun eos => by
      cases eos <;> exact ⟨_, _, 32, inv_dec16 [7] _, ⟨rfl, rfl⟩, rfl, by decide, rfl, rfl⟩,
    ⟨dec16 0xFFFFFFFF 0xFFFFFFFE 1024 [] true, _, 1, inv_dec rfl (by decide) (by decide) (by decide)
      (by decide) (by decide) ⟨by decide, by decide⟩, ⟨rfl, rfl⟩, rfl, by decide, rfl⟩⟩

/-- An encoder whose OUT_COUNT has one step left, with three bytes owed. -/
def encLastCount : State :=
  { enc16 0x01000000 0 0x0E 31 with cacheSize := 3, outCount := 0xFFFFFFFFFFFFFFFE }

theorem inv_encLastCount : Inv encLastCount :=
  inv_enc rfl (by decide) (by decide) (by decide) (by decide) (by decide)
    ⟨by decide, by decide, by decide, by decide⟩

/-- A decoder whose IN_COUNT has one step left. -/
def decLastCount : State := { dec16 0x01000000 0 31 [7, 8] true with inCount := 0xFFFFFFFFFFFFFFFE }

theorem inv_decLastCount : Inv decLastCount :=
  inv_dec rfl (by decide) (by decide) (by decide) (by decide) (by decide) ⟨by decide, by decide⟩

/-- OUT_COUNT ends in the middle of the owed bytes, for each encoder command. -/
theorem witness_CounterOverflowKeepsPartialState_encoder :
    (∃ u, Accepts encLastCount ∧ encLastCount.mode = .enc ∧ SinkFits encLastCount u
      ∧ SpanDefined (15 : AddrField).toNat 1 encLastCount
      ∧ renormOverflow (encSplitResult (15 : AddrField).toNat (decide ((0 : U32) = 1)) encLastCount)
        = some (0, u) ∧ u.sent = [0x0E])
    ∧ (∃ u, SinkFits encLastCount u
      ∧ encDirectsOverflow ((List.range (1 : CountField).toNat).reverse.map (0 : U32).getLsbD) encLastCount
        = some (0, u) ∧ u.sent = [0x0E])
    ∧ (∃ u, SinkFits encLastCount u ∧ TreeDefined 8 3 encLastCount
      ∧ encWalkOverflow (8 : AddrField).toNat
        (treePath 1 ((List.range (3 : CountField).toNat).reverse.map (6 : U32).getLsbD)) encLastCount
        = some (0, u) ∧ u.sent = [0x0E])
    ∧ (∃ u, SinkFits encLastCount u
      ∧ encWalkOverflow (8 : AddrField).toNat
        (treePath 1 ((List.range (3 : CountField).toNat).map (6 : U32).getLsbD)) encLastCount
        = some (0, u) ∧ u.sent = [0x0E])
    ∧ ∃ u, SinkFits encLastCount u ∧ shiftsOverflow 5 encLastCount = some (0, u) ∧ u.sent = [0x0E] :=
  ⟨⟨_, ⟨rfl, rfl⟩, rfl, sink_fits rfl, words_defined rfl (by decide) (by decide) (by decide), rfl, rfl⟩,
    ⟨_, sink_fits rfl, rfl, rfl⟩,
    ⟨_, sink_fits rfl, words_defined rfl (by decide) (by decide) (by decide), rfl, rfl⟩,
    ⟨_, sink_fits rfl, rfl, rfl⟩, ⟨_, sink_fits rfl, rfl, rfl⟩⟩

/-- CACHE_SIZE cannot count one more. -/
theorem witness_CounterOverflowKeepsPartialState_cacheSize :
    ∃ (s u : State), Inv s ∧ Accepts s ∧ s.mode = .enc ∧ SinkFits s u
      ∧ SpanDefined (0 : AddrField).toNat 1 s
      ∧ renormOverflow (encSplitResult (0 : AddrField).toNat (decide ((0 : U32) = 1)) s) = some (2, u) :=
  ⟨{ enc16 0x01000000 0xFF000000 0 31 with cacheSize := 0xFFFFFFFFFFFFFFFF }, _,
    inv_enc rfl (by decide) (by decide) (by decide) (by decide) (by decide)
      ⟨by decide, by decide, by decide, by decide⟩,
    ⟨rfl, rfl⟩, rfl, sink_fits rfl, words_defined rfl (by decide) (by decide) (by decide), rfl⟩

/-- IN_COUNT ends at the second byte a command needs; for DEC_BIT, at its one byte. -/
theorem witness_CounterOverflowKeepsPartialState_decoder :
    (∃ s, Inv s ∧ Accepts s ∧ s.mode = .dec ∧ SpanDefined (15 : AddrField).toNat 1 s
      ∧ inputStop (decSplitResult (15 : AddrField).toNat s).2 = some .overflow)
    ∧ (∃ u, Accepts decLastCount ∧ decLastCount.mode = .dec ∧ (32 : CountField).toNat ≤ 32
      ∧ decDirectsResult (32 : CountField).toNat decLastCount = .stopped .overflow u)
    ∧ ∃ u, TreeDefined 8 3 decLastCount
      ∧ decWalkStop (8 : AddrField).toNat (3 : CountField).toNat 1 decLastCount = some (.overflow, u) :=
  ⟨⟨{ dec16 0x01000000 0 31 [7] true with inCount := 0xFFFFFFFFFFFFFFFF },
      inv_dec rfl (by decide) (by decide) (by decide) (by decide) (by decide) ⟨by decide, by decide⟩,
      ⟨rfl, rfl⟩, rfl, words_defined rfl (by decide) (by decide) (by decide), by decide⟩,
    ⟨_, ⟨rfl, rfl⟩, rfl, by decide, rfl⟩,
    ⟨_, words_defined rfl (by decide) (by decide) (by decide), rfl⟩⟩

theorem witness_PriceRomFollowsFormula :
    (0 ≤ 8 ∧ 2 ^ (9 - 0 - 1) ≤ 511 ∧ 511 < 2 ^ (9 - 0)) ∧ (8 ≤ 8 ∧ 2 ^ (9 - 8 - 1) ≤ 1 ∧ 1 < 2 ^ (9 - 8)) := by
  decide

theorem witness_PricesStayInBounds :
    (1 ≤ 511 ∧ 511 ≤ 511 ∧ 511 < 512) ∧ (31 ≤ (31 : Prob).toNat ∧ (2017 : Prob).toNat ≤ 2017)
    ∧ ∃ (s : State) (path : List (Nat × Bool)), path.length ≤ 16 ∧ path ≠ []
      ∧ ∀ e ∈ path, ∃ p, memRead s.prob (0 + e.1) = some p ∧ 31 ≤ p.toNat ∧ p.toNat ≤ 2017 :=
  ⟨by decide, by decide, enc16 0xFFFFFFFF 0 0 31, [(1, true), (3, false)], by decide, by decide,
    fun e he => ⟨31, by fin_cases he <;> decide, by decide, by decide⟩⟩

theorem witness_PriceBitReturnsPrice :
    ∃ s : State, Inv s ∧ 2 ≤ (2 : U32).toNat ∧ (1 : U32).toNat ≤ 1 ∧ s.probWords ≤ (64 : AddrField).toNat
      ∧ ((63 : AddrField).toNat < s.probWords ∧ memRead s.prob (63 : AddrField).toNat = none)
      ∧ memRead s.prob (15 : AddrField).toNat = some 31 :=
  ⟨_, inv_edge, by decide, by decide, by decide, by decide, by decide⟩

theorem witness_PriceDirectReturnsPrice : (32 : CountField).toNat ≤ 32 ∧ 33 ≤ (33 : CountField).toNat := by
  decide

theorem witness_PriceTreesReturnSum :
    ∃ (s : State) (b : AddrField) (d : CountField) (v : U32), Inv s ∧ 1 ≤ d.toNat ∧ d.toNat ≤ 16
      ∧ v.toNat < 2 ^ d.toNat ∧ TreeDefined b d s ∧ d = 16 :=
  ⟨_, 0xF0000, 16, 0xFFFF, inv_large, by decide, by decide, by decide,
    words_defined rfl (by decide) (by decide) (by decide), rfl⟩

theorem witness_ReverseTreeIsReversedForwardTree :
    (∃ (s : State) (b : AddrField) (d : CountField) (v : U32), 1 ≤ d.toNat ∧ d.toNat ≤ 16 ∧ s.prob.wf
      ∧ TreeDefined b d s ∧ v.toNat < 2 ^ d.toNat ∧ s.mode = .enc)
    ∧ ∃ (s t : State) (b : AddrField) (d : CountField), 1 ≤ d.toNat ∧ d.toNat ≤ 16 ∧ s.prob.wf
      ∧ TreeDefined b d s ∧ s.mode = .dec ∧ exec (.decBt b d) s = .next t ∧ t.faulted = false
      ∧ t.wait = none :=
  ⟨⟨encLarge, 0xF0000, 16, 0xFFFE, by decide, by decide, words_wf _ _ _,
      words_defined rfl (by decide) (by decide) (by decide), by decide, rfl⟩,
    ⟨dec16 0x01000000 0 31 [1, 2, 3] true, _, 8, 3, by decide, by decide, words_wf _ _ _,
      words_defined rfl (by decide) (by decide) (by decide), rfl, rfl, rfl, rfl⟩⟩

/-- A bit, a direct field and the two trees, encoded from a closed block and decoded by another one that is
offered one byte more. -/
theorem witness_DecoderStaysInLockstep :
    ∃ (s d e : State) (cmds mirror : List Instr) (extra : List Byte),
      Inv s ∧ Accepts s ∧ Inv d ∧ Accepts d ∧ d.prob = s.prob ∧ d.probWords = s.probWords
      ∧ cmds.map counterpart = mirror.map some
      ∧ runAll (.encInit :: cmds ++ [.encFlush]) s = some e
      ∧ d.byteIn = e.sent.drop s.sent.length ++ extra ∧ cmds.length = 4 :=
  ⟨enc16 0xFFFFFFFF 0 0 1024, dec16 0x01000000 0 1024 [0x00, 0xC7, 0xFF, 0xFD, 0xFF, 0x99] true, _,
    [.encBit 0 1, .encDirect 2 2, .encBt 0 1 0, .encRbt 4 2 1], [.decBit 0, .decDirect 2, .decBt 0 1, .decRbt 4 2],
    [0x99], inv_fresh, ⟨rfl, rfl⟩,
    inv_dec rfl (by decide) (by decide) (by decide) (by decide) (by decide) ⟨by decide, by decide⟩,
    ⟨rfl, rfl⟩, rfl, rfl, rfl, rfl, by decide, rfl⟩

end Sys2Proof.Tests
end

section
/-! PROOFS. The invariant right after reset (`70_reset_and_hazards.md` R380): a block that holds what reset
leaves meets Inv for every legal PROB_WORDS, whatever its ports hold. -/

namespace Sys2Proof.Machine

/-- R240 to R243 speak of an open stream only: outside a stream, with no command waiting, the coder's
registers are free. -/
theorem coderOk_of_idle {s : State} (hwait : s.wait = none) (hmode : s.mode = .idle) : CoderOk s := by
  simp [CoderOk, hwait, hmode]

theorem faultRegsOk_of_not_faulted {s : State} (hf : s.faulted = false) (hcode : s.faultCode = 0)
    (hinfo : s.faultInfo = 0) : FaultRegsOk s :=
  ⟨fun _ => ⟨hcode, hinfo⟩, fun h => absurd (hf.symm.trans h) Bool.false_ne_true⟩

/-- Reset leaves every word of P undefined (R380), so R54 and R244 ask nothing of P there. -/
theorem inv_of_idle_of_prob_nil {s : State} (hwords : 1 ≤ s.probWords ∧ s.probWords ≤ Config.maxProbWords)
    (hprob : s.prob = []) (hfault : FaultRegsOk s) (hwait : s.wait = none) (hmode : s.mode = .idle) :
    Inv s where
  words := hwords
  memory := hprob ▸ List.Pairwise.nil
  probs := by simp [hprob]
  faultRegs := hfault
  coder _ := coderOk_of_idle hwait hmode

theorem inv_resetOf {n : Nat} (hn : 1 ≤ n ∧ n ≤ Config.maxProbWords) : Inv (State.resetOf n) :=
  inv_of_idle_of_prob_nil hn rfl (faultRegsOk_of_not_faulted rfl rfl rfl) rfl rfl

/-- The PROB_WORDS that the model chose for `State.reset` (log entry 1) is a legal one (R9). -/
theorem resetProbWords_legal :
    1 ≤ Config.resetProbWords ∧ Config.resetProbWords ≤ Config.maxProbWords := by
  decide

/-- Settles O11: the block is idle, not faulted and has no word of P defined, for every legal PROB_WORDS,
`State.reset`'s own among them. -/
theorem resetStateMeetsInvariant : Obligations.ResetStateMeetsInvariant :=
  ⟨fun _ hlow hhigh => inv_resetOf ⟨hlow, hhigh⟩, inv_resetOf resetProbWords_legal⟩

end Sys2Proof.Machine
end

section
/-! PROOFS. The micro-operations in sequence: each loop of `41_range_coder.md` R205 to R207 is one operation
and then the rest of the loop, and a decoder command is one operation at its port and then the rest of the
command, so that what holds of every end of an operation is said once. -/

namespace Sys2Proof.Machine

/-- An operation, and then `next` on what it leaves; `behind` is what is left of both where the first one
stalls. -/
def Flow.andThen {α β ω υ : Type} (f : Flow α ω) (behind : ω → υ) (next : α → State → Flow β υ) : Flow β υ :=
  match f with
  | .ok a s => next a s
  | .stall left s => .stall (behind left) s
  | .raise c info s => .raise c info s
  | .stuck e => .stuck e

/-- The ends of an operation: `P` where it is through, `Q` where it stalls, `R` where it faults. -/
def Flow.Post {α ω : Type} (P : α → State → Prop) (Q : ω → State → Prop) (R : State → Prop) : Flow α ω → Prop
  | .ok a t => P a t
  | .stall left t => Q left t
  | .raise _ _ t => R t
  | .stuck _ => True

theorem Flow.Post.imp {α ω : Type} {P P' : α → State → Prop} {Q Q' : ω → State → Prop} {R R' : State → Prop}
    {f : Flow α ω} (h : f.Post P Q R) (hP : ∀ a t, P a t → P' a t) (hQ : ∀ left t, Q left t → Q' left t)
    (hR : ∀ t, R t → R' t) : f.Post P' Q' R' := by
  cases f with
  | ok a t => exact hP a t h
  | stall left t => exact hQ left t h
  | raise _ _ t => exact hR t h
  | stuck _ => trivial

theorem Flow.Post.and {α ω : Type} {P P' : α → State → Prop} {Q Q' : ω → State → Prop} {R R' : State → Prop}
    {f : Flow α ω} (h : f.Post P Q R) (h' : f.Post P' Q' R') :
    f.Post (fun a t => P a t ∧ P' a t) (fun left t => Q left t ∧ Q' left t) (fun t => R t ∧ R' t) := by
  cases f with
  | ok _ _ => exact ⟨h, h'⟩
  | stall _ _ => exact ⟨h, h'⟩
  | raise _ _ _ => exact ⟨h, h'⟩
  | stuck _ => trivial

theorem Flow.Post.andThen {α β ω υ : Type} {P : α → State → Prop} {Q : ω → State → Prop} {R R' : State → Prop}
    {P' : β → State → Prop} {Q' : υ → State → Prop} {f : Flow α ω} {behind : ω → υ}
    {next : α → State → Flow β υ} (h : f.Post P Q R) (hP : ∀ a t, P a t → (next a t).Post P' Q' R')
    (hQ : ∀ left t, Q left t → Q' (behind left) t) (hR : ∀ t, R t → R' t) :
    (f.andThen behind next).Post P' Q' R' := by
  cases f with
  | ok a t => exact hP a t h
  | stall left t => exact hQ left t h
  | raise _ _ t => exact hR t h
  | stuck _ => trivial

theorem sendPending_succ (n : Nat) (temp : Byte) (s : State) :
    sendPending (n + 1) temp s = (writeByte (temp + carryByte s) s).andThen (fun _ => [.send temp])
      fun _ t => sendPending n 0xFF { t with cacheSize := t.cacheSize - 1 } := by
  rw [sendPending]; cases writeByte (temp + carryByte s) s <;> rfl

theorem sendFrom_of_owed {s : State} (h : s.cacheSize ≠ 0) (temp : Byte) :
    sendFrom temp s = (sendPending s.cacheSize.toNat temp s).andThen id
      fun _ t => shiftEnd { t with cache := t.low.extractLsb' 24 8 } := by
  rw [sendFrom, if_neg h]; cases sendPending s.cacheSize.toNat temp s <;> rfl

theorem normEnc_of_top_le {s : State} (h : top ≤ s.range.toNat) (turns : Nat) :
    normEnc (turns + 1) s = .ok () s := by
  rw [normEnc, if_neg (Nat.not_lt.2 h)]

theorem normEnc_of_lt_top {s : State} (h : s.range.toNat < top) (turns : Nat) :
    normEnc (turns + 1) s = (shiftLow { s with range := s.range <<< 8 }).andThen (· ++ [.norm])
      fun _ => normEnc turns := by
  rw [normEnc, if_pos h]; cases shiftLow { s with range := s.range <<< 8 } <;> rfl

/-- A byte read by NormDec (R207) enters CODE, and RANGE moves up. -/
def takeCodeByte (b : Byte) (s : State) : State :=
  { s with code := (s.code <<< 8) ||| b.setWidth 32, range := s.range <<< 8 }

theorem normDec_of_top_le {s : State} (h : top ≤ s.range.toNat) (turns : Nat) :
    normDec (turns + 1) s = .ok () s := by
  rw [normDec, if_neg (Nat.not_lt.2 h)]

theorem normDec_of_lt_top {s : State} (h : s.range.toNat < top) (turns : Nat) :
    normDec (turns + 1) s = (readByte s).andThen id fun b t => normDec turns (takeCodeByte b t) := by
  rw [normDec, if_pos h]; cases readByte s <;> rfl

theorem ne_zero_of_owed {s : State} (h : 1 ≤ s.cacheSize.toNat) : s.cacheSize ≠ 0 := by
  rintro h0; rw [h0] at h; exact absurd h (by decide)

/-- EncBit's split and update (R208) with the word it read, before its NormEnc. -/
def encBitSplit (a : Nat) (b : Bool) (p : Prob) (s : State) : State :=
  writeProb a (updateProb p b) (splitEnc p b s)

theorem runEncOp_modelBit {a : Nat} {p : Prob} {s : State} (hp : readProb a s = .ok p) (b : Bool) :
    runEncOp (.modelBit a b) s = normEnc renormTurns (encBitSplit a b p s) := by
  rw [runEncOp, encBitOp, hp]; rfl

theorem runEncOp_modelBit_unreadable {a : Nat} {s : State} {e : FaultCode × U64}
    (hp : readProb a s = .error e) (b : Bool) : runEncOp (.modelBit a b) s = .raise e.1 e.2 s := by
  rw [runEncOp, encBitOp, hp]

/-- An operation at the input port and the command's run from there: where it stalls, the command waits as `w`. -/
def Flow.finish {α : Type} (w : Wait) (k : α → State → Host.Outcome State Fault Refusal) :
    Flow α Unit → Host.Outcome State Fault Refusal
  | .ok a s => k a s
  | .stall _ s => stallAt w s
  | .raise c info s => raiseFault c info s
  | .stuck f => .fault f

theorem normThen_eq_finish (rest : DecRest) (k : State → Host.Outcome State Fault Refusal) (s : State) :
    normThen rest k s = (normDec renormTurns s).finish (.decNorm rest) fun _ => k := by
  rw [normThen]; cases normDec renormTurns s <;> rfl

theorem decInitRest_succ (left : Nat) (first : Byte) (s : State) : decInitRest (left + 1) first s
    = (readByte s).finish (.decRest (left + 1) first) fun b t => decInitRest left first (pushCode b t) := by
  rw [decInitRest]; cases readByte s <;> rfl

/-- CODE <- b0 (R165). -/
def setCode (b : Byte) (s : State) : State := { s with code := b.setWidth 32 }

theorem decInitFirst_eq_finish (s : State) : decInitFirst s
    = (readByte s).finish .decFirst fun b t => decInitRest decInitLaterBytes b (setCode b t) := by
  rw [decInitFirst]; cases readByte s <;> rfl

/-- The three ends of an operation at the input port, and of the command with it. -/
theorem Flow.finish_next {α : Type} {f : Flow α Unit} {w : Wait}
    {k : α → State → Host.Outcome State Fault Refusal} {t : State} {P : α → State → Prop} {R : State → Prop}
    {Q : Unit → State → Prop} {C : Prop} (hp : f.Post P Q R) (h : f.finish w k = .next t)
    (ok : ∀ a u, P a u → k a u = .next t → C) (stall : ∀ u, Q () u → t = { u with wait := some w } → C)
    (raise : ∀ c info u, R u → t = enterFault c info u → C) : C := by
  cases f with
  | ok a u => exact ok a u hp h
  | stall _ u => exact stall u hp (by simpa [Flow.finish, stallAt_eq] using h.symm)
  | raise c info u => exact raise c info u hp (by simpa [Flow.finish, raiseFault_eq] using h.symm)
  | stuck _ => cases h

/-- DecBit's split and update (R209) with the word it read, before its NormDec. -/
def decBitSplit (a : Nat) (p : Prob) (s : State) : State :=
  writeProb a (updateProb p (decodedBit p s)) (splitDec p (decodedBit p s) s)

theorem decBitThen_of_readable {a : Nat} {p : Prob} {s : State} (hp : readProb a s = .ok p)
    (rest : Bool → DecRest) (k : Bool → State → Host.Outcome State Fault Refusal) :
    decBitThen a rest k s = normThen (rest (decodedBit p s)) (k (decodedBit p s)) (decBitSplit a p s) := by
  rw [decBitThen, hp]; rfl

theorem decBitThen_of_unreadable {a : Nat} {s : State} {e : FaultCode × U64} (hp : readProb a s = .error e)
    (rest : Bool → DecRest) (k : Bool → State → Host.Outcome State Fault Refusal) :
    decBitThen a rest k s = raiseFault e.1 e.2 s := by
  rw [decBitThen, hp]

/-- A direct bit's halving (R225), before its NormDec. -/
def directHalved (s : State) : State := halveDec (directBitOf s) s

/-- The value so far with a direct bit behind it (R225). -/
def pushBit (r : U32) (b : Bool) : U32 := (r <<< 1) ||| (BitVec.ofBool b).setWidth 32

theorem decDirectLoop_corrupt {s : State} (h : (directHalved s).code = (directHalved s).range) (left : Nat)
    (r : U32) : decDirectLoop (left + 1) r s
      = raiseFault .corruptStream (directHalved s).inCount (directHalved s) := by
  rw [decDirectLoop]; exact if_pos h

theorem decDirectLoop_succ {s : State} (h : (directHalved s).code ≠ (directHalved s).range) (left : Nat)
    (r : U32) : decDirectLoop (left + 1) r s = normThen (.direct left (pushBit r (directBitOf s)))
      (decDirectLoop left (pushBit r (directBitOf s))) (directHalved s) := by
  rw [decDirectLoop]; exact if_neg h

end Sys2Proof.Machine
end

section
/-! PROOFS. What the encoder's byte output can do, once for each operation (`41_range_coder.md` R205, R206):
MODE, P and what is not the encoder's stay, and a ShiftLow that is through has LOW one byte up. -/

namespace Sys2Proof.Machine

/-- What the sending of owed bytes may change from `s` to `t`. -/
def SendFrame (s t : State) : Prop :=
  t = { s with sent := t.sent, outCount := t.outCount, sinkRoom := t.sinkRoom, cacheSize := t.cacheSize }

/-- What the encoder's byte output may change from `s` to `t`. -/
def CoderFrame (s t : State) : Prop :=
  t = { s with range := t.range, low := t.low, cache := t.cache, cacheSize := t.cacheSize,
               outCount := t.outCount, sent := t.sent, sinkRoom := t.sinkRoom }

theorem SendFrame.trans {s t u : State} (h : SendFrame s t) (k : SendFrame t u) : SendFrame s u := by
  unfold SendFrame at *; rw [k, h]

theorem SendFrame.coder {s t : State} (h : SendFrame s t) : CoderFrame s t := by
  unfold SendFrame CoderFrame at *; rw [h]

theorem CoderFrame.trans {s t u : State} (h : CoderFrame s t) (k : CoderFrame t u) : CoderFrame s u := by
  unfold CoderFrame at *; rw [k, h]

theorem CoderFrame.mode {s t : State} (h : CoderFrame s t) : t.mode = s.mode := by rw [h]

/-- A ShiftLow that is through, from `s` to `t`, with this CACHE. -/
structure ShiftDone (cache : Byte) (s t : State) : Prop where
  frame : CoderFrame s t
  range : t.range = s.range
  low : t.low.toNat = s.low.toNat % 2 ^ 24 * 2 ^ 8
  cache : t.cache = cache
  owed : 1 ≤ t.cacheSize.toNat

/-- A ShiftLow that waits for the sink: some bytes may be sent, one at least is not. -/
structure ShiftWaits (s : State) (left : List EncOp) (t : State) : Prop where
  frame : SendFrame s t
  owed : 1 ≤ t.cacheSize.toNat
  left : ∃ temp, left = [.send temp]

theorem writeByte_post (b : Byte) (s : State) :
    (writeByte b s).Post (fun _ t => SendFrame s t ∧ t.cacheSize = s.cacheSize) (fun _ t => t = s) (· = s) := by
  cases h : writeByte b s with
  | ok _ t => obtain ⟨-, -, rfl⟩ := writeByte_ok h; exact ⟨rfl, rfl⟩
  | stall _ t => exact (writeByte_stall h).1
  | raise _ _ t => exact (writeByte_raise h).1
  | stuck _ => trivial

theorem shiftEnd_post (s : State) :
    (shiftEnd s).Post (fun _ => ShiftDone s.cache s) (fun _ _ => False) (CoderFrame s) := by
  unfold shiftEnd
  split
  · exact rfl
  · rename_i hc
    refine ⟨rfl, rfl, ?_, rfl, ?_⟩
    · have := s.low.isLt
      simp only [shiftedLow_eq, BitVec.toNat_ofNat]
      omega
    · simp only [toNat_add_one hc]; omega

theorem sendPending_post (n : Nat) (temp : Byte) (s : State) (hn : n ≤ s.cacheSize.toNat) :
    (sendPending n temp s).Post (fun _ => SendFrame s) (ShiftWaits s) (SendFrame s) := by
  induction n generalizing temp s with
  | zero => exact rfl
  | succ n ih =>
    rw [sendPending_succ]
    refine (writeByte_post _ s).andThen (fun _ t ⟨ht, hc⟩ => ?_) (fun _ t ht => ?_) (fun t ht => ht ▸ rfl)
    · have step : SendFrame s { t with cacheSize := t.cacheSize - 1 } := ht.trans rfl
      refine (ih 0xFF { t with cacheSize := t.cacheSize - 1 } ?_).imp (fun _ _ h => step.trans h)
        (fun left u h => ⟨step.trans h.frame, h.owed, h.left⟩) (fun _ h => step.trans h)
      show n ≤ (t.cacheSize - 1).toNat
      rw [hc, toNat_sub_one (by omega)]; omega
    · subst ht; exact ⟨rfl, by omega, temp, rfl⟩

theorem sendFrom_post (temp : Byte) (s : State) :
    (sendFrom temp s).Post (fun _ => ShiftDone (s.low.extractLsb' 24 8) s) (ShiftWaits s) (CoderFrame s) := by
  by_cases h0 : s.cacheSize = 0
  · rw [sendFrom, if_pos h0]; trivial
  · rw [sendFrom_of_owed h0]
    refine (sendPending_post _ temp s le_rfl).andThen (fun _ t ht => ?_) (fun _ _ h => h)
      (fun _ h => h.coder)
    have hf : CoderFrame s { t with cache := t.low.extractLsb' 24 8 } := ht.coder.trans rfl
    have hlow : t.low = s.low := by rw [ht]
    have hrange : t.range = s.range := by rw [ht]
    refine (shiftEnd_post _).imp (fun _ u h => ?_) (fun _ _ h => h.elim) (fun _ h => hf.trans h)
    exact ⟨hf.trans h.frame, h.range.trans hrange, h.low.trans (by rw [hlow]), h.cache.trans (by rw [hlow]),
      h.owed⟩

theorem shiftLow_post (s : State) :
    (shiftLow s).Post (fun _ => ShiftDone (if sendsNow s then s.low.extractLsb' 24 8 else s.cache) s)
      (fun left t => sendsNow s = true ∧ ShiftWaits s left t) (CoderFrame s) := by
  unfold shiftLow
  split
  · rename_i h
    exact (sendFrom_post s.cache s).imp (fun _ _ h => h) (fun _ _ hw => ⟨h, hw⟩) (fun _ h => h)
  · exact (shiftEnd_post s).imp (fun _ _ h => h) (fun _ _ h => h.elim) (fun _ h => h)

theorem normEnc_post (turns : Nat) (s : State) :
    (normEnc turns s).Post (fun _ => CoderFrame s) (fun _ => CoderFrame s) (CoderFrame s) := by
  induction turns generalizing s with
  | zero => trivial
  | succ n ih =>
    by_cases hr : s.range.toNat < top
    · rw [normEnc_of_lt_top hr]
      have step : CoderFrame s { s with range := s.range <<< 8 } := rfl
      refine (shiftLow_post _).andThen (fun _ t ht => ?_) (fun _ t ht => step.trans ht.2.frame.coder)
        (fun _ h => step.trans h)
      have hf := step.trans ht.frame
      exact (ih t).imp (fun _ _ h => hf.trans h) (fun _ _ h => hf.trans h) (fun _ h => hf.trans h)
    · rw [normEnc_of_top_le (Nat.not_lt.1 hr)]; exact rfl

end Sys2Proof.Machine
end

section
/-! PROOFS. The parts of the invariant that a command does not break: P and the fault registers, and how the
invariant stands at the three ends of a command. -/

namespace Sys2Proof.Machine

/-- PROB_WORDS is legal, and P is in canonical form, within its size and within [31, 2017]. -/
def ProbsOk (s : State) : Prop :=
  (1 ≤ s.probWords ∧ s.probWords ≤ Config.maxProbWords) ∧ s.prob.wf
    ∧ ∀ e ∈ s.prob, e.1 < s.probWords ∧ 31 ≤ e.2.toNat ∧ e.2.toNat ≤ 2017

/-- The part of the invariant that does not speak of the coder, in a block that has not faulted. -/
def Live (s : State) : Prop := ProbsOk s ∧ s.faulted = false ∧ s.faultCode = 0 ∧ s.faultInfo = 0

theorem Inv.probsOk {s : State} (h : Inv s) : ProbsOk s := ⟨h.words, h.memory, h.probs⟩

theorem Inv.live {s : State} (h : Inv s) (hf : s.faulted = false) : Live s :=
  ⟨h.probsOk, hf, h.faultRegs.1 hf⟩

theorem inv_of_live {s : State} (h : Live s) (hc : CoderOk s) : Inv s := by
  obtain ⟨⟨hwords, hmemory, hprobs⟩, hf, hcode, hinfo⟩ := h
  exact ⟨hwords, hmemory, hprobs, faultRegsOk_of_not_faulted hf hcode hinfo, fun _ => hc⟩

/-- A fault leaves the coder where it stands (`60_exceptions.md` R343), so nothing is asked of it. -/
theorem inv_enterFault {s : State} (h : ProbsOk s) (c : FaultCode) (info : U64) :
    Inv (enterFault c info s) := by
  obtain ⟨hwords, hmemory, hprobs⟩ := h
  refine ⟨hwords, hmemory, hprobs, ⟨fun h => ?_, fun _ => ?_⟩, fun h => ?_⟩
  · cases h
  · exact ⟨(faultBits_bounds c).1, (faultBits_bounds c).2, rfl⟩
  · cases h

theorem inv_stalled {s : State} {w : Wait} (h : Live s) (hw : WaitOk { s with wait := some w } w) :
    Inv { s with wait := some w } :=
  inv_of_live h hw

theorem EncOk.congr {s t : State} (h : EncOk s) (hrange : t.range = s.range) (hlow : t.low = s.low)
    (hcache : t.cache = s.cache) (hsize : t.cacheSize = s.cacheSize) : EncOk t where
  range := by rw [hrange]; exact h.range
  low := by rw [hlow, hrange]; exact h.low
  owed := by rw [hsize]; exact h.owed
  carry := by rw [hlow, hrange, hcache]; exact h.carry

theorem DecOk.congr {s t : State} (h : DecOk s) (hrange : t.range = s.range) (hcode : t.code = s.code) :
    DecOk t where
  range := by rw [hrange]; exact h.range
  code := by rw [hcode, hrange]; exact h.code

/-- The coder of a block between two commands. -/
def StreamOk (s : State) : Prop := (s.mode = .enc → EncOk s) ∧ (s.mode = .dec → DecOk s)

theorem StreamOk.congr {s t : State} (h : StreamOk s) (hmode : t.mode = s.mode) (hrange : t.range = s.range)
    (hlow : t.low = s.low) (hcache : t.cache = s.cache) (hsize : t.cacheSize = s.cacheSize)
    (hcode : t.code = s.code) : StreamOk t :=
  ⟨fun hm => (h.1 (hmode.symm.trans hm)).congr hrange hlow hcache hsize,
    fun hm => (h.2 (hmode.symm.trans hm)).congr hrange hcode⟩

theorem inv_completed {s : State} (h : Live s) (hc : StreamOk s) (r : U32) (n : Nat) :
    Inv { s with res := r, wait := none, csp := n } :=
  inv_of_live h (hc.congr rfl rfl rfl rfl rfl rfl)

theorem inv_complete {s t : State} (h : Live s) (hc : StreamOk s) (ht : complete s = .next t) : Inv t := by
  rw [complete_eq] at ht
  cases ht
  exact inv_completed h hc s.res _

theorem inv_completeWith {s t : State} {r : U32} (h : Live s) (hc : StreamOk s)
    (ht : completeWith r s = .next t) : Inv t := by
  rw [completeWith_eq] at ht
  cases ht
  exact inv_completed h hc r _

theorem Inv.streamOk {s : State} (h : Inv s) (hf : s.faulted = false) (hw : s.wait = none) : StreamOk s := by
  have hc := h.coder hf
  rwa [CoderOk, hw] at hc

/-- A waiting command has not faulted (U3). -/
theorem Inv.not_faulted_of_wait {s : State} {w : Wait} (h : Inv s) (hw : s.wait = some w) :
    s.faulted = false := by
  by_contra hne
  have hnone := (h.faultRegs.2 (by simpa using hne)).2.2
  rw [hw] at hnone
  cases hnone

theorem Inv.waitOk {s : State} {w : Wait} (h : Inv s) (hw : s.wait = some w) : WaitOk s w := by
  have hc := h.coder (h.not_faulted_of_wait hw)
  rwa [CoderOk, hw] at hc

theorem Live.of_coderFrame {s t : State} (h : Live s) (hf : CoderFrame s t) : Live t := by
  rw [hf]; exact h

/-- A word of P is a probability in [31, 2017] (R244). -/
theorem Live.prob_bounds {s : State} (h : Live s) {a : Nat} {p : Prob} (hp : readProb a s = .ok p) :
    31 ≤ p.toNat ∧ p.toNat ≤ 2017 :=
  (h.1.2.2 _ (mem_of_memRead (readProb_ok.1 hp).2)).2

/-- R203's update keeps [31, 2017]. -/
theorem updateProb_bounds {p : Prob} (h : 31 ≤ p.toNat ∧ p.toNat ≤ 2017) (b : Bool) :
    31 ≤ (updateProb p b).toNat ∧ (updateProb p b).toNat ≤ 2017 := by
  cases b
  · have hlt : p.toNat + (2048 - p.toNat) / 2 ^ 5 < 2 ^ 11 := by omega
    rw [updateProb, if_neg Bool.false_ne_true, BitVec.toNat_ofNat, Nat.mod_eq_of_lt hlt]; omega
  · have hlt : p.toNat - p.toNat / 2 ^ 5 < 2 ^ 11 := by omega
    rw [updateProb, if_pos rfl, BitVec.toNat_ofNat, Nat.mod_eq_of_lt hlt]; omega

theorem Live.writeProb {s : State} (h : Live s) {a : Nat} {v : Prob} (ha : a < s.probWords)
    (hv : 31 ≤ v.toNat ∧ v.toNat ≤ 2017) : Live (writeProb a v s) := by
  obtain ⟨⟨hwords, hmemory, hprobs⟩, hfault⟩ := h
  refine ⟨⟨hwords, memWrite_wf hmemory a v, fun e he => ?_⟩, hfault⟩
  rcases mem_memWrite he with rfl | he
  · exact ⟨ha, hv⟩
  · exact hprobs e he

end Sys2Proof.Machine
end

section
/-! PROOFS. The encoder's operations keep R240, R242, R243 and R250 (`41_range_coder.md`): from an open
stream through a split or a halving, its renormalization, and the ShiftLows of ENC_FLUSH. -/

namespace Sys2Proof.Machine

/-! ### A split or a halving, before its NormEnc -/

/-- R204's product has 32 bits. -/
theorem boundOf_toNat (r : U32) (p : Prob) : (boundOf r p).toNat = r.toNat / 2 ^ 11 * p.toNat := by
  have hr : r.toNat / 2 ^ 11 ≤ 2 ^ 21 - 1 := by have := r.isLt; omega
  have hp : p.toNat ≤ 2 ^ 11 - 1 := by have := p.isLt; omega
  have := Nat.mul_le_mul hr hp
  rw [boundOf, BitVec.toNat_ofNat]
  omega

/-- R204's bound divides a RANGE of at least 2^24 into two parts of at least 2^16 (R245). -/
theorem boundOf_bounds {r : U32} {p : Prob} (hr : top ≤ r.toNat) (hp : 31 ≤ p.toNat ∧ p.toNat ≤ 2017) :
    2 ^ 16 ≤ (boundOf r p).toNat ∧ (boundOf r p).toNat + 2 ^ 16 ≤ r.toNat := by
  have hb := boundOf_toNat r p
  have hlo := Nat.mul_le_mul_left (r.toNat / 2 ^ 11) hp.1
  have hhi := Nat.mul_le_mul_left (r.toNat / 2 ^ 11) hp.2
  unfold top at hr
  omega

/-- An encoder stream between a split or a halving and its NormEnc: as `EncOk`, with RANGE not yet moved up. -/
structure EncSplit (s : State) : Prop where
  range : 2 ^ 16 ≤ s.range.toNat
  low : s.low.toNat + s.range.toNat < 2 ^ 33
  owed : 1 ≤ s.cacheSize.toNat
  carry : s.cache = 0xFF → s.low.toNat + s.range.toNat ≤ 2 ^ 32

theorem EncOk.encSplit {s : State} (h : EncOk s) : EncSplit s where
  range := Nat.le_trans (by decide) h.range
  low := h.low
  owed := h.owed
  carry := h.carry

/-- A narrower interval within the old one: LOW + RANGE does not grow. -/
theorem EncOk.narrowed {s t : State} (h : EncOk s) (hrange : 2 ^ 16 ≤ t.range.toNat)
    (htop : t.low.toNat + t.range.toNat ≤ s.low.toNat + s.range.toNat) (hcache : t.cache = s.cache)
    (hsize : t.cacheSize = s.cacheSize) : EncSplit t where
  range := hrange
  low := Nat.lt_of_le_of_lt htop h.low
  owed := hsize ▸ h.owed
  carry hc := Nat.le_trans htop (h.carry (hcache ▸ hc))

/-- Within an interval below 2^33 LOW moves up without a wrap (R208, R220). -/
theorem low_add_toNat {low : BitVec 33} {x : U32} (h : low.toNat + x.toNat < 2 ^ 33) :
    (low + x.setWidth 33).toNat = low.toNat + x.toNat := by
  have := x.isLt
  rw [BitVec.toNat_add, BitVec.toNat_setWidth]
  omega

theorem splitEnc_encSplit {s : State} (h : EncOk s) {p : Prob} (hp : 31 ≤ p.toNat ∧ p.toNat ≤ 2017) (b : Bool) :
    EncSplit (splitEnc p b s) := by
  obtain ⟨hlo, hhi⟩ := boundOf_bounds h.range hp
  have hl := h.low
  refine h.narrowed ?_ ?_ (splitEnc_cache p b s) (splitEnc_cacheSize p b s)
  · cases b
    · exact hlo
    · rw [splitEnc_range, if_pos rfl, BitVec.toNat_sub_of_le (by rw [BitVec.le_def]; omega)]; omega
  · cases b
    · simp only [splitEnc_low, splitEnc_range, Bool.false_eq_true, if_false]; omega
    · simp only [splitEnc_low, splitEnc_range, if_true]
      rw [low_add_toNat (by omega), BitVec.toNat_sub_of_le (by rw [BitVec.le_def]; omega)]
      omega

theorem half_toNat (r : U32) : (r >>> 1).toNat = r.toNat / 2 := by
  rw [BitVec.toNat_ushiftRight, Nat.shiftRight_eq_div_pow, Nat.pow_one]

theorem halveEnc_encSplit {s : State} (h : EncOk s) (b : Bool) : EncSplit (halveEnc b s) := by
  have hl := h.low
  have hr : 2 ^ 24 ≤ s.range.toNat := h.range
  refine h.narrowed ?_ ?_ (halveEnc_cache b s) (halveEnc_cacheSize b s)
  · rw [halveEnc_range, half_toNat]; omega
  · rw [halveEnc_low, halveEnc_range]
    cases b
    · simp only [Bool.false_eq_true, if_false, half_toNat]; omega
    · rw [if_pos rfl, low_add_toNat (by rw [half_toNat]; omega), half_toNat]; omega

/-! ### A ShiftLow -/

/-- What ShiftLow needs: RANGE already moved up, LOW not yet. The flush's LOW and RANGE meet it too. -/
structure ShiftReady (s : State) : Prop where
  range : top ≤ s.range.toNat
  low : s.low.toNat * 2 ^ 8 + s.range.toNat < 2 ^ 41
  owed : 1 ≤ s.cacheSize.toNat

/-- A carry still to come finds room above CACHE (R250), with RANGE already moved up. -/
def CarryRoom (s : State) : Prop := s.cache = 0xFF → s.low.toNat * 2 ^ 8 + s.range.toNat ≤ 2 ^ 40

theorem range_shift_toNat {r : U32} (h : r.toNat < top) : (r <<< 8).toNat = r.toNat * 2 ^ 8 := by
  unfold top at h
  rw [BitVec.toNat_shiftLeft, Nat.shiftLeft_eq]
  omega

theorem EncSplit.shiftReady {s : State} (h : EncSplit s) (hr : s.range.toNat < top) :
    ShiftReady { s with range := s.range <<< 8 } ∧ CarryRoom { s with range := s.range <<< 8 } := by
  have hshift := range_shift_toNat hr
  have hrange := h.range
  have hlow := h.low
  refine ⟨⟨?_, ?_, h.owed⟩, fun hc => ?_⟩
  · simp only [hshift, top]; omega
  · simp only [hshift]; omega
  · have := h.carry hc
    simp only [hshift]; omega

theorem EncOk.shiftReady {s : State} (h : EncOk s) : ShiftReady s where
  range := h.range
  low := by have := h.low; have : 2 ^ 24 ≤ s.range.toNat := h.range; have := s.range.isLt; omega
  owed := h.owed

theorem ShiftDone.shiftReady {c : Byte} {s t : State} (h : ShiftDone c s t) (hs : ShiftReady s) :
    ShiftReady t where
  range := by rw [h.range]; exact hs.range
  low := by have := h.low; have := t.range.isLt; omega
  owed := h.owed

/-- CACHE is now LOW's top byte; where that is 0xFF, a carry was sent, and LOW was within RANGE of 2^33. -/
theorem ShiftDone.encOk_of_sends {s t : State} (h : ShiftDone (s.low.extractLsb' 24 8) s t)
    (hs : ShiftReady s) (hsend : sendsNow s = true) : EncOk t where
  range := by rw [h.range]; exact hs.range
  low := by have := h.low; have := t.range.isLt; omega
  owed := h.owed
  carry := by
    rw [h.cache, h.low, h.range]
    intro hc
    have hc : s.low.toNat / 2 ^ 24 % 2 ^ 8 = 0xFF := by
      rw [← Nat.shiftRight_eq_div_pow, ← BitVec.extractLsb'_toNat, hc]; rfl
    have := (sendsNow_iff s).1 hsend
    have := hs.low
    omega

/-- LOW's top byte 0xFF is pending now, and CACHE stays. -/
theorem ShiftDone.encOk_of_not_sends {s t : State} (h : ShiftDone s.cache s t) (hs : ShiftReady s)
    (hsend : ¬ sendsNow s = true) (hroom : CarryRoom s) : EncOk t where
  range := by rw [h.range]; exact hs.range
  low := by have := h.low; have := t.range.isLt; omega
  owed := h.owed
  carry := by
    rw [h.cache, h.low, h.range]
    intro hc
    have hroom := Nat.lt_succ_of_le (hroom hc)
    rw [sendsNow_iff] at hsend
    omega

/-! ### The open stream, operation by operation -/

/-- An encoder stream between two operations of a command. -/
structure EncOpen (s : State) : Prop where
  live : Live s
  mode : s.mode = .enc
  coder : EncOk s

/-- An encoder stream between two ShiftLows of ENC_FLUSH. -/
structure FlushOpen (s : State) : Prop where
  live : Live s
  mode : s.mode = .enc
  ready : ShiftReady s

/-- An encoder stream in the middle of a ShiftLow that sends. -/
structure SendOpen (s : State) : Prop extends FlushOpen s where
  sends : sendsNow s = true

theorem FlushOpen.of_coderFrame {s t : State} (h : FlushOpen s) (hf : CoderFrame s t) (hr : ShiftReady t) :
    FlushOpen t :=
  ⟨h.live.of_coderFrame hf, hf.mode.trans h.mode, hr⟩

theorem EncOpen.flushOpen {s : State} (h : EncOpen s) : FlushOpen s :=
  ⟨h.live, h.mode, h.coder.shiftReady⟩

theorem ShiftWaits.sendOpen {s t : State} {left : List EncOp} (h : ShiftWaits s left t) (hs : FlushOpen s)
    (hsend : sendsNow s = true) : SendOpen t := by
  have hlow : t.low = s.low := by rw [h.frame]
  have hrange : t.range = s.range := by rw [h.frame]
  refine { hs.of_coderFrame h.frame.coder ⟨?_, ?_, h.owed⟩ with sends := ?_ }
  · rw [hrange]; exact hs.ready.range
  · rw [hlow, hrange]; exact hs.ready.low
  · rw [sendsNow, hlow]; exact hsend

/-- A command stands in front of these operations while it waits at the sink. -/
def WaitsIn (left : List EncOp) (t : State) : Prop := SendOpen t ∧ ∃ temp, left = [.send temp]

theorem sendFrom_encOpen {temp : Byte} {s : State} (h : SendOpen s) :
    (sendFrom temp s).Post (fun _ => EncOpen) WaitsIn Live := by
  refine (sendFrom_post temp s).imp (fun _ t ht => ?_) (fun left t ht => ?_) (fun t ht => ?_)
  · exact ⟨h.live.of_coderFrame ht.frame, ht.frame.mode.trans h.mode, ht.encOk_of_sends h.ready h.sends⟩
  · exact ⟨ht.sendOpen h.toFlushOpen h.sends, ht.left⟩
  · exact h.live.of_coderFrame ht

theorem shiftLow_encOpen {s : State} (h : FlushOpen s) (hroom : CarryRoom s) :
    (shiftLow s).Post (fun _ => EncOpen) WaitsIn Live := by
  refine (shiftLow_post s).imp (fun _ t ht => ?_) (fun left t ht => ?_) (fun t ht => ?_)
  · refine ⟨h.live.of_coderFrame ht.frame, ht.frame.mode.trans h.mode, ?_⟩
    by_cases hsend : sendsNow s = true
    · rw [if_pos hsend] at ht; exact ht.encOk_of_sends h.ready hsend
    · rw [if_neg hsend] at ht; exact ht.encOk_of_not_sends h.ready hsend hroom
  · exact ⟨ht.2.sendOpen h ht.1, ht.2.left⟩
  · exact h.live.of_coderFrame ht

theorem shiftLow_flushOpen {s : State} (h : FlushOpen s) :
    (shiftLow s).Post (fun _ => FlushOpen) WaitsIn Live := by
  refine (shiftLow_post s).imp (fun _ t ht => ?_) (fun left t ht => ?_) (fun t ht => ?_)
  · exact h.of_coderFrame ht.frame (ht.shiftReady h.ready)
  · exact ⟨ht.2.sendOpen h ht.1, ht.2.left⟩
  · exact h.live.of_coderFrame ht

/-- A coding operation waits in its ShiftLow, with the rest of its NormEnc behind. -/
def NormWaitsIn (left : List EncOp) (t : State) : Prop := SendOpen t ∧ ∃ temp, left = [.send temp, .norm]

/-- One turn of NormEnc's loop is enough (R245). -/
theorem normEnc_encOpen {s : State} (hl : Live s) (hm : s.mode = .enc) (h : EncSplit s) :
    (normEnc renormTurns s).Post (fun _ => EncOpen) NormWaitsIn Live := by
  by_cases hr : s.range.toNat < top
  · obtain ⟨hready, hroom⟩ := h.shiftReady hr
    rw [renormTurns, normEnc_of_lt_top hr]
    have hopen : FlushOpen { s with range := s.range <<< 8 } := ⟨hl, hm, hready⟩
    refine (shiftLow_encOpen hopen hroom).andThen (fun _ t ht => ?_) (fun left t ht => ?_)
      (fun _ ht => ht)
    · rw [normEnc_of_top_le ht.coder.range]; exact ht
    · obtain ⟨hopen, temp, rfl⟩ := ht
      exact ⟨hopen, temp, rfl⟩
  · have hr := Nat.not_lt.1 hr
    rw [renormTurns, normEnc_of_top_le hr]
    exact ⟨hl, hm, hr, h.low, h.owed, h.carry⟩

/-- The split and the update of EncBit keep what its NormEnc needs. -/
theorem EncOpen.split {s : State} (h : EncOpen s) {a : Nat} {p : Prob} (hp : readProb a s = .ok p) (b : Bool) :
    Live (encBitSplit a b p s) ∧ (encBitSplit a b p s).mode = .enc ∧ EncSplit (encBitSplit a b p s) := by
  have hbounds := h.live.prob_bounds hp
  have hl : Live (splitEnc p b s) := by cases b <;> exact h.live
  have hsplit := splitEnc_encSplit h.coder hbounds b
  refine ⟨hl.writeProb ?_ (updateProb_bounds hbounds b), (splitEnc_mode p b s).trans h.mode,
    hsplit.range, hsplit.low, hsplit.owed, hsplit.carry⟩
  rw [splitEnc_probWords]
  exact (readProb_ok.1 hp).1

theorem runEncOp_encOpen {op : EncOp} (hop : isCodingOp op = true) {s : State} (h : EncOpen s) :
    (runEncOp op s).Post (fun _ => EncOpen) NormWaitsIn Live := by
  cases op with
  | modelBit a b =>
    cases hp : readProb a s with
    | error e => rw [runEncOp_modelBit_unreadable hp]; exact h.live
    | ok p =>
      obtain ⟨hl, hm, hsplit⟩ := h.split hp b
      rw [runEncOp_modelBit hp]
      exact normEnc_encOpen hl hm hsplit
  | directBit b =>
    have hl : Live (halveEnc b s) := by cases b <;> exact h.live
    exact normEnc_encOpen hl ((halveEnc_mode b s).trans h.mode) (halveEnc_encSplit h.coder b)
  | norm => exact normEnc_encOpen h.live h.mode h.coder.encSplit
  | shift => cases hop
  | send _ => cases hop
  | close => cases hop

/-! ### The encoder's commands -/

/-- The three ends of an encoder command's first operation. -/
theorem runEnc_cons_next {op : EncOp} {ops : List EncOp} {s t : State} {P R : State → Prop}
    {Q : List EncOp → State → Prop} {C : Prop} (hp : (runEncOp op s).Post (fun _ => P) Q R)
    (h : runEnc (op :: ops) s = .next t) (ok : ∀ u, P u → runEnc ops u = .next t → C)
    (stall : ∀ left u, Q left u → t = { u with wait := some (.enc (left ++ ops)) } → C)
    (raise : ∀ c info u, R u → t = enterFault c info u → C) : C := by
  rw [runEnc] at h
  cases hr : runEncOp op s <;> rw [hr] at h hp <;> simp only at h
  case ok _ u => exact ok u hp h
  case stall left u => exact stall left u hp (by simpa [stallAt_eq] using h.symm)
  case raise c info u => exact raise c info u hp (by simpa [raiseFault_eq] using h.symm)
  case stuck => cases h

/-- What a waiting encoder command's wait needs. -/
theorem SendOpen.inv_stalled {s : State} (h : SendOpen s) {temp : Byte} {rest : List EncOp}
    (hrest : EncRestOk rest) : Inv { s with wait := some (.enc (.send temp :: rest)) } :=
  Machine.inv_stalled h.live
    ⟨h.mode, h.ready.range, h.ready.owed, h.sends, h.ready.low, hrest⟩

theorem EncOpen.streamOk {s : State} (h : EncOpen s) : StreamOk s :=
  ⟨fun _ => h.coder, fun hm => absurd (h.mode.symm.trans hm) (by decide)⟩

theorem runEnc_coding_inv {ops : List EncOp} (hops : ops.all isCodingOp = true) {s t : State} (h : EncOpen s)
    (ht : runEnc ops s = .next t) : Inv t := by
  induction ops generalizing s with
  | nil => exact inv_complete h.live h.streamOk ht
  | cons op ops ih =>
    obtain ⟨hop, hrest⟩ := by simpa using hops
    have hrest : ops.all isCodingOp = true := by simpa using hrest
    refine runEnc_cons_next (runEncOp_encOpen hop h) ht (fun u hu => ih hrest hu) ?_ ?_
    · rintro left u ⟨hu, temp, rfl⟩ rfl
      exact hu.inv_stalled (.inl (by simpa [isCodingOp] using hrest))
    · rintro c info u hu rfl
      exact inv_enterFault hu.1 c info

theorem runEnc_flush_inv {k : Nat} (hk : k ≤ flushShifts) {s t : State} (h : FlushOpen s)
    (ht : runEnc (List.replicate k .shift ++ [.close]) s = .next t) : Inv t := by
  induction k generalizing s with
  | zero =>
    have ht : complete { s with mode := .idle } = .next t := ht
    have hlive : Live { s with mode := .idle } := h.live
    exact inv_complete hlive ⟨nofun, nofun⟩ ht
  | succ k ih =>
    rw [List.replicate_succ, List.cons_append] at ht
    refine runEnc_cons_next (op := .shift) (shiftLow_flushOpen h) ht
      (fun u hu => ih (Nat.le_of_succ_le hk) hu) ?_ ?_
    · rintro left u ⟨hu, temp, rfl⟩ rfl
      exact hu.inv_stalled (.inr ⟨k, hk, rfl⟩)
    · rintro c info u hu rfl
      exact inv_enterFault hu.1 c info

/-- A ShiftLow that waited goes on, and what stood behind it. -/
theorem runEnc_send_inv {temp : Byte} {rest : List EncOp} (hrest : EncRestOk rest) {s t : State}
    (h : SendOpen s) (ht : runEnc (.send temp :: rest) s = .next t) : Inv t := by
  refine runEnc_cons_next (op := .send temp) (sendFrom_encOpen h) ht (fun u hu hrun => ?_) ?_ ?_
  · rcases hrest with hcoding | ⟨k, hk, rfl⟩
    · exact runEnc_coding_inv hcoding hu hrun
    · exact runEnc_flush_inv hk.le hu.flushOpen hrun
  · rintro left u ⟨hu, temp, rfl⟩ rfl
    exact hu.inv_stalled hrest
  · rintro c info u hu rfl
    exact inv_enterFault hu.1 c info

end Sys2Proof.Machine
end

section
/-! PROOFS. The decoder's operations keep R240 and R241 (`41_range_coder.md`), and DEC_INIT opens a stream
that meets them. -/

namespace Sys2Proof.Machine

/-- What a ReadByte may change from `s` to `t`. -/
def ReadFrame (s t : State) : Prop :=
  t = { s with byteIn := t.byteIn, consumed := t.consumed, inCount := t.inCount }

theorem readByte_post (s : State) :
    (readByte s).Post (fun _ => ReadFrame s) (fun _ t => t = s) (· = s) := by
  cases h : readByte s with
  | ok _ t => obtain ⟨_, -, -, rfl⟩ := readByte_ok h; exact rfl
  | stall _ t => exact (readByte_stall h).1
  | raise _ _ t => exact (readByte_raise h).1
  | stuck _ => trivial

/-- A decoder stream between a split or a halving and its NormDec. -/
structure DecSplit (s : State) : Prop where
  range : 2 ^ 16 ≤ s.range.toNat
  code : s.code.toNat < s.range.toNat

/-- A decoder stream between two operations of a command. -/
structure DecOpen (s : State) : Prop where
  live : Live s
  mode : s.mode = .dec
  coder : DecOk s

theorem DecOpen.streamOk {s : State} (h : DecOpen s) : StreamOk s :=
  ⟨fun hm => absurd (h.mode.symm.trans hm) (by decide), fun _ => h.coder⟩

theorem splitDec_decSplit {s : State} (h : DecOk s) {p : Prob} (hp : 31 ≤ p.toNat ∧ p.toNat ≤ 2017) :
    DecSplit (splitDec p (decodedBit p s) s) := by
  obtain ⟨hlo, hhi⟩ := boundOf_bounds h.range hp
  have hc := h.code
  cases hb : decodedBit p s
  · exact ⟨hlo, by simpa [decodedBit] using hb⟩
  · have hle : (boundOf s.range p).toNat ≤ s.code.toNat := by simpa [decodedBit] using hb
    have hrange : (s.range - boundOf s.range p).toNat = s.range.toNat - (boundOf s.range p).toNat :=
      BitVec.toNat_sub_of_le (by rw [BitVec.le_def]; omega)
    have hcode : (s.code - boundOf s.range p).toNat = s.code.toNat - (boundOf s.range p).toNat :=
      BitVec.toNat_sub_of_le hle
    refine ⟨?_, ?_⟩
    · rw [splitDec_range, if_pos rfl, hrange]; omega
    · rw [splitDec_range, splitDec_code, if_pos rfl, if_pos rfl, hrange, hcode]; omega

/-- After a halving CODE is at most RANGE, and the two are equal only in a corrupt stream (R225). -/
theorem directHalved_decSplit {s : State} (h : DecOk s) (hne : (directHalved s).code ≠ (directHalved s).range) :
    DecSplit (directHalved s) := by
  have hr : 2 ^ 24 ≤ s.range.toNat := h.range
  have hc := h.code
  have hhalf := half_toNat s.range
  have hrange : (directHalved s).range = s.range >>> 1 := halveDec_range _ s
  have hcode : (directHalved s).code = if directBitOf s then s.code - s.range >>> 1 else s.code :=
    halveDec_code _ s
  have hne : (directHalved s).code.toNat ≠ (directHalved s).range.toNat :=
    fun e => hne (BitVec.eq_of_toNat_eq e)
  refine ⟨by rw [hrange]; omega, ?_⟩
  cases hb : directBitOf s
  · have hlt : s.code.toNat < (s.range >>> 1).toNat := by simpa [directBitOf] using hb
    rw [hrange, hcode, hb]
    simpa using hlt
  · have hle : (s.range >>> 1).toNat ≤ s.code.toNat := by simpa [directBitOf] using hb
    have hsub : (s.code - s.range >>> 1).toNat = s.code.toNat - (s.range >>> 1).toNat :=
      BitVec.toNat_sub_of_le hle
    rw [hb, if_pos rfl] at hcode
    rw [hrange, hcode, hsub] at hne ⊢
    omega

/-- A byte enters a CODE below 2^24 as its lowest one (R207). -/
theorem pushed_toNat {code : U32} (h : code.toNat < top) (b : Byte) :
    ((code <<< 8) ||| b.setWidth 32).toNat = code.toNat * 2 ^ 8 + b.toNat := by
  have hb := b.isLt
  rw [BitVec.toNat_or, range_shift_toNat h, BitVec.toNat_setWidth, Nat.mod_eq_of_lt (by omega),
    ← Nat.shiftLeft_eq, Nat.shiftLeft_add_eq_or_of_lt hb]

theorem takeCodeByte_decOk {s : State} (h : DecSplit s) (hr : s.range.toNat < top) (b : Byte) :
    DecOk (takeCodeByte b s) := by
  have hrange : (takeCodeByte b s).range.toNat = s.range.toNat * 2 ^ 8 := range_shift_toNat hr
  have hcode : (takeCodeByte b s).code.toNat = s.code.toNat * 2 ^ 8 + b.toNat :=
    pushed_toNat (h.code.trans hr) b
  have := h.range
  have := h.code
  have := b.isLt
  refine ⟨?_, ?_⟩
  · rw [hrange, top]; omega
  · rw [hrange, hcode]; omega

/-- One turn of NormDec's loop is enough (R245), and a stall leaves everything where it was. -/
theorem normDec_decOpen {s : State} (hl : Live s) (hm : s.mode = .dec) (h : DecSplit s) :
    (normDec renormTurns s).Post (fun _ => DecOpen) (fun _ t => t = s ∧ s.range.toNat < top) Live := by
  by_cases hr : s.range.toNat < top
  · rw [renormTurns, normDec_of_lt_top hr]
    refine (readByte_post s).andThen (fun b t ht => ?_) (fun _ t ht => ⟨ht, hr⟩) (fun t ht => ht ▸ hl)
    have hrange : t.range = s.range := by rw [ht]
    have hcode : t.code = s.code := by rw [ht]
    have hlive : Live t := by rw [ht]; exact hl
    have hmode : t.mode = .dec := by rw [ht]; exact hm
    have hok : DecOk (takeCodeByte b t) := by
      refine takeCodeByte_decOk ⟨?_, ?_⟩ ?_ b
      · rw [hrange]; exact h.range
      · rw [hcode, hrange]; exact h.code
      · rw [hrange]; exact hr
    rw [normDec_of_top_le hok.range]
    exact ⟨hlive, hmode, hok⟩
  · have hr := Nat.not_lt.1 hr
    rw [renormTurns, normDec_of_top_le hr]
    exact ⟨hl, hm, hr, h.code⟩

/-- NormDec and a continuation that keeps the invariant. -/
theorem normThen_inv {rest : DecRest} {k : State → Host.Outcome State Fault Refusal} {s t : State}
    (hk : ∀ u, DecOpen u → k u = .next t → Inv t) (hl : Live s) (hm : s.mode = .dec) (h : DecSplit s)
    (ht : normThen rest k s = .next t) : Inv t := by
  rw [normThen_eq_finish] at ht
  refine Flow.finish_next (normDec_decOpen hl hm h) ht (fun _ u hu => hk u hu) ?_ ?_
  · rintro u ⟨rfl, hlt⟩ rfl
    exact inv_stalled hl ⟨hm, h.range, hlt, h.code⟩
  · rintro c info u hu rfl
    exact inv_enterFault hu.1 c info

/-- The split and the update of DecBit keep what its NormDec needs. -/
theorem DecOpen.split {s : State} (h : DecOpen s) {a : Nat} {p : Prob} (hp : readProb a s = .ok p) :
    Live (decBitSplit a p s) ∧ (decBitSplit a p s).mode = .dec ∧ DecSplit (decBitSplit a p s) := by
  have hbounds := h.live.prob_bounds hp
  have hl : Live (splitDec p (decodedBit p s) s) := by cases decodedBit p s <;> exact h.live
  have hsplit := splitDec_decSplit h.coder hbounds
  refine ⟨hl.writeProb ?_ (updateProb_bounds hbounds _), (splitDec_mode p _ s).trans h.mode,
    hsplit.range, hsplit.code⟩
  rw [splitDec_probWords]
  exact (readProb_ok.1 hp).1

theorem decBitThen_inv {a : Nat} {rest : Bool → DecRest}
    {k : Bool → State → Host.Outcome State Fault Refusal} {s t : State}
    (hk : ∀ b u, DecOpen u → k b u = .next t → Inv t) (h : DecOpen s)
    (ht : decBitThen a rest k s = .next t) : Inv t := by
  cases hp : readProb a s with
  | error e =>
    rw [decBitThen_of_unreadable hp] at ht
    cases ht
    exact inv_enterFault h.live.1 e.1 e.2
  | ok p =>
    rw [decBitThen_of_readable hp] at ht
    obtain ⟨hl, hm, hsplit⟩ := h.split hp
    exact normThen_inv (hk _) hl hm hsplit ht

theorem DecOpen.halved_live {s : State} (h : DecOpen s) :
    Live (directHalved s) ∧ (directHalved s).mode = .dec := by
  refine ⟨?_, (halveDec_mode _ s).trans h.mode⟩
  unfold directHalved
  cases directBitOf s <;> exact h.live

theorem decDirectLoop_inv {left : Nat} {r : U32} {s t : State} (h : DecOpen s)
    (ht : decDirectLoop left r s = .next t) : Inv t := by
  induction left generalizing r s with
  | zero => exact inv_completeWith h.live h.streamOk ht
  | succ n ih =>
    obtain ⟨hl, hm⟩ := h.halved_live
    by_cases heq : (directHalved s).code = (directHalved s).range
    · rw [decDirectLoop_corrupt heq] at ht
      cases ht
      exact inv_enterFault hl.1 _ _
    · rw [decDirectLoop_succ heq] at ht
      exact normThen_inv (fun _ hu => ih hu) hl hm (directHalved_decSplit h.coder heq) ht

theorem decTreeLoop_inv {b : AddrField} {d left m : Nat} {s t : State} (h : DecOpen s)
    (ht : decTreeLoop b d left m s = .next t) : Inv t := by
  induction left generalizing m s with
  | zero => exact inv_completeWith h.live h.streamOk ht
  | succ n ih => exact decBitThen_inv (fun _ _ hu => ih hu) h ht

theorem decRevTreeLoop_inv {b : AddrField} {d left m : Nat} {r : U32} {s t : State} (h : DecOpen s)
    (ht : decRevTreeLoop b d left m r s = .next t) : Inv t := by
  induction left generalizing m r s with
  | zero => exact inv_completeWith h.live h.streamOk ht
  | succ n ih => exact decBitThen_inv (fun _ _ hu => ih hu) h ht

theorem decBitEnd_inv {b : Bool} {s t : State} (h : DecOpen s) (ht : decBitEnd b s = .next t) : Inv t :=
  inv_completeWith h.live h.streamOk ht

theorem decContinue_inv {rest : DecRest} {s t : State} (h : DecOpen s) (ht : decContinue rest s = .next t) :
    Inv t := by
  cases rest with
  | bit b => exact decBitEnd_inv h ht
  | direct left r => exact decDirectLoop_inv h ht
  | tree b d left m => exact decTreeLoop_inv h ht
  | revTree b d left m r => exact decRevTreeLoop_inv h ht

/-! ### DEC_INIT -/

/-- A decoder stream that DEC_INIT is opening. -/
structure DecOpening (s : State) : Prop where
  live : Live s
  mode : s.mode = .dec
  range : s.range = rangeInit

theorem DecOpening.of_readFrame {s t : State} (h : DecOpening s) (hf : ReadFrame s t) : DecOpening t := by
  rw [hf]; exact ⟨h.live, h.mode, h.range⟩

theorem decInitEnd_inv {first : Byte} {s t : State} (h : DecOpening s) (ht : decInitEnd first s = .next t) :
    Inv t := by
  unfold decInitEnd at ht
  split at ht
  · cases ht; exact inv_enterFault h.live.1 _ _
  · rename_i hne
    have hcode : s.code.toNat ≠ 2 ^ 32 - 1 := fun e => hne (.inr (BitVec.eq_of_toNat_eq (e.trans rfl)))
    have hrange : s.range.toNat = 2 ^ 32 - 1 := by rw [h.range]; rfl
    have hopen : DecOpen s := ⟨h.live, h.mode, by unfold top; omega, by have := s.code.isLt; omega⟩
    exact inv_complete h.live hopen.streamOk ht

theorem decInitRest_inv {left : Nat} {first : Byte} (hleft : left ≤ decInitLaterBytes) {s t : State}
    (h : DecOpening s) (ht : decInitRest left first s = .next t) : Inv t := by
  induction left generalizing s with
  | zero => exact decInitEnd_inv h ht
  | succ n ih =>
    rw [decInitRest_succ] at ht
    refine Flow.finish_next (readByte_post s) ht (fun b u hu => ?_) ?_ ?_
    · have hu := h.of_readFrame hu
      exact ih (Nat.le_of_succ_le hleft) ⟨hu.live, hu.mode, hu.range⟩
    · rintro u rfl rfl
      exact inv_stalled h.live ⟨h.mode, h.range, Nat.succ_le_succ (Nat.zero_le n), hleft⟩
    · rintro c info u rfl rfl
      exact inv_enterFault h.live.1 c info

theorem decInitFirst_inv {s t : State} (h : DecOpening s) (hcode : s.code = 0)
    (ht : decInitFirst s = .next t) : Inv t := by
  rw [decInitFirst_eq_finish] at ht
  refine Flow.finish_next (readByte_post s) ht (fun b u hu => ?_) ?_ ?_
  · have hu := h.of_readFrame hu
    exact decInitRest_inv le_rfl ⟨hu.live, hu.mode, hu.range⟩
  · rintro u rfl rfl
    exact inv_stalled h.live ⟨h.mode, h.range, hcode⟩
  · rintro c info u rfl rfl
    exact inv_enterFault h.live.1 c info

end Sys2Proof.Machine
end

section
/-! PROOFS. Each command in one form: the mode's check, its other checks, and its run; and how every command
ends, by its kind. -/

namespace Sys2Proof.Machine

/-- What an encoder command does after its checks. -/
def encOps : Instr → List EncOp
  | .encBit a b => [.modelBit a.toNat (bitOf b)]
  | .encDirect n v => (msbFirst n.toNat v).map .directBit
  | .encBt b d v => treeOps b (msbFirst d.toNat v)
  | .encRbt b d v => treeOps b (lsbFirst d.toNat v)
  | .encFlush => flushOps
  | _ => []

/-- What a decoder command does after its checks. -/
def decRun : Instr → State → Host.Outcome State Fault Refusal
  | .decBit a => decBitThen a.toNat .bit decBitEnd
  | .decDirect n => decDirectLoop n.toNat 0
  | .decBt b d => decTreeLoop b d.toNat d.toNat 1
  | .decRbt b d => decRevTreeLoop b d.toNat d.toNat 1 0
  | _ => complete

/-- The checks of a coding command behind the mode's. -/
def codingChecks (i : Instr) (s : State) : List Check :=
  match i with
  | .encBit a b => checkOperand (bitInDomain b) (encode i) :: contextChecks a s
  | .encDirect n v => [checkOperand (countInDomain n && valueInDomain n v) (encode i)]
  | .encBt b d v | .encRbt b d v =>
    checkOperand (depthInDomain d && symbolInDomain d v) (encode i) :: treeChecks b d s
  | .decBit a => contextChecks a s
  | .decDirect n => [checkOperand (countInDomain n) (encode i)]
  | .decBt b d | .decRbt b d => checkOperand (depthInDomain d) (encode i) :: treeChecks b d s
  | _ => []

theorem exec_enc {i : Instr} (hi : needsEnc i = true) (s : State) :
    exec i s = afterChecks (checkMode .enc (encode i) s :: codingChecks i s) s (runEnc (encOps i)) := by
  cases i with
  | encBit a b => rfl
  | encDirect n v => rfl
  | encBt b d v => rfl
  | encRbt b d v => rfl
  | encFlush => rfl
  | _ => cases hi

theorem exec_dec {i : Instr} (hi : needsDec i = true) (s : State) :
    exec i s = afterChecks (checkMode .dec (encode i) s :: codingChecks i s) s (decRun i) := by
  cases i with
  | decBit a => rfl
  | decDirect n => rfl
  | decBt b d => rfl
  | decRbt b d => rfl
  | _ => cases hi

/-- A command with a mode: the fault of a check on the untouched state, or its run in that mode. -/
theorem afterChecks_mode_next {m : Mode} {w : Word} {cs : List Check} {s t : State}
    {run : State → Host.Outcome State Fault Refusal}
    (h : afterChecks (checkMode m w s :: cs) s run = .next t) :
    (∃ c info, t = enterFault c info s)
      ∨ (firstFailing (checkMode m w s :: cs) = none ∧ s.mode = m ∧ run s = .next t) := by
  rcases afterChecks_next h with ⟨c, info, -, rfl⟩ | ⟨hpass, hrun⟩
  · exact .inl ⟨c, info, rfl⟩
  · refine .inr ⟨hpass, ?_, hrun⟩
    by_contra hm
    rw [checkMode_fail hm] at hpass
    cases hpass

theorem treeOps_coding (b : AddrField) (bits : List Bool) : (treeOps b bits).all isCodingOp = true := by
  simp [treeOps, isCodingOp]

theorem encOps_coding {i : Instr} (hi : i ≠ .encFlush) : (encOps i).all isCodingOp = true := by
  cases i with
  | encBit a b =>
    show [EncOp.modelBit _ _].all isCodingOp = true
    rfl
  | encDirect n v =>
    show ((msbFirst n.toNat v).map EncOp.directBit).all isCodingOp = true
    simp [isCodingOp]
  | encBt b d v => exact treeOps_coding _ _
  | encRbt b d v => exact treeOps_coding _ _
  | encFlush => exact absurd rfl hi
  | _ => rfl

/-- How a command ends, by its kind. -/
inductive CommandEnds : Instr → State → State → Prop
  | nop {s} : CommandEnds .nop s (completed s)
  | encInit {s} : CommandEnds .encInit s (completed { s with
      mode := .enc, low := 0, range := rangeInit, cache := 0, cacheSize := cacheSizeInit, outCount := 0 })
  | decInit {s t} (h : DecInitEnds { s with mode := .dec, range := rangeInit, code := 0, inCount := 0 } t) :
    CommandEnds .decInit s t
  | probInit {a c s} (h : a.toNat + c.toNat ≤ s.probWords) : CommandEnds (.probInit a c) s
      (completed { s with prob := memFill s.prob a.toNat c.toNat probInitValue })
  | probInitFault {a c s} (code info) : CommandEnds (.probInit a c) s (enterFault code info s)
  | enc {i s t} (hi : needsEnc i = true) (h : EncEnds s t) : CommandEnds i s t
  | dec {i s t} (hi : needsDec i = true) (h : DecEnds s t) : CommandEnds i s t
  | obs {i s t} (hi : writesRes i = true) (h : ObsEnds s t) : CommandEnds i s t

theorem exec_ends {i : Instr} {s t : State} (h : exec i s = .next t) : CommandEnds i s t := by
  cases i with
  | nop => cases h; exact .nop
  | encInit => cases h; exact .encInit
  | decInit => exact .decInit (exec_decInit_ends h)
  | probInit a c =>
    rcases exec_probInit_next h with ⟨hs, rfl⟩ | ⟨-, rfl⟩
    · exact .probInit hs
    · exact .probInitFault _ _
  | encBit a b => exact .enc rfl (exec_enc_ends rfl h)
  | encDirect n v => exact .enc rfl (exec_enc_ends rfl h)
  | encBt b d v => exact .enc rfl (exec_enc_ends rfl h)
  | encRbt b d v => exact .enc rfl (exec_enc_ends rfl h)
  | encFlush => exact .enc rfl (exec_enc_ends rfl h)
  | decBit a => exact .dec rfl (exec_dec_ends rfl h)
  | decDirect n => exact .dec rfl (exec_dec_ends rfl h)
  | decBt b d => exact .dec rfl (exec_dec_ends rfl h)
  | decRbt b d => exact .dec rfl (exec_dec_ends rfl h)
  | probRead a => exact .obs rfl (exec_obs_ends rfl rfl h)
  | regRead sel => exact .obs rfl (exec_obs_ends rfl rfl h)
  | priceBit a x => exact .obs rfl (exec_obs_ends rfl rfl h)
  | priceDirect n => exact .obs rfl (exec_obs_ends rfl rfl h)
  | priceBt b d v => exact .obs rfl (exec_obs_ends rfl rfl h)
  | priceRbt b d v => exact .obs rfl (exec_obs_ends rfl rfl h)

end Sys2Proof.Machine
end

section
/-! PROOFS. One step of the block, by what it finds (`60_exceptions.md` R342). -/

namespace Sys2Proof.Machine

/-- A step of a block with a command waiting goes on with it (`10_state.md` R58). -/
theorem step_of_waiting {s : State} {w : Wait} (hreset : s.resetIn = false) (hwait : s.wait = some w) :
    step s = resume w s := by
  rw [step, advance, hreset, hwait]
  rfl

/-- A step with no word presented and none waiting does nothing. -/
theorem step_of_nothing {s : State} (hreset : s.resetIn = false) (hwait : s.wait = none)
    (hcmd : s.cmdIn = []) : step s = .next s := by
  rw [step, advance, hreset, hwait, hcmd]
  rfl

theorem step_of_reset {s : State} (hreset : s.resetIn = true) : step s = .next (applyReset s) := by
  rw [step, advance, if_pos hreset]

/-- A step of a block that waits for nothing takes the next word presented (R342). -/
theorem step_of_presented {s : State} {w : Word} {rest : List Word} (hreset : s.resetIn = false)
    (hwait : s.wait = none) (hcmd : s.cmdIn = w :: rest) : step s = takeWord w { s with cmdIn := rest } := by
  rw [step, advance, hreset, hwait, hcmd]
  rfl

theorem takeWord_of_faulted {s : State} (h : s.faulted = true) (w : Word) :
    takeWord w s = .next (discard s) := if_pos h

theorem takeWord_of_not_faulted {s : State} (h : s.faulted = false) (w : Word) :
    takeWord w s = runWord w s := if_neg (h ▸ Bool.false_ne_true)

theorem runWord_of_command {w : Word} {i : Instr} (h : decode w = .command i) (s : State) :
    runWord w s = exec i s := by rw [runWord, h]

theorem runWord_of_illegal {w : Word} {r : Reject} (h : decode w = .illegal r) (s : State) :
    runWord w s = .next (enterFault .illegalCommand w s) := by rw [runWord, h]; rfl

end Sys2Proof.Machine
end

section
/-! PROOFS. Every step keeps the invariant (`41_range_coder.md` R240 to R244). -/

namespace Sys2Proof.Machine

theorem encInit_inv {s : State} (h : Live s) (n : Nat) : Inv { s with
    mode := .enc, low := 0, range := rangeInit, cache := 0, cacheSize := cacheSizeInit, outCount := 0,
    wait := none, csp := n } := by
  have hok : EncOk { s with
      mode := .enc, low := 0, range := rangeInit, cache := 0, cacheSize := cacheSizeInit, outCount := 0,
      wait := none, csp := n } :=
    ⟨show top ≤ rangeInit.toNat by decide, show 0 + rangeInit.toNat < 2 ^ 33 by decide,
      show 1 ≤ cacheSizeInit.toNat by decide, fun hc => absurd (show (0 : Byte) = 0xFF from hc) (by decide)⟩
  exact inv_of_live h ⟨fun _ => hok, nofun⟩

/-- PROB_INIT's value is in [31, 2017], and its run is within PROB_WORDS (R170). -/
theorem Live.filled {s : State} (h : Live s) {a c : Nat} (hspan : a + c ≤ s.probWords) :
    Live { s with prob := memFill s.prob a c probInitValue } := by
  obtain ⟨⟨hwords, hmemory, hprobs⟩, hfault⟩ := h
  refine ⟨⟨hwords, memFill_wf hmemory a c probInitValue, fun e he => ?_⟩, hfault⟩
  rcases mem_memFill he with ⟨-, hlt, hv⟩ | he
  · exact ⟨Nat.lt_of_lt_of_le hlt hspan, by rw [hv]; decide⟩
  · exact hprobs e he

theorem decRun_inv {i : Instr} (hi : needsDec i = true) {s t : State} (h : DecOpen s)
    (ht : decRun i s = .next t) : Inv t := by
  cases i with
  | decBit a => exact decBitThen_inv (k := decBitEnd) (fun _ _ hu => decBitEnd_inv hu) h ht
  | decDirect n => exact decDirectLoop_inv h ht
  | decBt b d => exact decTreeLoop_inv h ht
  | decRbt b d => exact decRevTreeLoop_inv h ht
  | _ => cases hi

theorem exec_inv {i : Instr} {s t : State} (hl : Live s) (hs : StreamOk s) (h : exec i s = .next t) :
    Inv t := by
  cases exec_ends h with
  | nop => exact inv_complete hl hs rfl
  | encInit => exact encInit_inv hl _
  | decInit =>
    exact decInitFirst_inv (s := { s with mode := .dec, range := rangeInit, code := 0, inCount := 0 })
      ⟨hl, rfl, rfl⟩ rfl h
  | probInit hspan => exact inv_complete (hl.filled hspan) (hs.congr rfl rfl rfl rfl rfl rfl) rfl
  | probInitFault c info => exact inv_enterFault hl.1 c info
  | enc hi =>
    rw [exec_enc hi] at h
    rcases afterChecks_mode_next h with ⟨c, info, rfl⟩ | ⟨-, hm, hrun⟩
    · exact inv_enterFault hl.1 c info
    · have hopen : EncOpen s := ⟨hl, hm, hs.1 hm⟩
      by_cases hflush : i = .encFlush
      · subst hflush; exact runEnc_flush_inv le_rfl hopen.flushOpen hrun
      · exact runEnc_coding_inv (encOps_coding hflush) hopen hrun
  | dec hi =>
    rw [exec_dec hi] at h
    rcases afterChecks_mode_next h with ⟨c, info, rfl⟩ | ⟨-, hm, hrun⟩
    · exact inv_enterFault hl.1 c info
    · exact decRun_inv hi ⟨hl, hm, hs.2 hm⟩ hrun
  | obs _ hends =>
    rcases hends with ⟨r, rfl⟩ | ⟨c, info, rfl⟩
    · exact inv_completed hl hs r _
    · exact inv_enterFault hl.1 c info

theorem resume_inv {w : Wait} {s t : State} (hl : Live s) (hw : WaitOk s w) (h : resume w s = .next t) :
    Inv t := by
  match w, hw with
  | .enc (.send temp :: rest), hw =>
    obtain ⟨hm, hrange, howed, hsend, hlow, hrest⟩ := hw
    exact runEnc_send_inv hrest ⟨⟨hl, hm, hrange, hlow, howed⟩, hsend⟩ h
  | .decFirst, hw =>
    obtain ⟨hm, hrange, hcode⟩ := hw
    exact decInitFirst_inv ⟨hl, hm, hrange⟩ hcode h
  | .decRest left first, hw =>
    obtain ⟨hm, hrange, -, hleft⟩ := hw
    exact decInitRest_inv hleft ⟨hl, hm, hrange⟩ h
  | .decNorm rest, hw =>
    obtain ⟨hm, hrange, -, hcode⟩ := hw
    exact normThen_inv (fun _ hu => decContinue_inv hu) hl hm ⟨hrange, hcode⟩ h

theorem applyReset_inv {s : State} (h : Inv s) : Inv (applyReset s) :=
  inv_of_idle_of_prob_nil h.words rfl (faultRegsOk_of_not_faulted rfl rfl rfl) rfl rfl

/-- The invariant of a waiting command speaks of no port. -/
theorem WaitOk.of_ports {s t : State} {w : Wait} (h : WaitOk s w)
    (ht : t = { s with cmdIn := t.cmdIn, byteIn := t.byteIn, eos := t.eos, sinkRoom := t.sinkRoom,
                       resetIn := t.resetIn }) : WaitOk t w := by
  rw [ht]
  match w, h with
  | .enc (.send _ :: _), h => exact h
  | .decFirst, h => exact h
  | .decRest _ _, h => exact h
  | .decNorm _, h => exact h

theorem Inv.of_ports {s t : State} (h : Inv s)
    (ht : t = { s with cmdIn := t.cmdIn, byteIn := t.byteIn, eos := t.eos, sinkRoom := t.sinkRoom,
                       resetIn := t.resetIn }) : Inv t := by
  have hwait : t.wait = s.wait := by rw [ht]
  have hfaulted : t.faulted = s.faulted := by rw [ht]
  refine ⟨by rw [ht]; exact h.words, by rw [ht]; exact h.memory, by rw [ht]; exact h.probs,
    by rw [ht]; exact h.faultRegs, fun hf => ?_⟩
  have hf := hfaulted.symm.trans hf
  cases hw : s.wait with
  | none =>
    rw [CoderOk, hwait, hw]
    exact (h.streamOk hf hw).congr (by rw [ht]) (by rw [ht]) (by rw [ht]) (by rw [ht]) (by rw [ht]) (by rw [ht])
  | some w =>
    rw [CoderOk, hwait, hw]
    exact (h.waitOk hw).of_ports ht

/-- A word taken with no command waiting: a discarded one, an illegal word or a command. -/
theorem takeWord_inv {w : Word} {s t : State} (h : Inv s) (hwait : s.wait = none)
    (ht : takeWord w s = .next t) : Inv t := by
  cases hf : s.faulted with
  | true =>
    rw [takeWord_of_faulted hf] at ht
    cases ht
    exact ⟨h.words, h.memory, h.probs, h.faultRegs, fun hne => absurd (hf.symm.trans hne) (by decide)⟩
  | false =>
    rw [takeWord_of_not_faulted hf] at ht
    cases hd : decode w with
    | command i =>
      rw [runWord_of_command hd] at ht
      exact exec_inv (h.live hf) (h.streamOk hf hwait) ht
    | illegal r =>
      rw [runWord_of_illegal hd] at ht
      cases ht
      exact inv_enterFault h.probsOk _ _

/-- Settles O12: a step is a reset, a waiting command going on, nothing, or a word taken, and each of them
keeps the invariant. -/
theorem everyStepKeepsInvariant : Obligations.EveryStepKeepsInvariant := by
  intro s t h ht
  cases hreset : s.resetIn with
  | true =>
    rw [step_of_reset hreset] at ht
    cases ht
    exact applyReset_inv h
  | false =>
    cases hw : s.wait with
    | some w =>
      rw [step_of_waiting hreset hw] at ht
      exact resume_inv (h.live (h.not_faulted_of_wait hw)) (h.waitOk hw) ht
    | none =>
      cases hcmd : s.cmdIn with
      | nil =>
        rw [step_of_nothing hreset hw hcmd] at ht
        cases ht
        exact h
      | cons w rest =>
        rw [step_of_presented hreset hw hcmd] at ht
        have hport : Inv { s with cmdIn := rest } := h.of_ports rfl
        exact takeWord_inv hport hw ht

end Sys2Proof.Machine
end

section
/-! PROOFS. What a command's end writes (`10_state.md` R41, R46; `60_exceptions.md` R340), whichever command it
is: CSP, the bytes sent and taken, and RES. -/

namespace Sys2Proof.Machine

/-- The three ends of a command from the state its operations reached. -/
inductive EndsFrom (u : State) : State → Prop
  | completes (r : U32) : EndsFrom u { u with res := r, wait := none, csp := u.csp + 1 }
  | faults (c : FaultCode) (info : U64) : EndsFrom u (enterFault c info u)
  | waits (w : Wait) : EndsFrom u { u with wait := some w }

theorem EndsFrom.keeps {u t : State} (h : EndsFrom u t) :
    t = { u with res := t.res, faulted := t.faulted, faultCode := t.faultCode, faultInfo := t.faultInfo,
                 wait := t.wait, csp := t.csp } := by
  cases h <;> rfl

/-- CSP is one further unless the command waits (R41). -/
def CspOnce (s t : State) : Prop :=
  (t.wait = none ∧ t.csp = s.csp + 1) ∨ (t.wait.isSome = true ∧ t.csp = s.csp)

theorem EndsFrom.cspOnce {s u t : State} (h : EndsFrom u t) (hu : u.csp = s.csp) : CspOnce s t := by
  cases h with
  | completes r => exact .inl ⟨rfl, congrArg (· + 1) hu⟩
  | faults c info => exact .inl ⟨rfl, congrArg (· + 1) hu⟩
  | waits w => exact .inr ⟨rfl, hu⟩

/-- A command that does not complete leaves RES (R46, R343). -/
theorem EndsFrom.res {u t : State} (h : EndsFrom u t) (hf : u.faulted = false)
    (ht : t.faulted = true ∨ t.wait ≠ none) : t.res = u.res := by
  cases h with
  | completes r =>
    rcases ht with ht | ht
    · exact absurd (hf.symm.trans ht) (by decide)
    · exact absurd rfl ht
  | faults c info => rfl
  | waits w => rfl

theorem EncEnds.endsFrom {s t : State} (h : EncEnds s t) :
    ∃ u, EncFrame s u ∧ EndsFrom u t ∧ t.res = s.res := by
  obtain ⟨u, hu, hend⟩ := h
  have hres : u.res = s.res := by rw [hu.rest]
  rcases hend with rfl | ⟨c, info, rfl, -⟩ | ⟨left, rfl⟩
  · exact ⟨u, hu, .completes u.res, hres⟩
  · exact ⟨u, hu, .faults c info, hres⟩
  · exact ⟨u, hu, .waits _, hres⟩

theorem DecEnds.endsFrom {s t : State} (h : DecEnds s t) : ∃ u, DecFrame s u ∧ EndsFrom u t := by
  obtain ⟨u, hu, hend⟩ := h
  rcases hend with ⟨r, rfl⟩ | ⟨c, info, rfl, -⟩ | ⟨w, rfl, -⟩
  · exact ⟨u, hu, .completes r⟩
  · exact ⟨u, hu, .faults c info⟩
  · exact ⟨u, hu, .waits w⟩

theorem DecInitEnds.endsFrom {s t : State} (h : DecInitEnds s t) :
    ∃ u, DecFrame s u ∧ EndsFrom u t ∧ t.res = s.res := by
  obtain ⟨u, hu, hend⟩ := h
  have hres : u.res = s.res := by rw [hu.rest]
  rcases hend with rfl | ⟨c, info, rfl, -⟩ | ⟨w, rfl, -⟩
  · exact ⟨u, hu, .completes u.res, hres⟩
  · exact ⟨u, hu, .faults c info, hres⟩
  · exact ⟨u, hu, .waits w, hres⟩

theorem ObsEnds.endsFrom {s t : State} (h : ObsEnds s t) : EndsFrom s t := by
  rcases h with ⟨r, rfl⟩ | ⟨c, info, rfl⟩
  · exact .completes r
  · exact .faults c info

theorem EncEnds.cspOnce {s t : State} (h : EncEnds s t) : CspOnce s t := by
  obtain ⟨u, hu, hend, -⟩ := h.endsFrom
  exact hend.cspOnce (by rw [hu.rest])

theorem DecEnds.cspOnce {s t : State} (h : DecEnds s t) : CspOnce s t := by
  obtain ⟨u, hu, hend⟩ := h.endsFrom
  exact hend.cspOnce (by rw [hu.rest])

theorem DecInitEnds.cspOnce {s t : State} (h : DecInitEnds s t) : CspOnce s t := by
  obtain ⟨u, hu, hend, -⟩ := h.endsFrom
  exact hend.cspOnce (by rw [hu.rest])

theorem DecEnds.mode {s t : State} (h : DecEnds s t) : t.mode = s.mode := by
  obtain ⟨u, hu, hend⟩ := h.endsFrom
  rw [hend.keeps, hu.rest]

theorem DecInitEnds.mode {s t : State} (h : DecInitEnds s t) : t.mode = s.mode := by
  obtain ⟨u, hu, hend, -⟩ := h.endsFrom
  rw [hend.keeps, hu.rest]

/-- A command does not touch the command port: its word has left it (`10_state.md` R56). -/
theorem exec_cmdIn {i : Instr} {s t : State} (h : exec i s = .next t) : t.cmdIn = s.cmdIn := by
  cases exec_ends h with
  | nop => rfl
  | encInit => rfl
  | decInit hends => obtain ⟨u, hu, hend, -⟩ := hends.endsFrom; rw [hend.keeps, hu.rest]
  | probInit => rfl
  | probInitFault => rfl
  | enc _ hends => obtain ⟨u, hu, hend, -⟩ := hends.endsFrom; rw [hend.keeps, hu.rest]
  | dec _ hends => obtain ⟨u, hu, hend⟩ := hends.endsFrom; rw [hend.keeps, hu.rest]
  | obs _ hends => rw [hends.endsFrom.keeps]

theorem exec_cspOnce {i : Instr} {s t : State} (h : exec i s = .next t) : CspOnce s t := by
  cases exec_ends h with
  | nop => exact .inl ⟨rfl, rfl⟩
  | encInit => exact .inl ⟨rfl, rfl⟩
  | decInit hends => exact hends.cspOnce
  | probInit => exact .inl ⟨rfl, rfl⟩
  | probInitFault => exact .inl ⟨rfl, rfl⟩
  | enc _ hends => exact hends.cspOnce
  | dec _ hends => exact hends.cspOnce
  | obs _ hends => exact hends.endsFrom.cspOnce rfl

theorem resume_cspOnce {w : Wait} {s t : State} (h : resume w s = .next t) : CspOnce s t := by
  cases w with
  | enc ops => exact (resume_enc_ends h).cspOnce
  | decFirst => exact (resume_decInit_ends.1 h).cspOnce
  | decRest left first => exact (resume_decInit_ends.2 left first h).cspOnce
  | decNorm rest => exact (resume_decNorm_ends h).cspOnce

/-- A word taken with no command waiting: a command, an illegal word or a discarded one. -/
theorem takeWord_cspOnce {w : Word} {s t : State} (hwait : s.wait = none) (h : takeWord w s = .next t) :
    t.cmdIn = s.cmdIn ∧ CspOnce s t := by
  cases hf : s.faulted with
  | true =>
    rw [takeWord_of_faulted hf] at h
    cases h
    exact ⟨rfl, .inl ⟨hwait, rfl⟩⟩
  | false =>
    rw [takeWord_of_not_faulted hf] at h
    cases hd : decode w with
    | command i =>
      rw [runWord_of_command hd] at h
      exact ⟨exec_cmdIn h, exec_cspOnce h⟩
    | illegal r =>
      rw [runWord_of_illegal hd] at h
      cases h
      exact ⟨rfl, .inl ⟨rfl, rfl⟩⟩

/-- Settles O17: CSP is written by a command's end alone, and by the discarding of a word. -/
theorem everyTakenWordAdvancesCspOnce : Obligations.EveryTakenWordAdvancesCspOnce := by
  refine ⟨fun s t hreset hwait hcmd h => ?_, fun i s t h => exec_cspOnce h, fun w s t h => resume_cspOnce h⟩
  obtain ⟨w, rest, hword⟩ := List.exists_cons_of_ne_nil hcmd
  rw [step_of_presented hreset hwait hword] at h
  obtain ⟨hport, hcsp⟩ := takeWord_cspOnce (s := { s with cmdIn := rest }) hwait h
  exact ⟨by rw [hword, List.tail_cons]; exact hport, hcsp⟩

theorem writesRes_of_needsDec {i : Instr} (hi : needsDec i = true) : writesRes i = true := by
  cases i with
  | decBit _ => rfl
  | decDirect _ => rfl
  | decBt _ _ => rfl
  | decRbt _ _ => rfl
  | _ => cases hi

/-- Settles O20: the commands that write no RES end with the one they began with, and a fault or a wait is an
end without a result. -/
theorem resultChangesOnlyOnCompletion : Obligations.ResultChangesOnlyOnCompletion := by
  intro i s t hf h hno
  cases exec_ends h with
  | nop => rfl
  | encInit => rfl
  | decInit hends => obtain ⟨u, -, -, hres⟩ := hends.endsFrom; exact hres
  | probInit => rfl
  | probInitFault => rfl
  | enc _ hends => obtain ⟨u, -, -, hres⟩ := hends.endsFrom; exact hres
  | dec hi hends =>
    obtain ⟨u, hu, hend⟩ := hends.endsFrom
    have hwrites := writesRes_of_needsDec hi
    have hres : u.res = s.res := by rw [hu.rest]
    have hfaulted : u.faulted = false := by rw [hu.rest]; exact hf
    exact (hend.res hfaulted (hno.resolve_left (by simp [hwrites]))).trans hres
  | obs hi hends => exact hends.endsFrom.res hf (hno.resolve_left (by simp [hi]))

/-! ### The byte streams -/

/-- The sink takes nothing. -/
theorem nothing_sent {s t : State} {n : Nat} (hsent : t.sent = s.sent) (hcount : t.outCount.toNat = n)
    (hroom : t.sinkRoom = s.sinkRoom) : ∃ bs : List Byte, t.sent = s.sent ++ bs
      ∧ t.outCount.toNat = n + bs.length ∧ (∀ room, s.sinkRoom = some room → bs.length ≤ room)
      ∧ t.sinkRoom = s.sinkRoom.map (fun room => room - bs.length) :=
  ⟨[], by simp [hsent], hcount, fun _ _ => Nat.zero_le _, by simp [hroom]⟩

/-- The input port gives nothing. -/
theorem nothing_taken {s t : State} {n : Nat} (hin : t.byteIn = s.byteIn) (hconsumed : t.consumed = s.consumed)
    (hcount : t.inCount.toNat = n) : ∃ bs : List Byte, s.byteIn = bs ++ t.byteIn
      ∧ t.consumed = s.consumed ++ bs ∧ t.inCount.toNat = n + bs.length :=
  ⟨[], hin.symm, by simp [hconsumed], hcount⟩

/-- Settles O21: the encoder's operations alone send bytes, and their frame says how. -/
theorem bytesLeaveInOrder : Obligations.BytesLeaveInOrder := by
  intro i s t h
  cases exec_ends h with
  | nop => exact nothing_sent rfl rfl rfl
  | encInit => exact nothing_sent rfl rfl rfl
  | decInit hends =>
    obtain ⟨u, hu, hend, -⟩ := hends.endsFrom
    exact nothing_sent (by rw [hend.keeps, hu.rest]) (by rw [hend.keeps, hu.rest]; rfl)
      (by rw [hend.keeps, hu.rest])
  | probInit => exact nothing_sent rfl rfl rfl
  | probInitFault => exact nothing_sent rfl rfl rfl
  | enc hi hends =>
    obtain ⟨u, hu, hend, -⟩ := hends.endsFrom
    have hne : i ≠ .encInit := by rintro rfl; cases hi
    rw [if_neg hne, hend.keeps]
    exact hu.bytes
  | dec hi hends =>
    obtain ⟨u, hu, hend⟩ := hends.endsFrom
    have hne : i ≠ .encInit := by rintro rfl; cases hi
    rw [if_neg hne]
    exact nothing_sent (by rw [hend.keeps, hu.rest]) (by rw [hend.keeps, hu.rest])
      (by rw [hend.keeps, hu.rest])
  | obs hi hends =>
    have hne : i ≠ .encInit := by rintro rfl; cases hi
    rw [if_neg hne, hends.endsFrom.keeps]
    exact nothing_sent rfl rfl rfl

/-- Settles O22: DEC_INIT and the decoder's operations alone take bytes, and their frame says how. -/
theorem bytesEnterInOrder : Obligations.BytesEnterInOrder := by
  intro i s t h
  cases exec_ends h with
  | nop => exact nothing_taken rfl rfl rfl
  | encInit => exact nothing_taken rfl rfl rfl
  | decInit hends =>
    obtain ⟨u, hu, hend, -⟩ := hends.endsFrom
    rw [if_pos rfl, hend.keeps]
    exact hu.bytes
  | probInit => exact nothing_taken rfl rfl rfl
  | probInitFault => exact nothing_taken rfl rfl rfl
  | enc hi hends =>
    obtain ⟨u, hu, hend, -⟩ := hends.endsFrom
    have hne : i ≠ .decInit := by rintro rfl; cases hi
    rw [if_neg hne]
    exact nothing_taken (by rw [hend.keeps, hu.rest]) (by rw [hend.keeps, hu.rest])
      (by rw [hend.keeps, hu.rest])
  | dec hi hends =>
    obtain ⟨u, hu, hend⟩ := hends.endsFrom
    have hne : i ≠ .decInit := by rintro rfl; cases hi
    rw [if_neg hne, hend.keeps]
    exact hu.bytes
  | obs hi hends =>
    have hne : i ≠ .decInit := by rintro rfl; cases hi
    rw [if_neg hne, hends.endsFrom.keeps]
    exact nothing_taken rfl rfl rfl

end Sys2Proof.Machine
end

section
/-! PROOFS. The register of the stalled command (`10_state.md` R58) is written at a command's end and never
read by its run: a command that goes on does what one that starts there does. -/

namespace Sys2Proof.Machine

def withWait (x : Option Wait) (s : State) : State := { s with wait := x }

/-- The flow with `g` of its state. -/
def Flow.mapState {α ω : Type} (g : State → State) : Flow α ω → Flow α ω
  | .ok a s => .ok a (g s)
  | .stall left s => .stall left (g s)
  | .raise c info s => .raise c info (g s)
  | .stuck e => .stuck e

theorem Flow.mapState_andThen {α β ω υ : Type} {g : State → State} {behind : ω → υ}
    {next : α → State → Flow β υ} (h : ∀ a t, next a (g t) = (next a t).mapState g) (f : Flow α ω) :
    (f.mapState g).andThen behind next = (f.andThen behind next).mapState g := by
  cases f with
  | ok a t => exact h a t
  | stall _ _ => rfl
  | raise _ _ _ => rfl
  | stuck _ => rfl

variable (x : Option Wait)

theorem writeByte_withWait (b : Byte) (s : State) :
    writeByte b (withWait x s) = (writeByte b s).mapState (withWait x) := by
  unfold writeByte
  by_cases hc : s.outCount = counterMax
  · rw [if_pos hc, if_pos (show (withWait x s).outCount = counterMax from hc)]; rfl
  · rw [if_neg hc, if_neg (show (withWait x s).outCount ≠ counterMax from hc)]
    by_cases hr : sinkReady s = true
    · rw [if_pos hr, if_pos (show sinkReady (withWait x s) = true from hr)]; rfl
    · rw [if_neg hr, if_neg (show ¬ sinkReady (withWait x s) = true from hr)]; rfl

theorem shiftEnd_withWait (s : State) : shiftEnd (withWait x s) = (shiftEnd s).mapState (withWait x) := by
  unfold shiftEnd
  by_cases hc : s.cacheSize = counterMax
  · rw [if_pos hc, if_pos (show (withWait x s).cacheSize = counterMax from hc)]; rfl
  · rw [if_neg hc, if_neg (show (withWait x s).cacheSize ≠ counterMax from hc)]; rfl

theorem sendPending_withWait (n : Nat) (temp : Byte) (s : State) :
    sendPending n temp (withWait x s) = (sendPending n temp s).mapState (withWait x) := by
  induction n generalizing temp s with
  | zero => rfl
  | succ n ih =>
    rw [sendPending_succ, sendPending_succ, show carryByte (withWait x s) = carryByte s from rfl,
      writeByte_withWait, Flow.mapState_andThen]
    exact fun _ t => ih 0xFF { t with cacheSize := t.cacheSize - 1 }

theorem sendFrom_withWait (temp : Byte) (s : State) :
    sendFrom temp (withWait x s) = (sendFrom temp s).mapState (withWait x) := by
  by_cases h0 : s.cacheSize = 0
  · rw [sendFrom, sendFrom, if_pos h0, if_pos (show (withWait x s).cacheSize = 0 from h0)]; rfl
  · rw [sendFrom_of_owed h0, sendFrom_of_owed (show (withWait x s).cacheSize ≠ 0 from h0),
      show (withWait x s).cacheSize = s.cacheSize from rfl, sendPending_withWait, Flow.mapState_andThen]
    exact fun _ t => shiftEnd_withWait x { t with cache := t.low.extractLsb' 24 8 }

theorem shiftLow_withWait (s : State) : shiftLow (withWait x s) = (shiftLow s).mapState (withWait x) := by
  unfold shiftLow
  by_cases hs : sendsNow s = true
  · rw [if_pos hs, if_pos (show sendsNow (withWait x s) = true from hs)]
    exact sendFrom_withWait x s.cache s
  · rw [if_neg hs, if_neg (show ¬ sendsNow (withWait x s) = true from hs)]
    exact shiftEnd_withWait x s

theorem normEnc_withWait (turns : Nat) (s : State) :
    normEnc turns (withWait x s) = (normEnc turns s).mapState (withWait x) := by
  induction turns generalizing s with
  | zero => rfl
  | succ n ih =>
    by_cases hr : s.range.toNat < top
    · rw [normEnc_of_lt_top hr, normEnc_of_lt_top (show (withWait x s).range.toNat < top from hr),
        ← Flow.mapState_andThen (fun _ t => ih t), ← shiftLow_withWait]
      rfl
    · have hr := Nat.not_lt.1 hr
      rw [normEnc_of_top_le hr, normEnc_of_top_le (show top ≤ (withWait x s).range.toNat from hr)]
      rfl

theorem runEncOp_withWait (op : EncOp) (s : State) :
    runEncOp op (withWait x s) = (runEncOp op s).mapState (withWait x) := by
  cases op with
  | modelBit a b =>
    have hread : readProb a (withWait x s) = readProb a s := rfl
    cases hp : readProb a s with
    | error e =>
      rw [runEncOp_modelBit_unreadable hp, runEncOp_modelBit_unreadable (hread.trans hp)]; rfl
    | ok p =>
      have hs : encBitSplit a b p (withWait x s) = withWait x (encBitSplit a b p s) := by cases b <;> rfl
      rw [runEncOp_modelBit hp, runEncOp_modelBit (hread.trans hp), hs]
      exact normEnc_withWait x _ _
  | directBit b =>
    rw [runEncOp, runEncOp, show halveEnc b (withWait x s) = withWait x (halveEnc b s) by cases b <;> rfl]
    exact normEnc_withWait x _ _
  | norm => exact normEnc_withWait x _ s
  | shift => exact shiftLow_withWait x s
  | send temp => exact sendFrom_withWait x temp s
  | close => rfl

theorem runEnc_withWait (ops : List EncOp) (s : State) : runEnc ops (withWait x s) = runEnc ops s := by
  induction ops generalizing s with
  | nil => rfl
  | cons op ops ih =>
    rw [runEnc, runEnc, runEncOp_withWait]
    cases runEncOp op s with
    | ok _ t => exact ih t
    | stall _ _ => rfl
    | raise _ _ _ => rfl
    | stuck _ => rfl

/-! ### The decoder -/

theorem readByte_withWait (s : State) : readByte (withWait x s) = (readByte s).mapState (withWait x) := by
  unfold readByte
  rw [show (withWait x s).byteIn = s.byteIn from rfl]
  cases s.byteIn with
  | nil =>
    show (if s.eos = true then _ else _) = _
    by_cases he : s.eos = true
    · simp only [if_pos he]; rfl
    · simp only [if_neg he]; rfl
  | cons b rest =>
    show (if s.inCount = counterMax then _ else _) = _
    by_cases hc : s.inCount = counterMax
    · simp only [if_pos hc]; rfl
    · simp only [if_neg hc]; rfl

theorem normDec_withWait (turns : Nat) (s : State) :
    normDec turns (withWait x s) = (normDec turns s).mapState (withWait x) := by
  induction turns generalizing s with
  | zero => rfl
  | succ n ih =>
    by_cases hr : s.range.toNat < top
    · rw [normDec_of_lt_top hr, normDec_of_lt_top (show (withWait x s).range.toNat < top from hr),
        readByte_withWait, Flow.mapState_andThen]
      exact fun b t => ih (takeCodeByte b t)
    · have hr := Nat.not_lt.1 hr
      rw [normDec_of_top_le hr, normDec_of_top_le (show top ≤ (withWait x s).range.toNat from hr)]
      rfl

/-- The run does not depend on the register of the stalled command. -/
def WaitBlind (k : State → Host.Outcome State Fault Refusal) : Prop := ∀ x s, k (withWait x s) = k s

/-- An operation at the input port that carries the register along, and a run that does not read it. -/
theorem finish_withWait {α : Type} {f : Flow α Unit} {w : Wait}
    {k k' : α → State → Host.Outcome State Fault Refusal} (hk : ∀ a s, k' a (withWait x s) = k a s) :
    (f.mapState (withWait x)).finish w k' = f.finish w k := by
  cases f with
  | ok a t => exact hk a t
  | stall _ _ => rfl
  | raise _ _ _ => rfl
  | stuck _ => rfl

theorem normThen_waitBlind {rest : DecRest} {k : State → Host.Outcome State Fault Refusal}
    (hk : WaitBlind k) : WaitBlind (normThen rest k) := by
  intro x s
  rw [normThen_eq_finish, normThen_eq_finish, normDec_withWait]
  exact finish_withWait x fun _ t => hk x t

theorem decBitThen_waitBlind {a : Nat} {rest : Bool → DecRest}
    {k : Bool → State → Host.Outcome State Fault Refusal} (hk : ∀ b, WaitBlind (k b)) :
    WaitBlind (decBitThen a rest k) := by
  intro x s
  have hread : readProb a (withWait x s) = readProb a s := rfl
  cases hp : readProb a s with
  | error e =>
    rw [decBitThen_of_unreadable hp, decBitThen_of_unreadable (hread.trans hp)]; rfl
  | ok p =>
    have hbit : decodedBit p (withWait x s) = decodedBit p s := rfl
    have hs : decBitSplit a p (withWait x s) = withWait x (decBitSplit a p s) := by
      unfold decBitSplit; rw [hbit]; cases decodedBit p s <;> rfl
    rw [decBitThen_of_readable hp, decBitThen_of_readable (hread.trans hp), hbit, hs]
    exact normThen_waitBlind (hk _) x _

theorem decDirectLoop_waitBlind (left : Nat) (r : U32) : WaitBlind (decDirectLoop left r) := by
  induction left generalizing r with
  | zero => exact fun _ _ => rfl
  | succ n ih =>
    intro x s
    have hs : directHalved (withWait x s) = withWait x (directHalved s) := by
      unfold directHalved
      rw [show directBitOf (withWait x s) = directBitOf s from rfl]
      cases directBitOf s <;> rfl
    by_cases heq : (directHalved s).code = (directHalved s).range
    · rw [decDirectLoop_corrupt heq, decDirectLoop_corrupt (by rw [hs]; exact heq), hs]; rfl
    · rw [decDirectLoop_succ heq, decDirectLoop_succ (by rw [hs]; exact heq), hs]
      exact normThen_waitBlind (ih _) x _

theorem decTreeLoop_waitBlind (b : AddrField) (d left m : Nat) : WaitBlind (decTreeLoop b d left m) := by
  induction left generalizing m with
  | zero => exact fun _ _ => rfl
  | succ n ih => exact decBitThen_waitBlind fun y => ih _

theorem decRevTreeLoop_waitBlind (b : AddrField) (d left m : Nat) (r : U32) :
    WaitBlind (decRevTreeLoop b d left m r) := by
  induction left generalizing m r with
  | zero => exact fun _ _ => rfl
  | succ n ih => exact decBitThen_waitBlind fun y => ih _ _

theorem decContinue_waitBlind (rest : DecRest) : WaitBlind (decContinue rest) := by
  cases rest with
  | bit b => exact fun _ _ => rfl
  | direct left r => exact decDirectLoop_waitBlind left r
  | tree b d left m => exact decTreeLoop_waitBlind b d left m
  | revTree b d left m r => exact decRevTreeLoop_waitBlind b d left m r

theorem decInitRest_waitBlind (left : Nat) (first : Byte) : WaitBlind (decInitRest left first) := by
  induction left with
  | zero =>
    intro x s
    rw [decInitRest, decInitRest, decInitEnd, decInitEnd]
    by_cases hc : first ≠ 0 ∨ s.code = rangeInit
    · rw [if_pos hc, if_pos (by exact hc)]; rfl
    · rw [if_neg hc, if_neg (by exact hc)]; rfl
  | succ n ih =>
    intro x s
    rw [decInitRest_succ, decInitRest_succ, readByte_withWait]
    exact finish_withWait x fun b t => ih x (pushCode b t)

theorem decInitFirst_waitBlind : WaitBlind decInitFirst := by
  intro x s
  rw [decInitFirst_eq_finish, decInitFirst_eq_finish, readByte_withWait]
  exact finish_withWait x fun b t => decInitRest_waitBlind _ b x (setCode b t)

end Sys2Proof.Machine
end

section
/-! PROOFS. Stopping at the sink and going on with more room comes to the same as having that room from the
start (`70_reset_and_hazards.md` R396). -/

namespace Sys2Proof.Machine

/-! ### An encoder command as one flow -/

/-- Encoder operations in order. -/
def runOps : List EncOp → State → Flow Unit (List EncOp)
  | [], s => .ok () s
  | op :: ops, s => (runEncOp op s).andThen (· ++ ops) fun _ => runOps ops

/-- An encoder command ends where its operations do. -/
def endEnc : Flow Unit (List EncOp) → Host.Outcome State Fault Refusal
  | .ok _ s => complete s
  | .stall left s => stallAt (.enc left) s
  | .raise c info s => raiseFault c info s
  | .stuck f => .fault f

theorem runEnc_eq_endEnc (ops : List EncOp) (s : State) : runEnc ops s = endEnc (runOps ops s) := by
  induction ops generalizing s with
  | nil => rfl
  | cons op ops ih =>
    rw [runEnc, runOps]
    cases runEncOp op s with
    | ok _ t => exact ih t
    | stall _ _ => rfl
    | raise _ _ _ => rfl
    | stuck _ => rfl

theorem Flow.andThen_nil (f : Flow Unit (List EncOp)) : f.andThen (· ++ []) (fun _ => .ok ()) = f := by
  cases f <;> simp [Flow.andThen]

theorem Flow.andThen_congr {α β ω υ : Type} {P : α → State → Prop} {Q : ω → State → Prop} {R : State → Prop}
    {f : Flow α ω} {behind : ω → υ} {k k' : α → State → Flow β υ} (h : f.Post P Q R)
    (hk : ∀ a t, P a t → k a t = k' a t) : f.andThen behind k = f.andThen behind k' := by
  cases f with
  | ok a t => exact hk a t h
  | stall _ _ => rfl
  | raise _ _ _ => rfl
  | stuck _ => rfl

theorem runOps_append (l ops : List EncOp) (s : State) :
    runOps (l ++ ops) s = (runOps l s).andThen (· ++ ops) fun _ => runOps ops := by
  induction l generalizing s with
  | nil => rfl
  | cons op l ih =>
    rw [List.cons_append, runOps, runOps]
    cases runEncOp op s with
    | ok _ t => exact ih t
    | stall left _ => simp [Flow.andThen]
    | raise _ _ _ => rfl
    | stuck _ => rfl

theorem runOps_singleton (op : EncOp) (s : State) : runOps [op] s = runEncOp op s :=
  Flow.andThen_nil _

/-! ### More room in the sink -/

/-- The sink takes `m` more bytes before it is not ready. -/
def withRoom (m : Nat) (s : State) : State := { s with sinkRoom := s.sinkRoom.map (· + m) }

/-- With room for `m` more bytes the operation ends as before; and where it stalled, it ends as what was left of
it does when the sink takes `m` bytes from there. -/
def GainsRoom (m : Nat) (op : State → Flow Unit (List EncOp)) (s : State) : Prop :=
  (op s).Post (fun _ t => op (withRoom m s) = .ok () (withRoom m t))
    (fun left t => t.sinkRoom = some 0 ∧ op (withRoom m s) = runOps left (withRoom m t)) (fun _ => True)

variable {m : Nat}

theorem writeByte_withRoom (b : Byte) (s : State) :
    (writeByte b s).Post
      (fun _ t => writeByte b (withRoom m s) = .ok () (withRoom m t) ∧ t.cacheSize = s.cacheSize)
      (fun _ t => t = s ∧ s.sinkRoom = some 0) (fun _ => True) := by
  cases h : writeByte b s with
  | ok _ t =>
    obtain ⟨hc, hr, rfl⟩ := writeByte_ok h
    have hready : sinkReady (withRoom m s) = true := by
      cases hs : s.sinkRoom with
      | none => simp [sinkReady, withRoom, hs]
      | some k =>
        have : k ≠ 0 := fun e => hr (by rw [hs, e])
        simp [sinkReady, withRoom, hs, this]
    refine ⟨?_, rfl⟩
    rw [writeByte, if_neg (show (withRoom m s).outCount ≠ counterMax from hc), if_pos hready]
    have hroom : (s.sinkRoom.map (· + m)).map (fun k => k - 1) = (s.sinkRoom.map (fun k => k - 1)).map (· + m) := by
      cases hs : s.sinkRoom with
      | none => rfl
      | some k =>
        have : k ≠ 0 := fun e => hr (by rw [hs, e])
        simp only [Option.map_some, Option.some.injEq]
        omega
    simp only [withRoom, hroom]
  | stall _ t => obtain ⟨rfl, -, hr⟩ := writeByte_stall h; exact ⟨rfl, hr⟩
  | raise _ _ _ => trivial
  | stuck _ => trivial

theorem shiftEnd_withRoom (s : State) : GainsRoom m shiftEnd s := by
  unfold GainsRoom shiftEnd
  by_cases hc : s.cacheSize = counterMax
  · rw [if_pos hc]; trivial
  · rw [if_neg hc, if_neg (show (withRoom m s).cacheSize ≠ counterMax from hc)]; rfl

/-- The loop that stalls has bytes left to send, as many as are owed then. -/
theorem sendPending_withRoom (n : Nat) (temp : Byte) (s : State) (hn : s.cacheSize.toNat = n) :
    (sendPending n temp s).Post (fun _ t => sendPending n temp (withRoom m s) = .ok () (withRoom m t))
      (fun left t => t.sinkRoom = some 0 ∧ ∃ temp', left = [.send temp'] ∧ t.cacheSize ≠ 0
        ∧ sendPending n temp (withRoom m s) = sendPending t.cacheSize.toNat temp' (withRoom m t))
      (fun _ => True) := by
  induction n generalizing temp s with
  | zero => exact rfl
  | succ n ih =>
    rw [sendPending_succ, sendPending_succ, show carryByte (withRoom m s) = carryByte s from rfl]
    refine (writeByte_withRoom (m := m) (temp + carryByte s) s).andThen (fun _ t ⟨ht, hc⟩ => ?_)
      (fun _ t ⟨ht, hr⟩ => ?_) (fun _ _ => trivial)
    · rw [ht]
      refine ih 0xFF { t with cacheSize := t.cacheSize - 1 } ?_
      show (t.cacheSize - 1).toNat = n
      rw [hc, toNat_sub_one (by omega)]; omega
    · subst ht
      refine ⟨hr, temp, rfl, fun h0 => ?_, ?_⟩
      · rw [h0] at hn; exact absurd hn (Nat.succ_ne_zero n).symm
      · rw [hn, sendPending_succ]; rfl

theorem sendFrom_withRoom (temp : Byte) (s : State) : GainsRoom m (sendFrom temp) s := by
  unfold GainsRoom
  by_cases h0 : s.cacheSize = 0
  · have hstuck : sendFrom temp s = .stuck .cacheSizeUnderflow := if_pos h0
    rw [hstuck]; trivial
  · have hagain : sendFrom temp (withRoom m s) = (sendPending s.cacheSize.toNat temp (withRoom m s)).andThen id
        fun _ t => shiftEnd { t with cache := t.low.extractLsb' 24 8 } :=
      sendFrom_of_owed (s := withRoom m s) h0 temp
    rw [sendFrom_of_owed h0, hagain]
    refine (sendPending_withRoom (m := m) _ temp s rfl).andThen (fun _ t ht => ?_) (fun left t ht => ?_)
      (fun _ _ => trivial)
    · rw [ht]
      refine (shiftEnd_withRoom (m := m) { t with cache := t.low.extractLsb' 24 8 }).imp (fun _ _ h => h)
        (fun _ _ h => h) (fun _ _ => trivial)
    · obtain ⟨hr, temp', rfl, hne, hloop⟩ := ht
      refine ⟨hr, ?_⟩
      rw [hloop, id, runOps_singleton, runEncOp]
      exact (sendFrom_of_owed (s := withRoom m t) hne temp').symm

theorem shiftLow_withRoom (s : State) : GainsRoom m shiftLow s := by
  unfold GainsRoom shiftLow
  by_cases hs : sendsNow s = true
  · rw [if_pos hs, if_pos (show sendsNow (withRoom m s) = true from hs)]
    exact sendFrom_withRoom s.cache s
  · rw [if_neg hs, if_neg (show ¬ sendsNow (withRoom m s) = true from hs)]
    exact shiftEnd_withRoom s

/-- An operation and the rest of a command. -/
theorem GainsRoom.andThen {op : State → Flow Unit (List EncOp)} {ops : List EncOp} {s : State}
    {P R : State → Prop} {Q : List EncOp → State → Prop} (h : GainsRoom m op s)
    (hp : (op s).Post (fun _ => P) Q R) (hops : ∀ t, P t → GainsRoom m (runOps ops) t) :
    GainsRoom m (fun u => (op u).andThen (· ++ ops) fun _ => runOps ops) s := by
  refine (Flow.Post.and h hp).andThen (fun _ t ⟨hok, ht⟩ => ?_) (fun left t ⟨⟨hroom, hagain⟩, _⟩ => ?_)
    (fun _ _ => trivial)
  · simp only [hok]
    exact hops t ht
  · simp only [hagain]
    exact ⟨hroom, (runOps_append left ops _).symm⟩

/-- After the turn that stalled, NormEnc's loop ends at its next test (R245), so what is left of it is a
NormEnc. -/
theorem normEnc_withRoom {s : State} (h : 2 ^ 16 ≤ s.range.toNat) : GainsRoom m (normEnc renormTurns) s := by
  by_cases hr : s.range.toNat < top
  · have hturn : ∀ u : State, u.range = s.range → normEnc renormTurns u
        = (shiftLow { u with range := u.range <<< 8 }).andThen (· ++ [.norm]) fun _ => runOps [.norm] := by
      intro u hu
      rw [renormTurns, normEnc_of_lt_top (by rw [hu]; exact hr)]
      refine Flow.andThen_congr (shiftLow_post _) fun _ t ht => ?_
      have htop : top ≤ t.range.toNat := by
        rw [ht.range, hu]; have := range_shift_toNat hr; simp only [this, top]; omega
      rw [runOps_singleton, runEncOp, renormTurns, normEnc_of_top_le htop, normEnc_of_top_le htop]
    unfold GainsRoom
    rw [hturn s rfl, hturn (withRoom m s) rfl]
    refine (shiftLow_withRoom (m := m) { s with range := s.range <<< 8 }).andThen (shiftLow_post _) fun t ht => ?_
    have htop : top ≤ t.range.toNat := by
      rw [ht.range]; have := range_shift_toNat hr; simp only [this, top]; omega
    unfold GainsRoom
    rw [runOps_singleton, runOps_singleton, runEncOp, runEncOp, renormTurns, normEnc_of_top_le htop,
      normEnc_of_top_le (s := withRoom m t) htop]
    rfl
  · have hr := Nat.not_lt.1 hr
    unfold GainsRoom
    rw [renormTurns, normEnc_of_top_le hr, normEnc_of_top_le (s := withRoom m s) hr]
    rfl

end Sys2Proof.Machine
end

section
/-! PROOFS. The encoder's commands go on from the sink. -/

namespace Sys2Proof.Machine

variable {m : Nat}

theorem runEncOp_withRoom {op : EncOp} (hop : isCodingOp op = true) {s : State} (h : EncOpen s) :
    GainsRoom m (runEncOp op) s := by
  cases op with
  | modelBit a b =>
    have hread : readProb a (withRoom m s) = readProb a s := rfl
    cases hp : readProb a s with
    | error e => rw [GainsRoom, runEncOp_modelBit_unreadable hp]; trivial
    | ok p =>
      have hsplit : encBitSplit a b p (withRoom m s) = withRoom m (encBitSplit a b p s) := by cases b <;> rfl
      rw [GainsRoom, runEncOp_modelBit hp, runEncOp_modelBit (hread.trans hp), hsplit]
      exact normEnc_withRoom (h.split hp b).2.2.range
  | directBit b =>
    have hhalve : halveEnc b (withRoom m s) = withRoom m (halveEnc b s) := by cases b <;> rfl
    have hrun := normEnc_withRoom (m := m) (halveEnc_encSplit h.coder b).range
    rwa [GainsRoom, ← hhalve] at hrun
  | norm => exact normEnc_withRoom h.coder.encSplit.range
  | shift => cases hop
  | send _ => cases hop
  | close => cases hop

theorem GainsRoom.cons {op : EncOp} {ops : List EncOp} {s : State} {P R : State → Prop}
    {Q : List EncOp → State → Prop} (h : GainsRoom m (runEncOp op) s)
    (hp : (runEncOp op s).Post (fun _ => P) Q R) (hops : ∀ t, P t → GainsRoom m (runOps ops) t) :
    GainsRoom m (runOps (op :: ops)) s :=
  h.andThen hp hops

theorem runOps_coding_withRoom {ops : List EncOp} (hops : ops.all isCodingOp = true) {s : State}
    (h : EncOpen s) : GainsRoom m (runOps ops) s := by
  induction ops generalizing s with
  | nil => exact rfl
  | cons op ops ih =>
    rw [List.all_cons, Bool.and_eq_true] at hops
    exact (runEncOp_withRoom hops.1 h).cons (runEncOp_encOpen hops.1 h) fun _ ht => ih hops.2 ht

theorem runOps_flush_withRoom (k : Nat) (s : State) :
    GainsRoom m (runOps (List.replicate k .shift ++ [.close])) s := by
  induction k generalizing s with
  | zero => exact rfl
  | succ k ih =>
    exact GainsRoom.cons (op := .shift) (P := fun _ => True) (shiftLow_withRoom s)
      ((shiftLow_post s).imp (fun _ _ _ => trivial) (fun _ _ h => h) (fun _ h => h)) fun t _ => ih t

theorem encOps_withRoom {i : Instr} {s : State} (h : EncOpen s) : GainsRoom m (runOps (encOps i)) s := by
  by_cases hi : i = .encFlush
  · subst hi; exact runOps_flush_withRoom flushShifts s
  · exact runOps_coding_withRoom (encOps_coding hi) h

/-- An encoder command that waits at the sink goes on as if the sink had had the room before. -/
theorem runEnc_goesOn {ops : List EncOp} {s t : State} {w : Wait} (h : GainsRoom m (runOps ops) s)
    (ht : runEnc ops s = .next t) (hw : t.wait = some w) :
    resume w { t with sinkRoom := some m } = runEnc ops (withRoom m s) := by
  rw [runEnc_eq_endEnc] at ht
  unfold GainsRoom at h
  cases hr : runOps ops s <;> rw [hr] at h ht
  case ok _ u => cases ht; cases hw
  case raise c info u => cases ht; cases hw
  case stuck => cases ht
  case stall left u =>
    obtain ⟨hroom, hagain⟩ := h
    cases ht
    cases hw
    have hu : withRoom m u = { u with sinkRoom := some m } := by simp [withRoom, hroom]
    calc runEnc left { u with wait := some (.enc left), sinkRoom := some m }
      _ = runEnc left (withWait (some (.enc left)) (withRoom m u)) := by rw [hu]; rfl
      _ = runEnc left (withRoom m u) := runEnc_withWait _ left _
      _ = runEnc ops (withRoom m s) := by rw [runEnc_eq_endEnc, runEnc_eq_endEnc, hagain]

/-- The checks of a command do not look at the ports. -/
theorem codingChecks_congr {i : Instr} {s t : State} (hwords : t.probWords = s.probWords)
    (hprob : t.prob = s.prob) : codingChecks i t = codingChecks i s := by
  cases i <;> simp only [codingChecks, contextChecks, treeChecks, checkSpan, checkDefined, hwords, hprob]

theorem exec_enc_goesOn {i : Instr} (hi : needsEnc i = true) {s t : State} {w : Wait} {m : Nat} (hl : Live s)
    (hs : StreamOk s) (ht : exec i s = .next t) (hw : t.wait = some w) :
    resume w { t with sinkRoom := some m } = exec i (withRoom m s) := by
  rw [exec_enc hi] at ht
  rcases afterChecks_mode_next ht with ⟨c, info, rfl⟩ | ⟨hpass, hm, hrun⟩
  · cases hw
  · have hpass' : firstFailing (checkMode .enc (encode i) (withRoom m s) :: codingChecks i (withRoom m s)) = none := by
      rw [codingChecks_congr (t := withRoom m s) (s := s) rfl rfl]; exact hpass
    rw [exec_enc hi, afterChecks_pass hpass']
    exact runEnc_goesOn (encOps_withRoom ⟨hl, hm, hs.1 hm⟩) hrun hw

end Sys2Proof.Machine
end

section
/-! PROOFS. The decoder's commands go on from the input port: stopping there with nothing offered and going on
with later bytes comes to the same as having them offered from the start (`70_reset_and_hazards.md` R396). -/

namespace Sys2Proof.Machine

/-- These bytes offered behind those already offered, and EOS as given. -/
def offered (later : List Byte) (e : Bool) (s : State) : State :=
  { s with byteIn := s.byteIn ++ later, eos := e }

/-- The run from `s` that waits goes on, with bytes offered later, as it would have gone with them offered. -/
def GoesOn (k : State → Host.Outcome State Fault Refusal) (s : State) : Prop :=
  ∀ t w, k s = .next t → t.wait = some w →
    t.byteIn = [] ∧ ∀ later e, resume w (offered later e t) = k (offered later e s)

theorem readByte_offered_later (later : List Byte) (e : Bool) (s : State) :
    (readByte s).Post (fun b t => readByte (offered later e s) = .ok b (offered later e t))
      (fun _ t => t = s ∧ s.byteIn = []) (fun _ => True) := by
  cases h : readByte s with
  | ok b t =>
    obtain ⟨rest, hb, hc, rfl⟩ := readByte_ok h
    exact readByte_offered (s := offered later e s) (by rw [offered, hb]; rfl) hc
  | stall _ t => obtain ⟨rfl, hb, -⟩ := readByte_stall h; exact ⟨rfl, hb⟩
  | raise _ _ _ => trivial
  | stuck _ => trivial

theorem normDec_offered_later (later : List Byte) (e : Bool) {s : State} (h : 2 ^ 16 ≤ s.range.toNat) :
    (normDec renormTurns s).Post (fun _ t => normDec renormTurns (offered later e s) = .ok () (offered later e t))
      (fun _ t => t = s ∧ s.byteIn = []) (fun _ => True) := by
  by_cases hr : s.range.toNat < top
  · rw [renormTurns, normDec_of_lt_top hr, normDec_of_lt_top (s := offered later e s) hr]
    refine ((readByte_offered_later later e s).and (readByte_post s)).andThen (fun b t ⟨hok, hf⟩ => ?_)
      (fun _ _ h => h.1) (fun _ _ => trivial)
    have hrange : t.range = s.range := by rw [hf]
    have htop : top ≤ (takeCodeByte b t).range.toNat := by
      have := range_shift_toNat hr
      simp only [takeCodeByte, hrange, this, top]; omega
    rw [hok, normDec_of_top_le htop]
    exact normDec_of_top_le (s := takeCodeByte b (offered later e t)) htop _
  · have hr := Nat.not_lt.1 hr
    rw [renormTurns, normDec_of_top_le hr, normDec_of_top_le (s := offered later e s) hr]
    rfl

theorem goesOn_of_completes {k : State → Host.Outcome State Fault Refusal} {s u : State}
    (h : k s = .next u) (hu : u.wait = none) : GoesOn k s := by
  intro t w ht hw
  rw [h] at ht
  cases ht
  rw [hu] at hw
  cases hw

/-- An operation at the input port, which stalls where it stands, and a run that goes on: the command that waits
there goes on. -/
theorem finish_goesOn {α : Type} {op : State → Flow α Unit} {w : Wait}
    {k : α → State → Host.Outcome State Fault Refusal} {s : State} {P : α → State → Prop} {R : State → Prop}
    {Q : Unit → State → Prop} (hport : ∀ later e, (op s).Post
      (fun a t => op (offered later e s) = .ok a (offered later e t)) (fun _ t => t = s ∧ s.byteIn = [])
      (fun _ => True))
    (hp : (op s).Post P Q R) (hk : ∀ a t, P a t → GoesOn (k a) t)
    (hblind : WaitBlind fun u => (op u).finish w k) (hw : ∀ u, resume w u = (op u).finish w k) :
    GoesOn (fun u => (op u).finish w k) s := by
  intro t w' ht hw'
  cases hr : op s <;> simp only [hr] at ht hport hp
  case ok a u =>
    obtain ⟨hnone, hgo⟩ := hk a u hp t w' ht hw'
    refine ⟨hnone, fun later e => (hgo later e).trans ?_⟩
    have hok : op (offered later e s) = .ok a (offered later e u) := hport later e
    simp only [hok, Flow.finish]
  case stall _ u =>
    obtain ⟨rfl, hnone⟩ := hport [] false
    cases ht
    cases hw'
    exact ⟨hnone, fun later e => (hw _).trans (hblind (some w) (offered later e _))⟩
  case raise c info u => cases ht; cases hw'
  case stuck => cases ht

theorem normThen_goesOn {rest : DecRest} {s : State} (hl : Live s) (hm : s.mode = .dec) (h : DecSplit s)
    (hk : ∀ u, DecOpen u → GoesOn (decContinue rest) u) : GoesOn (normThen rest (decContinue rest)) s := by
  have heq : normThen rest (decContinue rest)
      = fun u => (normDec renormTurns u).finish (.decNorm rest) fun _ => decContinue rest :=
    funext (normThen_eq_finish rest _)
  have hblind := normThen_waitBlind (rest := rest) (decContinue_waitBlind rest)
  rw [heq] at hblind ⊢
  exact finish_goesOn (fun later e => normDec_offered_later later e h.range) (normDec_decOpen hl hm h)
    (fun _ u hu => hk u hu) hblind (normThen_eq_finish rest _)

theorem decBitThen_goesOn {a : Nat} {rest : Bool → DecRest} {s : State} (h : DecOpen s)
    (hk : ∀ b u, DecOpen u → GoesOn (decContinue (rest b)) u) :
    GoesOn (decBitThen a rest fun b => decContinue (rest b)) s := by
  intro t w ht hw
  cases hp : readProb a s with
  | error e =>
    rw [decBitThen_of_unreadable hp] at ht
    cases ht
    cases hw
  | ok p =>
    rw [decBitThen_of_readable hp] at ht
    obtain ⟨hl, hm, hsplit⟩ := h.split hp
    obtain ⟨hnone, hgo⟩ := normThen_goesOn hl hm hsplit (hk _) t w ht hw
    refine ⟨hnone, fun later e => (hgo later e).trans ?_⟩
    have hread : readProb a (offered later e s) = .ok p := hp
    have hbit : decodedBit p (offered later e s) = decodedBit p s := rfl
    have hs : decBitSplit a p (offered later e s) = offered later e (decBitSplit a p s) := by
      unfold decBitSplit; rw [hbit]; cases decodedBit p s <;> rfl
    rw [decBitThen_of_readable hread, hbit, hs]

theorem decDirectLoop_goesOn {left : Nat} {r : U32} {s : State} (h : DecOpen s) :
    GoesOn (decDirectLoop left r) s := by
  induction left generalizing r s with
  | zero => exact goesOn_of_completes (completeWith_eq r s) rfl
  | succ n ih =>
    intro t w ht hw
    obtain ⟨hl, hm⟩ := h.halved_live
    by_cases heq : (directHalved s).code = (directHalved s).range
    · rw [decDirectLoop_corrupt heq] at ht
      cases ht
      cases hw
    · rw [decDirectLoop_succ heq] at ht
      obtain ⟨hnone, hgo⟩ := normThen_goesOn (rest := .direct n (pushBit r (directBitOf s))) hl hm
        (directHalved_decSplit h.coder heq) (fun _ hu => ih hu) t w ht hw
      refine ⟨hnone, fun later e => (hgo later e).trans ?_⟩
      have hbit : directBitOf (offered later e s) = directBitOf s := rfl
      have hs : directHalved (offered later e s) = offered later e (directHalved s) := by
        unfold directHalved; rw [hbit]; cases directBitOf s <;> rfl
      rw [decDirectLoop_succ (by rw [hs]; exact heq), hs, hbit]
      rfl

theorem decTreeLoop_goesOn {b : AddrField} {d left m : Nat} {s : State} (h : DecOpen s) :
    GoesOn (decTreeLoop b d left m) s := by
  induction left generalizing m s with
  | zero => exact goesOn_of_completes (completeWith_eq _ s) rfl
  | succ n ih =>
    exact decBitThen_goesOn (rest := fun y => .tree b d n (2 * m + y.toNat)) h fun _ _ hu => ih hu

theorem decRevTreeLoop_goesOn {b : AddrField} {d left m : Nat} {r : U32} {s : State} (h : DecOpen s) :
    GoesOn (decRevTreeLoop b d left m r) s := by
  induction left generalizing m r s with
  | zero => exact goesOn_of_completes (completeWith_eq r s) rfl
  | succ n ih =>
    exact decBitThen_goesOn
      (rest := fun y => .revTree b d n (2 * m + y.toNat) (orBitAt r y (d - (n + 1)))) h fun _ _ hu => ih hu

theorem decRun_goesOn {i : Instr} (hi : needsDec i = true) {s : State} (h : DecOpen s) :
    GoesOn (decRun i) s := by
  cases i with
  | decBit a =>
    exact decBitThen_goesOn (rest := .bit) h fun b u _ => goesOn_of_completes (completeWith_eq _ u) rfl
  | decDirect n => exact decDirectLoop_goesOn h
  | decBt b d => exact decTreeLoop_goesOn h
  | decRbt b d => exact decRevTreeLoop_goesOn h
  | _ => cases hi

theorem decInitRest_goesOn (left : Nat) (first : Byte) (s : State) : GoesOn (decInitRest left first) s := by
  induction left generalizing s with
  | zero =>
    unfold GoesOn decInitRest decInitEnd
    intro t w ht hw
    split at ht <;> cases ht <;> cases hw
  | succ n ih =>
    have heq : decInitRest (n + 1) first = fun u => (readByte u).finish (.decRest (n + 1) first)
        fun b t => decInitRest n first (pushCode b t) := funext (decInitRest_succ n first)
    have hblind := decInitRest_waitBlind (n + 1) first
    rw [heq] at hblind ⊢
    refine finish_goesOn (fun later e => readByte_offered_later later e s) (readByte_post s)
      (fun b u _ t w ht hw => ?_) hblind (decInitRest_succ n first)
    exact ih (pushCode b u) t w ht hw

theorem decInitFirst_goesOn (s : State) : GoesOn decInitFirst s := by
  have heq : decInitFirst = fun u => (readByte u).finish .decFirst
      fun b t => decInitRest decInitLaterBytes b (setCode b t) := funext decInitFirst_eq_finish
  have hblind := decInitFirst_waitBlind
  rw [heq] at hblind ⊢
  refine finish_goesOn (fun later e => readByte_offered_later later e s) (readByte_post s)
    (fun b u _ t w ht hw => ?_) hblind decInitFirst_eq_finish
  exact decInitRest_goesOn _ b (setCode b u) t w ht hw

theorem exec_dec_goesOn {i : Instr} (hi : needsDec i = true) {s : State} (hl : Live s) (hs : StreamOk s) :
    GoesOn (exec i) s := by
  intro t w ht hw
  rw [exec_dec hi] at ht
  rcases afterChecks_mode_next ht with ⟨c, info, rfl⟩ | ⟨hpass, hm, hrun⟩
  · cases hw
  · obtain ⟨hnone, hgo⟩ := decRun_goesOn hi ⟨hl, hm, hs.2 hm⟩ t w hrun hw
    refine ⟨hnone, fun later e => (hgo later e).trans ?_⟩
    have hpass' : firstFailing (checkMode .dec (encode i) (offered later e s)
        :: codingChecks i (offered later e s)) = none := by
      rw [codingChecks_congr (t := offered later e s) (s := s) rfl rfl]; exact hpass
    rw [exec_dec hi, afterChecks_pass hpass']

end Sys2Proof.Machine
end

section
/-! PROOFS. A wait changes no result (`70_reset_and_hazards.md` R396). -/

namespace Sys2Proof.Machine

theorem waitOk_enc_mode {s : State} {ops : List EncOp} (h : WaitOk s (.enc ops)) : s.mode = .enc := by
  match ops, h with
  | .send _ :: _, h => exact h.1

/-- A command waits at the sink in MODE = ENC, or at the input port in MODE = DEC. -/
theorem exec_waits {i : Instr} {s t : State} {w : Wait} (hl : Live s) (hs : StreamOk s)
    (h : exec i s = .next t) (hw : t.wait = some w) :
    (needsEnc i = true ∧ t.mode = .enc) ∨ ((i = .decInit ∨ needsDec i = true) ∧ t.mode = .dec) := by
  cases exec_ends h with
  | nop => cases hw
  | encInit => cases hw
  | decInit hends => exact .inr ⟨.inl rfl, hends.mode⟩
  | probInit => cases hw
  | probInitFault => cases hw
  | enc hi hends =>
    obtain ⟨u, -, rfl | ⟨c, info, rfl, -⟩ | ⟨left, rfl⟩⟩ := hends
    · cases hw
    · cases hw
    · exact .inl ⟨hi, waitOk_enc_mode ((exec_inv hl hs h).waitOk rfl)⟩
  | dec hi hends =>
    rw [exec_dec hi] at h
    rcases afterChecks_mode_next h with ⟨c, info, rfl⟩ | ⟨-, hm, -⟩
    · cases hw
    · exact .inr ⟨.inr hi, hends.mode.trans hm⟩
  | obs _ hends => rcases hends with ⟨r, rfl⟩ | ⟨c, info, rfl⟩ <;> cases hw

/-- Settles O16: at the sink by the encoder's operations with more room, and at the input port by the decoder's
with bytes offered later; neither reads the register of the stalled command. -/
theorem stallIsTransparent : Obligations.StallIsTransparent := by
  refine ⟨fun i s t w k m hinv hacc hm h hw htm => ?_, fun i s t w later e hinv hacc h hw htm => ?_⟩
  · have hl : Live { s with sinkRoom := some k } := hinv.live hacc.1
    have hs : StreamOk { s with sinkRoom := some k } :=
      (hinv.streamOk hacc.1 hacc.2).congr rfl rfl rfl rfl rfl rfl
    rcases exec_waits hl hs h hw with ⟨hi, -⟩ | ⟨-, hdec⟩
    · exact exec_enc_goesOn hi hl hs h hw
    · exact absurd (htm.symm.trans hdec) (by decide)
  · have hl : Live { s with eos := false } := hinv.live hacc.1
    have hs : StreamOk { s with eos := false } :=
      (hinv.streamOk hacc.1 hacc.2).congr rfl rfl rfl rfl rfl rfl
    have hgo : GoesOn (exec i) { s with eos := false } := by
      rcases exec_waits hl hs h hw with ⟨-, henc⟩ | ⟨rfl | hi, -⟩
      · exact absurd (htm.symm.trans henc) (by decide)
      · exact decInitFirst_goesOn _
      · exact exec_dec_goesOn hi hl hs
    obtain ⟨hnone, hresume⟩ := hgo t w h hw
    have hoff : offered later e t = { t with byteIn := later, eos := e } := by rw [offered, hnone]; rfl
    rw [← hoff]
    exact hresume later e

end Sys2Proof.Machine
end

section
/-! PROOFS. The step's cases as the spec states them, STATUS, and a port that does not serve the waiting command. -/

namespace Sys2Proof.Machine

/-- Settles O6: one step runs one command, goes on with the one that waits, or does nothing. -/
theorem stepRunsPresentedCommand : Obligations.StepRunsPresentedCommand := by
  refine ⟨fun s w rest i hreset hacc hcmd hdecode => ?_, fun s w => step_of_waiting, fun s => step_of_nothing⟩
  rw [step_of_presented hreset hacc.2 hcmd,
    takeWord_of_not_faulted (s := { s with cmdIn := rest }) hacc.1, runWord_of_command hdecode]

theorem statusReg_applyReset (s : State) : statusReg (applyReset s) = 0 := by
  have h : statusReg (applyReset s)
      = modeBits .idle ++ (0 : BitVec 4) ++ BitVec.ofBool false ++ BitVec.ofBool false := rfl
  rw [h]; decide

/-- Settles O10: reset writes every register and drops the command; the ports are the host's. -/
theorem resetLeavesResetState : Obligations.ResetLeavesResetState := by
  intro s hreset
  refine ⟨applyReset s, step_of_reset hreset, rfl, rfl, rfl, rfl, rfl, rfl, rfl, rfl, rfl,
    statusReg_applyReset s, rfl, rfl, fun a => memRead_nil a, rfl, rfl, rfl, rfl, rfl, rfl, rfl, rfl, ?_⟩
  rw [applyReset_resetIn, hreset]

/-! ### STATUS -/

/-- STATUS as the sum of its fields (R52). -/
theorem statusReg_toNat (s : State) : (statusReg s).toNat = (modeBits s.mode).toNat * 2 ^ 6
    + s.faultCode.toNat * 2 ^ 2 + s.faulted.toNat * 2 + (busyFlag s).toNat := by
  have hbusy : (BitVec.ofBool (busyFlag s)).toNat < 2 ^ 1 := (BitVec.ofBool (busyFlag s)).isLt
  have hfaulted : (BitVec.ofBool s.faulted).toNat < 2 ^ 1 := (BitVec.ofBool s.faulted).isLt
  rw [statusReg, BitVec.toNat_append, BitVec.toNat_append, BitVec.toNat_append,
    ← Nat.shiftLeft_add_eq_or_of_lt hbusy, ← Nat.shiftLeft_add_eq_or_of_lt hfaulted,
    ← Nat.shiftLeft_add_eq_or_of_lt s.faultCode.isLt]
  simp only [Nat.shiftLeft_eq, BitVec.toNat_ofBool]
  omega

theorem statusReg_busy (s : State) : (statusReg s).getLsbD 0 = s.wait.isSome := by
  rw [statusReg, BitVec.getLsbD_append, if_pos Nat.zero_lt_one, BitVec.getLsbD_ofBool, busyFlag]
  simp

theorem enterFault_eq_faultedWith (w : Word) (s : State) :
    enterFault .illegalCommand w s = faultedWith 1 w s := rfl

/-- Settles O7: the fault writes the fault registers and CSP alone, and STATUS is laid out as R52 has it. -/
theorem illegalWordIsPreciseFault : Obligations.IllegalWordIsPreciseFault := by
  refine ⟨fun s => ?_, fun s w rest r hreset hacc hcmd hdecode => ?_⟩
  · have hfaulted : (if s.faulted then 1 else 0) = s.faulted.toNat := by cases s.faulted <;> rfl
    have hbusy : (if s.wait = none then 0 else 1) = (busyFlag s).toNat := by
      unfold busyFlag; cases s.wait <;> rfl
    rw [statusReg_toNat, hfaulted, hbusy]
    cases s.mode <;> rfl
  · rw [step_of_presented hreset hacc.2 hcmd,
      takeWord_of_not_faulted (s := { s with cmdIn := rest }) hacc.1, runWord_of_illegal hdecode,
      enterFault_eq_faultedWith]

/-! ### A port that does not serve the waiting command -/

theorem stallAt_of_waiting {s : State} {w : Wait} (h : s.wait = some w) : stallAt w s = .next s := by
  rw [stallAt_eq, ← h]

/-- A sink that is not ready stops the loop of owed bytes at its first one (`20_memory.md` R84). -/
theorem sendFrom_of_full {s : State} {temp : Byte} (howed : 1 ≤ s.cacheSize.toNat)
    (hcount : s.outCount ≠ counterMax) (hroom : s.sinkRoom = some 0) :
    sendFrom temp s = .stall [.send temp] s := by
  have hstall : writeByte (temp + carryByte s) s = .stall () s := by
    rw [writeByte, if_neg hcount, if_neg (by simp [sinkReady, hroom])]
  obtain ⟨n, hn⟩ := Nat.exists_eq_add_of_le' howed
  rw [sendFrom_of_owed (ne_zero_of_owed howed), hn, sendPending_succ, hstall]
  rfl

/-- An input port with no byte and no EOS stops ReadByte (R83). -/
theorem readByte_of_empty {s : State} (hin : s.byteIn = []) (heos : s.eos = false) :
    readByte s = .stall () s := by
  rw [readByte, hin, heos]; rfl

/-- Settles O15: the command that waits tries its handshake again, and is where it was. -/
theorem waitingStepChangesNothing : Obligations.WaitingStepChangesNothing := by
  intro s w hinv hreset hw hsink hinput
  refine ⟨?_, by rw [statusReg_busy, hw]; rfl⟩
  rw [step_of_waiting hreset hw]
  have hok := hinv.waitOk hw
  match w, hw, hok with
  | .enc (.send temp :: rest), hw, ⟨hmode, _, howed, _⟩ =>
    obtain ⟨hroom, hcount⟩ := hsink hmode
    rw [resume, runEnc, runEncOp, sendFrom_of_full howed hcount hroom]
    exact stallAt_of_waiting hw
  | .decFirst, hw, ⟨hmode, _⟩ =>
    obtain ⟨hin, heos⟩ := hinput hmode
    rw [resume, decInitFirst, readByte_of_empty hin heos]
    exact stallAt_of_waiting hw
  | .decRest (left + 1) first, hw, ⟨hmode, _⟩ =>
    obtain ⟨hin, heos⟩ := hinput hmode
    rw [resume, decInitRest, readByte_of_empty hin heos]
    exact stallAt_of_waiting hw
  | .decNorm rest, hw, ⟨hmode, _, hrange, _⟩ =>
    obtain ⟨hin, heos⟩ := hinput hmode
    rw [resume, normThen, renormTurns, normDec_of_lt_top hrange, readByte_of_empty hin heos]
    exact stallAt_of_waiting hw

end Sys2Proof.Machine
end

section
/-! PROOFS. MODE is written by ENC_INIT, DEC_INIT and the end of ENC_FLUSH alone (`10_state.md` R43). -/

namespace Sys2Proof.Machine

/-- MODE and FAULTED stay from `s` to `t`. -/
def KeepsMode (s t : State) : Prop := t.mode = s.mode ∧ t.faulted = s.faulted

theorem CoderFrame.keepsMode {s t u : State} (h : CoderFrame t u) (hmode : t.mode = s.mode)
    (hfaulted : t.faulted = s.faulted) : KeepsMode s u :=
  ⟨h.mode.trans hmode, by rw [h]; exact hfaulted⟩

theorem runEncOp_keepsMode {op : EncOp} (hop : op ≠ .close) (s : State) :
    (runEncOp op s).Post (fun _ => KeepsMode s) (fun _ => KeepsMode s) (KeepsMode s) := by
  have hframe : ∀ {t : State} {f : Flow Unit (List EncOp)}, t.mode = s.mode → t.faulted = s.faulted →
      f.Post (fun _ => CoderFrame t) (fun _ => CoderFrame t) (CoderFrame t) →
      f.Post (fun _ => KeepsMode s) (fun _ => KeepsMode s) (KeepsMode s) := fun hm hf h =>
    h.imp (fun _ _ h => h.keepsMode hm hf) (fun _ _ h => h.keepsMode hm hf) (fun _ h => h.keepsMode hm hf)
  cases op with
  | modelBit a b =>
    cases hp : readProb a s with
    | error e =>
      rw [runEncOp_modelBit_unreadable hp]; exact ⟨rfl, rfl⟩
    | ok p =>
      rw [runEncOp_modelBit hp]
      exact hframe (t := encBitSplit a b p s) (splitEnc_mode p b s) (splitEnc_faulted p b s)
        (normEnc_post _ _)
  | directBit b => exact hframe (halveEnc_mode b s) (halveEnc_faulted b s) (normEnc_post _ _)
  | norm => exact hframe rfl rfl (normEnc_post _ s)
  | shift =>
    exact hframe rfl rfl ((shiftLow_post s).imp (fun _ _ h => h.frame) (fun _ _ h => h.2.frame.coder) fun _ h => h)
  | send temp =>
    exact hframe rfl rfl ((sendFrom_post temp s).imp (fun _ _ h => h.frame) (fun _ _ h => h.frame.coder) fun _ h => h)
  | close => exact absurd rfl hop

theorem runEnc_mode {ops : List EncOp} (hops : EncOp.close ∉ ops) {s t : State}
    (ht : runEnc ops s = .next t) : t.mode = s.mode := by
  induction ops generalizing s with
  | nil => cases ht; rfl
  | cons op ops ih =>
    have hop := List.ne_of_not_mem_cons hops
    have hrest := List.not_mem_of_not_mem_cons hops
    refine runEnc_cons_next (runEncOp_keepsMode (Ne.symm hop) s) ht (fun u hu h => (ih hrest h).trans hu.1) ?_ ?_
    · rintro left u hu rfl; exact hu.1
    · rintro c info u hu rfl; exact hu.1

/-- MODE from `s` to `t` where a command ends ENC_FLUSH: IDLE when it completes, else as it was. -/
def ClosesMode (s t : State) : Prop :=
  (t.faulted = false → t.wait = none → t.mode = .idle) ∧ (t.faulted = true ∨ t.wait ≠ none → t.mode = s.mode)

theorem ClosesMode.of_stopped {s t : State} (h : t.faulted = true ∨ t.wait ≠ none) (hm : t.mode = s.mode) :
    ClosesMode s t :=
  ⟨fun hf hw => h.elim (fun hf' => absurd (hf.symm.trans hf') (by decide)) (fun hne => absurd hw hne),
    fun _ => hm⟩

theorem runEnc_close_mode {ops : List EncOp} (hops : EncOp.close ∉ ops) {s t : State} (hf : s.faulted = false)
    (ht : runEnc (ops ++ [.close]) s = .next t) : ClosesMode s t := by
  induction ops generalizing s with
  | nil =>
    have ht : complete { s with mode := .idle } = .next t := ht
    cases ht
    refine ⟨fun _ _ => rfl, fun h => ?_⟩
    rcases h with h | h
    · exact absurd (hf.symm.trans h) (by decide)
    · exact absurd rfl h
  | cons op ops ih =>
    have hop := List.ne_of_not_mem_cons hops
    have hrest := List.not_mem_of_not_mem_cons hops
    refine runEnc_cons_next (runEncOp_keepsMode (Ne.symm hop) s) ht (fun u hu h => ?_) ?_ ?_
    · have hu' := ih hrest (hu.2.trans hf) h
      exact ⟨hu'.1, fun hstop => (hu'.2 hstop).trans hu.1⟩
    · rintro left u hu rfl; exact .of_stopped (.inr nofun) hu.1
    · rintro c info u hu rfl; exact .of_stopped (.inl rfl) hu.1

theorem close_not_mem_of_coding {ops : List EncOp} (h : ops.all isCodingOp = true) : EncOp.close ∉ ops :=
  fun hmem => absurd (List.all_eq_true.1 h _ hmem) (by decide)

theorem exec_flush_mode {s t : State} (hf : s.faulted = false) (h : exec .encFlush s = .next t) :
    ClosesMode s t := by
  rw [exec_enc rfl] at h
  rcases afterChecks_mode_next h with ⟨c, info, rfl⟩ | ⟨-, -, hrun⟩
  · exact .of_stopped (.inl rfl) rfl
  · exact runEnc_close_mode (ops := List.replicate flushShifts .shift) (by decide) hf hrun

/-- No command clears a fault. -/
theorem EncEnds.faulted {s t : State} (h : EncEnds s t) (ht : t.faulted = false) : s.faulted = false := by
  obtain ⟨u, hu, hend, -⟩ := h.endsFrom
  have hsame : u.faulted = s.faulted := by rw [hu.rest]
  cases hend with
  | completes _ => exact hsame.symm.trans ht
  | faults _ _ => cases ht
  | waits _ => exact hsame.symm.trans ht

/-- Every other command leaves MODE. -/
theorem exec_mode {i : Instr} {s t : State} (henc : i ≠ .encInit) (hdec : i ≠ .decInit) (hflush : i ≠ .encFlush)
    (h : exec i s = .next t) : t.mode = s.mode := by
  cases exec_ends h with
  | nop => rfl
  | encInit => exact absurd rfl henc
  | decInit => exact absurd rfl hdec
  | probInit => rfl
  | probInitFault => rfl
  | enc hi =>
    rw [exec_enc hi] at h
    rcases afterChecks_mode_next h with ⟨c, info, rfl⟩ | ⟨-, -, hrun⟩
    · rfl
    · exact runEnc_mode (close_not_mem_of_coding (encOps_coding hflush)) hrun
  | dec _ hends => exact hends.mode
  | obs _ hends => rw [hends.endsFrom.keeps]

theorem resume_mode {w : Wait} {s t : State} (hw : ∀ ops, w = .enc ops → EncOp.close ∉ ops)
    (h : resume w s = .next t) : t.mode = s.mode := by
  cases w with
  | enc ops => exact runEnc_mode (hw ops rfl) h
  | decFirst => exact (resume_decInit_ends.1 h).mode
  | decRest left first => exact (resume_decInit_ends.2 left first h).mode
  | decNorm rest => exact (resume_decNorm_ends h).mode

/-- Settles O18: of the encoder's operations the last one of ENC_FLUSH alone writes MODE, and the decoder's write
none. -/
theorem modeChangesOnlyByThreeCommands : Obligations.ModeChangesOnlyByThreeCommands := by
  refine ⟨fun i s t h => ⟨?_, ?_, ?_, ?_, ?_⟩, fun w s t h hw => resume_mode hw h,
    fun ops s t hops hf h => runEnc_close_mode hops hf h⟩
  · rintro rfl; cases h; rfl
  · rintro rfl; exact (exec_decInit_ends h).mode
  · rintro rfl hf hw
    exact (exec_flush_mode ((exec_enc_ends rfl h).faulted hf) h).1 hf hw
  · rintro rfl hf hstop
    exact (exec_flush_mode hf h).2 hstop
  · intro henc hdec hflush
    exact exec_mode henc hdec hflush h

end Sys2Proof.Machine
end

section
/-! PROOFS. The host's moves, the probability memory's words, and the price ROM. -/

namespace Sys2Proof.Machine

/-- Settles O14: a move writes its own port only, and the invariant speaks of no port. -/
theorem hostMovesKeepInvariant : Obligations.HostMovesKeepInvariant := by
  refine ⟨fun m s h => ?_, fun s => ⟨fun _ => rfl, fun _ => rfl, rfl, fun _ => rfl, fun _ => rfl, fun _ => rfl⟩⟩
  cases m with
  | present w => exact h.of_ports rfl
  | offer bs => exact h.of_ports rfl
  | endInput => exact h.of_ports rfl
  | newInput bs => exact h.of_ports rfl
  | sinkRoom room => exact h.of_ports rfl
  | resetLevel level => exact h.of_ports rfl

/-- `P[a]` looks at PROB_WORDS and the word at `a` alone. -/
theorem readProb_congr {s t : State} {a : Nat} (hwords : t.probWords = s.probWords)
    (hword : memRead t.prob a = memRead s.prob a) : readProb a t = readProb a s := by
  rw [readProb, readProb, hwords, hword]

theorem readProb_outside {s : State} {a : Nat} (h : s.probWords ≤ a) :
    readProb a s = .error (.probAddrRange, BitVec.ofNat 64 a) := if_pos h

theorem readProb_undefined {s : State} {a : Nat} (h : a < s.probWords) (hnone : memRead s.prob a = none) :
    readProb a s = .error (.uninitProb, BitVec.ofNat 64 a) := by
  rw [readProb, if_neg (Nat.not_le.2 h), hnone]

/-- Settles O30: from the store's laws, a read after a write of the same word and of another one. -/
theorem probWordAccess : Obligations.ProbWordAccess := by
  refine fun s a => ⟨readProb_outside, readProb_undefined, fun p ha hp => readProb_ok.2 ⟨ha, hp⟩,
    fun v ha => ⟨readProb_ok.2 ⟨ha, memRead_memWrite_same s.prob a v⟩, fun x hx => ?_⟩⟩
  exact readProb_congr rfl (memRead_memWrite_other s.prob v hx)

/-- In the octave of R301's step `i` the exponent of `j` is 8 - i. -/
theorem log2_of_octave {i j : Nat} (hi : i ≤ 8) (hlow : 2 ^ (9 - i - 1) ≤ j) (hhigh : j < 2 ^ (9 - i)) :
    Nat.log2 j = 8 - i := by
  have hpos : j ≠ 0 := by have := Nat.two_pow_pos (9 - i - 1); omega
  rw [Nat.log2_eq_iff hpos]
  exact ⟨by rwa [show 8 - i = 9 - i - 1 by omega], by rwa [show 8 - i + 1 = 9 - i by omega]⟩

theorem priceRom_none (j : Nat) : priceRom j = none ↔ 512 ≤ j := by
  unfold priceRom priceRomWords
  split
  · simp; omega
  · split <;> simp <;> omega

/-- Settles O53: the ROM's entry is R301's, with the octave's number counted from the other end. -/
theorem priceRomFollowsFormula : Obligations.PriceRomFollowsFormula := by
  refine ⟨rfl, fun i j hi hlow hhigh => ?_, priceRom_none⟩
  have hpos : j ≠ 0 := by have := Nat.two_pow_pos (9 - i - 1); omega
  have hsize : j < priceRomWords :=
    Nat.lt_of_lt_of_le hhigh (Nat.pow_le_pow_right (by decide) (Nat.sub_le 9 i))
  have hentry : priceEntry j = (i <<< 6) + (((2 ^ (9 - i) - j) <<< 6) >>> (9 - i - 1)) := by
    rw [priceEntry, log2_of_octave hi hlow hhigh, Nat.shiftLeft_eq, Nat.shiftLeft_eq, Nat.shiftRight_eq_div_pow,
      show 8 - (8 - i) = i by omega, show 8 - i + 1 = 9 - i by omega, show 8 - i = 9 - i - 1 by omega]
  rw [priceRom, if_neg hpos, if_pos hsize, hentry]

end Sys2Proof.Machine
end

section
/-! PROOFS. ShiftLow against its closed form (`41_range_coder.md` R205), also where a counter ends. -/

namespace Sys2Proof.Machine

/-- The bytes of R205's loop are the owed ones, each plus the carry. -/
theorem loopBytes_eq_owedBytes (s : State) (n : Nat) :
    loopBytes s.cache (carryByte s) n = owedBytes s n := by
  cases n with
  | zero => rfl
  | succ n =>
    have hfirst : s.cache + carryByte s = BitVec.ofNat 8 (s.cache.toNat + s.low.toNat / 2 ^ 32) := by
      apply BitVec.eq_of_toNat_eq
      rw [BitVec.toNat_add, carryByte_toNat, BitVec.toNat_ofNat]
    have hrest : 0xFF + carryByte s = BitVec.ofNat 8 (0xFF + s.low.toNat / 2 ^ 32) := by
      apply BitVec.eq_of_toNat_eq
      rw [BitVec.toNat_add, carryByte_toNat, BitVec.toNat_ofNat]
      rfl
    rw [loopBytes, owedBytes, hfirst, hrest]

@[simp] theorem owedBytes_length (s : State) (n : Nat) : (owedBytes s n).length = n := by
  rw [← loopBytes_eq_owedBytes, loopBytes_length]

theorem shiftEnd_of_counting {s : State} (h : s.cacheSize ≠ counterMax) :
    shiftEnd s = .ok () { s with
      cacheSize := s.cacheSize + 1, low := BitVec.ofNat 33 (s.low.toNat % 2 ^ 24 * 2 ^ 8) } := by
  rw [shiftEnd, if_neg h, shiftedLow_eq]

theorem shiftLow_of_sends {s : State} (h : Sends s) : shiftLow s = sendFrom s.cache s :=
  if_pos ((sendsNow_iff s).2 h)

theorem shiftLow_of_not_sends {s : State} (h : ¬ Sends s) : shiftLow s = shiftEnd s :=
  if_neg (mt (sendsNow_iff s).1 h)

/-- The loop stopped by a counter's end: `j` bytes go out before that, and more are owed (R84, R343). -/
theorem sendPending_add (j n : Nat) (temp : Byte) (s : State) : ∃ temp',
    sendPending (j + n) temp s = (sendPending j temp s).andThen id fun _ => sendPending n temp' := by
  induction j generalizing temp s with
  | zero => exact ⟨temp, by rw [Nat.zero_add]; rfl⟩
  | succ j ih =>
    rw [Nat.succ_add, sendPending_succ, sendPending_succ]
    cases writeByte (temp + carryByte s) s with
    | ok _ t => exact ih 0xFF { t with cacheSize := t.cacheSize - 1 }
    | stall _ _ => exact ⟨temp, rfl⟩
    | raise _ _ _ => exact ⟨temp, rfl⟩
    | stuck _ => exact ⟨temp, rfl⟩

theorem sendPending_overflow {n : Nat} (temp : Byte) {s : State} (hn : 0 < n) (hc : s.outCount = counterMax) :
    sendPending n temp s = .raise .counterOverflow 0 s := by
  obtain ⟨n, rfl⟩ := Nat.exists_eq_add_of_lt hn
  rw [Nat.zero_add, sendPending_succ, writeByte, if_pos hc]
  rfl

section

variable {s : State}

/-- ShiftLow sends all it owes. -/
theorem shiftLow_sends_ready (hs : Sends s) (howed : 1 ≤ s.cacheSize.toNat)
    (hfit : s.cacheSize.toNat ≤ 2 ^ 64 - 1 - s.outCount.toNat)
    (hroom : ∀ room, s.sinkRoom = some room → s.cacheSize.toNat ≤ room) :
    shiftLow s = .ok () (shiftedOut s) := by
  have hcount : s.outCount.toNat + s.cacheSize.toNat < 2 ^ 64 := by have := s.outCount.isLt; omega
  rw [shiftLow_of_sends hs, sendFrom_of_owed (ne_zero_of_owed howed), sendPending_ready _ _ _ le_rfl hcount hroom,
    Flow.andThen, shiftEnd_of_counting (by simp [counterMax]), shiftedOut, if_pos hs, loopBytes_eq_owedBytes]
  have hcache : s.low.extractLsb' 24 8 = BitVec.ofNat 8 (s.low.toNat / 2 ^ 24) := by
    apply BitVec.eq_of_toNat_eq
    rw [BitVec.extractLsb'_toNat, BitVec.toNat_ofNat, Nat.shiftRight_eq_div_pow]
  simp [hcache]

/-- ShiftLow counts one more byte. -/
theorem shiftLow_counts (hs : ¬ Sends s) (hc : s.cacheSize ≠ counterMax) :
    shiftLow s = .ok () (shiftedOut s) := by
  rw [shiftLow_of_not_sends hs, shiftEnd_of_counting hc, shiftedOut, if_neg hs]

/-- No counter ends: OUT_COUNT can count what is sent, or CACHE_SIZE what is kept. -/
theorem shiftOverflow_none_iff : shiftOverflow s = none ↔
    (Sends s → s.cacheSize.toNat ≤ 2 ^ 64 - 1 - s.outCount.toNat) ∧ (¬ Sends s → s.cacheSize ≠ counterMax) := by
  unfold shiftOverflow
  by_cases hs : Sends s
  · simp only [hs, if_true, not_true, false_implies, and_true, forall_const]
    split <;> simp_all
  · simp only [hs, if_false, not_false_iff, false_implies, true_and, forall_const]
    show (if s.cacheSize = counterMax then _ else _) = _ ↔ _
    split <;> simp_all

/-- The sink of a closed form has room for what it sends. -/
theorem room_of_sinkFits {t : State} {bs : List Byte} (h : SinkFits s t) (ht : t.sent = s.sent ++ bs) :
    ∀ room, s.sinkRoom = some room → bs.length ≤ room := by
  intro room hr
  have := h room hr
  rw [ht, List.length_append] at this
  omega

theorem shiftLow_ready (howed : 1 ≤ s.cacheSize.toNat) (hnone : shiftOverflow s = none)
    (hsink : SinkFits s (shiftedOut s)) : shiftLow s = .ok () (shiftedOut s) := by
  obtain ⟨hsend, hkeep⟩ := shiftOverflow_none_iff.1 hnone
  by_cases hs : Sends s
  · refine shiftLow_sends_ready hs howed (hsend hs) ?_
    have hsent : (shiftedOut s).sent = s.sent ++ owedBytes s s.cacheSize.toNat := by rw [shiftedOut, if_pos hs]
    simpa using room_of_sinkFits hsink hsent
  · exact shiftLow_counts hs (hkeep hs)

/-- What is sent and what is owed: one byte more. -/
theorem shiftedOut_sum (hnone : shiftOverflow s = none) :
    (shiftedOut s).outCount.toNat + (shiftedOut s).cacheSize.toNat
      = s.outCount.toNat + s.cacheSize.toNat + 1 := by
  obtain ⟨hsend, hkeep⟩ := shiftOverflow_none_iff.1 hnone
  by_cases hs : Sends s
  · have := hsend hs
    have := s.outCount.isLt
    have hone : (1 : U64).toNat = 1 := rfl
    rw [shiftedOut, if_pos hs]
    simp only [BitVec.toNat_add, hone]
    omega
  · rw [shiftedOut, if_neg hs]
    simp only [toNat_add_one (hkeep hs)]
    omega

/-- OUT_COUNT ends in the middle of the owed bytes: those before are sent and no longer owed. -/
theorem shiftLow_overflow_sends (hs : Sends s) (hfit : 2 ^ 64 - 1 - s.outCount.toNat < s.cacheSize.toNat)
    (hroom : ∀ room, s.sinkRoom = some room → 2 ^ 64 - 1 - s.outCount.toNat ≤ room) :
    shiftLow s = .raise .counterOverflow 0 { s with
      sent := s.sent ++ owedBytes s (2 ^ 64 - 1 - s.outCount.toNat)
      outCount := 0xFFFFFFFFFFFFFFFF
      sinkRoom := s.sinkRoom.map (fun room => room - (2 ^ 64 - 1 - s.outCount.toNat))
      cacheSize := BitVec.ofNat 64 (s.cacheSize.toNat - (2 ^ 64 - 1 - s.outCount.toNat)) } := by
  have hout := s.outCount.isLt
  generalize hj : 2 ^ 64 - 1 - s.outCount.toNat = j at *
  obtain ⟨temp', hadd⟩ := sendPending_add j (s.cacheSize.toNat - j) s.cache s
  rw [Nat.add_sub_cancel' hfit.le] at hadd
  have hcount : s.outCount + BitVec.ofNat 64 j = counterMax := by
    rw [eq_counterMax, BitVec.toNat_add, BitVec.toNat_ofNat]; omega
  have hsize : s.cacheSize - BitVec.ofNat 64 j = BitVec.ofNat 64 (s.cacheSize.toNat - j) := by
    have hle : BitVec.ofNat 64 j ≤ s.cacheSize := by
      rw [BitVec.le_def, BitVec.toNat_ofNat]; omega
    apply BitVec.eq_of_toNat_eq
    rw [BitVec.toNat_sub_of_le hle, BitVec.toNat_ofNat, BitVec.toNat_ofNat]
    have := s.cacheSize.isLt
    omega
  rw [shiftLow_of_sends hs, sendFrom_of_owed (ne_zero_of_owed (by omega)), hadd,
    sendPending_ready j s.cache s hfit.le (by omega) hroom]
  simp only [Flow.andThen]
  rw [sendPending_overflow temp' (by omega) hcount, loopBytes_eq_owedBytes, hcount, hsize]
  rfl

end

/-- Settles O33: the loop of owed bytes runs through, or OUT_COUNT ends in its middle; or one more byte is
counted, or CACHE_SIZE ends. -/
theorem shiftLowSendsPending : Obligations.ShiftLowSendsPending := by
  intro s howed
  refine ⟨fun hnone hsink => ⟨shiftLow_ready howed hnone hsink, shiftedOut_sum hnone⟩, fun d u h hsink => ?_⟩
  simp only [shiftOverflow] at h
  split at h
  · rename_i hs
    split at h
    · cases h
    · rename_i hfit
      cases h
      refine shiftLow_overflow_sends hs (Nat.not_le.1 hfit) ?_
      simpa using room_of_sinkFits hsink rfl
  · rename_i hs
    split at h
    · rename_i hmax
      cases h
      rw [shiftLow_of_not_sends hs, shiftEnd, if_pos (show s.cacheSize = counterMax from hmax)]
    · cases h

end Sys2Proof.Machine
end

section
/-! PROOFS. ENC_FLUSH's five ShiftLows (`41_range_coder.md` R230): the bytes sent and the bytes owed grow by LOW's
bytes, the most significant first, whichever of the five send. -/

namespace Sys2Proof.Machine

/-- The stream after the bytes owed now. -/
def owedStream (s : State) : List Byte := s.sent ++ owedBytes s s.cacheSize.toNat

/-- A ShiftLow that is through adds LOW's top byte to what is sent and owed. -/
theorem shiftedOut_owedStream {s : State} (howed : 1 ≤ s.cacheSize.toNat) (hnone : shiftOverflow s = none) :
    owedStream (shiftedOut s) = owedStream s ++ [BitVec.ofNat 8 (s.low.toNat / 2 ^ 24)] := by
  have hlow := s.low.isLt
  have hcarry : (s.low.toNat % 2 ^ 24 * 2 ^ 8) % 2 ^ 33 / 2 ^ 32 = 0 := by omega
  by_cases hs : Sends s
  · rw [owedStream, shiftedOut, if_pos hs, owedStream]
    have hcache : BitVec.ofNat 8 (s.low.toNat / 2 ^ 24 % 2 ^ 8) = BitVec.ofNat 8 (s.low.toNat / 2 ^ 24) := by
      apply BitVec.eq_of_toNat_eq; rw [BitVec.toNat_ofNat, BitVec.toNat_ofNat, Nat.mod_mod]
    simp only [show (1 : U64).toNat = 0 + 1 from rfl, owedBytes, BitVec.toNat_ofNat, hcarry, Nat.add_zero, hcache,
      List.replicate_zero]
  · have hsize := toNat_add_one ((shiftOverflow_none_iff.1 hnone).2 hs)
    obtain ⟨htop, hnocarry⟩ := not_or.1 hs
    have hzero : s.low.toNat / 2 ^ 32 = 0 := by omega
    have hbyte : BitVec.ofNat 8 (s.low.toNat / 2 ^ 24) = 0xFF := by
      apply BitVec.eq_of_toNat_eq; rw [BitVec.toNat_ofNat]; show _ = 255; omega
    obtain ⟨n, hn⟩ := Nat.exists_eq_add_of_le' howed
    rw [owedStream, shiftedOut, if_neg hs, owedStream]
    simp only [hsize, hn, owedBytes, BitVec.toNat_ofNat, hcarry, hzero, hbyte, List.replicate_succ']
    simp

/-- LOW's bytes as `k` ShiftLows move them out: its top byte after `j` of them, for each `j < k`. -/
def lowBytes (low : Nat) (k : Nat) : List Byte :=
  (List.range k).map fun j => BitVec.ofNat 8 (low * 2 ^ (8 * j) / 2 ^ 24)

theorem lowBytes_succ (low k : Nat) :
    lowBytes low (k + 1) = lowBytes low k ++ [BitVec.ofNat 8 (low * 2 ^ (8 * k) / 2 ^ 24)] := by
  simp [lowBytes, List.range_succ]

@[simp] theorem lowBytes_length (low k : Nat) : (lowBytes low k).length = k := by simp [lowBytes]

/-- `s` after `k` of ENC_FLUSH's ShiftLows from `s₀`. -/
structure Flushed (s₀ : State) (k : Nat) (s : State) : Prop where
  frame : CoderFrame s₀ s
  range : s.range = s₀.range
  ports : EncFrame s₀ s
  stream : owedStream s = owedStream s₀ ++ lowBytes s₀.low.toNat k
  low : s.low.toNat % 2 ^ 32 = s₀.low.toNat * 2 ^ (8 * k) % 2 ^ 32
  noCarry : 1 ≤ k → s.low.toNat < 2 ^ 32
  owed : 1 ≤ s.cacheSize.toNat

theorem flushed_zero {s : State} (howed : 1 ≤ s.cacheSize.toNat) : Flushed s 0 s where
  frame := rfl
  range := rfl
  ports := .refl s
  stream := by simp [lowBytes]
  low := by simp
  noCarry h := absurd h (by decide)
  owed := howed

/-- The counters and the sink's room after `k` ShiftLows, by the number of bytes sent. -/
theorem Flushed.counts {s₀ s : State} {k : Nat} (h : Flushed s₀ k s) :
    s.outCount.toNat + s.cacheSize.toNat = s₀.outCount.toNat + s₀.cacheSize.toNat + k
      ∧ ∀ room, s.sinkRoom = some room → ∃ room₀, s₀.sinkRoom = some room₀
        ∧ room + s₀.cacheSize.toNat + k = room₀ + s.cacheSize.toNat := by
  obtain ⟨bs, hsent, hcount, hfits, hroom⟩ := h.ports.bytes
  have hlength := congrArg List.length h.stream
  simp only [owedStream, hsent, List.length_append, owedBytes_length, lowBytes_length] at hlength
  refine ⟨by omega, fun room hr => ?_⟩
  rw [hroom, Option.map_eq_some_iff] at hr
  obtain ⟨room₀, hr₀, rfl⟩ := hr
  have := hfits room₀ hr₀
  exact ⟨room₀, hr₀, by omega⟩

/-- After four ShiftLows LOW is 0 below its carry, which is gone: the fifth one sends. -/
theorem Flushed.sends {s₀ s : State} (h : Flushed s₀ 4 s) : s.low.toNat = 0 := by
  have := h.low
  have := h.noCarry (by decide)
  omega

section

variable {s₀ s : State} {k : Nat} (hcount : s₀.outCount.toNat + s₀.cacheSize.toNat + 4 < 2 ^ 64)
  (hroom : ∀ room, s₀.sinkRoom = some room → s₀.cacheSize.toNat + 4 ≤ room)
include hcount

theorem Flushed.no_overflow (h : Flushed s₀ k s) (hk : k < flushShifts) : shiftOverflow s = none := by
  have hk : k ≤ 4 := Nat.le_of_lt_succ hk
  obtain ⟨hsum, -⟩ := h.counts
  refine shiftOverflow_none_iff.2 ⟨fun _ => by omega, fun hs => ne_counterMax.2 ?_⟩
  have hk3 : k ≠ 4 := by
    rintro rfl
    exact hs (.inl (by rw [h.sends]; decide))
  omega

include hroom

theorem Flushed.shiftLow (h : Flushed s₀ k s) (hk : k < flushShifts) :
    Machine.shiftLow s = .ok () (shiftedOut s) := by
  have hnone := h.no_overflow hcount hk
  obtain ⟨hsend, hkeep⟩ := shiftOverflow_none_iff.1 hnone
  have hk : k ≤ 4 := Nat.le_of_lt_succ hk
  by_cases hs : Sends s
  · refine shiftLow_sends_ready hs h.owed (hsend hs) fun room hr => ?_
    obtain ⟨room₀, hr₀, hsame⟩ := h.counts.2 room hr
    have := hroom room₀ hr₀
    omega
  · exact shiftLow_counts hs (hkeep hs)

theorem Flushed.succ (h : Flushed s₀ k s) (hk : k < flushShifts) : Flushed s₀ (k + 1) (shiftedOut s) := by
  have hrun := h.shiftLow hcount hroom hk
  have hdone := shiftLow_post s
  have hframe := shiftLow_frame s
  rw [hrun] at hdone hframe
  have hlow := h.low
  have hstep : s₀.low.toNat * 2 ^ (8 * (k + 1)) = s₀.low.toNat * 2 ^ (8 * k) * 2 ^ 8 := by
    rw [Nat.mul_add, Nat.pow_add, Nat.mul_assoc]
  have hbyte : BitVec.ofNat 8 (s.low.toNat / 2 ^ 24) = BitVec.ofNat 8 (s₀.low.toNat * 2 ^ (8 * k) / 2 ^ 24) := by
    apply BitVec.eq_of_toNat_eq
    rw [BitVec.toNat_ofNat, BitVec.toNat_ofNat]
    omega
  refine ⟨h.frame.trans hdone.frame, hdone.range.trans h.range, h.ports.trans hframe, ?_, ?_, fun _ => ?_,
    hdone.owed⟩
  · rw [shiftedOut_owedStream h.owed (h.no_overflow hcount hk), h.stream, lowBytes_succ, hbyte, List.append_assoc]
  · rw [hdone.low, hstep]; omega
  · rw [hdone.low]; omega

/-- The fifth ShiftLow leaves LOW and CACHE 0 and one byte pending. -/
theorem Flushed.closed (h : Flushed s₀ 4 s) : Flushed s₀ 5 (shiftedOut s) ∧ (shiftedOut s).low = 0
    ∧ (shiftedOut s).cache = 0 ∧ (shiftedOut s).cacheSize = 1 := by
  refine ⟨h.succ hcount hroom (by decide), ?_⟩
  have hs : Sends s := .inl (by rw [h.sends]; decide)
  rw [shiftedOut, if_pos hs, h.sends]
  exact ⟨rfl, rfl, rfl⟩

/-- The ShiftLows that are left, and the end of the stream. -/
theorem runEnc_flush_closed {n : Nat} (h : Flushed s₀ k s) (hn : k + n = 4) :
    ∃ t, runEnc (List.replicate (n + 1) .shift ++ [.close]) s = complete { t with mode := .idle }
      ∧ Flushed s₀ 5 t ∧ t.low = 0 ∧ t.cache = 0 ∧ t.cacheSize = 1 := by
  induction n generalizing k s with
  | zero =>
    obtain rfl : k = 4 := hn
    refine ⟨shiftedOut s, ?_, h.closed hcount hroom⟩
    rw [List.replicate_succ, List.cons_append, runEnc, runEncOp, h.shiftLow hcount hroom (by decide)]
    rfl
  | succ n ih =>
    have hk : k < flushShifts := by unfold flushShifts; omega
    obtain ⟨t, hrun, hend⟩ := ih (h.succ hcount hroom hk) (by omega)
    refine ⟨t, ?_, hend⟩
    rw [List.replicate_succ, List.cons_append, runEnc, runEncOp, h.shiftLow hcount hroom hk]
    exact hrun

end

/-- What five ShiftLows have sent: the bytes owed before, and LOW's four bytes; a 0 is pending. -/
theorem Flushed.sent {s₀ s : State} (h : Flushed s₀ 5 s) (hlow : s.low = 0) (hcache : s.cache = 0)
    (hsize : s.cacheSize = 1) : s.sent = owedStream s₀ ++ lowBytes s₀.low.toNat 4 := by
  have hstream := h.stream
  have hpending : owedBytes s s.cacheSize.toNat = [0] := by
    rw [hsize]; simp [owedBytes, hlow, hcache]
  have hlast : BitVec.ofNat 8 (s₀.low.toNat * 2 ^ (8 * 4) / 2 ^ 24) = 0 := by
    apply BitVec.eq_of_toNat_eq
    rw [BitVec.toNat_ofNat]
    show _ = 0
    omega
  rw [owedStream, hpending, lowBytes_succ, hlast, ← List.append_assoc] at hstream
  exact List.append_cancel_right hstream

theorem lowBytes_four (low : Nat) : lowBytes low 4 = [BitVec.ofNat 8 (low / 2 ^ 24),
    BitVec.ofNat 8 (low / 2 ^ 16), BitVec.ofNat 8 (low / 2 ^ 8), BitVec.ofNat 8 low] := by
  have h1 : low * 2 ^ 8 / 2 ^ 24 = low / 2 ^ 16 := Nat.mul_div_mul_right low (2 ^ 16) (by decide)
  have h2 : low * 2 ^ 16 / 2 ^ 24 = low / 2 ^ 8 := Nat.mul_div_mul_right low (2 ^ 8) (by decide)
  have h3 : low * 2 ^ 24 / 2 ^ 24 = low := Nat.mul_div_cancel low (by decide)
  show [BitVec.ofNat 8 (low * 2 ^ 0 / 2 ^ 24), BitVec.ofNat 8 (low * 2 ^ 8 / 2 ^ 24),
    BitVec.ofNat 8 (low * 2 ^ 16 / 2 ^ 24), BitVec.ofNat 8 (low * 2 ^ 24 / 2 ^ 24)] = _
  rw [h1, h2, h3, Nat.pow_zero, Nat.mul_one]

/-- The state that the five ShiftLows leave. -/
theorem Flushed.final {s₀ s : State} (h : Flushed s₀ 5 s) (hlow : s.low = 0) (hcache : s.cache = 0)
    (hsize : s.cacheSize = 1) : s = { s₀ with
      low := 0, cache := 0, cacheSize := 1
      sent := owedStream s₀ ++ lowBytes s₀.low.toNat 4
      outCount := s₀.outCount + s₀.cacheSize + 4
      sinkRoom := s₀.sinkRoom.map (fun room => room - (s₀.cacheSize.toNat + 4)) } := by
  have hsent := h.sent hlow hcache hsize
  obtain ⟨bs, hbytes, hcount, -, hroom⟩ := h.ports.bytes
  have hlength : bs.length = s₀.cacheSize.toNat + 4 := by
    have := congrArg List.length (hbytes.symm.trans hsent)
    simp only [owedStream, List.length_append, owedBytes_length, lowBytes_length] at this
    omega
  have hout : s.outCount = s₀.outCount + s₀.cacheSize + 4 := by
    apply BitVec.eq_of_toNat_eq
    have hfour : (4 : U64).toNat = 4 := rfl
    have := s.outCount.isLt
    rw [BitVec.toNat_add, BitVec.toNat_add, hfour]
    omega
  rw [hlength] at hroom
  rw [h.frame, h.range, hlow, hcache, hsize, hsent, hout, hroom]

theorem owedStream_of_owed {s : State} (howed : 1 ≤ s.cacheSize.toNat) :
    owedStream s = s.sent ++ BitVec.ofNat 8 (s.cache.toNat + s.low.toNat / 2 ^ 32)
      :: List.replicate (s.cacheSize.toNat - 1) (BitVec.ofNat 8 (0xFF + s.low.toNat / 2 ^ 32)) := by
  obtain ⟨n, hn⟩ := Nat.exists_eq_add_of_le' howed
  rw [owedStream, hn, Nat.add_sub_cancel, owedBytes]

/-- Settles O46: five ShiftLows send what is owed and LOW's bytes, and leave a 0 that is pending and never sent. -/
theorem encFlushSendsInterval : Obligations.EncFlushSendsInterval := by
  intro s hinv hacc hm hcount hroom
  have howed : 1 ≤ s.cacheSize.toNat := ((hinv.streamOk hacc.1 hacc.2).1 hm).owed
  obtain ⟨t, hrun, hflushed, hlow, hcache, hsize⟩ :=
    runEnc_flush_closed (n := 4) hcount hroom (flushed_zero howed) rfl
  have hpass : firstFailing [checkMode .enc (encode .encFlush) s] = none := by
    rw [checkMode_pass hm]; rfl
  have hexec : exec .encFlush s = complete { t with mode := .idle } := by
    rw [exec_enc rfl, show codingChecks .encFlush s = [] from rfl, afterChecks_pass hpass]
    exact hrun
  refine ⟨completed { t with mode := .idle }, hexec, ?_, ?_⟩
  · rw [hflushed.final hlow hcache hsize, owedStream_of_owed howed, lowBytes_four]
  · show t.outCount.toNat = predictedLength s
    have hsum := hflushed.counts.1
    have hone : (1 : U64).toNat = 1 := rfl
    rw [hsize, hone] at hsum
    unfold predictedLength
    omega

end Sys2Proof.Machine
end

section
/-! PROOFS. The two byte ports' handshakes (`20_memory.md` R83, R84), outcome by outcome. -/

namespace Sys2Proof.Machine

/-- An offered byte that IN_COUNT cannot count is not taken (R83). -/
theorem readByte_of_inCount_full {s : State} (hin : s.byteIn ≠ []) (hc : s.inCount = counterMax) :
    readByte s = .raise .counterOverflow 1 s := by
  obtain ⟨b, rest, hb⟩ := List.exists_cons_of_ne_nil hin
  rw [readByte, hb]
  exact if_pos hc

/-- No byte will come any more (R83). -/
theorem readByte_of_ended {s : State} (hin : s.byteIn = []) (heos : s.eos = true) :
    readByte s = .raise .truncatedInput s.inCount s := by
  rw [readByte, hin, heos]; rfl

/-- A byte that OUT_COUNT cannot count is not sent, whether or not the sink is ready (R84). -/
theorem writeByte_of_outCount_full {s : State} (hc : s.outCount = counterMax) (b : Byte) :
    writeByte b s = .raise .counterOverflow 0 s := if_pos hc

theorem writeByte_of_ready {s : State} (hc : s.outCount ≠ counterMax) (hr : s.sinkRoom ≠ some 0) (b : Byte) :
    writeByte b s = .ok () { s with
      sent := s.sent ++ [b], outCount := s.outCount + 1, sinkRoom := s.sinkRoom.map (fun room => room - 1) } := by
  rw [writeByte, if_neg hc, if_pos (by simp [sinkReady, hr])]

theorem writeByte_of_not_ready {s : State} (hc : s.outCount ≠ counterMax) (hr : s.sinkRoom = some 0) (b : Byte) :
    writeByte b s = .stall () s := by
  rw [writeByte, if_neg hc, if_neg (by simp [sinkReady, hr])]

/-- A stall changes nothing but that the command waits, and BUSY is 1 (`10_state.md` R52, R58). -/
theorem stallAt_busy (w : Wait) (s : State) :
    ∃ t, stallAt w s = .next t ∧ t = { s with wait := t.wait } ∧ (statusReg t).getLsbD 0 = true :=
  ⟨_, stallAt_eq w s, rfl, statusReg_busy _⟩

/-- Settles O28: ReadByte looks at the byte offered, then IN_COUNT or EOS. -/
theorem readByteHandshake : Obligations.ReadByteHandshake :=
  fun s => ⟨fun _ _ hb hc => readByte_offered hb hc,
    fun _ _ hb hc => readByte_of_inCount_full (hb ▸ List.cons_ne_nil _ _) hc,
    readByte_of_ended, readByte_of_empty, fun w => stallAt_busy w s⟩

/-- Settles O29: WriteByte looks at OUT_COUNT, then at the sink. -/
theorem writeByteHandshake : Obligations.WriteByteHandshake :=
  fun s b => ⟨fun hc => writeByte_of_outCount_full hc b, fun hc hr => writeByte_of_ready hc hr b,
    fun hc hr => writeByte_of_not_ready hc hr b, fun w => stallAt_busy w s⟩

end Sys2Proof.Machine
end

section
/-! PROOFS. A decoder command as a walk of `n` levels from a node: DEC_BIT is a walk of one level, DEC_BT and
DEC_RBT differ in the value they make of the bits alone (`41_range_coder.md` R215, `42_bit_tree.md` R270, R280).
What holds of every walk is proved once, by induction over its levels. -/

namespace Sys2Proof.Machine

/-- The run `k` decodes `n` bits along a walk from node `m` of the tree at `base`, and completes with a value. -/
inductive DecWalk (base : Nat) : Nat → Nat → (State → Host.Outcome State Fault Refusal) → Prop
  | done (m : Nat) (r : U32) : DecWalk base 0 m (completeWith r)
  | node {n m : Nat} {rest : Bool → DecRest} {k : Bool → State → Host.Outcome State Fault Refusal}
      (h : ∀ x : Bool, DecWalk base n (2 * m + x.toNat) (k x)) :
      DecWalk base (n + 1) m (decBitThen (base + m) rest k)

theorem decBit_walk (a : AddrField) : DecWalk a.toNat 1 0 (decRun (.decBit a)) :=
  .node (k := decBitEnd) fun _ => .done _ _

theorem decTreeLoop_succ (b : AddrField) (d left m : Nat) : decTreeLoop b d (left + 1) m
    = decBitThen (b.toNat + m) (fun x => .tree b d left (2 * m + x.toNat))
        fun x => decTreeLoop b d left (2 * m + x.toNat) := rfl

theorem decTreeLoop_walk (b : AddrField) (d left m : Nat) : DecWalk b.toNat left m (decTreeLoop b d left m) := by
  induction left generalizing m with
  | zero => exact .done m _
  | succ n ih => rw [decTreeLoop_succ]; exact .node fun _ => ih _

theorem decRevTreeLoop_succ (b : AddrField) (d left m : Nat) (r : U32) : decRevTreeLoop b d (left + 1) m r
    = decBitThen (b.toNat + m)
        (fun x => .revTree b d left (2 * m + x.toNat) (orBitAt r x (d - (left + 1))))
        fun x => decRevTreeLoop b d left (2 * m + x.toNat) (orBitAt r x (d - (left + 1))) := rfl

theorem decRevTreeLoop_walk (b : AddrField) (d left m : Nat) (r : U32) :
    DecWalk b.toNat left m (decRevTreeLoop b d left m r) := by
  induction left generalizing m r with
  | zero => exact .done m r
  | succ n ih => rw [decRevTreeLoop_succ]; exact .node fun _ => ih _ _

/-- Every node of a walk of `n` levels from node `m` is in `lo .. hi - 1`: the walk's last level begins with
node `m * 2^(n-1)` and ends before `(m + 1) * 2^(n-1)`. -/
structure NodesWithin (lo hi n m : Nat) : Prop where
  low : lo ≤ m
  high : (m + 1) * 2 ^ n ≤ 2 * hi

theorem NodesWithin.node {lo hi n m : Nat} (h : NodesWithin lo hi (n + 1) m) : m < hi := by
  have hhigh := h.high
  have := Nat.le_mul_of_pos_right (m + 1) (Nat.two_pow_pos n)
  rw [Nat.pow_succ, ← Nat.mul_assoc] at hhigh
  omega

theorem NodesWithin.child {lo hi n m : Nat} (h : NodesWithin lo hi (n + 1) m) (x : Bool) :
    NodesWithin lo hi n (2 * m + x.toNat) where
  low := by have := h.low; omega
  high := by
    have hx : 2 * m + x.toNat + 1 ≤ (m + 1) * 2 := by have := x.toNat_le; omega
    calc (2 * m + x.toNat + 1) * 2 ^ n ≤ (m + 1) * 2 * 2 ^ n := Nat.mul_le_mul_right _ hx
      _ = (m + 1) * 2 ^ (n + 1) := by rw [Nat.pow_succ', Nat.mul_assoc]
      _ ≤ 2 * hi := h.high

/-- A single context is its own walk. -/
theorem nodesWithin_context : NodesWithin 0 1 1 0 := ⟨le_rfl, le_rfl⟩

/-- A tree's walk from the root stays within its span (`42_bit_tree.md` R260). -/
theorem nodesWithin_tree (d : Nat) : NodesWithin 1 (2 ^ d) d 1 := ⟨le_rfl, le_rfl⟩

end Sys2Proof.Machine
end

section
/-! PROOFS. The words of P a command writes (`20_memory.md` R82): its writes are traced as the addresses they go
to, and what no write goes to reads as before. -/

namespace Sys2Proof.Machine

/-- `m'` is `m` after writes to addresses in `W`. -/
inductive WrittenAt (W : Nat → Prop) (m : Memory) : Memory → Prop
  | refl : WrittenAt W m m
  | write {m' : Memory} (h : WrittenAt W m m') {a : Nat} (ha : W a) (v : Prob) : WrittenAt W m (memWrite m' a v)

theorem WrittenAt.of_eq {W : Nat → Prop} {m m' : Memory} (h : m' = m) : WrittenAt W m m' := h ▸ .refl

/-- One write. -/
theorem writtenAt_memWrite (m : Memory) (a : Nat) (v : Prob) : WrittenAt (fun x => x = a) m (memWrite m a v) :=
  .write (W := fun x => x = a) .refl rfl v

theorem WrittenAt.trans {W : Nat → Prop} {m m' m'' : Memory} (h : WrittenAt W m m') (k : WrittenAt W m' m'') :
    WrittenAt W m m'' := by
  induction k with
  | refl => exact h
  | write _ ha v ih => exact .write ih ha v

theorem WrittenAt.mono {W V : Nat → Prop} {m m' : Memory} (h : WrittenAt W m m') (hWV : ∀ a, W a → V a) :
    WrittenAt V m m' := by
  induction h with
  | refl => exact .refl
  | write _ ha v ih => exact .write ih (hWV _ ha) v

/-- A word that no write goes to reads as before. -/
theorem WrittenAt.read {W : Nat → Prop} {m m' : Memory} (h : WrittenAt W m m') {x : Nat} (hx : ¬ W x) :
    memRead m' x = memRead m x := by
  induction h with
  | refl => rfl
  | write _ ha v ih => rw [memRead_memWrite_other _ v fun e => hx (by rw [e]; exact ha), ih]

theorem WrittenAt.eq_of_nowhere {W : Nat → Prop} {m m' : Memory} (h : WrittenAt W m m') (hW : ∀ a, ¬ W a) :
    m' = m := by
  cases h with
  | refl => rfl
  | write _ ha v => exact absurd ha (hW _)

/-! ### The encoder -/

/-- The address an operation writes: EncBit's context (R208). -/
def opWrites : EncOp → Nat → Prop
  | .modelBit a _, x => x = a
  | _, _ => False

theorem CoderFrame.prob {s t : State} (h : CoderFrame s t) : t.prob = s.prob := by rw [h]

/-- The byte output after some writes: it does not touch P. -/
theorem WrittenAt.byteOutput {W : Nat → Prop} {m : Memory} {u : State} {f : Flow Unit (List EncOp)}
    (h : WrittenAt W m u.prob) (hf : f.Post (fun _ => CoderFrame u) (fun _ => CoderFrame u) (CoderFrame u)) :
    f.Post (fun _ t => WrittenAt W m t.prob) (fun _ t => WrittenAt W m t.prob) (fun t => WrittenAt W m t.prob) :=
  hf.imp (fun _ _ k => by rw [k.prob]; exact h) (fun _ _ k => by rw [k.prob]; exact h)
    (fun _ k => by rw [k.prob]; exact h)

theorem runEncOp_writtenAt (op : EncOp) (s : State) :
    (runEncOp op s).Post (fun _ t => WrittenAt (opWrites op) s.prob t.prob)
      (fun _ t => WrittenAt (opWrites op) s.prob t.prob) (fun t => WrittenAt (opWrites op) s.prob t.prob) := by
  cases op with
  | modelBit a b =>
    cases hp : readProb a s with
    | error e => rw [runEncOp_modelBit_unreadable hp]; exact .refl
    | ok p =>
      have hwrite : WrittenAt (opWrites (.modelBit a b)) s.prob (encBitSplit a b p s).prob := by
        rw [encBitSplit, writeProb_prob, splitEnc_prob]
        exact writtenAt_memWrite _ _ _
      rw [runEncOp_modelBit hp]
      exact hwrite.byteOutput (normEnc_post _ _)
  | directBit b => exact (WrittenAt.of_eq (halveEnc_prob b s)).byteOutput (normEnc_post _ _)
  | norm => exact WrittenAt.refl.byteOutput (normEnc_post _ s)
  | shift =>
    exact WrittenAt.refl.byteOutput
      ((shiftLow_post s).imp (fun _ _ h => h.frame) (fun _ _ h => h.2.frame.coder) fun _ h => h)
  | send temp =>
    exact WrittenAt.refl.byteOutput
      ((sendFrom_post temp s).imp (fun _ _ h => h.frame) (fun _ _ h => h.frame.coder) fun _ h => h)
  | close => exact .refl

theorem runEnc_writtenAt {W : Nat → Prop} {ops : List EncOp} (hW : ∀ op ∈ ops, ∀ x, opWrites op x → W x)
    {s t : State} (h : runEnc ops s = .next t) : WrittenAt W s.prob t.prob := by
  induction ops generalizing s with
  | nil => cases h; exact .refl
  | cons op ops ih =>
    obtain ⟨hop, hops⟩ := List.forall_mem_cons.1 hW
    refine runEnc_cons_next (runEncOp_writtenAt op s) h (fun u hu hrun => ?_) ?_ ?_
    · exact (hu.mono hop).trans (ih hops hrun)
    · rintro left u hu rfl; exact hu.mono hop
    · rintro c info u hu rfl; exact hu.mono hop

/-! ### The decoder -/

theorem ReadFrame.prob {s t : State} (h : ReadFrame s t) : t.prob = s.prob := by rw [h]

theorem readByte_prob (s : State) :
    (readByte s).Post (fun _ t => t.prob = s.prob) (fun _ t => t.prob = s.prob) (fun t => t.prob = s.prob) :=
  (readByte_post s).imp (fun _ _ h => h.prob) (fun _ _ h => by rw [h]) (fun _ h => by rw [h])

theorem normDec_prob (turns : Nat) (s : State) :
    (normDec turns s).Post (fun _ t => t.prob = s.prob) (fun _ t => t.prob = s.prob) (fun t => t.prob = s.prob) := by
  induction turns generalizing s with
  | zero => trivial
  | succ n ih =>
    by_cases hr : s.range.toNat < top
    · rw [normDec_of_lt_top hr]
      refine (readByte_prob s).andThen (fun b t ht => ?_) (fun _ _ h => h) (fun _ h => h)
      exact (ih (takeCodeByte b t)).imp (fun _ _ h => h.trans ht) (fun _ _ h => h.trans ht) (fun _ h => h.trans ht)
    · rw [normDec_of_top_le (Nat.not_lt.1 hr)]; exact rfl

/-- A NormDec and the command's run from there. -/
theorem normThen_writtenAt {W : Nat → Prop} {rest : DecRest} {k : State → Host.Outcome State Fault Refusal}
    {s t : State} (hk : ∀ u, k u = .next t → WrittenAt W u.prob t.prob) (h : normThen rest k s = .next t) :
    WrittenAt W s.prob t.prob := by
  rw [normThen_eq_finish] at h
  refine Flow.finish_next (normDec_prob renormTurns s) h (fun _ u hu hrun => ?_) ?_ ?_
  · exact .trans (.of_eq hu) (hk u hrun)
  · rintro u hu rfl; exact .of_eq hu
  · rintro c info u hu rfl; exact .of_eq hu

theorem DecWalk.writtenAt {base lo hi n m : Nat} {k : State → Host.Outcome State Fault Refusal}
    (hwalk : DecWalk base n m k) (hnodes : NodesWithin lo hi n m) {s t : State} (h : k s = .next t) :
    WrittenAt (fun x => base + lo ≤ x ∧ x < base + hi) s.prob t.prob := by
  induction hwalk generalizing s with
  | done m r => cases h; exact .refl
  | @node n m rest k _ ih =>
    cases hp : readProb (base + m) s with
    | error e => rw [decBitThen_of_unreadable hp] at h; cases h; exact .refl
    | ok p =>
      rw [decBitThen_of_readable hp] at h
      have hrest := normThen_writtenAt (fun u => ih _ (hnodes.child _)) h
      refine .trans ?_ hrest
      rw [decBitSplit, writeProb_prob, splitDec_prob]
      exact .write .refl ⟨Nat.add_le_add_left hnodes.low _, Nat.add_lt_add_left hnodes.node _⟩ _

theorem decDirectLoop_writtenAt_nowhere {left : Nat} {r : U32} {s t : State} (h : decDirectLoop left r s = .next t) :
    WrittenAt (fun _ => False) s.prob t.prob := by
  induction left generalizing r s with
  | zero => cases h; exact .refl
  | succ n ih =>
    have hhalved : (directHalved s).prob = s.prob := halveDec_prob _ s
    by_cases heq : (directHalved s).code = (directHalved s).range
    · rw [decDirectLoop_corrupt heq] at h; cases h; exact .of_eq hhalved
    · rw [decDirectLoop_succ heq] at h
      exact .trans (.of_eq hhalved) (normThen_writtenAt (fun u => ih) h)

theorem decInitRest_prob {left : Nat} {first : Byte} {s t : State} (h : decInitRest left first s = .next t) :
    t.prob = s.prob := by
  induction left generalizing s with
  | zero =>
    rw [decInitRest, decInitEnd] at h
    split at h <;> cases h <;> rfl
  | succ n ih =>
    rw [decInitRest_succ] at h
    refine Flow.finish_next (readByte_prob s) h (fun b u hu hrun => (ih hrun).trans hu) ?_ ?_
    · rintro u hu rfl; exact hu
    · rintro c info u hu rfl; exact hu

theorem decInitFirst_prob {s t : State} (h : decInitFirst s = .next t) : t.prob = s.prob := by
  rw [decInitFirst_eq_finish] at h
  refine Flow.finish_next (readByte_prob s) h (fun b u hu hrun => (decInitRest_prob hrun).trans hu) ?_ ?_
  · rintro u hu rfl; exact hu
  · rintro c info u hu rfl; exact hu

/-! ### The commands -/

/-- The operations of an encoder command write where the command may. -/
theorem encOps_mayWrite {i : Instr} : ∀ op ∈ encOps i, ∀ x, opWrites op x → mayWriteProb i x := by
  have htree : ∀ (b : AddrField) (bits : List Bool), ∀ op ∈ treeOps b bits, ∀ x, opWrites op x →
      ∃ e ∈ treePath 1 bits, x = b.toNat + e.1 := by
    intro b bits op hop x hx
    obtain ⟨e, he, rfl⟩ := List.mem_map.1 hop
    exact ⟨e, he, hx⟩
  cases i with
  | encBit a b =>
    intro op hop x hx
    rw [List.mem_singleton.1 hop] at hx
    exact hx
  | encDirect n v =>
    intro op hop x hx
    obtain ⟨b, -, rfl⟩ := List.mem_map.1 hop
    exact hx
  | encBt b d v => exact htree b _
  | encRbt b d v => exact htree b _
  | encFlush =>
    intro op hop x hx
    rcases List.mem_append.1 hop with hop | hop
    · rw [List.eq_of_mem_replicate hop] at hx; exact hx
    · rw [List.mem_singleton.1 hop] at hx; exact hx
  | _ => exact fun op hop => absurd hop List.not_mem_nil

theorem decRun_writtenAt {i : Instr} (hi : needsDec i = true) {s t : State} (h : decRun i s = .next t) :
    WrittenAt (mayWriteProb i) s.prob t.prob := by
  cases i with
  | decBit a =>
    refine ((decBit_walk a).writtenAt nodesWithin_context h).mono fun x hx => ?_
    show x = a.toNat
    omega
  | decDirect n => exact decDirectLoop_writtenAt_nowhere h
  | decBt b d => exact (decTreeLoop_walk b _ _ 1).writtenAt (nodesWithin_tree d.toNat) h
  | decRbt b d => exact (decRevTreeLoop_walk b _ _ 1 0).writtenAt (nodesWithin_tree d.toNat) h
  | _ => cases hi

/-- Every command but PROB_INIT writes P word by word, where it may. -/
theorem exec_writtenAt {i : Instr} (hi : ∀ a c, i ≠ .probInit a c) {s t : State} (h : exec i s = .next t) :
    WrittenAt (mayWriteProb i) s.prob t.prob := by
  cases exec_ends h with
  | nop => exact .refl
  | encInit => exact .refl
  | decInit =>
    exact .of_eq (decInitFirst_prob (s := { s with mode := .dec, range := rangeInit, code := 0, inCount := 0 }) h)
  | probInit => exact absurd rfl (hi _ _)
  | probInitFault => exact .refl
  | enc hi =>
    rw [exec_enc hi] at h
    rcases afterChecks_mode_next h with ⟨c, info, rfl⟩ | ⟨-, -, hrun⟩
    · exact .refl
    · exact runEnc_writtenAt encOps_mayWrite hrun
  | dec hi =>
    rw [exec_dec hi] at h
    rcases afterChecks_mode_next h with ⟨c, info, rfl⟩ | ⟨-, -, hrun⟩
    · exact .refl
    · exact decRun_writtenAt hi hrun
  | obs _ hends => exact .of_eq (by rw [hends.endsFrom.keeps])

/-- An empty run leaves P (`40_control.md` R170). -/
theorem memFill_zero {m : Memory} (h : m.wf) (a : Nat) (v : Prob) : memFill m a 0 v = m := by
  induction m with
  | nil => rfl
  | cons e t ih =>
    obtain ⟨he, ht⟩ := List.pairwise_cons.1 h
    by_cases hlt : e.1 < a
    · rw [memFill, List.filter_cons_of_pos (by simpa using hlt), List.filter_cons_of_neg (by simpa using hlt)]
      exact congrArg (e :: ·) (ih ht)
    · have hge : ∀ x ∈ e :: t, a ≤ x.1 := List.forall_mem_cons.2
        ⟨Nat.not_lt.1 hlt, fun x hx => Nat.le_trans (Nat.not_lt.1 hlt) (he x hx).le⟩
      have hnone : (e :: t).filter (fun x => decide (x.1 < a)) = [] :=
        List.filter_eq_nil_iff.2 fun x hx => by simpa using hge x hx
      have hall : (e :: t).filter (fun x => decide (a + 0 ≤ x.1)) = e :: t :=
        List.filter_eq_self.2 fun x hx => by simpa using hge x hx
      rw [memFill, hnone, hall]
      rfl

/-- Settles O19: every command's writes are traced to the addresses it may write; PROB_INIT fills its run. -/
theorem probChangesOnlyWhereNamed : Obligations.ProbChangesOnlyWhereNamed := by
  intro i s t h
  by_cases hi : ∃ a c, i = .probInit a c
  · obtain ⟨a, c, rfl⟩ := hi
    rcases exec_probInit_next h with ⟨-, rfl⟩ | ⟨-, rfl⟩
    · refine ⟨fun x hx => by rw [memRead_memFill]; exact if_neg hx, fun hwf hnone => ?_⟩
      have hc : c.toNat = 0 := by
        by_contra hc
        exact hnone a.toNat ⟨le_rfl, Nat.lt_add_of_pos_right (Nat.pos_of_ne_zero hc)⟩
      show memFill s.prob a.toNat c.toNat probInitValue = s.prob
      rw [hc, memFill_zero hwf]
    · exact ⟨fun _ _ => rfl, fun _ _ => rfl⟩
  · have hw := exec_writtenAt (fun a c e => hi ⟨a, c, e⟩) h
    exact ⟨fun x hx => hw.read hx, fun _ hnone => hw.eq_of_nowhere hnone⟩

end Sys2Proof.Machine
end

section
/-! PROOFS. A coding command whose checks pass (`60_exceptions.md` R342), and the words it can then read. -/

namespace Sys2Proof.Machine

theorem exec_enc_runs {i : Instr} (hi : needsEnc i = true) {s : State} (hm : s.mode = .enc)
    (hpass : firstFailing (codingChecks i s) = none) : exec i s = runEnc (encOps i) s := by
  rw [exec_enc hi, checkMode_pass hm]
  exact afterChecks_pass hpass

theorem exec_dec_runs {i : Instr} (hi : needsDec i = true) {s : State} (hm : s.mode = .dec)
    (hpass : firstFailing (codingChecks i s) = none) : exec i s = decRun i s := by
  rw [exec_dec hi, checkMode_pass hm]
  exact afterChecks_pass hpass

theorem firstFailing_operand {inDomain : Bool} (h : inDomain = true) (w : Word) (cs : List Check) :
    firstFailing (checkOperand inDomain w :: cs) = firstFailing cs := by rw [h]; rfl

theorem firstFailing_span {s : State} (hwf : s.prob.wf) {a n : Nat} (h : SpanDefined a n s) :
    firstFailing [checkSpan a n s, checkDefined a n s] = none := by
  rw [checkSpan_pass h.1, checkDefined_pass hwf h.2]; rfl

theorem bitInDomain_of_le {v : U32} (h : v.toNat ≤ 1) : bitInDomain v = true := decide_eq_true h

theorem countInDomain_of_le {n : CountField} (h : n.toNat ≤ 32) : countInDomain n = true := decide_eq_true h

theorem valueInDomain_of_lt {n : CountField} {v : U32} (h : v.toNat < 2 ^ n.toNat) : valueInDomain n v = true :=
  decide_eq_true h

theorem depthInDomain_of_le {d : CountField} (h1 : 1 ≤ d.toNat) (h16 : d.toNat ≤ 16) : depthInDomain d = true :=
  decide_eq_true ⟨h1, h16⟩

theorem symbolInDomain_of_lt {d : CountField} {v : U32} (h : v.toNat < 2 ^ d.toNat) : symbolInDomain d v = true :=
  decide_eq_true h

/-- The word at `a` is in P and defined (R81). -/
def Readable (a : Nat) (s : State) : Prop := a < s.probWords ∧ (memRead s.prob a).isSome = true

theorem SpanDefined.readable {a n x : Nat} {s : State} (h : SpanDefined a n s) (hlow : a ≤ x) (hhigh : x < a + n) :
    Readable x s :=
  ⟨Nat.lt_of_lt_of_le hhigh h.1, h.2 x hlow hhigh⟩

theorem Readable.value {a : Nat} {s : State} (h : Readable a s) :
    ∃ p, memRead s.prob a = some p ∧ readProb a s = .ok p := by
  obtain ⟨p, hp⟩ := Option.isSome_iff_exists.1 h.2
  exact ⟨p, hp, readProb_ok.2 ⟨h.1, hp⟩⟩

/-- No write makes a word undefined (R82). -/
theorem WrittenAt.isSome {W : Nat → Prop} {m m' : Memory} (h : WrittenAt W m m') {x : Nat}
    (hx : (memRead m x).isSome = true) : (memRead m' x).isSome = true := by
  induction h with
  | refl => exact hx
  | write _ _ v ih => rw [memRead_memWrite]; split <;> simp [ih]

theorem Readable.of_written {a : Nat} {s t : State} (h : Readable a s) {W : Nat → Prop}
    (hwords : t.probWords = s.probWords) (hw : WrittenAt W s.prob t.prob) : Readable a t :=
  ⟨hwords ▸ h.1, hw.isSome h.2⟩

end Sys2Proof.Machine
end

section
/-! PROOFS. The split, the update and the halving against their results as arithmetic (`41_range_coder.md` R203,
R208, R209, R220, R225). -/

namespace Sys2Proof.Machine

theorem updateProb_eq_adapted (p : Prob) (b : Bool) : updateProb p b = BitVec.ofNat 11 (adapted p.toNat b) := by
  cases b <;> rfl

/-- R204's bound is a part of RANGE. -/
theorem boundOf_le (r : U32) (p : Prob) : (boundOf r p).toNat ≤ r.toNat := by
  have hp : p.toNat ≤ 2 ^ 11 := p.isLt.le
  calc (boundOf r p).toNat = r.toNat / 2 ^ 11 * p.toNat := boundOf_toNat r p
    _ ≤ r.toNat / 2 ^ 11 * 2 ^ 11 := Nat.mul_le_mul_left _ hp
    _ ≤ r.toNat := Nat.div_mul_le_self _ _

theorem ofNat_toNat_sub {x y : U32} (h : y.toNat ≤ x.toNat) : BitVec.ofNat 32 (x.toNat - y.toNat) = x - y := by
  rw [← BitVec.toNat_sub_of_le (BitVec.le_def.2 h), BitVec.ofNat_toNat, BitVec.setWidth_eq]

theorem ofNat_toNat_add (low : BitVec 33) (x : U32) :
    BitVec.ofNat 33 (low.toNat + x.toNat) = low + x.setWidth 33 := by
  apply BitVec.eq_of_toNat_eq
  have := x.isLt
  rw [BitVec.toNat_ofNat, BitVec.toNat_add, BitVec.toNat_setWidth, Nat.mod_eq_of_lt (a := x.toNat) (by omega)]

theorem ofNat_half (r : U32) : BitVec.ofNat 32 (r.toNat / 2) = r >>> 1 := by
  rw [← half_toNat, BitVec.ofNat_toNat, BitVec.setWidth_eq]

/-- DecBit's split and update are the ones of R209. -/
theorem decSplitResult_eq {a : Nat} {p : Prob} {s : State} (hp : memRead s.prob a = some p) :
    decSplitResult a s = (decodedBit p s, decBitSplit a p s) := by
  simp only [decSplitResult, hp, ← boundOf_toNat, ← updateProb_eq_adapted, decBitSplit, decodedBit]
  by_cases hb : s.code.toNat < (boundOf s.range p).toNat
  · rw [if_pos hb, decide_eq_false (Nat.not_le.2 hb), BitVec.ofNat_toNat, BitVec.setWidth_eq]
    rfl
  · rw [if_neg hb, decide_eq_true (Nat.not_lt.1 hb), ofNat_toNat_sub (Nat.not_lt.1 hb),
      ofNat_toNat_sub (boundOf_le s.range p)]
    rfl

/-- EncBit's split and update are the ones of R208. -/
theorem encSplitResult_eq {a : Nat} {p : Prob} {s : State} (hp : memRead s.prob a = some p) (b : Bool) :
    encSplitResult a b s = encBitSplit a b p s := by
  cases b
  · simp only [encSplitResult, hp, Bool.false_eq_true, if_false, ← boundOf_toNat, ← updateProb_eq_adapted,
      BitVec.ofNat_toNat, BitVec.setWidth_eq]
    rfl
  · simp only [encSplitResult, hp, if_true, ← boundOf_toNat, ← updateProb_eq_adapted, ofNat_toNat_add,
      ofNat_toNat_sub (boundOf_le s.range p)]
    rfl

theorem encHalveResult_eq (b : Bool) (s : State) : encHalveResult b s = halveEnc b s := by
  cases b
  · simp only [encHalveResult, Bool.false_eq_true, if_false, ofNat_half, BitVec.ofNat_toNat, BitVec.setWidth_eq]
    rfl
  · simp only [encHalveResult, if_true, ← half_toNat, ofNat_toNat_add, BitVec.ofNat_toNat, BitVec.setWidth_eq]
    rfl

theorem decHalveResult_eq (s : State) : decHalveResult s = (directBitOf s, directHalved s) := by
  simp only [decHalveResult, ← half_toNat, directHalved, directBitOf]
  by_cases hb : (s.range >>> 1).toNat ≤ s.code.toNat
  · rw [if_pos hb, decide_eq_true hb, ofNat_toNat_sub hb, BitVec.ofNat_toNat, BitVec.setWidth_eq]
    rfl
  · rw [if_neg hb, decide_eq_false hb, BitVec.ofNat_toNat, BitVec.setWidth_eq]
    rfl

end Sys2Proof.Machine
end

section
/-! PROOFS. A decoder command stopped at the input port (`20_memory.md` R83, `60_exceptions.md` R343): the splits
and updates before the NormDec that is stopped stand. -/

namespace Sys2Proof.Machine

/-- How a command that its input stops ends: with TRUNCATED_INPUT or a wait, by EOS, or with COUNTER_OVERFLOW, each
in the state `u` it has reached. -/
def InputStop.Ends (eos : Bool) (u : State) (o : Host.Outcome State Fault Refusal) : InputStop → Prop
  | .exhausted => (eos = true → o = .next (faultedWith 6 u.inCount u))
      ∧ (eos = false → ∃ w, o = .next { u with wait := some w })
  | .overflow => o = .next (faultedWith 8 1 u)

theorem inputStop_of_lt_top {s : State} (h : s.range.toNat < top) : inputStop s
    = if s.byteIn = [] then some .exhausted else if s.inCount = counterMax then some .overflow else none := if_pos h

theorem inputStop_of_top_le {s : State} (h : top ≤ s.range.toNat) : inputStop s = none := if_neg (Nat.not_lt.2 h)

/-- A NormDec that is stopped ends the command where it stands. -/
theorem normThen_of_stopped {why : InputStop} {s : State} (h : inputStop s = some why) (rest : DecRest)
    (k : State → Host.Outcome State Fault Refusal) : why.Ends s.eos s (normThen rest k s) := by
  by_cases hr : s.range.toNat < top
  · rw [inputStop_of_lt_top hr] at h
    rw [normThen_eq_finish, renormTurns, normDec_of_lt_top hr]
    by_cases hin : s.byteIn = []
    · rw [if_pos hin] at h
      cases h
      refine ⟨fun heos => ?_, fun heos => ⟨.decNorm rest, ?_⟩⟩
      · rw [readByte_of_ended hin heos]; rfl
      · rw [readByte_of_empty hin heos]; rfl
    · rw [if_neg hin] at h
      by_cases hc : s.inCount = counterMax
      · rw [if_pos hc] at h
        cases h
        rw [readByte_of_inCount_full hin hc]; rfl
      · rw [if_neg hc] at h; cases h
  · rw [inputStop_of_top_le (Nat.not_lt.1 hr)] at h; cases h

/-- The step of R207 with an offered byte. -/
theorem renormalizedDec_of_lt_top {s : State} (hr : s.range.toNat < top) (hcode : s.code.toNat < top) {b : Byte}
    {rest : List Byte} (hb : s.byteIn = b :: rest) : renormalizedDec s = takeCodeByte b { s with
      byteIn := rest, consumed := s.consumed ++ [b], inCount := s.inCount + 1 } := by
  rw [renormalizedDec, if_pos (show s.range.toNat < 2 ^ 24 from hr), hb]
  simp only [← pushed_toNat hcode b, ← range_shift_toNat hr, BitVec.ofNat_toNat, BitVec.setWidth_eq]
  rfl

theorem renormalizedDec_of_top_le {s : State} (h : top ≤ s.range.toNat) : renormalizedDec s = s :=
  if_neg (Nat.not_lt.2 h)

/-- A NormDec that is not stopped is one step of R207 (R245). -/
theorem normDec_of_not_stopped {s : State} (h : DecSplit s) (hstop : inputStop s = none) :
    normDec renormTurns s = .ok () (renormalizedDec s) := by
  by_cases hr : s.range.toNat < top
  · rw [inputStop_of_lt_top hr] at hstop
    obtain ⟨b, rest, hb⟩ : ∃ b rest, s.byteIn = b :: rest :=
      List.exists_cons_of_ne_nil fun hin => by rw [if_pos hin] at hstop; cases hstop
    have hc : s.inCount ≠ counterMax := fun hc => by
      rw [hb, if_neg (List.cons_ne_nil _ _), if_pos hc] at hstop; cases hstop
    have htaken := takeCodeByte_decOk (s := { s with
      byteIn := rest, consumed := s.consumed ++ [b], inCount := s.inCount + 1 }) ⟨h.range, h.code⟩ hr b
    rw [renormTurns, normDec_of_lt_top hr, readByte_offered hb hc, renormalizedDec_of_lt_top hr (h.code.trans hr) hb]
    exact normDec_of_top_le htaken.range _
  · rw [renormTurns, normDec_of_top_le (Nat.not_lt.1 hr), renormalizedDec_of_top_le (Nat.not_lt.1 hr)]

theorem normThen_of_not_stopped {s : State} (h : DecSplit s) (hstop : inputStop s = none) (rest : DecRest)
    (k : State → Host.Outcome State Fault Refusal) : normThen rest k s = k (renormalizedDec s) := by
  rw [normThen_eq_finish, normDec_of_not_stopped h hstop]; rfl

theorem renormalizedDec_decOpen {s : State} (hl : Live s) (hm : s.mode = .dec) (h : DecSplit s)
    (hstop : inputStop s = none) : DecOpen (renormalizedDec s) := by
  have hpost := normDec_decOpen hl hm h
  rw [normDec_of_not_stopped h hstop] at hpost
  exact hpost

/-- What a NormDec's step may change (R207). -/
theorem renormalizedDec_rest (s : State) : renormalizedDec s = { s with
    byteIn := (renormalizedDec s).byteIn, consumed := (renormalizedDec s).consumed
    inCount := (renormalizedDec s).inCount, code := (renormalizedDec s).code
    range := (renormalizedDec s).range } := by
  unfold renormalizedDec
  split
  · split <;> rfl
  · rfl

@[simp] theorem renormalizedDec_eos (s : State) : (renormalizedDec s).eos = s.eos := by rw [renormalizedDec_rest]

@[simp] theorem renormalizedDec_prob (s : State) : (renormalizedDec s).prob = s.prob := by rw [renormalizedDec_rest]

@[simp] theorem renormalizedDec_probWords (s : State) : (renormalizedDec s).probWords = s.probWords := by
  rw [renormalizedDec_rest]

theorem decBitSplit_eos (a : Nat) (p : Prob) (s : State) : (decBitSplit a p s).eos = s.eos := by
  rw [decBitSplit, writeProb_eos, splitDec_eos]

/-- A word stays readable through a DecBit. -/
theorem Readable.decBit {x : Nat} {s : State} (h : Readable x s) (a : Nat) (p : Prob) :
    Readable x (renormalizedDec (decBitSplit a p s)) := by
  refine h.of_written (W := fun x => x = a) ?_ ?_
  · rw [renormalizedDec_probWords, decBitSplit, writeProb_probWords, splitDec_probWords]
  · rw [renormalizedDec_prob, decBitSplit, writeProb_prob, splitDec_prob]
    exact writtenAt_memWrite _ _ _

theorem DecWalk.stopped {base lo hi n m : Nat} {k : State → Host.Outcome State Fault Refusal}
    (hwalk : DecWalk base n m k) (hnodes : NodesWithin lo hi n m) {s : State} (h : DecOpen s)
    (hspan : ∀ x, base + lo ≤ x → x < base + hi → Readable x s) {why : InputStop} {u : State}
    (hstop : decWalkStop base n m s = some (why, u)) : why.Ends s.eos u (k s) := by
  induction hwalk generalizing s with
  | done m r => cases hstop
  | @node n m rest k _ ih =>
    obtain ⟨p, hword, hread⟩ :=
      (hspan (base + m) (Nat.add_le_add_left hnodes.low _) (Nat.add_lt_add_left hnodes.node _)).value
    obtain ⟨hl, hm, hsplit⟩ := h.split hread
    rw [decBitThen_of_readable hread, ← decBitSplit_eos (base + m) p s]
    rw [decWalkStop, decSplitResult_eq hword] at hstop
    cases hin : inputStop (decBitSplit (base + m) p s) with
    | some why' =>
      rw [hin] at hstop
      cases hstop
      exact normThen_of_stopped hin _ _
    | none =>
      rw [hin] at hstop
      rw [normThen_of_not_stopped hsplit hin, ← renormalizedDec_eos]
      exact ih _ (hnodes.child _) (renormalizedDec_decOpen hl hm hsplit hin)
        (fun x hlow hhigh => (hspan x hlow hhigh).decBit _ p) hstop

/-- How DEC_DIRECT ends, by the end of its bits. -/
def DirectsEnd.Ends (eos : Bool) (o : Host.Outcome State Fault Refusal) : DirectsEnd → Prop
  | .done _ u => ∃ r, o = completeWith r u
  | .corrupt u => o = .next (faultedWith 7 u.inCount u)
  | .stopped why u => why.Ends eos u o

theorem DirectsEnd.ends_push {eos : Bool} {o : Host.Outcome State Fault Refusal} (b : Bool) (e : DirectsEnd) :
    (e.push b).Ends eos o ↔ e.Ends eos o := by
  cases e <;> rfl

theorem decDirectLoop_ends_as {n : Nat} {r : U32} {s : State} (h : DecOpen s) :
    (decDirectsResult n s).Ends s.eos (decDirectLoop n r s) := by
  induction n generalizing r s with
  | zero => exact ⟨r, rfl⟩
  | succ n ih =>
    obtain ⟨hl, hm⟩ := h.halved_live
    have heos : (directHalved s).eos = s.eos := halveDec_eos _ s
    rw [decDirectsResult, decHalveResult_eq, ← heos]
    by_cases heq : (directHalved s).code = (directHalved s).range
    · rw [decDirectLoop_corrupt heq]
      simp only [if_pos heq]
      exact rfl
    · have hsplit := directHalved_decSplit h.coder heq
      rw [decDirectLoop_succ heq]
      simp only [if_neg heq]
      cases hin : inputStop (directHalved s) with
      | some why => exact normThen_of_stopped hin _ _
      | none =>
        rw [normThen_of_not_stopped hsplit hin, DirectsEnd.ends_push, ← renormalizedDec_eos]
        exact ih (renormalizedDec_decOpen hl hm hsplit hin)

/-! ### The four commands -/

section

variable {s u : State} {why : InputStop} (hinv : Inv s) (hacc : Accepts s) (hm : s.mode = .dec)
include hinv hacc hm

theorem Inv.decOpen : DecOpen s :=
  ⟨hinv.live hacc.1, hm, (hinv.streamOk hacc.1 hacc.2).2 hm⟩

theorem exec_decBit_stopped {a : AddrField} (hspan : SpanDefined a.toNat 1 s)
    (hstop : inputStop (decSplitResult a.toNat s).2 = some why) :
    why.Ends s.eos (decSplitResult a.toNat s).2 (exec (.decBit a) s) := by
  have hwalkStop : decWalkStop a.toNat 1 0 s = some (why, (decSplitResult a.toNat s).2) := by
    simp only [decWalkStop, Nat.add_zero, hstop]
  rw [exec_dec_runs (i := .decBit a) rfl hm (firstFailing_span hinv.memory hspan)]
  exact (decBit_walk a).stopped nodesWithin_context (hinv.decOpen hacc hm) (fun x => hspan.readable) hwalkStop

theorem exec_decTree_stopped {b : AddrField} {d : CountField} (h1 : 1 ≤ d.toNat) (h16 : d.toNat ≤ 16)
    (hspan : TreeDefined b d s) (hstop : decWalkStop b.toNat d.toNat 1 s = some (why, u)) :
    why.Ends s.eos u (exec (.decBt b d) s) ∧ why.Ends s.eos u (exec (.decRbt b d) s) := by
  have hopen := hinv.decOpen hacc hm
  have hchecks : ∀ w, firstFailing (checkOperand (depthInDomain d) w :: treeChecks b d s) = none := fun w => by
    rw [firstFailing_operand (depthInDomain_of_le h1 h16)]; exact firstFailing_span hinv.memory hspan
  have hread : ∀ x, b.toNat + 1 ≤ x → x < b.toNat + 2 ^ d.toNat → Readable x s := fun x hlow hhigh =>
    hspan.readable hlow (by omega)
  rw [exec_dec_runs (i := .decBt b d) rfl hm (hchecks _), exec_dec_runs (i := .decRbt b d) rfl hm (hchecks _)]
  exact ⟨(decTreeLoop_walk b _ _ 1).stopped (nodesWithin_tree _) hopen hread hstop,
    (decRevTreeLoop_walk b _ _ 1 0).stopped (nodesWithin_tree _) hopen hread hstop⟩

theorem exec_decDirect_ends_as {n : CountField} (hn : n.toNat ≤ 32) :
    (decDirectsResult n.toNat s).Ends s.eos (exec (.decDirect n) s) := by
  have hpass : firstFailing (codingChecks (.decDirect n) s) = none := firstFailing_operand (countInDomain_of_le hn) _ _
  rw [exec_dec_runs rfl hm hpass]
  exact decDirectLoop_ends_as (hinv.decOpen hacc hm)

end

/-- Settles O51: each NormDec before the one that is stopped takes its byte, and the stopped one changes nothing. -/
theorem decoderStopKeepsPartialState : Obligations.DecoderStopKeepsPartialState := by
  intro s hinv hacc hm
  refine ⟨fun a => exec_decBit_stopped hinv hacc hm, fun b d u => exec_decTree_stopped hinv hacc hm,
    fun n u hn hend => ?_, fun n u hn hend => ?_⟩
  · have h := exec_decDirect_ends_as hinv hacc hm hn
    rw [hend] at h
    exact h
  · have h := exec_decDirect_ends_as hinv hacc hm hn
    rw [hend] at h
    exact h

end Sys2Proof.Machine
end

section
/-! PROOFS. An encoder command that runs into a counter's end (`20_memory.md` R84, `41_range_coder.md` R205,
`60_exceptions.md` R343): every operation before it is through, and its bytes are sent. -/

namespace Sys2Proof.Machine

/-! ### The sink's room along a command -/

/-- From `s` to `t` some bytes are sent, and the sink's room shrinks by as many. -/
def SinkStep (s t : State) : Prop :=
  ∃ n, t.sent.length = s.sent.length + n ∧ t.sinkRoom = s.sinkRoom.map (fun room => room - n)

theorem SinkStep.of_ports {s t : State} (hsent : t.sent = s.sent) (hroom : t.sinkRoom = s.sinkRoom) : SinkStep s t :=
  ⟨0, by rw [hsent, Nat.add_zero], by simp [hroom]⟩

theorem SinkStep.refl (s : State) : SinkStep s s := .of_ports rfl rfl

theorem SinkStep.trans {s t u : State} (h : SinkStep s t) (k : SinkStep t u) : SinkStep s u := by
  obtain ⟨n, hsent, hroom⟩ := h
  obtain ⟨j, ksent, kroom⟩ := k
  refine ⟨n + j, by omega, ?_⟩
  rw [kroom, hroom, Option.map_map]
  congr 1
  funext room
  exact Nat.sub_sub room n j

/-- A sink with room for all that is sent has room for the first part of it, and then for the rest. -/
theorem SinkFits.split {s t u : State} (h : SinkFits s u) (hst : SinkStep s t) (htu : SinkStep t u) :
    SinkFits s t ∧ SinkFits t u := by
  obtain ⟨n, hsent, hroom⟩ := hst
  obtain ⟨j, ksent, -⟩ := htu
  refine ⟨fun room hr => ?_, fun room hr => ?_⟩
  · have := h room hr; omega
  · rw [hroom, Option.map_eq_some_iff] at hr
    obtain ⟨room₀, hr₀, rfl⟩ := hr
    have := h room₀ hr₀
    omega

theorem shiftedOut_sinkStep (s : State) : SinkStep s (shiftedOut s) := by
  by_cases hs : Sends s
  · rw [shiftedOut, if_pos hs]
    exact ⟨s.cacheSize.toNat, by simp, rfl⟩
  · rw [shiftedOut, if_neg hs]
    exact .of_ports rfl rfl

theorem shiftOverflow_sinkStep {s u : State} {c : U64} (h : shiftOverflow s = some (c, u)) : SinkStep s u := by
  simp only [shiftOverflow] at h
  split at h
  · split at h
    · cases h
    · cases h
      exact ⟨2 ^ 64 - 1 - s.outCount.toNat, by simp, rfl⟩
  · split at h
    · cases h; exact .refl _
    · cases h

theorem renormalizedEnc_of_lt_top {s : State} (h : s.range.toNat < top) :
    renormalizedEnc s = shiftedOut (rangeShifted s) := if_pos h

theorem renormalizedEnc_of_top_le {s : State} (h : top ≤ s.range.toNat) : renormalizedEnc s = s :=
  if_neg (Nat.not_lt.2 h)

theorem renormOverflow_of_lt_top {s : State} (h : s.range.toNat < top) :
    renormOverflow s = shiftOverflow (rangeShifted s) := if_pos h

theorem renormOverflow_of_top_le {s : State} (h : top ≤ s.range.toNat) : renormOverflow s = none :=
  if_neg (Nat.not_lt.2 h)

theorem renormalizedEnc_sinkStep (s : State) : SinkStep s (renormalizedEnc s) := by
  by_cases hr : s.range.toNat < top
  · rw [renormalizedEnc_of_lt_top hr]; exact shiftedOut_sinkStep (rangeShifted s)
  · rw [renormalizedEnc_of_top_le (Nat.not_lt.1 hr)]; exact .refl s

theorem renormOverflow_sinkStep {s u : State} {c : U64} (h : renormOverflow s = some (c, u)) : SinkStep s u := by
  by_cases hr : s.range.toNat < top
  · rw [renormOverflow_of_lt_top hr] at h; exact shiftOverflow_sinkStep (s := rangeShifted s) h
  · rw [renormOverflow_of_top_le (Nat.not_lt.1 hr)] at h; cases h

/-! ### A NormEnc -/

theorem rangeShifted_eq (s : State) : rangeShifted s = { s with range := s.range <<< 8 } := by
  have : BitVec.ofNat 32 (s.range.toNat * 2 ^ 8) = s.range <<< 8 := by
    apply BitVec.eq_of_toNat_eq
    rw [BitVec.toNat_ofNat, BitVec.toNat_shiftLeft, Nat.shiftLeft_eq]
  rw [rangeShifted, this]

theorem shiftedOut_range (s : State) : (shiftedOut s).range = s.range := by
  unfold shiftedOut; split <;> rfl

/-- A NormEnc with no counter at its end is one step of R206 (R245). -/
theorem normEnc_through {s : State} (h : EncSplit s) (hnone : renormOverflow s = none)
    (hsink : SinkFits s (renormalizedEnc s)) : normEnc renormTurns s = .ok () (renormalizedEnc s) := by
  by_cases hr : s.range.toNat < top
  · rw [renormOverflow_of_lt_top hr] at hnone
    rw [renormalizedEnc_of_lt_top hr] at hsink ⊢
    have hrange : top ≤ (shiftedOut (rangeShifted s)).range.toNat := by
      rw [shiftedOut_range, rangeShifted_eq]; exact (h.shiftReady hr).1.range
    rw [renormTurns, normEnc_of_lt_top hr, ← rangeShifted_eq, shiftLow_ready (s := rangeShifted s) h.owed hnone hsink]
    exact normEnc_of_top_le hrange _
  · rw [renormTurns, normEnc_of_top_le (Nat.not_lt.1 hr), renormalizedEnc_of_top_le (Nat.not_lt.1 hr)]

/-- A NormEnc that runs into a counter's end. -/
theorem normEnc_overflow {s u : State} {c : U64} (h : EncSplit s) (hover : renormOverflow s = some (c, u))
    (hsink : SinkFits s u) : normEnc renormTurns s = .raise .counterOverflow c u := by
  by_cases hr : s.range.toNat < top
  · rw [renormOverflow_of_lt_top hr] at hover
    rw [renormTurns, normEnc_of_lt_top hr, ← rangeShifted_eq,
      (shiftLowSendsPending (rangeShifted s) h.owed).2 c u hover hsink]
    rfl
  · rw [renormOverflow_of_top_le (Nat.not_lt.1 hr)] at hover; cases hover

/-! ### The operations of a coding command -/

/-- What an operation of a coding command leaves to its NormEnc. -/
def opSplit : EncOp → State → State
  | .modelBit a b, s => encSplitResult a b s
  | .directBit b, s => encHalveResult b s
  | _, s => s

/-- What the operations of a coding command run into, if anything. -/
def opsOverflow : List EncOp → State → Option (U64 × State)
  | [], _ => none
  | op :: ops, s =>
    match renormOverflow (opSplit op s) with
    | some stop => some stop
    | none => opsOverflow ops (renormalizedEnc (opSplit op s))

theorem opsOverflow_of_stop {op : EncOp} {s : State} {stop : U64 × State}
    (h : renormOverflow (opSplit op s) = some stop) (ops : List EncOp) : opsOverflow (op :: ops) s = some stop := by
  rw [opsOverflow, h]

theorem opsOverflow_of_through {op : EncOp} {s : State} (h : renormOverflow (opSplit op s) = none)
    (ops : List EncOp) : opsOverflow (op :: ops) s = opsOverflow ops (renormalizedEnc (opSplit op s)) := by
  rw [opsOverflow, h]

theorem encWalkOverflow_eq (base : Nat) (path : List (Nat × Bool)) (s : State) : encWalkOverflow base path s
    = opsOverflow (path.map fun e => .modelBit (base + e.1) e.2) s := by
  induction path generalizing s with
  | nil => rfl
  | cons e rest ih =>
    rw [encWalkOverflow, List.map_cons, opsOverflow, ← ih]; rfl

theorem encDirectsOverflow_eq (bits : List Bool) (s : State) :
    encDirectsOverflow bits s = opsOverflow (bits.map .directBit) s := by
  induction bits generalizing s with
  | nil => rfl
  | cons b rest ih =>
    rw [encDirectsOverflow, List.map_cons, opsOverflow, ← ih]; rfl

theorem opSplit_sinkStep (op : EncOp) (s : State) : SinkStep s (opSplit op s) := by
  cases op with
  | modelBit a b =>
    rw [opSplit]
    unfold encSplitResult
    split <;> exact .of_ports rfl rfl
  | directBit b => exact .of_ports rfl rfl
  | _ => exact .refl s

theorem opsOverflow_sinkStep {ops : List EncOp} {s u : State} {c : U64} (h : opsOverflow ops s = some (c, u)) :
    SinkStep s u := by
  induction ops generalizing s with
  | nil => cases h
  | cons op ops ih =>
    have hsplit := opSplit_sinkStep op s
    cases hover : renormOverflow (opSplit op s) with
    | some stop =>
      rw [opsOverflow_of_stop hover] at h
      cases h
      exact hsplit.trans (renormOverflow_sinkStep hover)
    | none =>
      rw [opsOverflow_of_through hover] at h
      exact hsplit.trans ((renormalizedEnc_sinkStep _).trans (ih h))

/-- A coding operation is its split or halving, and a NormEnc. -/
theorem EncOpen.runEncOp_eq {s : State} (h : EncOpen s) {op : EncOp} (hop : isCodingOp op = true)
    (hread : ∀ a, opWrites op a → Readable a s) :
    runEncOp op s = normEnc renormTurns (opSplit op s) ∧ EncSplit (opSplit op s) := by
  cases op with
  | modelBit a b =>
    obtain ⟨p, hword, hp⟩ := (hread a rfl).value
    rw [runEncOp_modelBit hp, opSplit, encSplitResult_eq hword]
    exact ⟨rfl, (h.split hp b).2.2⟩
  | directBit b =>
    rw [runEncOp, opSplit, encHalveResult_eq]
    exact ⟨rfl, halveEnc_encSplit h.coder b⟩
  | norm => exact ⟨rfl, h.coder.encSplit⟩
  | shift => cases hop
  | send _ => cases hop
  | close => cases hop

/-- The words that the operations code with are readable. -/
def OpsReadable (ops : List EncOp) (s : State) : Prop := ∀ op ∈ ops, ∀ a, opWrites op a → Readable a s

theorem OpsReadable.of_written {ops : List EncOp} {s t : State} (h : OpsReadable ops s) {W : Nat → Prop}
    (hwords : t.probWords = s.probWords) (hw : WrittenAt W s.prob t.prob) : OpsReadable ops t :=
  fun op hop a ha => (h op hop a ha).of_written hwords hw

/-- An operation that is through leaves an open stream, and the other operations' words readable. -/
theorem EncOpen.through {s t : State} (h : EncOpen s) {op : EncOp} (hop : isCodingOp op = true)
    (ht : runEncOp op s = .ok () t) {ops : List EncOp} (hread : OpsReadable ops s) :
    EncOpen t ∧ OpsReadable ops t := by
  have hopen := runEncOp_encOpen hop h
  have hwritten := runEncOp_writtenAt op s
  have hframe := runEncOp_frame op s
  rw [ht] at hopen hwritten hframe
  exact ⟨hopen, hread.of_written (by rw [EncFrame.rest hframe]) hwritten⟩

theorem runEnc_coding_overflow {ops : List EncOp} (hops : ops.all isCodingOp = true) {s u : State} {c : U64}
    (h : EncOpen s) (hread : OpsReadable ops s) (hover : opsOverflow ops s = some (c, u)) (hsink : SinkFits s u) :
    runEnc ops s = .next (faultedWith 8 c u) := by
  induction ops generalizing s with
  | nil => cases hover
  | cons op ops ih =>
    obtain ⟨hop, hops⟩ := by simpa using hops
    obtain ⟨hreadOp, hread⟩ := List.forall_mem_cons.1 hread
    obtain ⟨hrun, hsplit⟩ := h.runEncOp_eq hop hreadOp
    have hstep := opSplit_sinkStep op s
    rw [runEnc]
    cases hnorm : renormOverflow (opSplit op s) with
    | some stop =>
      rw [opsOverflow_of_stop hnorm] at hover
      cases hover
      have hfits := (hsink.split hstep (renormOverflow_sinkStep hnorm)).2
      rw [hrun, normEnc_overflow hsplit hnorm hfits]
      rfl
    | none =>
      rw [opsOverflow_of_through hnorm] at hover
      have hrest := opsOverflow_sinkStep hover
      have hfits := (hsink.split hstep ((renormalizedEnc_sinkStep _).trans hrest)).2
      obtain ⟨hfitsNorm, hfitsRest⟩ := hfits.split (renormalizedEnc_sinkStep _) hrest
      rw [normEnc_through hsplit hnorm hfitsNorm] at hrun
      obtain ⟨hopen, hread⟩ := h.through hop hrun hread
      rw [hrun]
      exact ih (by simpa using hops) hopen hread hover hfitsRest

/-! ### ENC_FLUSH -/

theorem shiftsOverflow_of_stop {s : State} {stop : U64 × State} (h : shiftOverflow s = some stop) (n : Nat) :
    shiftsOverflow (n + 1) s = some stop := by
  rw [shiftsOverflow, h]

theorem shiftsOverflow_of_through {s : State} (h : shiftOverflow s = none) (n : Nat) :
    shiftsOverflow (n + 1) s = shiftsOverflow n (shiftedOut s) := by
  rw [shiftsOverflow, h]

theorem shiftsOverflow_sinkStep {n : Nat} {s u : State} {c : U64} (h : shiftsOverflow n s = some (c, u)) :
    SinkStep s u := by
  induction n generalizing s with
  | zero => cases h
  | succ n ih =>
    cases hover : shiftOverflow s with
    | some stop =>
      rw [shiftsOverflow_of_stop hover] at h
      cases h
      exact shiftOverflow_sinkStep hover
    | none =>
      rw [shiftsOverflow_of_through hover] at h
      exact (shiftedOut_sinkStep s).trans (ih h)

theorem runEnc_shifts_overflow {n : Nat} {s u : State} {c : U64} (howed : 1 ≤ s.cacheSize.toNat)
    (hover : shiftsOverflow n s = some (c, u)) (hsink : SinkFits s u) (ops : List EncOp) :
    runEnc (List.replicate n .shift ++ ops) s = .next (faultedWith 8 c u) := by
  induction n generalizing s with
  | zero => cases hover
  | succ n ih =>
    obtain ⟨hthrough, hoverflow⟩ := shiftLowSendsPending s howed
    rw [List.replicate_succ, List.cons_append, runEnc, runEncOp]
    cases hshift : shiftOverflow s with
    | some stop =>
      rw [shiftsOverflow_of_stop hshift] at hover
      cases hover
      rw [hoverflow c u hshift hsink]
      rfl
    | none =>
      rw [shiftsOverflow_of_through hshift] at hover
      obtain ⟨hfits, hfitsRest⟩ := hsink.split (shiftedOut_sinkStep s) (shiftsOverflow_sinkStep hover)
      have hdone := shiftLow_post s
      rw [(hthrough hshift hfits).1] at hdone ⊢
      exact ih hdone.owed hover hfitsRest

/-! ### The commands -/

/-- A tree's walk names nodes of its span alone (`42_bit_tree.md` R260). -/
theorem treePath_within {lo hi m : Nat} {bits : List Bool} (h : NodesWithin lo hi bits.length m) :
    ∀ e ∈ treePath m bits, lo ≤ e.1 ∧ e.1 < hi := by
  induction bits generalizing m with
  | nil => exact fun e he => absurd he List.not_mem_nil
  | cons x xs ih =>
    refine List.forall_mem_cons.2 ⟨⟨h.low, h.node⟩, ih (h.child x)⟩

theorem treeOps_readable {b : AddrField} {d : CountField} {bits : List Bool} (hlen : bits.length = d.toNat)
    {s : State} (hspan : TreeDefined b d s) : OpsReadable (treeOps b bits) s := by
  intro op hop x hx
  obtain ⟨e, he, rfl⟩ := List.mem_map.1 hop
  obtain ⟨hlow, hhigh⟩ := treePath_within (nodesWithin_tree bits.length) e he
  rw [hlen] at hhigh
  rw [show x = b.toNat + e.1 from hx]
  exact hspan.readable (Nat.add_le_add_left hlow _) (by omega)

section

variable {s u : State} {c : U64} (hinv : Inv s) (hacc : Accepts s) (hm : s.mode = .enc) (hsink : SinkFits s u)
include hinv hacc hm

theorem Inv.encOpen : EncOpen s := ⟨hinv.live hacc.1, hm, (hinv.streamOk hacc.1 hacc.2).1 hm⟩

include hsink

theorem exec_coding_overflow {i : Instr} (hi : needsEnc i = true) (hflush : i ≠ .encFlush)
    (hpass : firstFailing (codingChecks i s) = none) (hread : OpsReadable (encOps i) s)
    (hover : opsOverflow (encOps i) s = some (c, u)) : exec i s = .next (faultedWith 8 c u) := by
  rw [exec_enc_runs hi hm hpass]
  exact runEnc_coding_overflow (encOps_coding hflush) (hinv.encOpen hacc hm) hread hover hsink

theorem exec_encBit_overflow {a : AddrField} {b : U32} (hb : b.toNat ≤ 1) (hspan : SpanDefined a.toNat 1 s)
    (hover : renormOverflow (encSplitResult a.toNat (decide (b = 1)) s) = some (c, u)) :
    exec (.encBit a b) s = .next (faultedWith 8 c u) := by
  have hbit : decide (b = 1) = bitOf b := by
    have : b = 0 ∨ b = 1 := by bv_omega
    rcases this with rfl | rfl <;> decide
  rw [hbit] at hover
  refine exec_coding_overflow (i := .encBit a b) hinv hacc hm hsink rfl (by simp) ?_ ?_ ?_
  · exact (firstFailing_operand (bitInDomain_of_le hb) _ _).trans (firstFailing_span hinv.memory hspan)
  · intro op hop x hx
    rw [List.mem_singleton.1 hop] at hx
    rw [show x = a.toNat from hx]
    exact hspan.readable le_rfl (Nat.lt_succ_self _)
  · exact opsOverflow_of_stop (op := .modelBit a.toNat (bitOf b)) hover []

theorem exec_encDirect_overflow {n : CountField} {v : U32} (hn : n.toNat ≤ 32) (hv : v.toNat < 2 ^ n.toNat)
    (hover : encDirectsOverflow (msbFirst n.toNat v) s = some (c, u)) :
    exec (.encDirect n v) s = .next (faultedWith 8 c u) := by
  refine exec_coding_overflow (i := .encDirect n v) hinv hacc hm hsink rfl (by simp) ?_ ?_ ?_
  · exact firstFailing_operand (by rw [countInDomain_of_le hn, valueInDomain_of_lt hv]; rfl) _ _
  · intro op hop x hx
    obtain ⟨b, -, rfl⟩ := List.mem_map.1 hop
    exact absurd hx id
  · rw [encDirectsOverflow_eq] at hover; exact hover

/-- Both trees: they differ in the order of the symbol's bits alone. -/
theorem exec_encTree_overflow {b : AddrField} {d : CountField} {v : U32} (h1 : 1 ≤ d.toNat) (h16 : d.toNat ≤ 16)
    (hv : v.toNat < 2 ^ d.toNat) (hspan : TreeDefined b d s) {bits : List Bool} (hlen : bits.length = d.toNat)
    (hover : encWalkOverflow b.toNat (treePath 1 bits) s = some (c, u)) {i : Instr} (hi : needsEnc i = true)
    (hflush : i ≠ .encFlush) (hops : encOps i = treeOps b bits) (hchecks : codingChecks i s =
      checkOperand (depthInDomain d && symbolInDomain d v) (encode i) :: treeChecks b d s) :
    exec i s = .next (faultedWith 8 c u) := by
  refine exec_coding_overflow hinv hacc hm hsink hi hflush ?_ ?_ ?_
  · rw [hchecks, firstFailing_operand (by rw [depthInDomain_of_le h1 h16, symbolInDomain_of_lt hv]; rfl)]
    exact firstFailing_span hinv.memory hspan
  · rw [hops]; exact treeOps_readable hlen hspan
  · rw [encWalkOverflow_eq] at hover; rw [hops]; exact hover

theorem exec_encFlush_overflow (hover : shiftsOverflow 5 s = some (c, u)) :
    exec .encFlush s = .next (faultedWith 8 c u) := by
  rw [exec_enc_runs (i := .encFlush) rfl hm rfl]
  exact runEnc_shifts_overflow (hinv.encOpen hacc hm).coder.owed hover hsink _

end

/-- Settles O52: the encoder's operations before the overflow are through, since the sink has room for their
bytes; the decoder's walk is stopped as by an empty port. -/
theorem counterOverflowKeepsPartialState : Obligations.CounterOverflowKeepsPartialState := by
  refine ⟨fun s c u hinv hacc hm hsink => ⟨?_, ?_, ?_, ?_⟩, fun s u hinv hacc hm => ⟨?_, ?_, ?_⟩⟩
  · exact fun a b => exec_encBit_overflow hinv hacc hm hsink
  · exact fun n v => exec_encDirect_overflow hinv hacc hm hsink
  · intro b d v h1 h16 hv hspan
    exact ⟨fun hover => exec_encTree_overflow hinv hacc hm hsink h1 h16 hv hspan (bits := msbFirst d.toNat v)
        (by simp [msbFirst]) hover rfl (by simp) rfl rfl,
      fun hover => exec_encTree_overflow hinv hacc hm hsink h1 h16 hv hspan (bits := lsbFirst d.toNat v)
        (by simp [lsbFirst]) hover rfl (by simp) rfl rfl⟩
  · exact exec_encFlush_overflow hinv hacc hm hsink
  · exact fun a => exec_decBit_stopped hinv hacc hm
  · intro n hn hend
    have h := exec_decDirect_ends_as hinv hacc hm hn
    rw [hend] at h
    exact h
  · exact fun b d => exec_decTree_stopped hinv hacc hm

end Sys2Proof.Machine
end

section
/-! PROOFS. Format C (`30_encoding.md` R120, R121, R125, R128): a word is its four fields, so the decoder and
the encoder are compared field by field. -/

namespace Sys2Proof

open Laws (opField_packWord)

/-! ### The fields of a word -/

theorem packWord_toNat (op : BitVec 6) (n : CountField) (a : AddrField) (v : U32) :
    (packWord op n a v).toNat = op.toNat * 2 ^ 58 + n.toNat * 2 ^ 52 + a.toNat * 2 ^ 32 + v.toNat := by
  simp only [packWord, BitVec.toNat_append]
  rw [← Nat.shiftLeft_add_eq_or_of_lt v.isLt, ← Nat.shiftLeft_add_eq_or_of_lt a.isLt,
    ← Nat.shiftLeft_add_eq_or_of_lt n.isLt]
  simp only [Nat.shiftLeft_eq]
  omega

@[simp] theorem countField_packWord (op : BitVec 6) (n : CountField) (a : AddrField) (v : U32) :
    countField (packWord op n a v) = n := by
  apply BitVec.eq_of_toNat_eq
  rw [countField, BitVec.extractLsb'_toNat, packWord_toNat, Nat.shiftRight_eq_div_pow]
  omega

@[simp] theorem addrField_packWord (op : BitVec 6) (n : CountField) (a : AddrField) (v : U32) :
    addrField (packWord op n a v) = a := by
  apply BitVec.eq_of_toNat_eq
  rw [addrField, BitVec.extractLsb'_toNat, packWord_toNat, Nat.shiftRight_eq_div_pow]
  omega

@[simp] theorem valField_packWord (op : BitVec 6) (n : CountField) (a : AddrField) (v : U32) :
    valField (packWord op n a v) = v := by
  apply BitVec.eq_of_toNat_eq
  rw [valField, BitVec.extractLsb'_toNat, packWord_toNat, Nat.shiftRight_eq_div_pow]
  omega

/-- A word is the four fields read from it. -/
theorem packWord_fields (w : Word) : packWord (opField w) (countField w) (addrField w) (valField w) = w := by
  apply BitVec.eq_of_toNat_eq
  simp only [packWord_toNat, opField, countField, addrField, valField, BitVec.extractLsb'_toNat,
    Nat.shiftRight_eq_div_pow]
  omega

/-- Settles O1: the fields are the digits of the sum. -/
theorem formatCFieldsAddUp : Obligations.FormatCFieldsAddUp := fun op n a v =>
  ⟨packWord_toNat op n a v, opField_packWord op n a v, countField_packWord op n a v,
    addrField_packWord op n a v, valField_packWord op n a v⟩

/-! ### Decoding -/

/-- The fields come back as they were put in, so the decoder takes the command's own row. -/
theorem decode_encode (i : Instr) : decode (encode i) = .command i := by
  cases i <;> simp [encode, decode, needZero, opField_packWord]

theorem needZero_eq_command {unused : Bool} {i j : Instr} (h : needZero unused i = .command j) :
    unused = true ∧ i = j := by
  cases unused <;> cases h
  exact ⟨rfl, rfl⟩

/-- The row's OP is `op`'s value, the fields it does not use are 0, and the others are the command's operands. -/
theorem encode_of_decode_packWord {op : BitVec 6} {n : CountField} {a : AddrField} {v : U32} {i : Instr}
    (h : decode (packWord op n a v) = .command i) : encode i = packWord op n a v := by
  simp only [decode, opField_packWord, countField_packWord, addrField_packWord, valField_packWord] at h
  split at h
  case h_20 => cases h
  all_goals
    rename_i hop
    obtain ⟨-, rfl⟩ := BitVec.toNat_eq_nat.1 hop
  case h_9 | h_10 | h_18 | h_19 => cases h; rfl
  all_goals
    obtain ⟨hzero, rfl⟩ := needZero_eq_command h
    simp only [Bool.and_eq_true, beq_iff_eq] at hzero
    simp only [hzero]
    rfl

theorem encode_of_decode {w : Word} {i : Instr} (h : decode w = .command i) : encode i = w := by
  rw [← packWord_fields w] at h ⊢
  exact encode_of_decode_packWord h

/-- Settles O2, command by command: the fields are read back, and those a command does not use are 0. -/
theorem encodeThenDecodeGivesCommand : Obligations.EncodeThenDecodeGivesCommand := decode_encode

/-- Settles O3, row by row of the decoder. -/
theorem decodeThenEncodeGivesWord : Obligations.DecodeThenEncodeGivesWord := fun _ _ => encode_of_decode

/-- Settles O5, by decoding the words. -/
theorem specExampleWordsDecode : Obligations.SpecExampleWordsDecode := by
  unfold Obligations.SpecExampleWordsDecode
  decide

end Sys2Proof
end

section
/-! PROOFS. The opcode table (`30_encoding.md` R125, R126, R128) by the fields of its rows. -/

namespace Sys2Proof

open Laws (opField_packWord)
open Machine (mnemonicOf opcodeRows)

theorem packWord_and (op op' : BitVec 6) (n n' : CountField) (a a' : AddrField) (v v' : U32) :
    packWord op n a v &&& packWord op' n' a' v' = packWord (op &&& op') (n &&& n') (a &&& a') (v &&& v') := by
  refine BitVec.and_append.trans ?_
  rw [BitVec.and_append, BitVec.and_append, packWord]

theorem packWord_inj {op op' : BitVec 6} {n n' : CountField} {a a' : AddrField} {v v' : U32} :
    packWord op n a v = packWord op' n' a' v' ↔ op = op' ∧ n = n' ∧ a = a' ∧ v = v' := by
  refine ⟨fun h => ⟨?_, ?_, ?_, ?_⟩, fun ⟨hop, hn, ha, hv⟩ => by rw [hop, hn, ha, hv]⟩
  · simpa only [opField_packWord] using congrArg opField h
  · simpa only [countField_packWord] using congrArg countField h
  · simpa only [addrField_packWord] using congrArg addrField h
  · simpa only [valField_packWord] using congrArg valField h

/-- A field's part of a row's mask: all of it where the field must be 0, none where it is an operand. -/
def fieldMask {k : Nat} (unused : Bool) : BitVec k := if unused then BitVec.allOnes k else 0

theorem and_fieldMask_eq_zero {k : Nat} {x : BitVec k} {unused : Bool} :
    x &&& fieldMask unused = 0 ↔ (unused = true → x = 0) := by
  cases unused <;> simp [fieldMask]

/-- A row of R125: the mnemonic, OP, and which of N, ADDR and VAL the command does not use. -/
structure OpcodeRow where
  mnemonic : String
  op : BitVec 6
  noCount : Bool
  noAddr : Bool
  noVal : Bool

def OpcodeRow.matchBits (r : OpcodeRow) : Word := packWord r.op 0 0 0

def OpcodeRow.mask (r : OpcodeRow) : Word :=
  packWord (BitVec.allOnes 6) (fieldMask r.noCount) (fieldMask r.noAddr) (fieldMask r.noVal)

/-- The word has the row's OP, and 0 in the fields the row does not use. -/
def OpcodeRow.Matches (r : OpcodeRow) (w : Word) : Prop :=
  opField w = r.op ∧ (r.noCount = true → countField w = 0) ∧ (r.noAddr = true → addrField w = 0)
    ∧ (r.noVal = true → valField w = 0)

theorem OpcodeRow.and_mask_eq_matchBits {r : OpcodeRow} {w : Word} :
    w &&& r.mask = r.matchBits ↔ r.Matches w := by
  rw [← packWord_fields w, mask, matchBits, packWord_and, packWord_inj, packWord_fields, Matches,
    BitVec.and_allOnes, and_fieldMask_eq_zero, and_fieldMask_eq_zero, and_fieldMask_eq_zero]

/-- R125's table, as R128 reads it. -/
def opcodeTable : List OpcodeRow :=
  [⟨"NOP", 0x00, true, true, true⟩,
   ⟨"ENC_INIT", 0x01, true, true, true⟩,
   ⟨"DEC_INIT", 0x02, true, true, true⟩,
   ⟨"PROB_INIT", 0x03, true, false, false⟩,
   ⟨"PROB_READ", 0x04, true, false, true⟩,
   ⟨"REG_READ", 0x05, true, false, true⟩,
   ⟨"ENC_BIT", 0x08, true, false, false⟩,
   ⟨"ENC_DIRECT", 0x09, false, true, false⟩,
   ⟨"ENC_BT", 0x0A, false, false, false⟩,
   ⟨"ENC_RBT", 0x0B, false, false, false⟩,
   ⟨"ENC_FLUSH", 0x0C, true, true, true⟩,
   ⟨"DEC_BIT", 0x10, true, false, true⟩,
   ⟨"DEC_DIRECT", 0x11, false, true, true⟩,
   ⟨"DEC_BT", 0x12, false, false, true⟩,
   ⟨"DEC_RBT", 0x13, false, false, true⟩,
   ⟨"PRICE_BIT", 0x18, true, false, false⟩,
   ⟨"PRICE_DIRECT", 0x19, false, true, true⟩,
   ⟨"PRICE_BT", 0x1A, false, false, false⟩,
   ⟨"PRICE_RBT", 0x1B, false, false, false⟩]

theorem opcodeRows_eq : opcodeRows = opcodeTable.map fun r => (r.mnemonic, r.matchBits, r.mask) := by decide

theorem find_mnemonicOf_matches (i : Instr) :
    ∃ r, opcodeTable.find? (fun r => r.mnemonic == mnemonicOf i) = some r ∧ r.Matches (encode i) := by
  cases i <;> refine ⟨_, rfl, ?_⟩ <;>
    simp [OpcodeRow.Matches, encode, opField_packWord]

theorem encode_matches_row (i : Instr) : ∃ r ∈ opcodeTable, r.mnemonic = mnemonicOf i ∧ r.Matches (encode i) := by
  obtain ⟨r, hfind, hmatches⟩ := find_mnemonicOf_matches i
  exact ⟨r, List.mem_of_find?_eq_some hfind, by simpa using List.find?_some hfind, hmatches⟩

theorem decode_of_matches (w : Word) :
    ∀ r ∈ opcodeTable, r.Matches w → ∃ i, decode w = .command i ∧ mnemonicOf i = r.mnemonic := by
  simp only [opcodeTable, List.forall_mem_cons]
  refine ⟨?_, ?_, ?_, ?_, ?_, ?_, ?_, ?_, ?_, ?_, ?_, ?_, ?_, ?_, ?_, ?_, ?_, ?_, ?_, fun r hr => nomatch hr⟩ <;>
    rintro ⟨hop, hcount, haddr, hval⟩ <;>
    simp [decode, needZero, mnemonicOf, hop, hcount, haddr, hval]

/-- Settles O4: a mask and a match are themselves words of four fields, so a word has a row's match bits under
its mask when its OP is the row's and the fields the row does not use are 0. -/
theorem decodeMatchesOpcodeTable : Obligations.DecodeMatchesOpcodeTable := by
  unfold Obligations.DecodeMatchesOpcodeTable
  simp only [opcodeRows_eq, List.mem_map, exists_exists_and_eq_and, forall_exists_index, and_imp,
    forall_apply_eq_imp_iff₂, OpcodeRow.and_mask_eq_matchBits]
  refine ⟨fun w i h => ?_, decode_of_matches⟩
  rw [← encode_of_decode h]
  exact encode_matches_row i

end Sys2Proof
end

section
/-! PROOFS. The checks of every command in one order (`60_exceptions.md` R342): the mode, the operands, the
addresses and their words; a check that a command does not make is one that passes. -/

namespace Sys2Proof.Machine

/-- WRONG_MODE, for a command that needs a MODE (`30_encoding.md` R125). -/
def modeCheck (i : Instr) (s : State) : Check :=
  if needsEnc i then checkMode .enc (encode i) s else if needsDec i then checkMode .dec (encode i) s else none

/-- PROB_ADDR_RANGE and UNINIT_PROB over the addresses a command names (R127, R341). -/
def spanChecks (i : Instr) (s : State) : List Check :=
  match namedSpan i with
  | none => []
  | some (a, n) => checkSpan a n s :: if readsSpan i then [checkDefined a n s] else []

/-- All checks of a command. -/
def commandChecks (i : Instr) (s : State) : List Check :=
  modeCheck i s :: checkOperand i.wellFormed (encode i) :: spanChecks i s

theorem firstFailing_skip_none (c : Check) (cs : List Check) :
    firstFailing (c :: none :: cs) = firstFailing (c :: cs) := by
  cases c <;> rfl

theorem regView_eq_none {sel : AddrField} (h : selectorInDomain sel = false) (s : State) : regView sel s = none := by
  have hsel : 11 < sel.toNat := by simpa [selectorInDomain] using h
  unfold regView
  split
  case h_13 => rfl
  all_goals omega

theorem exec_regRead_outside {sel : AddrField} (h : selectorInDomain sel = false) (s : State) :
    exec (.regRead sel) s = .next (enterFault .operandRange (encode (.regRead sel)) s) := by
  rw [exec, execRegRead, regView_eq_none h]
  rfl

/-- A command whose checks do not all pass ends with the first one's fault and has no other effect (R342). -/
theorem exec_of_failing {i : Instr} {s : State} {f : FaultCode} {info : U64}
    (h : firstFailing (commandChecks i s) = some (f, info)) : exec i s = .next (enterFault f info s) := by
  cases i with
  | nop | encInit | decInit => cases h
  | probInit a c => rw [exec, execProbInit]; exact afterChecks_fail h
  | probRead a => rw [exec, execProbRead]; exact afterChecks_fail h
  | regRead sel =>
    change firstFailing [checkOperand (selectorInDomain sel) (encode (.regRead sel))] = some (f, info) at h
    cases hsel : selectorInDomain sel <;> rw [hsel] at h <;> cases h
    exact exec_regRead_outside hsel s
  | encBit a b => exact afterChecks_fail h
  | encDirect n v => exact afterChecks_fail h
  | encBt b d v => exact afterChecks_fail h
  | encRbt b d v => exact afterChecks_fail h
  | encFlush => exact afterChecks_fail ((firstFailing_skip_none _ _).symm.trans h)
  | decBit a => exact afterChecks_fail ((firstFailing_skip_none _ _).symm.trans h)
  | decDirect n => exact afterChecks_fail h
  | decBt b d => exact afterChecks_fail h
  | decRbt b d => exact afterChecks_fail h
  | priceBit a x => exact afterChecks_fail h
  | priceDirect n => exact afterChecks_fail h
  | priceBt b d v => exact afterChecks_fail h
  | priceRbt b d v => exact afterChecks_fail h

theorem needsDec_of_needsEnc {i : Instr} (h : needsEnc i = true) : needsDec i = false := by
  cases i with
  | encBit | encDirect | encBt | encRbt | encFlush => rfl
  | _ => cases h

theorem modeCheck_pass {i : Instr} {s : State} (h : ModeFits i s) : modeCheck i s = none := by
  obtain ⟨henc, hdec⟩ := h
  unfold modeCheck
  split
  · exact checkMode_pass (henc ‹_›)
  · split
    · exact checkMode_pass (hdec ‹_›)
    · rfl

theorem modeCheck_fail {i : Instr} {s : State} (h : ¬ ModeFits i s) :
    modeCheck i s = some (.wrongMode, encode i) := by
  unfold modeCheck
  split
  · rename_i henc
    refine checkMode_fail fun hm => h ⟨fun _ => hm, fun hdec => ?_⟩
    rw [needsDec_of_needsEnc henc] at hdec
    cases hdec
  · rename_i henc
    split
    · exact checkMode_fail fun hm => h ⟨fun h' => absurd h' henc, fun _ => hm⟩
    · rename_i hdec
      exact absurd ⟨fun h' => absurd h' henc, fun h' => absurd h' hdec⟩ h

theorem firstFailing_wellFormed {i : Instr} {s : State} (hmode : ModeFits i s) (hwf : i.wellFormed = true) :
    firstFailing (commandChecks i s) = firstFailing (spanChecks i s) := by
  rw [commandChecks, modeCheck_pass hmode, hwf]
  rfl

/-- Settles O27: the checks before the failing one pass, and its fault is the whole effect. -/
theorem failingCheckIsWholeEffect : Obligations.FailingCheckIsWholeEffect := by
  refine fun i s => ⟨fun hmode => ?_, fun hmode hwf => ?_, fun a n hmode hwf hspan hout => ?_,
    fun a n x hmode hwf hspan hreads hin hmem hlow hhigh hgap hbelow => ?_⟩
  · refine exec_of_failing (f := .wrongMode) ?_
    rw [commandChecks, modeCheck_fail hmode]
    rfl
  · refine exec_of_failing (f := .operandRange) ?_
    rw [commandChecks, modeCheck_pass hmode, hwf]
    rfl
  · refine exec_of_failing (f := .probAddrRange) ((firstFailing_wellFormed hmode hwf).trans ?_)
    rw [spanChecks, hspan]
    simp only [checkSpan_fail hout, firstFailing_cons_some]
  · refine exec_of_failing (f := .uninitProb) ((firstFailing_wellFormed hmode hwf).trans ?_)
    rw [spanChecks, hspan]
    simp only [checkSpan_pass hin, hreads, checkDefined_fail hmem hlow hhigh hgap hbelow, if_true,
      firstFailing_cons_none, firstFailing_cons_some]

end Sys2Proof.Machine
end

section
/-! PROOFS. An encoder command that runs through (`41_range_coder.md` R206, R220): its operations one after the
other, each a split or a halving and one step of R245. -/

namespace Sys2Proof.Machine

/-- What the operations of a coding command leave when no counter ends. -/
def opsResult : List EncOp → State → State
  | [], s => s
  | op :: ops, s => opsResult ops (renormalizedEnc (opSplit op s))

theorem encDirectsResult_eq (bits : List Bool) (s : State) :
    encDirectsResult bits s = opsResult (bits.map .directBit) s := by
  induction bits generalizing s with
  | nil => rfl
  | cons b rest ih => exact ih (encDirectResult b s)

theorem opsResult_sinkStep (ops : List EncOp) (s : State) : SinkStep s (opsResult ops s) := by
  induction ops generalizing s with
  | nil => exact .refl s
  | cons op ops ih => exact (opSplit_sinkStep op s).trans ((renormalizedEnc_sinkStep _).trans (ih _))

theorem runEnc_coding_through {ops : List EncOp} (hops : ops.all isCodingOp = true) {s : State} (h : EncOpen s)
    (hread : OpsReadable ops s) (hnone : opsOverflow ops s = none) (hsink : SinkFits s (opsResult ops s)) :
    runEnc ops s = .next (completed (opsResult ops s)) := by
  induction ops generalizing s with
  | nil => rfl
  | cons op ops ih =>
    obtain ⟨hop, hops⟩ := by simpa using hops
    obtain ⟨hreadOp, hread⟩ := List.forall_mem_cons.1 hread
    obtain ⟨hrun, hsplit⟩ := h.runEncOp_eq hop hreadOp
    cases hnorm : renormOverflow (opSplit op s) with
    | some stop => rw [opsOverflow_of_stop hnorm] at hnone; cases hnone
    | none =>
      rw [opsOverflow_of_through hnorm] at hnone
      have hrest := opsResult_sinkStep ops (renormalizedEnc (opSplit op s))
      have hfits := (hsink.split (opSplit_sinkStep op s) ((renormalizedEnc_sinkStep _).trans hrest)).2
      obtain ⟨hfitsNorm, hfitsRest⟩ := hfits.split (renormalizedEnc_sinkStep _) hrest
      rw [normEnc_through hsplit hnorm hfitsNorm] at hrun
      obtain ⟨hopen, hread⟩ := h.through hop hrun hread
      rw [runEnc, hrun]
      exact ih (by simpa using hops) hopen hread hnone hfitsRest

theorem exec_coding_through {i : Instr} (hi : needsEnc i = true) (hflush : i ≠ .encFlush) {s : State} (hinv : Inv s)
    (hacc : Accepts s) (hm : s.mode = .enc) (hpass : firstFailing (codingChecks i s) = none)
    (hread : OpsReadable (encOps i) s) (hnone : opsOverflow (encOps i) s = none)
    (hsink : SinkFits s (opsResult (encOps i) s)) : exec i s = .next (completed (opsResult (encOps i) s)) := by
  rw [exec_enc_runs hi hm hpass]
  exact runEnc_coding_through (encOps_coding hflush) (hinv.encOpen hacc hm) hread hnone hsink

theorem directBits_readable (bits : List Bool) (s : State) : OpsReadable (bits.map .directBit) s := by
  intro op hop x hx
  obtain ⟨b, -, rfl⟩ := List.mem_map.1 hop
  exact absurd hx id

/-- Settles O43: the direct bits are operations that need no word of P, and run through one by one. -/
theorem encDirectCodesValue : Obligations.EncDirectCodesValue := by
  intro s n v hinv hacc hm hn hv bits hnone hsink
  rw [encDirectsOverflow_eq] at hnone
  rw [encDirectsResult_eq] at hsink ⊢
  have hpass : firstFailing (codingChecks (.encDirect n v) s) = none :=
    firstFailing_operand (by rw [countInDomain_of_le hn, valueInDomain_of_lt hv]; rfl) _ _
  exact exec_coding_through rfl (by simp) hinv hacc hm hpass (directBits_readable bits s) hnone hsink

end Sys2Proof.Machine
end

section
/-! PROOFS. The illegal words of an assigned OP (`30_encoding.md` R125, R128): those with something in a field the
command does not use. -/

namespace Sys2Proof

theorem needZero_eq_unusedField {unusedAreZero : Bool} {i : Instr} :
    needZero unusedAreZero i = .illegal .unusedField ↔ unusedAreZero = false := by
  cases unusedAreZero <;> simp [needZero]

/-- A word with a row's OP that is not the row's command is illegal by an unused field, row by row of R125. -/
theorem decode_of_not_matches (w : Word) :
    ∀ r ∈ opcodeTable, opField w = r.op → ¬ r.Matches w → decode w = .illegal .unusedField := by
  simp only [opcodeTable, List.forall_mem_cons]
  refine ⟨?_, ?_, ?_, ?_, ?_, ?_, ?_, ?_, ?_, ?_, ?_, ?_, ?_, ?_, ?_, ?_, ?_, ?_, ?_, fun r hr => nomatch hr⟩ <;>
    intro hop hno <;>
    simp_all [OpcodeRow.Matches, decode, needZero_eq_unusedField]

/-- A command without operands has one word. -/
theorem decode_of_ne_only_word {m : String} {op : BitVec 6} {w : Word}
    (hr : ⟨m, op, true, true, true⟩ ∈ opcodeTable) (hop : opField w = op) (hne : w ≠ packWord op 0 0 0) :
    decode w = .illegal .unusedField := by
  refine decode_of_not_matches w _ hr hop fun ⟨_, hcount, haddr, hval⟩ => hne ?_
  rw [← packWord_fields w, hop, hcount rfl, haddr rfl, hval rfl]

end Sys2Proof
end

section
/-! PROOFS. The results of NOP, ENC_INIT, PROB_INIT, PROB_READ and REG_READ (`40_control.md` R160 to R176). -/

namespace Sys2Proof.Machine

/-- Settles O36: the row has no operands, and the command's end is its whole effect. -/
theorem nopCompletesAlone : Obligations.NopCompletesAlone :=
  ⟨decode_encode .nop, fun _ => decode_of_ne_only_word (m := "NOP") (by simp [opcodeTable]), fun _ => rfl⟩

/-- Settles O37: the row has no operands, and the six registers are written on every path. -/
theorem encInitOpensStream : Obligations.EncInitOpensStream :=
  ⟨decode_encode .encInit, fun _ => decode_of_ne_only_word (m := "ENC_INIT") (by simp [opcodeTable]), fun _ => rfl⟩

theorem exec_probInit_within {s : State} {a : AddrField} {c : U32} (h : a.toNat + c.toNat ≤ s.probWords) :
    exec (.probInit a c) s
      = .next (completed { s with prob := memFill s.prob a.toNat c.toNat probInitValue }) := by
  rw [exec, execProbInit, checkSpan_pass h]
  rfl

/-- Settles O39: the run is filled where it lies in P, and its one check fails where it does not. -/
theorem probInitDefinesRun : Obligations.ProbInitDefinesRun := by
  refine ⟨fun w hop hcount => ?_, fun s a c => ⟨fun hin => ?_, fun hout => ?_⟩⟩
  · exact decode_of_not_matches w ⟨"PROB_INIT", 0x03, true, false, false⟩ (by simp [opcodeTable]) hop
      fun ⟨_, hzero, _⟩ => hcount (hzero rfl)
  · exact ⟨_, exec_probInit_within hin, rfl, fun x => memRead_memFill s.prob a.toNat c.toNat x probInitValue⟩
  · obtain ⟨-, -, hrange, -⟩ := failingCheckIsWholeEffect (.probInit a c) s
    exact hrange a.toNat c.toNat ⟨nofun, nofun⟩ rfl rfl hout

theorem Readable.spanDefined {s : State} {a : Nat} (h : Readable a s) : SpanDefined a 1 s :=
  ⟨h.1, fun x hlow hhigh => by rw [show x = a by omega]; exact h.2⟩

theorem exec_probRead_word {s : State} {a : AddrField} {p : Prob} (hwf : s.prob.wf) (ha : a.toNat < s.probWords)
    (hp : memRead s.prob a.toNat = some p) :
    exec (.probRead a) s = .next (completed { s with res := p.setWidth 32 }) := by
  have hdefined : Readable a.toNat s := ⟨ha, by rw [hp]; rfl⟩
  have hpass : firstFailing (contextChecks a s) = none := firstFailing_span hwf hdefined.spanDefined
  have hread : readProb a.toNat s = .ok p := readProb_ok.2 ⟨ha, hp⟩
  rw [exec, execProbRead, afterChecks_pass hpass, hread]
  rfl

/-- Settles O40: the word is returned where both checks pass; the first that fails is the whole effect. -/
theorem probReadReturnsWord : Obligations.ProbReadReturnsWord := by
  refine ⟨fun w hop hfields => ?_, fun s a => ⟨fun p ha hwf hp => ⟨?_, fun hinv => ?_⟩, fun hout => ?_,
    fun ha hwf hnone => ?_⟩⟩
  · exact decode_of_not_matches w ⟨"PROB_READ", 0x04, true, false, true⟩ (by simp [opcodeTable]) hop
      fun ⟨_, hcount, _, hval⟩ => hfields.elim (· (hcount rfl)) (· (hval rfl))
  · rw [exec_probRead_word hwf ha hp, BitVec.ofNat_toNat]
  · exact (hinv.probs _ (mem_of_memRead hp)).2
  · obtain ⟨-, -, hrange, -⟩ := failingCheckIsWholeEffect (.probRead a) s
    have hfault := hrange a.toNat 1 ⟨nofun, nofun⟩ rfl rfl (Nat.lt_succ_of_le hout)
    rwa [Nat.max_eq_left hout] at hfault
  · obtain ⟨-, -, -, hgap⟩ := failingCheckIsWholeEffect (.probRead a) s
    exact hgap a.toNat 1 a.toNat ⟨nofun, nofun⟩ rfl rfl rfl ha hwf le_rfl (Nat.lt_succ_self _) hnone
      fun y hlow hhigh => absurd hhigh (Nat.not_lt.2 hlow)

theorem exec_regRead_view {sel : AddrField} {s : State} {v : U32} (h : regView sel s = some v) :
    exec (.regRead sel) s = .next (completed { s with res := v }) := by
  rw [exec, execRegRead, h]
  rfl

theorem mode_view (m : Mode) :
    (modeBits m).setWidth 32 = (match m with | .idle => 0 | .enc => 1 | .dec => 2 : U32) := by
  cases m <;> rfl

theorem low_word_view {k : Nat} (x : BitVec k) : x.extractLsb' 0 32 = BitVec.ofNat 32 (x.toNat % 2 ^ 32) := by
  apply BitVec.eq_of_toNat_eq
  rw [BitVec.extractLsb'_toNat, BitVec.toNat_ofNat, Nat.mod_mod, Nat.shiftRight_zero]

theorem high_word_view {k : Nat} (x : BitVec k) : x.extractLsb' 32 32 = BitVec.ofNat 32 (x.toNat / 2 ^ 32) := by
  rw [← Nat.shiftRight_eq_div_pow]
  rfl

/-- LOW's bit 32, the carry. -/
theorem carry_view (low : BitVec 33) : (low.extractLsb' 32 1).setWidth 32 = BitVec.ofNat 32 (low.toNat / 2 ^ 32) := by
  have := low.isLt
  apply BitVec.eq_of_toNat_eq
  rw [BitVec.toNat_setWidth, BitVec.extractLsb'_toNat, Nat.shiftRight_eq_div_pow, BitVec.toNat_ofNat]
  omega

/-- Settles O41: each selector has its view, and those from 12 on have none. -/
theorem regReadReturnsView : Obligations.RegReadReturnsView := by
  refine ⟨fun w hop hfields => ?_,
    fun s => ⟨?_, ?_, ?_, ?_, ?_, ?_, ?_, ?_, ?_, ?_, ?_, ?_, fun sel hsel => ?_⟩⟩
  · exact decode_of_not_matches w ⟨"REG_READ", 0x05, true, false, true⟩ (by simp [opcodeTable]) hop
      fun ⟨_, hcount, _, hval⟩ => hfields.elim (· (hcount rfl)) (· (hval rfl))
  · exact exec_regRead_view (congrArg some (mode_view s.mode))
  · exact exec_regRead_view rfl
  · exact exec_regRead_view (congrArg some (low_word_view s.low))
  · exact exec_regRead_view (congrArg some (carry_view s.low))
  · exact exec_regRead_view (congrArg some (BitVec.ofNat_toNat 32 s.cache).symm)
  · exact exec_regRead_view (congrArg some (low_word_view s.cacheSize))
  · exact exec_regRead_view (congrArg some (high_word_view s.cacheSize))
  · exact exec_regRead_view rfl
  · exact exec_regRead_view (congrArg some (low_word_view s.outCount))
  · exact exec_regRead_view (congrArg some (high_word_view s.outCount))
  · exact exec_regRead_view (congrArg some (low_word_view s.inCount))
  · exact exec_regRead_view (congrArg some (high_word_view s.inCount))
  · exact exec_regRead_outside (decide_eq_false (Nat.not_le.2 hsel)) s

end Sys2Proof.Machine
end

section
/-! PROOFS. DEC_INIT's reading (`40_control.md` R165) byte by byte: the state after some of the start-up bytes as
arithmetic, and how the command ends where it has all five or is out of bytes. -/

namespace Sys2Proof.Machine

/-- The number that bytes spell, the first one highest. -/
def codeValue (bs : List Byte) : Nat := bs.foldl (fun c b => c * 2 ^ 8 + b.toNat) 0

/-- DEC_INIT in the middle of its reading, with `bs` read and `rest` still offered. -/
def decInitRead (bs rest : List Byte) (s : State) : State :=
  { s with
    mode := .dec, range := rangeInit, code := BitVec.ofNat 32 (codeValue bs)
    inCount := BitVec.ofNat 64 bs.length, byteIn := rest, consumed := s.consumed ++ bs }

theorem codeValue_append (bs : List Byte) (b : Byte) : codeValue (bs ++ [b]) = codeValue bs * 2 ^ 8 + b.toNat :=
  List.foldl_append

theorem pushed_ofNat (n : Nat) (b : Byte) :
    (BitVec.ofNat 32 n <<< 8) ||| b.setWidth 32 = BitVec.ofNat 32 (n * 2 ^ 8 + b.toNat) := by
  have hb := b.isLt
  have hshift : (BitVec.ofNat 32 n <<< 8).toNat = (n % 2 ^ 24) <<< 8 := by
    rw [BitVec.toNat_shiftLeft, BitVec.toNat_ofNat, Nat.shiftLeft_eq, Nat.shiftLeft_eq]
    omega
  apply BitVec.eq_of_toNat_eq
  rw [BitVec.toNat_or, hshift, BitVec.toNat_setWidth, Nat.mod_eq_of_lt (by omega : b.toNat < 2 ^ 32),
    ← Nat.shiftLeft_add_eq_or_of_lt hb, Nat.shiftLeft_eq, BitVec.toNat_ofNat]
  omega

theorem exec_decInit (s : State) : exec .decInit s = decInitFirst (decInitRead [] s.byteIn s) := by
  rw [decInitRead, List.append_nil]
  rfl

/-- One more start-up byte read. -/
theorem readByte_decInitRead {bs : List Byte} (hlen : bs.length < 5) (b : Byte) (rest : List Byte) (s : State) :
    ∃ u, readByte (decInitRead bs (b :: rest) s) = .ok b u ∧ pushCode b u = decInitRead (bs ++ [b]) rest s := by
  have hcount : BitVec.ofNat 64 bs.length ≠ counterMax := by
    rw [ne_counterMax, BitVec.toNat_ofNat]
    omega
  have hcounted : BitVec.ofNat 64 bs.length + 1 = BitVec.ofNat 64 (bs ++ [b]).length := by
    rw [List.length_append, BitVec.ofNat_add]
    rfl
  refine ⟨_, readByte_offered rfl hcount, ?_⟩
  simp only [pushCode, decInitRead, pushed_ofNat, codeValue_append, hcounted, List.append_assoc]

theorem exec_decInit_first {b : Byte} {rest : List Byte} {s : State} (hin : s.byteIn = b :: rest) :
    exec .decInit s = decInitRest decInitLaterBytes b (decInitRead [b] rest s) := by
  obtain ⟨u, hread, hpush⟩ := readByte_decInitRead (bs := []) (by decide) b rest s
  have hset : setCode b u = pushCode b u := by
    obtain ⟨_, -, -, rfl⟩ := readByte_ok hread
    simp [setCode, pushCode, decInitRead, codeValue]
  rw [exec_decInit, hin, decInitFirst_eq_finish, hread, Flow.finish, hset, hpush, List.nil_append]

/-- DEC_INIT's loop over bytes that are offered. -/
theorem decInitRest_decInitRead {bs cs : List Byte} (hlen : bs.length + cs.length ≤ 5) (left : Nat) (first : Byte)
    (rest : List Byte) (s : State) : decInitRest (left + cs.length) first (decInitRead bs (cs ++ rest) s)
      = decInitRest left first (decInitRead (bs ++ cs) rest s) := by
  induction cs generalizing bs with
  | nil => rw [List.append_nil]; rfl
  | cons c cs ih =>
    rw [List.length_cons] at hlen
    obtain ⟨u, hread, hpush⟩ := readByte_decInitRead (show bs.length < 5 by omega) c (cs ++ rest) s
    have hlater : (bs ++ [c]).length + cs.length ≤ 5 := by rw [List.length_append, List.length_singleton]; omega
    rw [List.length_cons, ← Nat.add_assoc, decInitRest_succ, List.cons_append, hread, Flow.finish, hpush, ih hlater,
      List.append_assoc, List.singleton_append]

/-- DEC_INIT with its first byte and some later ones offered. -/
theorem exec_decInit_offered {b : Byte} {cs rest : List Byte} {left : Nat} {s : State}
    (hin : s.byteIn = b :: (cs ++ rest)) (hleft : left + cs.length = decInitLaterBytes) :
    exec .decInit s = decInitRest left b (decInitRead (b :: cs) rest s) := by
  have hlen : [b].length + cs.length ≤ 5 := by
    unfold decInitLaterBytes at hleft
    rw [List.length_singleton]
    omega
  rw [exec_decInit_first hin, ← hleft, decInitRest_decInitRead hlen, List.singleton_append]

/-- DEC_INIT with fewer than five bytes offered takes them all and comes to a ReadByte that finds none. -/
theorem exec_decInit_out_of_bytes {s : State} (hlen : s.byteIn.length < 5) :
    ∃ w k, exec .decInit s = (readByte (decInitRead s.byteIn [] s)).finish w k := by
  cases hin : s.byteIn with
  | nil =>
    rw [exec_decInit, hin, decInitFirst_eq_finish]
    exact ⟨_, _, rfl⟩
  | cons b cs =>
    rw [hin, List.length_cons] at hlen
    have hleft : 3 - cs.length + 1 + cs.length = decInitLaterBytes := by unfold decInitLaterBytes; omega
    have hoffered : s.byteIn = b :: (cs ++ []) := by rw [hin, List.append_nil]
    rw [exec_decInit_offered hoffered hleft, decInitRest_succ]
    exact ⟨_, _, rfl⟩

theorem decInitEnd_complete {first : Byte} {s : State} (hfirst : first = 0) (hcode : s.code ≠ rangeInit) :
    decInitEnd first s = .next (completed s) :=
  if_neg (not_or.2 ⟨not_not.2 hfirst, hcode⟩)

theorem decInitEnd_corrupt {first : Byte} {s : State} (h : first ≠ 0 ∨ s.code = rangeInit) :
    decInitEnd first s = .next (faultedWith 7 s.inCount s) :=
  if_pos h

/-- The first byte is shifted out of CODE by the four later ones. -/
theorem ofNat_codeValue_five (b0 b1 b2 b3 b4 : Byte) : BitVec.ofNat 32 (codeValue [b0, b1, b2, b3, b4])
    = BitVec.ofNat 32 (b1.toNat * 2 ^ 24 + b2.toNat * 2 ^ 16 + b3.toNat * 2 ^ 8 + b4.toNat) := by
  apply BitVec.eq_of_toNat_eq
  simp only [codeValue, List.foldl_cons, List.foldl_nil, BitVec.toNat_ofNat]
  omega

/-- Settles O38: with five bytes the loop reads the last four of them, and with fewer it stops behind the last
one there is. -/
theorem decInitLoadsCode : Obligations.DecInitLoadsCode := by
  refine ⟨decode_encode .decInit, fun _ => decode_of_ne_only_word (m := "DEC_INIT") (by simp [opcodeTable]),
    fun s b0 b1 b2 b3 b4 rest hin => ?_, fun s hlen => ?_⟩
  · have hexec : exec .decInit s = decInitEnd b0 (decInitRead [b0, b1, b2, b3, b4] rest s) :=
      exec_decInit_offered (left := 0) hin rfl
    rw [← ofNat_codeValue_five b0]
    exact ⟨fun hfirst hcode => hexec.trans (decInitEnd_complete hfirst hcode),
      fun hcorrupt => hexec.trans (decInitEnd_corrupt hcorrupt)⟩
  · obtain ⟨w, k, hexec⟩ := exec_decInit_out_of_bytes hlen
    refine ⟨fun heos => ?_, fun heos => ⟨w, ?_⟩⟩
    · rw [hexec, readByte_of_ended (s := decInitRead s.byteIn [] s) rfl heos]
      rfl
    · rw [hexec, readByte_of_empty (s := decInitRead s.byteIn [] s) rfl heos]
      rfl

end Sys2Proof.Machine
end

section
/-! PROOFS. What the control and price commands leave unchanged (`40_control.md`, `43_price.md` R300), from how
each kind of command ends. -/

namespace Sys2Proof.Machine

/-- Settles O25: such a command is NOP or ends as one that observes does, with a result or a fault on the
untouched state. -/
theorem observerCommandFrame : Obligations.ObserverCommandFrame := by
  intro i s t henc hdec hencInit hdecInit hprobInit h
  cases exec_ends h with
  | nop => exact ⟨rfl, fun _ => rfl, .inl ⟨rfl, rfl, rfl⟩⟩
  | encInit => exact absurd rfl hencInit
  | decInit => exact absurd rfl hdecInit
  | probInit | probInitFault => exact absurd rfl (hprobInit _ _)
  | enc hi => exact absurd (henc.symm.trans hi) (by decide)
  | dec hi => exact absurd (hdec.symm.trans hi) (by decide)
  | obs hi hends =>
    have hnop : i ≠ .nop := by rintro rfl; cases hi
    rcases hends with ⟨r, rfl⟩ | ⟨c, info, rfl⟩
    · exact ⟨rfl, fun he => absurd he hnop, .inl ⟨rfl, rfl, rfl⟩⟩
    · exact ⟨rfl, fun he => absurd he hnop, .inr ⟨rfl, rfl⟩⟩

/-- DEC_INIT's reading and its end write nothing else (R165). -/
theorem DecInitEnds.keeps {s t : State} (h : DecInitEnds s t) :
    t = { s with range := t.range, code := t.code, inCount := t.inCount, prob := t.prob, byteIn := t.byteIn,
                 consumed := t.consumed, faulted := t.faulted, faultCode := t.faultCode,
                 faultInfo := t.faultInfo, wait := t.wait, csp := t.csp } := by
  obtain ⟨u, hu, hend⟩ := h
  have hrest := hu.rest
  rcases hend with rfl | ⟨c, info, rfl, -⟩ | ⟨w, rfl, -⟩
  · rw [hrest]
  · rw [hrest]; rfl
  · rw [hrest]

/-- Settles O26: each of the three commands ends in a state written field by field from the one it found. -/
theorem initCommandFrame : Obligations.InitCommandFrame := by
  refine ⟨fun s t h => ?_, fun s t h => ?_, fun a c s t h => ?_⟩
  · cases h; rfl
  · have hends := exec_decInit_ends h
    have hkeeps := hends.keeps
    rw [exec_decInit] at h
    have hprob : t.prob = s.prob := decInitFirst_prob (s := decInitRead [] s.byteIn s) h
    rw [hprob] at hkeeps
    rw [hends.mode]
    exact hkeeps
  · rcases exec_probInit_next h with ⟨-, rfl⟩ | ⟨-, rfl⟩ <;> rfl

end Sys2Proof.Machine
end

section
/-! PROOFS. No step of a state that meets the invariant stops in the model's own faults (log entries 6 to 8): each
operation that an open stream runs comes to a state, a wait or a fault of the block. -/

namespace Sys2Proof.Machine

/-- The step's outcome is a next state. -/
def Answers (o : Host.Outcome State Fault Refusal) : Prop := ∃ t, o = .next t

/-- The operation does not end in a stop of the model. -/
def Flow.Goes {α ω : Type} (f : Flow α ω) : Prop := ∀ e, f ≠ .stuck e

theorem Flow.goes_ok {α ω : Type} (a : α) (s : State) : (Flow.ok a s : Flow α ω).Goes := fun _ => nofun

theorem Flow.goes_raise {α ω : Type} (c : FaultCode) (info : U64) (s : State) :
    (Flow.raise c info s : Flow α ω).Goes := fun _ => nofun

theorem Flow.Goes.andThen {α β ω υ : Type} {f : Flow α ω} {behind : ω → υ} {next : α → State → Flow β υ}
    {P : α → State → Prop} {Q : ω → State → Prop} {R : State → Prop} (h : f.Goes) (hp : f.Post P Q R)
    (hnext : ∀ a t, P a t → (next a t).Goes) : (f.andThen behind next).Goes := by
  cases f with
  | ok a t => exact hnext a t hp
  | stall left t => exact fun _ => nofun
  | raise c info t => exact fun _ => nofun
  | stuck e => exact absurd rfl (h e)

/-! ### The operations -/

theorem shiftEnd_goes (s : State) : (shiftEnd s).Goes := by
  unfold shiftEnd
  split
  · exact Flow.goes_raise _ _ _
  · exact Flow.goes_ok _ _

theorem sendPending_goes (n : Nat) (temp : Byte) (s : State) : (sendPending n temp s).Goes := by
  induction n generalizing temp s with
  | zero => exact Flow.goes_ok _ _
  | succ n ih =>
    rw [sendPending_succ]
    exact Flow.Goes.andThen (writeByte_ne_stuck _ s) (writeByte_post _ s) fun _ t _ => ih _ _

/-- A ShiftLow that owes a byte does not count below 0 (R243). -/
theorem sendFrom_goes {s : State} (howed : 1 ≤ s.cacheSize.toNat) (temp : Byte) : (sendFrom temp s).Goes := by
  rw [sendFrom_of_owed (ne_zero_of_owed howed)]
  exact (sendPending_goes _ temp s).andThen (sendPending_post _ temp s le_rfl) fun _ t _ => shiftEnd_goes _

theorem shiftLow_goes {s : State} (howed : 1 ≤ s.cacheSize.toNat) : (shiftLow s).Goes := by
  unfold shiftLow
  split
  · exact sendFrom_goes howed _
  · exact shiftEnd_goes s

/-- NormEnc's loop ends after one turn (R245, R247). -/
theorem normEnc_goes {s : State} (hl : Live s) (hm : s.mode = .enc) (h : EncSplit s) :
    (normEnc renormTurns s).Goes := by
  by_cases hr : s.range.toNat < top
  · obtain ⟨hready, hroom⟩ := h.shiftReady hr
    rw [renormTurns, normEnc_of_lt_top hr]
    refine (shiftLow_goes hready.owed).andThen (shiftLow_encOpen ⟨hl, hm, hready⟩ hroom) fun _ t ht => ?_
    rw [normEnc_of_top_le ht.coder.range]
    exact Flow.goes_ok _ _
  · rw [renormTurns, normEnc_of_top_le (Nat.not_lt.1 hr)]
    exact Flow.goes_ok _ _

theorem runEncOp_goes {op : EncOp} (hop : isCodingOp op = true) {s : State} (h : EncOpen s) :
    (runEncOp op s).Goes := by
  cases op with
  | modelBit a b =>
    cases hp : readProb a s with
    | error e => rw [runEncOp_modelBit_unreadable hp]; exact Flow.goes_raise _ _ _
    | ok p =>
      obtain ⟨hl, hm, hsplit⟩ := h.split hp b
      rw [runEncOp_modelBit hp]
      exact normEnc_goes hl hm hsplit
  | directBit b =>
    have hl : Live (halveEnc b s) := by cases b <;> exact h.live
    exact normEnc_goes hl ((halveEnc_mode b s).trans h.mode) (halveEnc_encSplit h.coder b)
  | norm => exact normEnc_goes h.live h.mode h.coder.encSplit
  | shift => cases hop
  | send _ => cases hop
  | close => cases hop

/-- NormDec's loop ends after one turn (R245, R247). -/
theorem normDec_goes {s : State} (h : DecSplit s) : (normDec renormTurns s).Goes := by
  by_cases hr : s.range.toNat < top
  · rw [renormTurns, normDec_of_lt_top hr]
    refine Flow.Goes.andThen (readByte_ne_stuck s) (readByte_post s) fun b t ht => ?_
    have hrange : t.range = s.range := by rw [ht]
    have hcode : t.code = s.code := by rw [ht]
    rw [← hrange] at hr
    have hsplit : DecSplit t := ⟨by rw [hrange]; exact h.range, by rw [hrange, hcode]; exact h.code⟩
    rw [normDec_of_top_le (takeCodeByte_decOk hsplit hr b).range]
    exact Flow.goes_ok _ _
  · rw [renormTurns, normDec_of_top_le (Nat.not_lt.1 hr)]
    exact Flow.goes_ok _ _

/-! ### The encoder's commands -/

theorem runEnc_cons_answers {op : EncOp} {ops : List EncOp} {s : State} {P R : State → Prop}
    {Q : List EncOp → State → Prop} (hgoes : (runEncOp op s).Goes) (hp : (runEncOp op s).Post (fun _ => P) Q R)
    (hops : ∀ t, P t → Answers (runEnc ops t)) : Answers (runEnc (op :: ops) s) := by
  rw [runEnc]
  cases hr : runEncOp op s with
  | ok a t => rw [hr] at hp; exact hops t hp
  | stall left t => exact ⟨_, rfl⟩
  | raise c info t => exact ⟨_, rfl⟩
  | stuck e => exact absurd hr (hgoes e)

theorem runEnc_coding_answers {ops : List EncOp} (hops : ops.all isCodingOp = true) {s : State} (h : EncOpen s) :
    Answers (runEnc ops s) := by
  induction ops generalizing s with
  | nil => exact ⟨_, rfl⟩
  | cons op ops ih =>
    rw [List.all_cons, Bool.and_eq_true] at hops
    exact runEnc_cons_answers (runEncOp_goes hops.1 h) (runEncOp_encOpen hops.1 h) fun t ht => ih hops.2 ht

theorem runEnc_flush_answers (k : Nat) {s : State} (h : FlushOpen s) :
    Answers (runEnc (List.replicate k .shift ++ [.close]) s) := by
  induction k generalizing s with
  | zero => exact ⟨_, rfl⟩
  | succ k ih =>
    rw [List.replicate_succ, List.cons_append]
    exact runEnc_cons_answers (op := .shift) (shiftLow_goes h.ready.owed) (shiftLow_flushOpen h) fun t ht => ih ht

theorem runEnc_send_answers {temp : Byte} {rest : List EncOp} (hrest : EncRestOk rest) {s : State}
    (h : SendOpen s) : Answers (runEnc (.send temp :: rest) s) := by
  refine runEnc_cons_answers (op := .send temp) (sendFrom_goes h.ready.owed temp) (sendFrom_encOpen h)
    fun t ht => ?_
  rcases hrest with hcoding | ⟨k, -, rfl⟩
  · exact runEnc_coding_answers hcoding ht
  · exact runEnc_flush_answers k ht.flushOpen

/-! ### The decoder's commands -/

theorem finish_answers {α : Type} {f : Flow α Unit} {w : Wait} {k : α → State → Host.Outcome State Fault Refusal}
    {P : α → State → Prop} {Q : Unit → State → Prop} {R : State → Prop} (hgoes : f.Goes) (hp : f.Post P Q R)
    (hk : ∀ a t, P a t → Answers (k a t)) : Answers (f.finish w k) := by
  cases f with
  | ok a t => exact hk a t hp
  | stall _ t => exact ⟨_, rfl⟩
  | raise c info t => exact ⟨_, rfl⟩
  | stuck e => exact absurd rfl (hgoes e)

theorem normThen_answers {rest : DecRest} {k : State → Host.Outcome State Fault Refusal} {s : State} (hl : Live s)
    (hm : s.mode = .dec) (h : DecSplit s) (hk : ∀ t, DecOpen t → Answers (k t)) : Answers (normThen rest k s) := by
  rw [normThen_eq_finish]
  exact finish_answers (normDec_goes h) (normDec_decOpen hl hm h) fun _ t ht => hk t ht

theorem DecWalk.answers {base n m : Nat} {k : State → Host.Outcome State Fault Refusal} (hwalk : DecWalk base n m k)
    {s : State} (h : DecOpen s) : Answers (k s) := by
  induction hwalk generalizing s with
  | done m r => exact ⟨_, rfl⟩
  | @node n m rest k _ ih =>
    cases hp : readProb (base + m) s with
    | error e => rw [decBitThen_of_unreadable hp]; exact ⟨_, rfl⟩
    | ok p =>
      obtain ⟨hl, hm, hsplit⟩ := h.split hp
      rw [decBitThen_of_readable hp]
      exact normThen_answers hl hm hsplit fun t ht => ih _ ht

theorem decDirectLoop_answers {left : Nat} {r : U32} {s : State} (h : DecOpen s) :
    Answers (decDirectLoop left r s) := by
  induction left generalizing r s with
  | zero => exact ⟨_, rfl⟩
  | succ left ih =>
    by_cases heq : (directHalved s).code = (directHalved s).range
    · rw [decDirectLoop_corrupt heq]; exact ⟨_, rfl⟩
    · obtain ⟨hl, hm⟩ := h.halved_live
      rw [decDirectLoop_succ heq]
      exact normThen_answers hl hm (directHalved_decSplit h.coder heq) fun t ht => ih ht

theorem decContinue_answers (rest : DecRest) {s : State} (h : DecOpen s) : Answers (decContinue rest s) := by
  cases rest with
  | bit b => exact ⟨_, rfl⟩
  | direct left r => exact decDirectLoop_answers h
  | tree b d left m => exact (decTreeLoop_walk b d left m).answers h
  | revTree b d left m r => exact (decRevTreeLoop_walk b d left m r).answers h

theorem decRun_answers (i : Instr) {s : State} (h : DecOpen s) : Answers (decRun i s) := by
  cases i with
  | decBit a => exact (decBit_walk a).answers h
  | decDirect n => exact decDirectLoop_answers h
  | decBt b d => exact (decTreeLoop_walk b _ _ 1).answers h
  | decRbt b d => exact (decRevTreeLoop_walk b _ _ 1 0).answers h
  | _ => exact ⟨_, rfl⟩

theorem decInitRest_answers (left : Nat) (first : Byte) (s : State) : Answers (decInitRest left first s) := by
  induction left generalizing s with
  | zero => rw [decInitRest, decInitEnd]; split <;> exact ⟨_, rfl⟩
  | succ left ih =>
    rw [decInitRest_succ]
    exact finish_answers (readByte_ne_stuck s) (readByte_post s) fun b t _ => ih _

theorem decInitFirst_answers (s : State) : Answers (decInitFirst s) := by
  rw [decInitFirst_eq_finish]
  exact finish_answers (readByte_ne_stuck s) (readByte_post s) fun b t _ => decInitRest_answers _ b _

/-! ### The price commands -/

/-- A probability in [31, 2017] has its price in the ROM (R303). -/
theorem priceRom_of_prob {p : Prob} (hp : 31 ≤ p.toNat ∧ p.toNat ≤ 2017) (x : Bool) :
    ∃ v, priceRom (priceIndex p x) = some v := by
  refine Option.ne_none_iff_exists'.1 fun hnone => ?_
  rw [priceRom_none] at hnone
  cases x <;> simp only [priceIndex, if_true, Bool.false_eq_true, if_false] at hnone <;> omega

theorem pricePath_answers (base : Nat) (path : List (Nat × Bool)) (r : U32) {s : State} (h : Live s) :
    Answers (pricePath base path r s) := by
  induction path generalizing r with
  | nil => exact ⟨_, rfl⟩
  | cons e rest ih =>
    obtain ⟨m, x⟩ := e
    rw [pricePath]
    cases hp : readProb (base + m) s with
    | error e => exact ⟨_, rfl⟩
    | ok p =>
      obtain ⟨v, hv⟩ := priceRom_of_prob (h.prob_bounds hp) x
      simp only [hv]
      exact ih _

/-! ### The step -/

theorem afterChecks_answers {cs : List Check} {s : State} {run : State → Host.Outcome State Fault Refusal}
    (h : firstFailing cs = none → Answers (run s)) : Answers (afterChecks cs s run) := by
  cases hfail : firstFailing cs with
  | none => rw [afterChecks_pass hfail]; exact h hfail
  | some f => rw [afterChecks_fail hfail]; exact ⟨_, rfl⟩

theorem mode_of_checks_pass {m : Mode} {w : Word} {cs : List Check} {s : State}
    (h : firstFailing (checkMode m w s :: cs) = none) : s.mode = m := by
  by_contra hm
  rw [checkMode_fail hm] at h
  cases h

theorem exec_enc_answers {i : Instr} (hi : needsEnc i = true) {s : State} (hl : Live s) (hs : StreamOk s) :
    Answers (exec i s) := by
  rw [exec_enc hi]
  refine afterChecks_answers fun hpass => ?_
  have hm := mode_of_checks_pass hpass
  have hopen : EncOpen s := ⟨hl, hm, hs.1 hm⟩
  by_cases hflush : i = .encFlush
  · subst hflush; exact runEnc_flush_answers flushShifts hopen.flushOpen
  · exact runEnc_coding_answers (encOps_coding hflush) hopen

theorem exec_dec_answers {i : Instr} (hi : needsDec i = true) {s : State} (hl : Live s) (hs : StreamOk s) :
    Answers (exec i s) := by
  rw [exec_dec hi]
  refine afterChecks_answers fun hpass => ?_
  have hm := mode_of_checks_pass hpass
  exact decRun_answers i ⟨hl, hm, hs.2 hm⟩

theorem exec_answers (i : Instr) {s : State} (hl : Live s) (hs : StreamOk s) : Answers (exec i s) := by
  cases i with
  | nop | encInit => exact ⟨_, rfl⟩
  | decInit => exact decInitFirst_answers _
  | probInit a c =>
    rw [exec, execProbInit]
    exact afterChecks_answers fun _ => ⟨_, rfl⟩
  | probRead a =>
    rw [exec, execProbRead]
    refine afterChecks_answers fun _ => ?_
    cases readProb a.toNat s <;> exact ⟨_, rfl⟩
  | regRead sel =>
    rw [exec, execRegRead]
    cases regView sel s <;> exact ⟨_, rfl⟩
  | encBit | encDirect | encBt | encRbt | encFlush => exact exec_enc_answers rfl hl hs
  | decBit | decDirect | decBt | decRbt => exact exec_dec_answers rfl hl hs
  | priceDirect n => exact afterChecks_answers fun _ => ⟨_, rfl⟩
  | priceBit | priceBt | priceRbt => exact afterChecks_answers fun _ => pricePath_answers _ _ _ hl

theorem resume_answers {w : Wait} {s : State} (hl : Live s) (hw : WaitOk s w) : Answers (resume w s) := by
  match w, hw with
  | .enc (.send temp :: rest), hw =>
    obtain ⟨hm, hrange, howed, hsend, hlow, hrest⟩ := hw
    exact runEnc_send_answers hrest ⟨⟨hl, hm, hrange, hlow, howed⟩, hsend⟩
  | .decFirst, _ => exact decInitFirst_answers s
  | .decRest left first, _ => exact decInitRest_answers left first s
  | .decNorm rest, hw =>
    obtain ⟨hm, hrange, -, hcode⟩ := hw
    exact normThen_answers hl hm ⟨hrange, hcode⟩ fun t ht => decContinue_answers rest ht

theorem takeWord_answers (w : Word) {s : State} (h : Inv s) (hwait : s.wait = none) : Answers (takeWord w s) := by
  cases hf : s.faulted with
  | true => rw [takeWord_of_faulted hf]; exact ⟨_, rfl⟩
  | false =>
    rw [takeWord_of_not_faulted hf]
    cases hd : decode w with
    | command i => rw [runWord_of_command hd]; exact exec_answers i (h.live hf) (h.streamOk hf hwait)
    | illegal r => rw [runWord_of_illegal hd]; exact ⟨_, rfl⟩

/-- Settles O13: a step is a reset, a waiting command going on, nothing, or a word taken, and each of them answers
a next state. -/
theorem noStepGetsStuck : Obligations.NoStepGetsStuck := by
  intro s h
  cases hreset : s.resetIn with
  | true => exact ⟨_, step_of_reset hreset⟩
  | false =>
    cases hw : s.wait with
    | some w =>
      rw [step_of_waiting hreset hw]
      exact resume_answers (h.live (h.not_faulted_of_wait hw)) (h.waitOk hw)
    | none =>
      cases hcmd : s.cmdIn with
      | nil => exact ⟨_, step_of_nothing hreset hw hcmd⟩
      | cons w rest =>
        rw [step_of_presented hreset hw hcmd]
        have hport : Inv { s with cmdIn := rest } := h.of_ports rfl
        exact takeWord_answers w hport hw

end Sys2Proof.Machine
end

section
/-! PROOFS. The update, the bound and the renormalization (`41_range_coder.md` R203, R204, R206, R207, R245), for
every state in which they are stated. -/

namespace Sys2Proof.Machine

/-- The update stays within its 11 bits (R203). -/
theorem updateProb_toNat (p : Prob) (b : Bool) : (updateProb p b).toNat = adapted p.toNat b := by
  have hp := p.isLt
  have hlt : adapted p.toNat b < 2 ^ 11 := by
    cases b <;> simp only [adapted, if_true, Bool.false_eq_true, if_false] <;> omega
  rw [updateProb_eq_adapted, BitVec.toNat_ofNat, Nat.mod_eq_of_lt hlt]

/-- Settles O31: the shift by 5 is the division by 32 of the model's formulas. -/
theorem updateFollowsFormulaInRange : Obligations.UpdateFollowsFormulaInRange := fun p =>
  ⟨(updateProb_toNat p false).trans (by rw [Nat.shiftRight_eq_div_pow]; rfl),
    (updateProb_toNat p true).trans (by rw [Nat.shiftRight_eq_div_pow]; rfl),
    fun hlow hhigh => updateProb_bounds ⟨hlow, hhigh⟩⟩

/-- The bound cuts a RANGE of at least 2^24 in two parts, for every probability but 0 (R204). -/
theorem boundOf_inside {r : U32} {p : Prob} (hr : 2 ^ 24 ≤ r.toNat) (hp : 1 ≤ p.toNat) :
    0 < (boundOf r p).toNat ∧ (boundOf r p).toNat < r.toNat := by
  have hquot : 0 < r.toNat / 2 ^ 11 := by omega
  have hp' : p.toNat < 2 ^ 11 := p.isLt
  rw [boundOf_toNat]
  refine ⟨Nat.mul_pos hquot hp, ?_⟩
  calc r.toNat / 2 ^ 11 * p.toNat < r.toNat / 2 ^ 11 * 2 ^ 11 := Nat.mul_lt_mul_of_pos_left hp' hquot
    _ ≤ r.toNat := Nat.div_mul_le_self _ _

/-- Settles O32: the bound's product is exact, and both splits are written with it. -/
theorem splitDividesRange : Obligations.SplitDividesRange := by
  refine ⟨fun r p => ⟨?_, boundOf_inside⟩, fun p s => ⟨rfl, rfl, decide_eq_true_iff, rfl, rfl⟩⟩
  rw [boundOf_toNat, Nat.shiftRight_eq_div_pow]

/-! ### One turn of a renormalization loop -/

/-- A RANGE of at least 2^16 is at least 2^24 after one shift (R245). -/
theorem top_le_range_shift {r : U32} (h : 2 ^ 16 ≤ r.toNat) (hr : r.toNat < top) : top ≤ (r <<< 8).toNat := by
  rw [range_shift_toNat hr, top]
  omega

theorem normEnc_one_turn {s : State} (h : 2 ^ 16 ≤ s.range.toNat) (hr : s.range.toNat < top) :
    normEnc renormTurns s = (shiftLow { s with range := s.range <<< 8 }).andThen (· ++ [.norm])
      fun _ => .ok () := by
  rw [renormTurns, normEnc_of_lt_top hr]
  refine Flow.andThen_congr (shiftLow_post _) fun _ t ht => ?_
  exact normEnc_of_top_le (by rw [ht.range]; exact top_le_range_shift h hr) _

theorem normDec_one_turn {s : State} (h : 2 ^ 16 ≤ s.range.toNat) (hr : s.range.toNat < top) :
    normDec renormTurns s = (readByte s).andThen id fun b t => .ok () (takeCodeByte b t) := by
  rw [renormTurns, normDec_of_lt_top hr]
  refine Flow.andThen_congr (readByte_post s) fun b t ht => ?_
  have hrange : t.range = s.range := by rw [ht]
  exact normDec_of_top_le (by rw [takeCodeByte, hrange]; exact top_le_range_shift h hr) _

/-- Settles O34: the second test of either loop finds RANGE at 2^24 or above, whatever ShiftLow and ReadByte did. -/
theorem renormalizationIsOneStep : Obligations.RenormalizationIsOneStep := by
  intro s h
  by_cases hr : s.range.toNat < top
  · rw [if_pos (show s.range.toNat < 2 ^ 24 from hr), if_pos (show s.range.toNat < 2 ^ 24 from hr),
      normEnc_one_turn h hr, normDec_one_turn h hr]
    refine ⟨?_, ?_⟩
    · cases shiftLow { s with range := s.range <<< 8 } <;> rfl
    · cases readByte s <;> rfl
  · have hle := Nat.not_lt.1 hr
    rw [if_neg (show ¬ s.range.toNat < 2 ^ 24 from hr), if_neg (show ¬ s.range.toNat < 2 ^ 24 from hr)]
    exact ⟨normEnc_of_top_le hle _, normDec_of_top_le hle _⟩

end Sys2Proof.Machine
end

section
/-! PROOFS. The closed form of a renormalization keeps an open encoder stream (`41_range_coder.md` R242, R250). -/

namespace Sys2Proof.Machine

/-- ShiftLow's closed form, where no counter ends, does what a ShiftLow that is through does. -/
theorem shiftedOut_done {s : State} (hnone : shiftOverflow s = none) :
    ShiftDone (if sendsNow s then s.low.extractLsb' 24 8 else s.cache) s (shiftedOut s) := by
  have hlow : (BitVec.ofNat 33 (s.low.toNat % 2 ^ 24 * 2 ^ 8)).toNat = s.low.toNat % 2 ^ 24 * 2 ^ 8 := by
    rw [BitVec.toNat_ofNat]
    omega
  have hcounts := (shiftOverflow_none_iff.1 hnone).2
  by_cases hs : Sends s
  · rw [if_pos ((sendsNow_iff s).2 hs), shiftedOut, if_pos hs]
    refine ⟨rfl, rfl, hlow, BitVec.eq_of_toNat_eq ?_, le_rfl⟩
    rw [BitVec.extractLsb'_toNat, BitVec.toNat_ofNat, Nat.shiftRight_eq_div_pow]
  · rw [if_neg (mt (sendsNow_iff s).1 hs), shiftedOut, if_neg hs]
    refine ⟨rfl, rfl, hlow, rfl, ?_⟩
    show 1 ≤ (s.cacheSize + 1).toNat
    rw [toNat_add_one (hcounts hs)]
    omega

theorem renormalizedEnc_coderFrame {s : State} (hnone : renormOverflow s = none) :
    CoderFrame s (renormalizedEnc s) := by
  by_cases hr : s.range.toNat < top
  · rw [renormOverflow_of_lt_top hr] at hnone
    rw [renormalizedEnc_of_lt_top hr]
    exact CoderFrame.trans (t := rangeShifted s) rfl (shiftedOut_done hnone).frame
  · rw [renormalizedEnc_of_top_le (Nat.not_lt.1 hr)]
    exact rfl

/-- One step of R245 leaves an encoder stream between operations. -/
theorem EncSplit.renormalized {s : State} (h : EncSplit s) (hnone : renormOverflow s = none) :
    EncOk (renormalizedEnc s) := by
  by_cases hr : s.range.toNat < top
  · rw [renormOverflow_of_lt_top hr] at hnone
    rw [renormalizedEnc_of_lt_top hr]
    obtain ⟨hready, hroom⟩ := h.shiftReady hr
    rw [← rangeShifted_eq] at hready hroom
    have hdone := shiftedOut_done hnone
    by_cases hsend : sendsNow (rangeShifted s) = true
    · rw [if_pos hsend] at hdone; exact hdone.encOk_of_sends hready hsend
    · rw [if_neg hsend] at hdone; exact hdone.encOk_of_not_sends hready hsend hroom
  · rw [renormalizedEnc_of_top_le (Nat.not_lt.1 hr)]
    exact ⟨Nat.not_lt.1 hr, h.low, h.owed, h.carry⟩

/-- A carry has room in CACHE: with CACHE at 0xFF the whole interval is below 2^32 (R250). -/
theorem EncSplit.cache_le_of_carry {s : State} (h : EncSplit s) (hcarry : 2 ^ 32 ≤ s.low.toNat) :
    s.cache.toNat ≤ 0xFE := by
  by_contra hc
  have hlt := s.cache.isLt
  have hfull : s.cache = 0xFF := BitVec.eq_of_toNat_eq (show s.cache.toNat = 0xFF by omega)
  have htop := h.carry hfull
  have hrange := h.range
  omega

/-- Settles O35: a split or a halving stays within the interval, and one step of R245 carries its bounds on. -/
theorem carryNeverOverflowsCache : Obligations.CarryNeverOverflowsCache := by
  refine fun s h => ⟨h.encSplit.cache_le_of_carry, fun p b hlow hhigh =>
    (splitEnc_encSplit h ⟨hlow, hhigh⟩ b).cache_le_of_carry,
    fun b => (halveEnc_encSplit h b).cache_le_of_carry, fun a p b hp hlow hhigh hnone => ?_, fun b hnone => ?_⟩
  · have hsplit := splitEnc_encSplit h ⟨hlow, hhigh⟩ b
    refine EncSplit.renormalized ?_ hnone
    rw [encSplitResult_eq hp]
    exact ⟨hsplit.range, hsplit.low, hsplit.owed, hsplit.carry⟩
  · refine EncSplit.renormalized ?_ hnone
    rw [encHalveResult_eq]
    exact halveEnc_encSplit h b

end Sys2Proof.Machine
end

section
/-! PROOFS. ENC_BIT and the encoder's trees run through (`41_range_coder.md` R208, R210, `42_bit_tree.md` R265,
R275): EncBit at the one context, or at each node of the walk. -/

namespace Sys2Proof.Machine

/-- The operation that codes one entry of a walk of the tree at `base`. -/
def nodeOp (base : Nat) (e : Nat × Bool) : EncOp := .modelBit (base + e.1) e.2

theorem nodeOps_overflow_eq (base : Nat) (path : List (Nat × Bool)) (s : State) :
    encWalkOverflow base path s = opsOverflow (path.map (nodeOp base)) s := encWalkOverflow_eq base path s

theorem encWalkResult_eq (base : Nat) (path : List (Nat × Bool)) (s : State) :
    encWalkResult base path s = opsResult (path.map (nodeOp base)) s := by
  induction path generalizing s with
  | nil => rfl
  | cons e rest ih => exact ih _

/-- A bit operand stands for the bit that it equals (R122). -/
theorem decide_eq_bitOf {b : U32} (hb : b.toNat ≤ 1) : decide (b = 1) = bitOf b := by
  have hcases : b = 0 ∨ b = 1 := by bv_omega
  rcases hcases with rfl | rfl <;> decide

theorem encBit_checks_pass {s : State} (hwf : s.prob.wf) {a : AddrField} {b : U32} (hb : b.toNat ≤ 1)
    (hspan : SpanDefined a.toNat 1 s) : firstFailing (codingChecks (.encBit a b) s) = none :=
  (firstFailing_operand (bitInDomain_of_le hb) _ _).trans (firstFailing_span hwf hspan)

theorem symbol_checks_pass {s : State} (hwf : s.prob.wf) {b : AddrField} {d : CountField} {v : U32}
    (h1 : 1 ≤ d.toNat) (h16 : d.toNat ≤ 16) (hv : v.toNat < 2 ^ d.toNat) (hspan : TreeDefined b d s) (w : Word) :
    firstFailing (checkOperand (depthInDomain d && symbolInDomain d v) w :: treeChecks b d s) = none := by
  rw [firstFailing_operand (by rw [depthInDomain_of_le h1 h16, symbolInDomain_of_lt hv]; rfl)]
  exact firstFailing_span hwf hspan

@[simp] theorem msbFirst_length (n : Nat) (v : U32) : (msbFirst n v).length = n := by simp [msbFirst]

@[simp] theorem lsbFirst_length (n : Nat) (v : U32) : (lsbFirst n v).length = n := by simp [lsbFirst]

theorem context_readable {s : State} {a : AddrField} (hspan : SpanDefined a.toNat 1 s) (x : Bool) :
    OpsReadable [.modelBit a.toNat x] s := by
  intro op hop y hy
  rw [List.mem_singleton.1 hop] at hy
  rw [show y = a.toNat from hy]
  exact hspan.readable le_rfl (Nat.lt_succ_self _)

/-- Settles O42: ENC_BIT is one operation, at a readable word. -/
theorem encBitCodesOneBit : Obligations.EncBitCodesOneBit := by
  intro s a b hinv hacc hm hb hspan
  rw [decide_eq_bitOf hb]
  intro t hnone hsink
  exact exec_coding_through (i := .encBit a b) rfl (by simp) hinv hacc hm (encBit_checks_pass hinv.memory hb hspan)
    (context_readable hspan _) (opsOverflow_of_through (op := .modelBit _ _) hnone []) hsink

section

variable {s : State} (hinv : Inv s) (hacc : Accepts s) (hm : s.mode = .enc)
include hinv hacc hm

/-- Both trees: they differ in the order of the symbol's bits alone. -/
theorem exec_encTree_through {b : AddrField} {d : CountField} {v : U32} (h1 : 1 ≤ d.toNat) (h16 : d.toNat ≤ 16)
    (hv : v.toNat < 2 ^ d.toNat) (hspan : TreeDefined b d s) {bits : List Bool} (hlen : bits.length = d.toNat)
    (hnone : encWalkOverflow b.toNat (treePath 1 bits) s = none)
    (hsink : SinkFits s (encWalkResult b.toNat (treePath 1 bits) s)) {i : Instr} (hi : needsEnc i = true)
    (hflush : i ≠ .encFlush) (hops : encOps i = treeOps b bits) (hchecks : codingChecks i s =
      checkOperand (depthInDomain d && symbolInDomain d v) (encode i) :: treeChecks b d s) :
    exec i s = .next (completed (encWalkResult b.toNat (treePath 1 bits) s)) := by
  rw [nodeOps_overflow_eq] at hnone
  rw [encWalkResult_eq] at hsink ⊢
  have hpass : firstFailing (codingChecks i s) = none := by
    rw [hchecks]; exact symbol_checks_pass hinv.memory h1 h16 hv hspan _
  have hthrough := exec_coding_through hi hflush hinv hacc hm hpass
  rw [hops] at hthrough
  exact hthrough (treeOps_readable hlen hspan) hnone hsink

end

/-- Settles O44: ENC_BT's operations are those of the forward walk. -/
theorem encBtWalksForwardTree : Obligations.EncBtWalksForwardTree := by
  intro s b d v hinv hacc hm h1 h16 hv hspan path hnone hsink
  exact exec_encTree_through hinv hacc hm h1 h16 hv hspan (msbFirst_length _ v) hnone hsink (i := .encBt b d v) rfl
    (by simp) rfl rfl

/-- Settles O45: ENC_RBT's operations are those of the reverse walk. -/
theorem encRbtWalksReverseTree : Obligations.EncRbtWalksReverseTree := by
  intro s b d v hinv hacc hm h1 h16 hv hspan path hnone hsink
  exact exec_encTree_through hinv hacc hm h1 h16 hv hspan (lsbFirst_length _ v) hnone hsink (i := .encRbt b d v) rfl
    (by simp) rfl rfl

end Sys2Proof.Machine
end

section
/-! PROOFS. The operations of a coding command in their closed form, one after the other: each leaves an open
encoder stream, and the words of the later ones readable. -/

namespace Sys2Proof.Machine

theorem opsOverflow_cons_none {op : EncOp} {ops : List EncOp} {s : State} :
    opsOverflow (op :: ops) s = none ↔ renormOverflow (opSplit op s) = none
      ∧ opsOverflow ops (renormalizedEnc (opSplit op s)) = none := by
  cases hnorm : renormOverflow (opSplit op s) with
  | some stop => simp [opsOverflow_of_stop hnorm]
  | none => simp [opsOverflow_of_through hnorm]

/-- What a split or a halving may change. -/
theorem opSplit_rest (op : EncOp) (s : State) : opSplit op s = { s with
    range := (opSplit op s).range, low := (opSplit op s).low, prob := (opSplit op s).prob } := by
  cases op with
  | modelBit a b =>
    rw [opSplit]
    unfold encSplitResult
    split <;> rfl
  | _ => rfl

theorem opSplit_writtenAt (op : EncOp) (s : State) : WrittenAt (opWrites op) s.prob (opSplit op s).prob := by
  cases op with
  | modelBit a b =>
    rw [opSplit]
    unfold encSplitResult
    split
    · exact .refl
    · exact writtenAt_memWrite _ _ _
  | _ => exact .refl

/-- An operation with its step of R245. -/
def opStep (op : EncOp) (s : State) : State := renormalizedEnc (opSplit op s)

theorem opStep_rest {op : EncOp} {s : State} (hnorm : renormOverflow (opSplit op s) = none) : opStep op s = { s with
    range := (opStep op s).range, low := (opStep op s).low, cache := (opStep op s).cache
    cacheSize := (opStep op s).cacheSize, outCount := (opStep op s).outCount, sent := (opStep op s).sent
    sinkRoom := (opStep op s).sinkRoom, prob := (opSplit op s).prob } := by
  have hframe : CoderFrame (opSplit op s) (opStep op s) := renormalizedEnc_coderFrame hnorm
  rw [CoderFrame, opSplit_rest op s] at hframe
  exact hframe

theorem EncOpen.opStep {s : State} (h : EncOpen s) {op : EncOp} (hop : isCodingOp op = true)
    (hread : ∀ a, opWrites op a → Readable a s) (hnorm : renormOverflow (opSplit op s) = none) :
    EncOpen (Machine.opStep op s) := by
  have hsplit : Live (opSplit op s) ∧ EncSplit (opSplit op s) := by
    cases op with
    | modelBit a b =>
      obtain ⟨p, hword, hp⟩ := (hread a rfl).value
      rw [opSplit, encSplitResult_eq hword]
      exact ⟨(h.split hp b).1, (h.split hp b).2.2⟩
    | directBit b =>
      rw [opSplit, encHalveResult_eq]
      exact ⟨by cases b <;> exact h.live, halveEnc_encSplit h.coder b⟩
    | norm => exact ⟨h.live, h.coder.encSplit⟩
    | shift | send | close => cases hop
  refine ⟨hsplit.1.of_coderFrame (renormalizedEnc_coderFrame hnorm), ?_, hsplit.2.renormalized hnorm⟩
  rw [opStep_rest hnorm]
  exact h.mode

theorem OpsReadable.opStep {ops : List EncOp} {s : State} (h : OpsReadable ops s) {op : EncOp}
    (hnorm : renormOverflow (opSplit op s) = none) : OpsReadable ops (Machine.opStep op s) := by
  refine h.of_written (W := opWrites op) ?_ ?_ <;> rw [opStep_rest hnorm]
  exact opSplit_writtenAt op s

end Sys2Proof.Machine
end

section
/-! PROOFS. A tree as a sequence of ENC_BIT commands (`42_bit_tree.md` R265). The commands count CSP between the
operations, and no operation reads it. -/

namespace Sys2Proof.Machine

/-- The state with this CSP. -/
def withCsp (n : Nat) (s : State) : State := { s with csp := n }

theorem shiftedOut_withCsp (n : Nat) (s : State) : shiftedOut (withCsp n s) = withCsp n (shiftedOut s) := by
  by_cases hs : Sends s
  · rw [shiftedOut, shiftedOut, if_pos (show Sends (withCsp n s) from hs), if_pos hs]; rfl
  · rw [shiftedOut, shiftedOut, if_neg (show ¬ Sends (withCsp n s) from hs), if_neg hs]; rfl

theorem renormalizedEnc_withCsp (n : Nat) (s : State) :
    renormalizedEnc (withCsp n s) = withCsp n (renormalizedEnc s) := by
  by_cases hr : s.range.toNat < top
  · rw [renormalizedEnc_of_lt_top hr, renormalizedEnc_of_lt_top (s := withCsp n s) hr]
    exact shiftedOut_withCsp n (rangeShifted s)
  · rw [renormalizedEnc_of_top_le (Nat.not_lt.1 hr), renormalizedEnc_of_top_le (s := withCsp n s) (Nat.not_lt.1 hr)]

theorem renormOverflow_withCsp {n : Nat} {s : State} :
    renormOverflow (withCsp n s) = none ↔ renormOverflow s = none := by
  by_cases hr : s.range.toNat < top
  · rw [renormOverflow_of_lt_top hr, renormOverflow_of_lt_top (s := withCsp n s) hr, shiftOverflow_none_iff,
      shiftOverflow_none_iff]
    exact Iff.rfl
  · rw [renormOverflow_of_top_le (Nat.not_lt.1 hr), renormOverflow_of_top_le (s := withCsp n s) (Nat.not_lt.1 hr)]

theorem opSplit_withCsp (op : EncOp) (n : Nat) (s : State) : opSplit op (withCsp n s) = withCsp n (opSplit op s) := by
  cases op with
  | modelBit a b =>
    cases hp : memRead s.prob a with
    | none =>
      simp only [opSplit, encSplitResult, show memRead (withCsp n s).prob a = none from hp, hp]
    | some p =>
      simp only [opSplit, encSplitResult, show memRead (withCsp n s).prob a = some p from hp, hp]
      rfl
  | directBit b => rfl
  | _ => rfl

theorem opsResult_withCsp (ops : List EncOp) (n : Nat) (s : State) :
    opsResult ops (withCsp n s) = withCsp n (opsResult ops s) := by
  induction ops generalizing s with
  | nil => rfl
  | cons op ops ih => rw [opsResult, opSplit_withCsp, renormalizedEnc_withCsp, ih]; rfl

theorem opsOverflow_withCsp {ops : List EncOp} {n : Nat} {s : State} :
    opsOverflow ops (withCsp n s) = none ↔ opsOverflow ops s = none := by
  induction ops generalizing s with
  | nil => exact Iff.rfl
  | cons op ops ih =>
    rw [opsOverflow_cons_none, opsOverflow_cons_none, opSplit_withCsp, renormOverflow_withCsp,
      renormalizedEnc_withCsp, ih]

theorem completed_eq_withCsp {s : State} (h : s.wait = none) : completed s = withCsp (s.csp + 1) s := by
  rw [completed, withCsp, ← h]

/-- One more command that completes, in a sequence. -/
theorem runAll_cons {i : Instr} {s t : State} (h : exec i s = .next t) (hacc : Accepts t) (is : List Instr) :
    runAll (i :: is) s = runAll is t := by
  rw [runAll, h]
  exact if_pos hacc

/-- The ENC_BIT command that codes one entry of a walk. -/
def encBitAt (base : Nat) (e : Nat × Bool) : Instr := .encBit (BitVec.ofNat 20 (base + e.1)) (if e.2 then 1 else 0)

theorem bitOf_ite (x : Bool) : bitOf (if x then 1 else 0) = x := by cases x <;> rfl

theorem node_toNat {base : Nat} {e : Nat × Bool} (h : base + e.1 < 2 ^ 20) :
    (BitVec.ofNat 20 (base + e.1)).toNat = base + e.1 := by
  rw [BitVec.toNat_ofNat, Nat.mod_eq_of_lt h]

/-- Its operation is the walk's, where the node's address has 20 bits. -/
theorem encOps_encBitAt {base : Nat} {e : Nat × Bool} (h : base + e.1 < 2 ^ 20) :
    encOps (encBitAt base e) = [nodeOp base e] := by
  have hops : encOps (encBitAt base e)
      = [.modelBit (BitVec.ofNat 20 (base + e.1)).toNat (bitOf (if e.2 then 1 else 0))] := rfl
  rw [hops, node_toNat h, bitOf_ite, nodeOp]

theorem encBitAt_checks_pass {s : State} (hwf : s.prob.wf) {base : Nat} {e : Nat × Bool} (h : base + e.1 < 2 ^ 20)
    (hread : Readable (base + e.1) s) : firstFailing (codingChecks (encBitAt base e) s) = none := by
  refine encBit_checks_pass hwf (by cases e.2 <;> simp) ?_
  rw [node_toNat h]
  exact hread.spanDefined

/-- One ENC_BIT of a walk leaves what the walk's operation leaves, and CSP one further. -/
theorem exec_encBitAt {base : Nat} {e : Nat × Bool} {s : State} (hinv : Inv s) (hacc : Accepts s)
    (hm : s.mode = .enc) (hread : ∀ a, opWrites (nodeOp base e) a → Readable a s)
    (hnorm : renormOverflow (opSplit (nodeOp base e) s) = none) (hsink : SinkFits s (opStep (nodeOp base e) s)) :
    exec (encBitAt base e) s = .next (withCsp (s.csp + 1) (opStep (nodeOp base e) s)) := by
  have hnode : Readable (base + e.1) s := hread _ rfl
  have haddr : base + e.1 < 2 ^ 20 := hnode.1.trans_le hinv.words.2
  have hthrough := exec_coding_through (i := encBitAt base e) rfl (by simp [encBitAt]) hinv hacc hm
    (encBitAt_checks_pass hinv.memory haddr hnode)
  rw [encOps_encBitAt haddr] at hthrough
  have hwait : (opStep (nodeOp base e) s).wait = none := by rw [opStep_rest hnorm]; exact hacc.2
  have hcsp : (opStep (nodeOp base e) s).csp = s.csp := by rw [opStep_rest hnorm]
  rw [← hcsp, ← completed_eq_withCsp hwait]
  exact hthrough (List.forall_mem_singleton.2 hread) (opsOverflow_of_through hnorm []) hsink

/-- The commands of a walk run through one by one, and leave what the walk's operations leave, CSP counted. -/
theorem runAll_encBitAt {base : Nat} {path : List (Nat × Bool)} {s : State} (hinv : Inv s) (hacc : Accepts s)
    (hm : s.mode = .enc) (hread : OpsReadable (path.map (nodeOp base)) s)
    (hnone : opsOverflow (path.map (nodeOp base)) s = none)
    (hsink : SinkFits s (opsResult (path.map (nodeOp base)) s)) :
    ∃ n t, runAll (path.map (encBitAt base)) s = some t ∧ t.wait = none
      ∧ t = withCsp n (opsResult (path.map (nodeOp base)) s) := by
  induction path generalizing s with
  | nil => exact ⟨s.csp, s, rfl, hacc.2, rfl⟩
  | cons e rest ih =>
    rw [List.map_cons] at hread hnone hsink
    obtain ⟨hreadOp, hread⟩ := List.forall_mem_cons.1 hread
    obtain ⟨hnorm, hnone⟩ := opsOverflow_cons_none.1 hnone
    obtain ⟨hfits, hfitsRest⟩ := hsink.split ((opSplit_sinkStep _ s).trans (renormalizedEnc_sinkStep _))
      (opsResult_sinkStep (rest.map (nodeOp base)) _)
    have hexec := exec_encBitAt hinv hacc hm hreadOp hnorm hfits
    have hopen := (hinv.encOpen hacc hm).opStep rfl hreadOp hnorm
    have hacc' : Accepts (withCsp (s.csp + 1) (opStep (nodeOp base e) s)) :=
      ⟨hopen.live.2.1, by rw [opStep_rest hnorm]; exact hacc.2⟩
    have hinv' := exec_inv (hinv.live hacc.1) (hinv.streamOk hacc.1 hacc.2) hexec
    rw [List.map_cons, runAll_cons hexec hacc']
    obtain ⟨n, t, hrun, hwait, ht⟩ := ih hinv' hacc' hopen.mode (OpsReadable.opStep hread hnorm)
      (opsOverflow_withCsp.2 hnone) (by rw [opsResult_withCsp]; exact hfitsRest)
    refine ⟨n, t, hrun, hwait, ?_⟩
    rw [ht, opsResult_withCsp]
    rfl

/-- Settles O59: the commands leave the walk's result, and ENC_BT leaves it too. -/
theorem treeCodesAsSequenceOfBits : Obligations.TreeCodesAsSequenceOfBits := by
  intro s b d v hinv hacc hm h1 h16 hv hspan path hnone hsink
  have hexec := encBtWalksForwardTree s b d v hinv hacc hm h1 h16 hv hspan hnone hsink
  have hread : OpsReadable (treeOps b (msbFirst d.toNat v)) s := 
    treeOps_readable (msbFirst_length _ v) hspan
  rw [nodeOps_overflow_eq] at hnone
  rw [encWalkResult_eq] at hsink hexec
  obtain ⟨n, t, hrun, hwait, ht⟩ := runAll_encBitAt hinv hacc hm hread hnone hsink
  have hcsp : (completed (opsResult (treeOps b (msbFirst d.toNat v)) s)).csp = s.csp + 1 :=
    (exec_cspOnce hexec).elim And.right fun h => absurd h.1 (by simp [completed])
  refine ⟨t, hrun, hexec.trans ?_⟩
  rw [completed_eq_withCsp (by rw [ht] at hwait; exact hwait)] at hcsp ⊢
  rw [ht, ← hcsp]
  rfl

end Sys2Proof.Machine
end

section
/-! PROOFS. What the coding commands leave unchanged (`41_range_coder.md` R210 to R230, `42_bit_tree.md` R265 to
R280), from how an encoder's and a decoder's command ends. -/

namespace Sys2Proof.Machine

theorem faultBits_of_ne_illegal {c : FaultCode} (h : c ≠ .illegalCommand) :
    2 ≤ (faultBits c).toNat ∧ (faultBits c).toNat ≤ 8 := by
  cases c with
  | illegalCommand => exact absurd rfl h
  | _ => decide

/-- The fault registers at a coding command's end: as they were, or with a fault that a command that ran raised. -/
def FaultRegsAfter (s t : State) : Prop :=
  (t.faulted = s.faulted ∧ t.faultCode = s.faultCode ∧ t.faultInfo = s.faultInfo)
    ∨ (t.faulted = true ∧ 2 ≤ t.faultCode.toNat ∧ t.faultCode.toNat ≤ 8)

/-- What an encoder's command may change from `s` to `t`, whatever its end. -/
theorem EncEnds.keeps {s t : State} (h : EncEnds s t) : t = { s with
    mode := t.mode, range := t.range, low := t.low, cache := t.cache, cacheSize := t.cacheSize
    outCount := t.outCount, sent := t.sent, sinkRoom := t.sinkRoom, prob := t.prob, faulted := t.faulted
    faultCode := t.faultCode, faultInfo := t.faultInfo, wait := t.wait, csp := t.csp } := by
  obtain ⟨u, hu, hend⟩ := h
  rcases hend with rfl | ⟨c, info, rfl, -⟩ | ⟨left, rfl⟩
  · rw [hu.rest]
  · rw [hu.rest]; rfl
  · rw [hu.rest]

theorem EncEnds.faultRegs {s t : State} (h : EncEnds s t) : FaultRegsAfter s t := by
  obtain ⟨u, hu, hend⟩ := h
  rcases hend with rfl | ⟨c, info, rfl, hc⟩ | ⟨left, rfl⟩
  · rw [hu.rest]; exact .inl ⟨rfl, rfl, rfl⟩
  · exact .inr ⟨rfl, faultBits_of_ne_illegal hc⟩
  · rw [hu.rest]; exact .inl ⟨rfl, rfl, rfl⟩

/-- What a decoder's command may change from `s` to `t`, whatever its end. -/
theorem DecEnds.keeps {s t : State} (h : DecEnds s t) : t = { s with
    range := t.range, code := t.code, inCount := t.inCount, res := t.res, byteIn := t.byteIn
    consumed := t.consumed, prob := t.prob, faulted := t.faulted, faultCode := t.faultCode
    faultInfo := t.faultInfo, wait := t.wait, csp := t.csp } := by
  obtain ⟨u, hu, hend⟩ := h
  rcases hend with ⟨r, rfl⟩ | ⟨c, info, rfl, -⟩ | ⟨w, rfl, -⟩
  · rw [hu.rest]
  · rw [hu.rest]; rfl
  · rw [hu.rest]

theorem DecEnds.faultRegs {s t : State} (h : DecEnds s t) : FaultRegsAfter s t := by
  obtain ⟨u, hu, hend⟩ := h
  rcases hend with ⟨r, rfl⟩ | ⟨c, info, rfl, hc⟩ | ⟨w, rfl, -⟩
  · rw [hu.rest]; exact .inl ⟨rfl, rfl, rfl⟩
  · exact .inr ⟨rfl, faultBits_of_ne_illegal hc⟩
  · rw [hu.rest]; exact .inl ⟨rfl, rfl, rfl⟩

/-- A coding command that names no word of P leaves P as it is. -/
theorem prob_of_mayWriteProb_nowhere {i : Instr} (hi : ∀ a c, i ≠ .probInit a c) (hno : ∀ x, ¬ mayWriteProb i x)
    {s t : State} (h : exec i s = .next t) : t.prob = s.prob :=
  (exec_writtenAt hi h).eq_of_nowhere hno

/-! ### ENC_FLUSH and RANGE -/

/-- An operation with RANGE as it was, in every outcome. -/
def KeepsRange (s : State) (f : Flow Unit (List EncOp)) : Prop :=
  f.Post (fun _ t => t.range = s.range) (fun _ t => t.range = s.range) (fun t => t.range = s.range)

theorem SendFrame.range {s t : State} (h : SendFrame s t) : t.range = s.range := by rw [h]

theorem shiftEnd_keepsRange (s : State) : KeepsRange s (shiftEnd s) := by
  unfold shiftEnd
  split <;> exact rfl

theorem sendFrom_keepsRange (temp : Byte) (s : State) : KeepsRange s (sendFrom temp s) := by
  by_cases h0 : s.cacheSize = 0
  · rw [sendFrom, if_pos h0]; trivial
  · rw [sendFrom_of_owed h0]
    refine (sendPending_post _ temp s le_rfl).andThen (fun _ t ht => ?_) (fun _ t ht => ht.frame.range)
      (fun t ht => ht.range)
    exact (shiftEnd_keepsRange _).imp (fun _ _ hu => hu.trans ht.range) (fun _ _ hu => hu.trans ht.range)
      (fun _ hu => hu.trans ht.range)

theorem shiftLow_keepsRange (s : State) : KeepsRange s (shiftLow s) := by
  unfold shiftLow
  split
  · exact sendFrom_keepsRange _ s
  · exact shiftEnd_keepsRange s

theorem runEnc_flush_range {k : Nat} {s t : State} (h : runEnc (List.replicate k .shift ++ [.close]) s = .next t) :
    t.range = s.range := by
  induction k generalizing s with
  | zero => cases h; rfl
  | succ k ih =>
    refine runEnc_cons_next (op := .shift) (P := fun u => u.range = s.range) (shiftLow_keepsRange s) h
      (fun u hu hrun => (ih hrun).trans hu) ?_ ?_
    · rintro left u hu rfl; exact hu
    · rintro c info u hu rfl; exact hu

theorem exec_flush_range {s t : State} (h : exec .encFlush s = .next t) : t.range = s.range := by
  rw [exec_enc rfl] at h
  rcases afterChecks_mode_next h with ⟨c, info, rfl⟩ | ⟨-, -, hrun⟩
  · rfl
  · exact runEnc_flush_range (k := flushShifts) hrun

/-! ### The two frames -/

/-- Settles O23: an encoder's command ends as `EncEnds` says; ENC_FLUSH's ShiftLows keep RANGE, and neither it nor
ENC_DIRECT writes P. -/
theorem encoderCommandFrame : Obligations.EncoderCommandFrame := by
  intro i s t hi h
  have hends := exec_enc_ends hi h
  have hkeeps := hends.keeps
  refine ⟨by rw [hkeeps], by rw [hkeeps], by rw [hkeeps], by rw [hkeeps], by rw [hkeeps], by rw [hkeeps],
    by rw [hkeeps], by rw [hkeeps], by rw [hkeeps], ?_, ?_, hends.faultRegs⟩
  · rintro rfl; exact exec_flush_range h
  · rintro (⟨n, v, rfl⟩ | rfl)
    · exact prob_of_mayWriteProb_nowhere (i := .encDirect n v) (by simp) (fun _ => id) h
    · exact prob_of_mayWriteProb_nowhere (i := .encFlush) (by simp) (fun _ => id) h

/-- Settles O24: a decoder's command ends as `DecEnds` says, and DEC_DIRECT writes no word of P. -/
theorem decoderCommandFrame : Obligations.DecoderCommandFrame := by
  intro i s t hi h
  have hends := exec_dec_ends hi h
  have hkeeps := hends.keeps
  refine ⟨by rw [hkeeps], by rw [hkeeps], by rw [hkeeps], by rw [hkeeps], by rw [hkeeps], by rw [hkeeps],
    by rw [hkeeps], by rw [hkeeps], by rw [hkeeps], by rw [hkeeps], by rw [hkeeps], ?_, hends.faultRegs⟩
  rintro ⟨n, rfl⟩
  exact prob_of_mayWriteProb_nowhere (i := .decDirect n) (by simp) (fun _ => id) h

end Sys2Proof.Machine
end

section
/-! PROOFS. The decoder's commands run through (`41_range_coder.md` R209, R215, R225, `42_bit_tree.md` R270, R280),
each with its value as a function of the bits it decoded. -/

namespace Sys2Proof.Machine

/-! ### A walk and its value -/

/-- The run `k` decodes `n` bits along a walk from node `m` of the tree at `base`, and completes with the value `f`
of the bits. -/
inductive DecWalkValue (base : Nat) :
    Nat → Nat → (List Bool → U32) → (State → Host.Outcome State Fault Refusal) → Prop
  | done (m : Nat) (f : List Bool → U32) : DecWalkValue base 0 m f (completeWith (f []))
  | node {n m : Nat} {f : List Bool → U32} {rest : Bool → DecRest}
      {k : Bool → State → Host.Outcome State Fault Refusal}
      (h : ∀ x : Bool, DecWalkValue base n (2 * m + x.toNat) (fun bits => f (x :: bits)) (k x)) :
      DecWalkValue base (n + 1) m f (decBitThen (base + m) rest k)

theorem decWalkResult_succ (base n m : Nat) (s : State) : decWalkResult base (n + 1) m s
    = ((decBitResult (base + m) s).1 ::
        (decWalkResult base n (2 * m + (decBitResult (base + m) s).1.toNat) (decBitResult (base + m) s).2).1,
      (decWalkResult base n (2 * m + (decBitResult (base + m) s).1.toNat) (decBitResult (base + m) s).2).2) := rfl

theorem decWalkStop_eq_none {base n m : Nat} {s : State} : decWalkStop base (n + 1) m s = none
    ↔ inputStop (decSplitResult (base + m) s).2 = none
      ∧ decWalkStop base n (2 * m + (decBitResult (base + m) s).1.toNat) (decBitResult (base + m) s).2 = none := by
  rw [decWalkStop]
  cases hin : inputStop (decSplitResult (base + m) s).2 with
  | some why => simp
  | none => simp [decBitResult]

theorem decWalkResult_length (base n m : Nat) (s : State) : (decWalkResult base n m s).1.length = n := by
  induction n generalizing m s with
  | zero => rfl
  | succ n ih => rw [decWalkResult_succ, List.length_cons, ih]

/-- A walk none of whose NormDecs is stopped comes to its end. -/
theorem DecWalkValue.through {base lo hi n m : Nat} {f : List Bool → U32}
    {k : State → Host.Outcome State Fault Refusal} (hwalk : DecWalkValue base n m f k)
    (hnodes : NodesWithin lo hi n m) {s : State} (h : DecOpen s)
    (hspan : ∀ x, base + lo ≤ x → x < base + hi → Readable x s) (hstop : decWalkStop base n m s = none) :
    k s = completeWith (f (decWalkResult base n m s).1) (decWalkResult base n m s).2 := by
  induction hwalk generalizing s with
  | done m f => rfl
  | @node n m f rest k _ ih =>
    obtain ⟨p, hword, hread⟩ :=
      (hspan (base + m) (Nat.add_le_add_left hnodes.low _) (Nat.add_lt_add_left hnodes.node _)).value
    obtain ⟨hl, hm, hsplit⟩ := h.split hread
    obtain ⟨hin, hstop⟩ := decWalkStop_eq_none.1 hstop
    rw [decWalkResult_succ]
    simp only [decBitResult, decSplitResult_eq hword] at hin hstop ⊢
    rw [decBitThen_of_readable hread, normThen_of_not_stopped hsplit hin]
    exact ih _ (hnodes.child _) (renormalizedDec_decOpen hl hm hsplit hin)
      (fun x hlow hhigh => (hspan x hlow hhigh).decBit _ p) hstop

/-! ### The values -/

/-- The value of bits behind those of a number, the first one most significant. -/
def valueMsbFrom (v : Nat) (bits : List Bool) : Nat := bits.foldl (fun v b => 2 * v + b.toNat) v

theorem valueMsbFrom_eq (v : Nat) (bits : List Bool) : valueMsbFrom v bits = v * 2 ^ bits.length + valueMsb bits := by
  induction bits generalizing v with
  | nil => simp [valueMsbFrom, valueMsb]
  | cons b rest ih =>
    have hcons : ∀ u, valueMsbFrom u (b :: rest) = valueMsbFrom (2 * u + b.toNat) rest := fun _ => rfl
    have hvalue : valueMsb (b :: rest) = valueMsbFrom (2 * 0 + b.toNat) rest := rfl
    rw [hcons, hvalue, ih, ih, List.length_cons, Nat.pow_succ]
    ring

theorem pushBit_ofNat (v : Nat) (b : Bool) : pushBit (BitVec.ofNat 32 v) b = BitVec.ofNat 32 (2 * v + b.toNat) := by
  have hshift : (BitVec.ofNat 32 v <<< 1).toNat = (v % 2 ^ 31) <<< 1 := by
    rw [BitVec.toNat_shiftLeft, BitVec.toNat_ofNat, Nat.shiftLeft_eq, Nat.shiftLeft_eq]
    omega
  have hbit : ((BitVec.ofBool b).setWidth 32).toNat = b.toNat := by cases b <;> rfl
  have hlt : b.toNat < 2 ^ 1 := b.toNat_lt
  apply BitVec.eq_of_toNat_eq
  rw [pushBit, BitVec.toNat_or, hshift, hbit, ← Nat.shiftLeft_add_eq_or_of_lt hlt, Nat.shiftLeft_eq,
    BitVec.toNat_ofNat]
  omega

theorem foldl_pushBit (v : Nat) (bits : List Bool) :
    bits.foldl pushBit (BitVec.ofNat 32 v) = BitVec.ofNat 32 (valueMsbFrom v bits) := by
  induction bits generalizing v with
  | nil => rfl
  | cons b rest ih => rw [List.foldl_cons, pushBit_ofNat, ih]; rfl

/-- DEC_RBT's value with these bits to come, the next one at place `i` (R280). -/
def orBitsFrom (r : U32) : Nat → List Bool → U32
  | _, [] => r
  | i, x :: rest => orBitsFrom (orBitAt r x i) (i + 1) rest

/-- A bit above all those of `r` adds its power of 2. -/
theorem orBitAt_toNat {r : U32} {i : Nat} (hi : i < 32) (hr : r.toNat < 2 ^ i) (x : Bool) :
    (orBitAt r x i).toNat = r.toNat + x.toNat * 2 ^ i := by
  have hbit : ((BitVec.ofBool x).setWidth 32).toNat = x.toNat := by cases x <;> rfl
  have hpow : 2 ^ (i + 1) ≤ 2 ^ 32 := Nat.pow_le_pow_right (by decide) hi
  have hlt : x.toNat <<< i < 2 ^ 32 := by
    have hx := Nat.mul_le_mul_right (2 ^ i) x.toNat_le
    rw [Nat.shiftLeft_eq]
    omega
  rw [orBitAt, BitVec.toNat_or, BitVec.toNat_shiftLeft, hbit, Nat.mod_eq_of_lt hlt, Nat.or_comm,
    ← Nat.shiftLeft_add_eq_or_of_lt hr, Nat.shiftLeft_eq, Nat.add_comm]

theorem orBitsFrom_toNat {r : U32} {i : Nat} {bits : List Bool} (hi : i + bits.length ≤ 32) (hr : r.toNat < 2 ^ i) :
    (orBitsFrom r i bits).toNat = r.toNat + valueLsb bits * 2 ^ i := by
  induction bits generalizing r i with
  | nil => simp [orBitsFrom, valueLsb]
  | cons x rest ih =>
    rw [List.length_cons] at hi
    have hor := orBitAt_toNat (by omega) hr x
    have hx := Nat.mul_le_mul_right (2 ^ i) x.toNat_le
    have hvalue : valueLsb (x :: rest) = 2 * valueLsb rest + x.toNat := rfl
    rw [orBitsFrom, ih (by omega) (by rw [hor, Nat.pow_succ]; omega), hor, hvalue, Nat.pow_succ]
    ring

theorem orBitsFrom_zero {bits : List Bool} (hlen : bits.length ≤ 32) :
    orBitsFrom 0 0 bits = BitVec.ofNat 32 (valueLsb bits) := by
  have hvalue := orBitsFrom_toNat (r := 0) (i := 0) (bits := bits) (by omega) (by decide)
  have hlt := (orBitsFrom 0 0 bits).isLt
  rw [Nat.pow_zero, Nat.mul_one, show (0 : U32).toNat = 0 from rfl, Nat.zero_add] at hvalue
  apply BitVec.eq_of_toNat_eq
  rw [BitVec.toNat_ofNat, ← hvalue, Nat.mod_eq_of_lt hlt]

/-! ### The walks of the three commands -/

theorem decBit_walkValue (a : AddrField) : DecWalkValue a.toNat 1 0
    (fun bits => (BitVec.ofBool (bits.headD false)).setWidth 32) (decRun (.decBit a)) :=
  .node (k := decBitEnd) fun _ => .done _ _

theorem decTreeLoop_walkValue (b : AddrField) (d left m : Nat) : DecWalkValue b.toNat left m
    (fun bits => BitVec.ofNat 32 (valueMsbFrom m bits - 2 ^ d)) (decTreeLoop b d left m) := by
  induction left generalizing m with
  | zero => exact .done m fun bits => BitVec.ofNat 32 (valueMsbFrom m bits - 2 ^ d)
  | succ n ih => rw [decTreeLoop_succ]; exact .node fun _ => ih _

theorem decRevTreeLoop_walkValue (b : AddrField) {d left : Nat} (hleft : left ≤ d) (m : Nat) (r : U32) :
    DecWalkValue b.toNat left m (orBitsFrom r (d - left)) (decRevTreeLoop b d left m r) := by
  induction left generalizing m r with
  | zero => exact .done m (orBitsFrom r (d - 0))
  | succ n ih =>
    have hplace : d - n = d - (n + 1) + 1 := by omega
    rw [decRevTreeLoop_succ]
    refine .node fun x => ?_
    have hrest := ih (Nat.le_of_succ_le hleft) (2 * m + x.toNat) (orBitAt r x (d - (n + 1)))
    rw [hplace] at hrest
    exact hrest

/-! ### Input for every NormDec -/

/-- The input port has `n` bytes that IN_COUNT can count. -/
def HasBytes (n : Nat) (s : State) : Prop := n ≤ s.byteIn.length ∧ s.inCount.toNat + n < 2 ^ 64

theorem HasBytes.of_port {n : Nat} {s t : State} (h : HasBytes n s) (hin : t.byteIn = s.byteIn)
    (hcount : t.inCount = s.inCount) : HasBytes n t := by
  rw [HasBytes, hin, hcount]; exact h

/-- A NormDec takes one byte at most (R245). -/
theorem HasBytes.renormalized {n : Nat} {s : State} (h : HasBytes (n + 1) s) :
    inputStop s = none ∧ HasBytes n (renormalizedDec s) := by
  obtain ⟨hlen, hcount⟩ := h
  by_cases hr : s.range.toNat < top
  · obtain ⟨b, rest, hb⟩ := List.exists_cons_of_length_pos (Nat.zero_lt_of_lt hlen)
    have hc : s.inCount ≠ counterMax := ne_counterMax.2 (by omega)
    rw [hb, List.length_cons] at hlen
    refine ⟨by rw [inputStop_of_lt_top hr, if_neg (by simp [hb]), if_neg hc], ?_⟩
    rw [renormalizedDec, if_pos (show s.range.toNat < 2 ^ 24 from hr), hb]
    refine ⟨Nat.le_of_succ_le_succ hlen, ?_⟩
    show (s.inCount + 1).toNat + n < 2 ^ 64
    rw [toNat_add_one hc]
    omega
  · have hle := Nat.not_lt.1 hr
    rw [renormalizedDec_of_top_le hle]
    exact ⟨inputStop_of_top_le hle, Nat.le_of_succ_le hlen, by omega⟩

theorem decSplitResult_port (a : Nat) (s : State) : (decSplitResult a s).2.byteIn = s.byteIn
    ∧ (decSplitResult a s).2.inCount = s.inCount := by
  cases hp : memRead s.prob a with
  | none => simp [decSplitResult, hp]
  | some p =>
    rw [decSplitResult_eq hp, decBitSplit]
    exact ⟨splitDec_byteIn .., splitDec_inCount ..⟩

theorem HasBytes.decWalkStop {base n m : Nat} {s : State} (h : HasBytes n s) :
    Machine.decWalkStop base n m s = none := by
  induction n generalizing m s with
  | zero => rfl
  | succ n ih =>
    obtain ⟨hin, hcount⟩ := decSplitResult_port (base + m) s
    obtain ⟨hstop, hbytes⟩ := (h.of_port hin hcount).renormalized
    exact decWalkStop_eq_none.2 ⟨hstop, ih hbytes⟩

theorem DirectsEnd.push_ne_stopped {b : Bool} {e : DirectsEnd} {why : InputStop} {u : State}
    (h : e ≠ .stopped why u) : e.push b ≠ .stopped why u := by
  cases e with
  | done bits s => exact nofun
  | corrupt s => exact nofun
  | stopped why' s => exact h

theorem HasBytes.decDirectsResult {n : Nat} {s : State} (h : HasBytes n s) (why : InputStop) (u : State) :
    Machine.decDirectsResult n s ≠ .stopped why u := by
  induction n generalizing s with
  | zero => exact nofun
  | succ n ih =>
    rw [Machine.decDirectsResult, decHalveResult_eq]
    obtain ⟨hstop, hbytes⟩ := (h.of_port (halveDec_byteIn _ s) (halveDec_inCount _ s)).renormalized
    split
    · exact nofun
    · rw [show inputStop (directHalved s) = none from hstop]
      exact DirectsEnd.push_ne_stopped (ih hbytes)

/-! ### The direct bits -/

theorem DirectsEnd.push_eq_done {b : Bool} {e : DirectsEnd} {bits : List Bool} {u : State}
    (h : e.push b = .done bits u) : ∃ later, e = .done later u ∧ bits = b :: later := by
  cases e with
  | done later s => cases h; exact ⟨later, rfl, rfl⟩
  | corrupt s => cases h
  | stopped why s => cases h

theorem decDirectsResult_succ_done {n : Nat} {s u : State} {bits : List Bool}
    (h : decDirectsResult (n + 1) s = .done bits u) : (directHalved s).code ≠ (directHalved s).range
      ∧ inputStop (directHalved s) = none ∧ ∃ later, bits = directBitOf s :: later
        ∧ decDirectsResult n (renormalizedDec (directHalved s)) = .done later u := by
  rw [decDirectsResult, decHalveResult_eq] at h
  by_cases heq : (directHalved s).code = (directHalved s).range
  · rw [if_pos heq] at h; cases h
  · rw [if_neg heq] at h
    cases hin : inputStop (directHalved s) with
    | some why => simp only [hin] at h; cases h
    | none =>
      simp only [hin] at h
      obtain ⟨later, hrest, rfl⟩ := DirectsEnd.push_eq_done h
      exact ⟨heq, rfl, later, rfl, hrest⟩

theorem decDirectLoop_done {n : Nat} {r : U32} {s u : State} {bits : List Bool} (h : DecOpen s)
    (hdone : decDirectsResult n s = .done bits u) : decDirectLoop n r s = completeWith (bits.foldl pushBit r) u := by
  induction n generalizing r s bits with
  | zero => cases hdone; rfl
  | succ n ih =>
    obtain ⟨hne, hin, later, rfl, hrest⟩ := decDirectsResult_succ_done hdone
    obtain ⟨hl, hm⟩ := h.halved_live
    have hsplit := directHalved_decSplit h.coder hne
    rw [decDirectLoop_succ hne, normThen_of_not_stopped hsplit hin]
    exact ih (renormalizedDec_decOpen hl hm hsplit hin) hrest

/-! ### The four commands -/

theorem depth_checks_pass {s : State} (hwf : s.prob.wf) {b : AddrField} {d : CountField} (h1 : 1 ≤ d.toNat)
    (h16 : d.toNat ≤ 16) (hspan : TreeDefined b d s) (w : Word) :
    firstFailing (checkOperand (depthInDomain d) w :: treeChecks b d s) = none := by
  rw [firstFailing_operand (depthInDomain_of_le h1 h16)]
  exact firstFailing_span hwf hspan

/-- Settles O47: DEC_BIT is a walk of one level. -/
theorem decBitDecodesOneBit : Obligations.DecBitDecodesOneBit := by
  intro s a hinv hacc hm hspan hin
  have hstop : decWalkStop a.toNat 1 0 s = none := decWalkStop_eq_none.2 ⟨hin, rfl⟩
  rw [exec_dec_runs (i := .decBit a) rfl hm (firstFailing_span hinv.memory hspan),
    (decBit_walkValue a).through nodesWithin_context (hinv.decOpen hacc hm) (fun x => hspan.readable) hstop,
    decWalkResult_succ, Nat.add_zero]
  cases (decBitResult a.toNat s).1 <;> rfl

/-- Settles O48: DEC_DIRECT pushes each bit behind those before it. -/
theorem decDirectDecodesValue : Obligations.DecDirectDecodesValue := by
  intro s u n bits hinv hacc hm hn
  refine ⟨fun hlen hcount => HasBytes.decDirectsResult ⟨hlen, hcount⟩, fun hdone => ?_⟩
  have hpass : firstFailing (codingChecks (.decDirect n) s) = none := firstFailing_operand (countInDomain_of_le hn) _ _
  have hloop : decRun (.decDirect n) s = completeWith (bits.foldl pushBit 0) u :=
    decDirectLoop_done (hinv.decOpen hacc hm) hdone
  rw [exec_dec_runs rfl hm hpass, hloop, show (0 : U32) = BitVec.ofNat 32 0 from rfl, foldl_pushBit]
  rfl

/-- Settles O49: the walk's last node is `2^d` and the symbol. -/
theorem decBtWalksForwardTree : Obligations.DecBtWalksForwardTree := by
  intro s b d hinv hacc hm h1 h16 hspan
  refine ⟨fun hlen hcount => HasBytes.decWalkStop ⟨hlen, hcount⟩, fun hstop => ?_⟩
  have hwalk := (decTreeLoop_walkValue b d.toNat d.toNat 1).through (nodesWithin_tree _) (hinv.decOpen hacc hm)
    (fun x hlow hhigh => hspan.readable hlow (by omega)) hstop
  rw [valueMsbFrom_eq, decWalkResult_length, Nat.one_mul, Nat.add_sub_cancel_left] at hwalk
  exact (exec_dec_runs (i := .decBt b d) rfl hm (depth_checks_pass hinv.memory h1 h16 hspan _)).trans hwalk

/-- Settles O50: each bit is set at its own place. -/
theorem decRbtWalksReverseTree : Obligations.DecRbtWalksReverseTree := by
  intro s b d hinv hacc hm h1 h16 hspan hstop
  have hwalk := (decRevTreeLoop_walkValue b (le_refl d.toNat) 1 0).through (nodesWithin_tree _)
    (hinv.decOpen hacc hm) (fun x hlow hhigh => hspan.readable hlow (by omega)) hstop
  have hlen := decWalkResult_length b.toNat d.toNat 1 s
  rw [Nat.sub_self, orBitsFrom_zero (by omega)] at hwalk
  exact (exec_dec_runs (i := .decRbt b d) rfl hm (depth_checks_pass hinv.memory h1 h16 hspan _)).trans hwalk

end Sys2Proof.Machine
end

section
/-! PROOFS. An encoder's command that completes: no counter ended in it, and it leaves its closed form. So what a
completed run tells needs no premise on the counters or the sink. -/

namespace Sys2Proof.Machine

/-- A send loop that is through was counted by OUT_COUNT and taken by the sink. -/
theorem sendPending_ok {n : Nat} {temp : Byte} {s t : State} (h : sendPending n temp s = .ok () t) :
    n ≤ 2 ^ 64 - 1 - s.outCount.toNat ∧ ∀ room, s.sinkRoom = some room → n ≤ room := by
  induction n generalizing temp s with
  | zero => exact ⟨Nat.zero_le _, fun _ _ => Nat.zero_le _⟩
  | succ n ih =>
    rw [sendPending_succ] at h
    cases hw : writeByte (temp + carryByte s) s with
    | ok u v =>
      rw [hw] at h
      obtain ⟨hcount, hready, rfl⟩ := writeByte_ok hw
      obtain ⟨hfit, hroom⟩ := ih h
      have hnext : (s.outCount + 1).toNat = s.outCount.toNat + 1 := toNat_add_one hcount
      refine ⟨?_, fun room hr => ?_⟩
      · simp only [hnext] at hfit
        have := ne_counterMax.1 hcount
        omega
      · have hpos : room ≠ 0 := fun h0 => hready (by rw [hr, h0])
        have := hroom (room - 1) (by simp [hr])
        omega
    | _ => rw [hw] at h; cases h

theorem shiftLow_ok {s t : State} (howed : 1 ≤ s.cacheSize.toNat) (h : shiftLow s = .ok () t) :
    shiftOverflow s = none ∧ t = shiftedOut s := by
  by_cases hs : Sends s
  · have hsend := h
    rw [shiftLow_of_sends hs, sendFrom_of_owed (ne_zero_of_owed howed)] at hsend
    cases hp : sendPending s.cacheSize.toNat s.cache s with
    | ok u v =>
      obtain ⟨hfit, hroom⟩ := sendPending_ok hp
      rw [shiftLow_sends_ready hs howed hfit hroom] at h
      cases h
      exact ⟨shiftOverflow_none_iff.2 ⟨fun _ => hfit, fun hn => absurd hs hn⟩, rfl⟩
    | _ => rw [hp] at hsend; cases hsend
  · have hc : s.cacheSize ≠ counterMax := fun hc => by
      rw [shiftLow_of_not_sends hs, shiftEnd, if_pos hc] at h; cases h
    rw [shiftLow_counts hs hc] at h
    cases h
    exact ⟨shiftOverflow_none_iff.2 ⟨fun hn => absurd hn hs, fun _ => hc⟩, rfl⟩

theorem normEnc_ok {s t : State} (h : EncSplit s) (ht : normEnc renormTurns s = .ok () t) :
    renormOverflow s = none ∧ t = renormalizedEnc s := by
  by_cases hr : s.range.toNat < top
  · rw [normEnc_one_turn h.range hr, ← rangeShifted_eq] at ht
    rw [renormOverflow_of_lt_top hr, renormalizedEnc_of_lt_top hr]
    cases hshift : shiftLow (rangeShifted s) with
    | ok u v =>
      rw [hshift] at ht
      cases ht
      exact shiftLow_ok (s := rangeShifted s) h.owed hshift
    | _ => rw [hshift] at ht; cases ht
  · have hle := Nat.not_lt.1 hr
    rw [renormTurns, normEnc_of_top_le hle] at ht
    cases ht
    exact ⟨renormOverflow_of_top_le hle, (renormalizedEnc_of_top_le hle).symm⟩

/-- The three ends of an encoder command's first operation, where the command completes. -/
theorem runEnc_cons_completes {op : EncOp} {ops : List EncOp} {s t : State} (h : runEnc (op :: ops) s = .next t)
    (hacc : Accepts t) : ∃ u, runEncOp op s = .ok () u ∧ runEnc ops u = .next t := by
  obtain ⟨hfaulted, hwait⟩ := hacc
  rw [runEnc] at h
  cases hr : runEncOp op s with
  | ok _ u => rw [hr] at h; exact ⟨u, rfl, h⟩
  | stall left u => rw [hr] at h; cases h; cases hwait
  | raise c info u => rw [hr] at h; cases h; cases hfaulted
  | stuck e => rw [hr] at h; cases h

theorem runEnc_coding_completes {ops : List EncOp} (hops : ops.all isCodingOp = true) {s t : State} (h : EncOpen s)
    (hread : OpsReadable ops s) (ht : runEnc ops s = .next t) (hacc : Accepts t) :
    opsOverflow ops s = none ∧ t = completed (opsResult ops s) := by
  induction ops generalizing s with
  | nil => cases ht; exact ⟨rfl, rfl⟩
  | cons op ops ih =>
    rw [List.all_cons, Bool.and_eq_true] at hops
    obtain ⟨hreadOp, hread⟩ := List.forall_mem_cons.1 hread
    obtain ⟨u, hop, hrest⟩ := runEnc_cons_completes ht hacc
    obtain ⟨hrun, hsplit⟩ := h.runEncOp_eq hops.1 hreadOp
    obtain ⟨hopen, hread⟩ := h.through hops.1 hop hread
    obtain ⟨hnorm, rfl⟩ := normEnc_ok hsplit (hrun.symm.trans hop)
    rw [opsOverflow_of_through hnorm]
    exact ih hops.2 hopen hread hrest

/-- A command that completes has passed its checks and run to its end. -/
theorem exec_enc_completes {i : Instr} (hi : needsEnc i = true) {s t : State} (h : exec i s = .next t)
    (hacc : Accepts t) : s.mode = .enc ∧ firstFailing (codingChecks i s) = none ∧ runEnc (encOps i) s = .next t := by
  rw [exec_enc hi] at h
  rcases afterChecks_mode_next h with ⟨c, info, rfl⟩ | ⟨hpass, hm, hrun⟩
  · cases hacc.1
  · rw [checkMode_pass hm, firstFailing_cons_none] at hpass
    exact ⟨hm, hpass, hrun⟩

end Sys2Proof.Machine
end

section
/-! PROOFS. The number that an encoder stream has reached: what is sent, what is owed and LOW, read as one number
(`41_range_coder.md` R249). A split moves it up within the interval, and a ShiftLow only moves its point. -/

namespace Sys2Proof.Machine

theorem codeValue_append_list (bs cs : List Byte) :
    codeValue (bs ++ cs) = codeValue bs * (2 ^ 8) ^ cs.length + codeValue cs := by
  induction cs using List.reverseRecOn with
  | nil => simp [codeValue]
  | append_singleton cs c ih =>
    rw [← List.append_assoc, codeValue_append, codeValue_append, ih, List.length_append, List.length_singleton,
      Nat.pow_succ]
    ring

theorem codeValue_cons (b : Byte) (bs : List Byte) :
    codeValue (b :: bs) = b.toNat * (2 ^ 8) ^ bs.length + codeValue bs := by
  have hcons := codeValue_append_list [b] bs
  rw [List.singleton_append, show codeValue [b] = b.toNat from Nat.zero_add _] at hcons
  exact hcons

theorem codeValue_replicate_zero (n : Nat) : codeValue (List.replicate n 0) = 0 := by
  induction n with
  | zero => rfl
  | succ n ih => rw [List.replicate_succ, codeValue_cons, ih]; simp

theorem codeValue_replicate_full (n : Nat) : codeValue (List.replicate n 0xFF) + 1 = (2 ^ 8) ^ n := by
  induction n with
  | zero => rfl
  | succ n ih =>
    rw [List.replicate_succ, codeValue_cons, List.length_replicate, Nat.add_assoc, ih, Nat.pow_succ,
      show (0xFF : Byte).toNat = 255 from rfl]
    omega

/-- The number that the bytes sent, the pending ones and LOW spell. -/
def streamValue (s : State) : Nat := codeValue (s.sent ++ pendingBytes s) * 2 ^ 32 + s.low.toNat

/-- A carry adds one to the number that the pending bytes spell, if CACHE has room for it (R205, R250). -/
theorem codeValue_owed_eq {s : State} (howed : 1 ≤ s.cacheSize.toNat)
    (hroom : 2 ^ 32 ≤ s.low.toNat → s.cache.toNat ≤ 0xFE) :
    codeValue (owedStream s) = codeValue (s.sent ++ pendingBytes s) + s.low.toNat / 2 ^ 32 := by
  have hlow := s.low.isLt
  obtain ⟨n, hn⟩ := Nat.exists_eq_add_of_le' howed
  rw [owedStream, pendingBytes, hn, codeValue_append_list, codeValue_append_list, owedBytes, List.length_cons,
    List.length_cons, List.length_replicate, List.length_replicate, Nat.add_assoc, codeValue_cons, codeValue_cons,
    List.length_replicate, List.length_replicate]
  by_cases hcarry : 2 ^ 32 ≤ s.low.toNat
  · have hone : s.low.toNat / 2 ^ 32 = 1 := by omega
    have hsum : (BitVec.ofNat 8 (s.cache.toNat + 1)).toNat = s.cache.toNat + 1 := by
      have := hroom hcarry
      rw [BitVec.toNat_ofNat]
      omega
    rw [hone, hsum, show BitVec.ofNat 8 (0xFF + 1) = 0 from rfl, codeValue_replicate_zero, Nat.add_zero,
      Nat.add_assoc, codeValue_replicate_full]
    ring
  · have hzero : s.low.toNat / 2 ^ 32 = 0 := by omega
    simp only [hzero, Nat.add_zero, BitVec.ofNat_toNat, BitVec.setWidth_eq]
    rfl

theorem streamValue_eq_owed {s : State} (howed : 1 ≤ s.cacheSize.toNat)
    (hroom : 2 ^ 32 ≤ s.low.toNat → s.cache.toNat ≤ 0xFE) :
    streamValue s = codeValue (owedStream s) * 2 ^ 32 + s.low.toNat % 2 ^ 32 := by
  have hsplit := Nat.div_add_mod s.low.toNat (2 ^ 32)
  rw [codeValue_owed_eq howed hroom, streamValue]
  omega

theorem EncSplit.streamValue_eq_owed {s : State} (h : EncSplit s) :
    streamValue s = codeValue (owedStream s) * 2 ^ 32 + s.low.toNat % 2 ^ 32 :=
  Machine.streamValue_eq_owed h.owed h.cache_le_of_carry

/-- A ShiftLow moves the number up by one byte. -/
theorem streamValue_shiftedOut {s : State} (howed : 1 ≤ s.cacheSize.toNat) (hnone : shiftOverflow s = none)
    (hroom : 2 ^ 32 ≤ s.low.toNat → s.cache.toNat ≤ 0xFE) : streamValue (shiftedOut s) = streamValue s * 2 ^ 8 := by
  have hdone := shiftedOut_done hnone
  have hlow := s.low.isLt
  have hlow' := hdone.low
  have hbyte : (BitVec.ofNat 8 (s.low.toNat / 2 ^ 24)).toNat = s.low.toNat / 2 ^ 24 % 2 ^ 8 := BitVec.toNat_ofNat _ _
  rw [streamValue_eq_owed howed hroom, streamValue_eq_owed hdone.owed (fun hcarry => by omega),
    shiftedOut_owedStream howed hnone, codeValue_append, hbyte, hlow']
  omega

/-- How many bytes of its stream a decoder in step with the encoder has consumed: as many as the encoder has sent or
owes, and the four of LOW. -/
def position (s : State) : Nat := s.sent.length + s.cacheSize.toNat + 4

theorem position_eq_owed (s : State) : position s = (owedStream s).length + 4 := by
  rw [owedStream, List.length_append, owedBytes_length, position]

theorem position_shiftedOut {s : State} (howed : 1 ≤ s.cacheSize.toNat) (hnone : shiftOverflow s = none) :
    position (shiftedOut s) = position s + 1 := by
  rw [position_eq_owed, position_eq_owed, shiftedOut_owedStream howed hnone, List.length_append, List.length_singleton]

end Sys2Proof.Machine
end

section
/-! PROOFS. The bytes that an encoder stream ends with lie in the interval of each of its states (`41_range_coder.md`
R249): read back from the end of the stream, an operation narrows the interval and a renormalization moves it. -/

namespace Sys2Proof.Machine

theorem codeValue_take_succ {F : List Byte} {n : Nat} (h : n < F.length) :
    codeValue (F.take (n + 1)) = codeValue (F.take n) * 2 ^ 8 + F[n].toNat := by
  rw [List.take_succ_eq_append_getElem h, codeValue_append]

/-- The stream `F` goes on from `s`: its bytes up to those a decoder in step has consumed lie in the interval of
`s`. -/
structure Leads (F : List Byte) (s : State) : Prop where
  length : position s ≤ F.length
  low : streamValue s ≤ codeValue (F.take (position s))
  high : codeValue (F.take (position s)) < streamValue s + s.range.toNat

/-- The interval of `t` is within that of `s`, and nothing is sent between them. -/
structure Within (s t : State) : Prop where
  sent : t.sent = s.sent
  cache : t.cache = s.cache
  owed : t.cacheSize = s.cacheSize
  low : s.low.toNat ≤ t.low.toNat
  top : t.low.toNat + t.range.toNat ≤ s.low.toNat + s.range.toNat

theorem Within.refl (s : State) : Within s s := ⟨rfl, rfl, rfl, le_rfl, le_rfl⟩

theorem Within.position {s t : State} (h : Within s t) : Machine.position t = Machine.position s := by
  rw [Machine.position, h.sent, h.owed, Machine.position]

theorem Within.streamValue {s t : State} (h : Within s t) :
    Machine.streamValue t + s.low.toNat = Machine.streamValue s + t.low.toNat := by
  rw [Machine.streamValue, Machine.streamValue, pendingBytes, pendingBytes, h.sent, h.owed, h.cache]
  omega

theorem Leads.of_within {F : List Byte} {s t : State} (h : Leads F t) (hin : Within s t) : Leads F s := by
  obtain ⟨hlength, hlow, hhigh⟩ := h
  have hvalue := hin.streamValue
  have hup := hin.low
  have htop := hin.top
  rw [hin.position] at hlength hlow hhigh
  exact ⟨hlength, by omega, by omega⟩

/-- A renormalization's closed form, where RANGE has to move up. -/
structure MovedUp (s t : State) : Prop where
  position : Machine.position t = Machine.position s + 1
  value : Machine.streamValue t = Machine.streamValue s * 2 ^ 8
  range : t.range.toNat = s.range.toNat * 2 ^ 8

theorem EncSplit.movedUp {s : State} (h : EncSplit s) (hr : s.range.toNat < top)
    (hnone : renormOverflow s = none) : MovedUp s (renormalizedEnc s) := by
  rw [renormOverflow_of_lt_top hr] at hnone
  rw [renormalizedEnc_of_lt_top hr]
  have howed : 1 ≤ (rangeShifted s).cacheSize.toNat := h.owed
  refine ⟨position_shiftedOut howed hnone, streamValue_shiftedOut howed hnone h.cache_le_of_carry, ?_⟩
  rw [shiftedOut_range, rangeShifted_eq]
  exact range_shift_toNat hr

theorem Leads.of_movedUp {F : List Byte} {s t : State} (h : Leads F t) (hup : MovedUp s t) : Leads F s := by
  obtain ⟨hlength, hlow, hhigh⟩ := h
  rw [hup.position] at hlength hlow hhigh
  have hbyte := (F[Machine.position s]'hlength).isLt
  rw [codeValue_take_succ hlength, hup.value] at hlow hhigh
  rw [hup.range] at hhigh
  exact ⟨Nat.le_of_succ_le hlength, by omega, by omega⟩

theorem Leads.of_renormalized {F : List Byte} {s : State} (hsplit : EncSplit s) (hnone : renormOverflow s = none)
    (h : Leads F (renormalizedEnc s)) : Leads F s := by
  by_cases hr : s.range.toNat < Machine.top
  · exact h.of_movedUp (hsplit.movedUp hr hnone)
  · rw [renormalizedEnc_of_top_le (Nat.not_lt.1 hr)] at h; exact h

/-! ### The operations -/

/-- The split's two sub-intervals as numbers (R208). -/
theorem splitEnc_toNat {s : State} (h : EncOk s) {p : Prob} (hp : 31 ≤ p.toNat ∧ p.toNat ≤ 2017) (b : Bool) :
    (splitEnc p b s).low.toNat = s.low.toNat + (if b then (boundOf s.range p).toNat else 0)
      ∧ (splitEnc p b s).range.toNat
        = if b then s.range.toNat - (boundOf s.range p).toNat else (boundOf s.range p).toNat := by
  obtain ⟨-, hhi⟩ := boundOf_bounds h.range hp
  have hl := h.low
  cases b
  · exact ⟨rfl, rfl⟩
  · simp only [splitEnc_low, splitEnc_range, if_true]
    exact ⟨low_add_toNat (by omega), BitVec.toNat_sub_of_le (by rw [BitVec.le_def]; omega)⟩

/-- The halving's two sub-intervals as numbers (R220). -/
theorem halveEnc_toNat {s : State} (h : EncOk s) (b : Bool) :
    (halveEnc b s).low.toNat = s.low.toNat + (if b then (s.range >>> 1).toNat else 0)
      ∧ (halveEnc b s).range.toNat = (s.range >>> 1).toNat := by
  have hl := h.low
  refine ⟨?_, by rw [halveEnc_range]⟩
  cases b
  · rfl
  · simp only [halveEnc_low, if_true]
    exact low_add_toNat (by rw [half_toNat]; omega)

theorem encBitSplit_within {s : State} (h : EncOk s) {p : Prob} (hp : 31 ≤ p.toNat ∧ p.toNat ≤ 2017) (a : Nat)
    (b : Bool) : Within s (encBitSplit a b p s) := by
  obtain ⟨hlow, hrange⟩ := splitEnc_toNat h hp b
  obtain ⟨-, hhi⟩ := boundOf_bounds h.range hp
  refine ⟨splitEnc_sent p b s, splitEnc_cache p b s, splitEnc_cacheSize p b s, ?_, ?_⟩
  · show s.low.toNat ≤ (splitEnc p b s).low.toNat
    omega
  · show (splitEnc p b s).low.toNat + (splitEnc p b s).range.toNat ≤ s.low.toNat + s.range.toNat
    cases b <;> simp only [if_true, Bool.false_eq_true, if_false] at hlow hrange <;> omega

theorem halveEnc_within {s : State} (h : EncOk s) (b : Bool) : Within s (halveEnc b s) := by
  obtain ⟨hlow, hrange⟩ := halveEnc_toNat h b
  rw [half_toNat] at hlow hrange
  refine ⟨halveEnc_sent b s, halveEnc_cache b s, halveEnc_cacheSize b s, by omega, ?_⟩
  cases b <;> simp only [if_true, Bool.false_eq_true, if_false] at hlow <;> omega

theorem EncOpen.opSplit_within {s : State} (h : EncOpen s) {op : EncOp} (hop : isCodingOp op = true)
    (hread : ∀ a, opWrites op a → Readable a s) : Within s (opSplit op s) := by
  cases op with
  | modelBit a b =>
    obtain ⟨p, hword, hp⟩ := (hread a rfl).value
    rw [opSplit, encSplitResult_eq hword]
    exact encBitSplit_within h.coder (h.live.prob_bounds hp) a b
  | directBit b => rw [opSplit, encHalveResult_eq]; exact halveEnc_within h.coder b
  | norm => exact .refl s
  | shift | send | close => cases hop

theorem Leads.of_opsResult {F : List Byte} {ops : List EncOp} (hops : ops.all isCodingOp = true) {s : State}
    (h : EncOpen s) (hread : OpsReadable ops s) (hnone : opsOverflow ops s = none)
    (hleads : Leads F (opsResult ops s)) : Leads F s := by
  induction ops generalizing s with
  | nil => exact hleads
  | cons op ops ih =>
    rw [List.all_cons, Bool.and_eq_true] at hops
    obtain ⟨hreadOp, hread⟩ := List.forall_mem_cons.1 hread
    obtain ⟨hnorm, hnone⟩ := opsOverflow_cons_none.1 hnone
    have hstep : Leads F (opStep op s) :=
      ih hops.2 (h.opStep hops.1 hreadOp hnorm) (OpsReadable.opStep hread hnorm) hnone hleads
    exact (Leads.of_renormalized (h.runEncOp_eq hops.1 hreadOp).2 hnorm hstep).of_within
      (h.opSplit_within hops.1 hreadOp)

/-! ### ENC_FLUSH -/

/-- The ShiftLows of ENC_FLUSH that move the rest of LOW out and send it: the bytes sent spell the number that the
stream had reached. -/
theorem runEnc_flush_sent {n : Nat} {s e : State} (howed : 1 ≤ s.cacheSize.toNat)
    (hroom : 2 ^ 32 ≤ s.low.toNat → s.cache.toNat ≤ 0xFE) (hlow : s.low.toNat * (2 ^ 8) ^ n % 2 ^ 32 = 0)
    (h : runEnc (List.replicate (n + 1) .shift ++ [.close]) s = .next e) (hacc : Accepts e) :
    e.sent.length + 4 = position s + n ∧ codeValue e.sent * 2 ^ 32 = streamValue s * (2 ^ 8) ^ n := by
  induction n generalizing s with
  | zero =>
    obtain ⟨u, hshift, hclose⟩ := runEnc_cons_completes (op := .shift) h hacc
    obtain ⟨-, rfl⟩ := shiftLow_ok howed hshift
    rw [Nat.pow_zero, Nat.mul_one] at hlow
    have hsent : e.sent = owedStream s := by
      cases hclose
      show (shiftedOut s).sent = owedStream s
      rw [shiftedOut, if_pos (show Sends s from .inl (by omega)), owedStream]
    rw [hsent, position_eq_owed, streamValue_eq_owed howed hroom, hlow]
    omega
  | succ n ih =>
    obtain ⟨u, hshift, hrest⟩ := runEnc_cons_completes (op := .shift) h hacc
    obtain ⟨hnone, rfl⟩ := shiftLow_ok howed hshift
    have hdone := shiftedOut_done hnone
    have hmoved : (shiftedOut s).low.toNat * (2 ^ 8) ^ n % 2 ^ 32 = 0 := by
      have hmod : s.low.toNat % 2 ^ 24 * 2 ^ 8 % 2 ^ 32 = s.low.toNat * 2 ^ 8 % 2 ^ 32 := by omega
      rw [hdone.low, Nat.mul_mod, hmod, ← Nat.mul_mod, Nat.mul_assoc, ← Nat.pow_succ']
      exact hlow
    obtain ⟨hlength, hvalue⟩ := ih hdone.owed (fun hcarry => by have := hdone.low; omega) hmoved hrest
    rw [position_shiftedOut howed hnone] at hlength
    rw [streamValue_shiftedOut howed hnone hroom, Nat.mul_assoc, ← Nat.pow_succ'] at hvalue
    exact ⟨by omega, hvalue⟩

/-- ENC_FLUSH ends the stream with the bytes of LOW, which lie in the interval, and with no byte behind them. -/
theorem exec_flush_leads {s e : State} (h : EncOk s) (hexec : exec .encFlush s = .next e) (hacc : Accepts e) :
    position s = e.sent.length ∧ Leads e.sent s := by
  obtain ⟨-, -, hrun⟩ := exec_enc_completes (i := .encFlush) rfl hexec hacc
  obtain ⟨hlength, hvalue⟩ := runEnc_flush_sent (n := 4) h.owed h.encSplit.cache_le_of_carry
    (Nat.mul_mod_left _ _) hrun hacc
  have hpos : position s = e.sent.length := by omega
  have hrange := h.range
  have hcode : codeValue e.sent = streamValue s := by omega
  unfold top at hrange
  exact ⟨hpos, hpos.le, by rw [hpos, List.take_length, hcode], by rw [hpos, List.take_length, hcode]; omega⟩

end Sys2Proof.Machine
end

section
/-! PROOFS. A decoder in step with the encoder (`41_range_coder.md` R249, R250; `70_reset_and_hazards.md` R390,
R393), operation by operation: CODE is the distance of the stream's bytes from the encoder's number, so both find
the same sub-interval, and a NormDec takes a byte exactly where a NormEnc owes one more. -/

namespace Sys2Proof.Machine

/-- The decoder `d` is in step with the encoder `s` on the stream `F`, whose first `base` bytes are before the
decoder's start; `extra` is offered behind it. -/
structure InStep (F extra : List Byte) (base : Nat) (s d : State) : Prop where
  range : d.range = s.range
  prob : d.prob = s.prob
  words : d.probWords = s.probWords
  code : streamValue s + d.code.toNat = codeValue (F.take (position s))
  input : d.byteIn = F.drop (position s) ++ extra
  count : base + d.inCount.toNat = position s
  faulted : d.faulted = false

variable {F extra : List Byte} {base : Nat} {s d : State}

theorem InStep.code_lt (h : InStep F extra base s d) (hleads : Leads F s) : d.code.toNat < d.range.toNat := by
  have hcode := h.code
  have hhigh := hleads.high
  rw [h.range]
  omega

/-- A narrowing that both do: CODE and the encoder's number move by the same amount. -/
theorem InStep.narrowed (h : InStep F extra base s d) {s' d' : State} (hin : Within s s')
    (hrange : d'.range = s'.range) (hprob : d'.prob = s'.prob) (hwords : d'.probWords = s'.probWords)
    (hcode : s'.low.toNat + d'.code.toNat = s.low.toNat + d.code.toNat) (hinput : d'.byteIn = d.byteIn)
    (hcount : d'.inCount = d.inCount) (hfaulted : d'.faulted = d.faulted) : InStep F extra base s' d' := by
  have hvalue := hin.streamValue
  have hold := h.code
  refine ⟨hrange, hprob, hwords, ?_, ?_, ?_, hfaulted.trans h.faulted⟩
  · rw [hin.position]; omega
  · rw [hinput, hin.position]; exact h.input
  · rw [hcount, hin.position]; exact h.count

/-- Where the encoder cuts its interval and takes one part by a bit, the lower one for a 0, CODE finds that bit, and
moves with the encoder's number (R208, R209, R220, R225). -/
theorem InStep.cut (h : InStep F extra base s d) {s' : State} (hin : Within s s') (hleads : Leads F s') {cut : U32}
    {b : Bool} (hlow : s'.low.toNat = s.low.toNat + (if b then cut.toNat else 0))
    (hrange : b = false → s'.range.toNat = cut.toNat) : decide (cut.toNat ≤ d.code.toNat) = b
      ∧ s'.low.toNat + (if b then d.code - cut else d.code).toNat = s.low.toNat + d.code.toNat := by
  have hvalue := hin.streamValue
  have hcode := h.code
  have hlead := hleads.low
  have hhigh := hleads.high
  rw [hin.position] at hlead hhigh
  cases b
  · rw [hrange rfl] at hhigh
    simp only [Bool.false_eq_true, if_false] at hlow ⊢
    exact ⟨decide_eq_false (by omega), by omega⟩
  · simp only [if_true] at hlow ⊢
    have hle : cut.toNat ≤ d.code.toNat := by omega
    exact ⟨decide_eq_true hle, by rw [BitVec.toNat_sub_of_le (BitVec.le_def.2 hle)]; omega⟩

/-- The decoder finds the bit the encoder coded, and splits as it did (R208, R209). -/
theorem InStep.modelBit (h : InStep F extra base s d) (henc : EncOk s) {p : Prob}
    (hp : 31 ≤ p.toNat ∧ p.toNat ≤ 2017) {a : Nat} {b : Bool} (hleads : Leads F (encBitSplit a b p s)) :
    decodedBit p d = b ∧ InStep F extra base (encBitSplit a b p s) (decBitSplit a p d) := by
  have hin := encBitSplit_within henc hp a b
  obtain ⟨hlow, hrange⟩ := splitEnc_toNat henc hp b
  obtain ⟨hbit, hcode⟩ := h.cut hin hleads (cut := boundOf s.range p) hlow (fun hb => by subst hb; exact hrange)
  rw [← h.range] at hbit hcode
  refine ⟨hbit, ?_⟩
  rw [decBitSplit, show decodedBit p d = b from hbit]
  refine h.narrowed hin ?_ ?_ ?_ ?_ (splitDec_byteIn p b d) (splitDec_inCount p b d) (splitDec_faulted p b d)
  · show (splitDec p b d).range = (splitEnc p b s).range
    rw [splitDec_range, splitEnc_range, h.range]
  · show memWrite (splitDec p b d).prob a _ = memWrite (splitEnc p b s).prob a _
    rw [splitDec_prob, splitEnc_prob, h.prob]
  · show (splitDec p b d).probWords = (splitEnc p b s).probWords
    rw [splitDec_probWords, splitEnc_probWords, h.words]
  · show _ + (splitDec p b d).code.toNat = _
    rw [splitDec_code]
    exact hcode

/-- The decoder finds the direct bit the encoder coded, and halves as it did (R220, R225). -/
theorem InStep.directBit (h : InStep F extra base s d) (henc : EncOk s) {b : Bool}
    (hleads : Leads F (halveEnc b s)) :
    directBitOf d = b ∧ InStep F extra base (halveEnc b s) (directHalved d) := by
  have hin := halveEnc_within henc b
  obtain ⟨hlow, hrange⟩ := halveEnc_toNat henc b
  obtain ⟨hbit, hcode⟩ := h.cut hin hleads (cut := s.range >>> 1) hlow (fun _ => hrange)
  rw [← h.range] at hbit hcode
  refine ⟨hbit, ?_⟩
  rw [directHalved, show directBitOf d = b from hbit]
  refine h.narrowed hin ?_ ?_ ?_ ?_ (halveDec_byteIn b d) (halveDec_inCount b d) (halveDec_faulted b d)
  · rw [halveDec_range, halveEnc_range, h.range]
  · rw [halveDec_prob, halveEnc_prob, h.prob]
  · rw [halveDec_probWords, halveEnc_probWords, h.words]
  · rw [halveDec_code]
    exact hcode

/-- A NormDec has its byte where a NormEnc owes one more, and both move up (R206, R207). -/
theorem InStep.renormalized (h : InStep F extra base s d) (hcountable : F.length < base + 2 ^ 64) (henc : EncSplit s)
    (hnone : renormOverflow s = none) (hleads : Leads F (renormalizedEnc s)) :
    inputStop d = none ∧ InStep F extra base (renormalizedEnc s) (renormalizedDec d) := by
  have hlt := h.code_lt (hleads.of_renormalized henc hnone)
  have hprob : (renormalizedEnc s).prob = s.prob := (renormalizedEnc_coderFrame hnone).prob
  have hwords : (renormalizedEnc s).probWords = s.probWords := by rw [renormalizedEnc_coderFrame hnone]
  by_cases hr : s.range.toNat < top
  · have hup := henc.movedUp hr hnone
    have hmore : position s < F.length := by have := hleads.length; rw [hup.position] at this; exact this
    have hinput := h.input
    rw [List.drop_eq_getElem_cons hmore, List.cons_append] at hinput
    have hpos := h.count
    have hcount : d.inCount ≠ counterMax := ne_counterMax.2 (by omega)
    have hrd : d.range.toNat < top := by rw [h.range]; exact hr
    refine ⟨by rw [inputStop_of_lt_top hrd, if_neg (by simp [hinput]), if_neg hcount], ?_⟩
    rw [renormalizedDec_of_lt_top hrd (hlt.trans hrd) hinput]
    refine ⟨?_, h.prob.trans hprob.symm, h.words.trans hwords.symm, ?_, ?_, ?_, h.faulted⟩
    · refine BitVec.eq_of_toNat_eq ?_
      rw [hup.range]
      show (d.range <<< 8).toNat = _
      rw [range_shift_toNat hrd, h.range]
    · show _ + ((d.code <<< 8) ||| (F[position s]).setWidth 32).toNat = _
      have hcode := h.code
      rw [pushed_toNat (hlt.trans hrd), hup.position, hup.value, codeValue_take_succ hmore, ← hcode]
      omega
    · rw [hup.position]; rfl
    · show base + (d.inCount + 1).toNat = _
      rw [toNat_add_one hcount, hup.position]
      omega
  · have hle := Nat.not_lt.1 hr
    have hld : top ≤ d.range.toNat := by rw [h.range]; exact hle
    rw [renormalizedEnc_of_top_le hle, renormalizedDec_of_top_le hld]
    exact ⟨inputStop_of_top_le hld, h⟩

end Sys2Proof.Machine
end

section
/-! PROOFS. A decoder in step with the encoder over a whole walk and over the direct bits: it finds every bit that
was coded, and no NormDec is stopped. -/

namespace Sys2Proof.Machine

variable {F extra : List Byte} {base : Nat} {s d : State}

/-- The operations of a walk from node `m` of the tree at `root` that codes `bits`. -/
def walkOps (root m : Nat) (bits : List Bool) : List EncOp := (treePath m bits).map (nodeOp root)

theorem walkOps_cons (root m : Nat) (x : Bool) (bits : List Bool) :
    walkOps root m (x :: bits) = nodeOp root (m, x) :: walkOps root (2 * m + x.toNat) bits := rfl

theorem treeOps_eq_walkOps (b : AddrField) (bits : List Bool) : treeOps b bits = walkOps b.toNat 1 bits := rfl

theorem walkOps_coding (root m : Nat) (bits : List Bool) : (walkOps root m bits).all isCodingOp = true :=
  List.all_eq_true.2 fun op hop => by obtain ⟨e, -, rfl⟩ := List.mem_map.1 hop; rfl

theorem directBits_coding (bits : List Bool) : (bits.map EncOp.directBit).all isCodingOp = true :=
  List.all_eq_true.2 fun op hop => by obtain ⟨e, -, rfl⟩ := List.mem_map.1 hop; rfl

theorem InStep.walk (hcountable : F.length < base + 2 ^ 64) {root m : Nat} {bits : List Bool}
    (h : InStep F extra base s d) (hopen : EncOpen s) (hread : OpsReadable (walkOps root m bits) s)
    (hnone : opsOverflow (walkOps root m bits) s = none) (hleads : Leads F (opsResult (walkOps root m bits) s)) :
    decWalkStop root bits.length m d = none ∧ (decWalkResult root bits.length m d).1 = bits
      ∧ InStep F extra base (opsResult (walkOps root m bits) s) (decWalkResult root bits.length m d).2 := by
  induction bits generalizing m s d with
  | nil => exact ⟨rfl, rfl, h⟩
  | cons x bits ih =>
    rw [walkOps_cons] at hread hnone hleads ⊢
    obtain ⟨hreadOp, hread⟩ := List.forall_mem_cons.1 hread
    obtain ⟨hnorm, hnone⟩ := opsOverflow_cons_none.1 hnone
    obtain ⟨p, hword, hp⟩ := (hreadOp (root + m) rfl).value
    have hopen' := hopen.opStep rfl hreadOp hnorm
    have hread' := OpsReadable.opStep hread hnorm
    have hleads' : Leads F (opStep (nodeOp root (m, x)) s) :=
      Leads.of_opsResult (walkOps_coding _ _ _) hopen' hread' hnone hleads
    have hsplit := (hopen.split hp x).2.2
    have hsame : opSplit (nodeOp root (m, x)) s = encBitSplit (root + m) x p s := encSplitResult_eq hword x
    rw [opStep, hsame] at hleads'
    rw [hsame] at hnorm
    obtain ⟨hbit, hin⟩ := h.modelBit hopen.coder (hopen.live.prob_bounds hp) (hleads'.of_renormalized hsplit hnorm)
    obtain ⟨hgoes, hin⟩ := hin.renormalized hcountable hsplit hnorm hleads'
    have hdec : decSplitResult (root + m) d = (x, decBitSplit (root + m) p d) := by
      rw [decSplitResult_eq (p := p) (by rw [h.prob]; exact hword), hbit]
    rw [← hsame] at hin
    obtain ⟨hstop, hbits, hin⟩ := ih hin hopen' hread' hnone hleads
    rw [List.length_cons, decWalkStop_eq_none, decWalkResult_succ, decBitResult, hdec]
    exact ⟨⟨hgoes, hstop⟩, congrArg (x :: ·) hbits, hin⟩

/-- A tree's walk from the root (`42_bit_tree.md` R265, R275). -/
theorem InStep.tree (hcountable : F.length < base + 2 ^ 64) {b : AddrField} {bits : List Bool} {n : Nat}
    (hlen : bits.length = n) (h : InStep F extra base s d) (hopen : EncOpen s)
    (hread : OpsReadable (treeOps b bits) s) (hnone : opsOverflow (treeOps b bits) s = none)
    (hleads : Leads F (opsResult (treeOps b bits) s)) :
    decWalkStop b.toNat n 1 d = none ∧ (decWalkResult b.toNat n 1 d).1 = bits
      ∧ InStep F extra base (opsResult (treeOps b bits) s) (decWalkResult b.toNat n 1 d).2 := by
  subst hlen
  rw [treeOps_eq_walkOps] at hread hnone hleads ⊢
  exact h.walk hcountable hopen hread hnone hleads

theorem decDirectsResult_succ_of_done {n : Nat} {later : List Bool} {u : State}
    (hne : (directHalved d).code ≠ (directHalved d).range) (hin : inputStop (directHalved d) = none)
    (hrest : decDirectsResult n (renormalizedDec (directHalved d)) = .done later u) :
    decDirectsResult (n + 1) d = .done (directBitOf d :: later) u := by
  rw [decDirectsResult, decHalveResult_eq]
  simp only [if_neg hne, hin, hrest, DirectsEnd.push]

theorem InStep.directs (hcountable : F.length < base + 2 ^ 64) {bits : List Bool} (h : InStep F extra base s d)
    (hopen : EncOpen s) (hnone : opsOverflow (bits.map .directBit) s = none)
    (hleads : Leads F (opsResult (bits.map .directBit) s)) :
    ∃ u, decDirectsResult bits.length d = .done bits u
      ∧ InStep F extra base (opsResult (bits.map .directBit) s) u := by
  induction bits generalizing s d with
  | nil => exact ⟨d, rfl, h⟩
  | cons x bits ih =>
    rw [List.map_cons] at hnone hleads ⊢
    obtain ⟨hnorm, hnone⟩ := opsOverflow_cons_none.1 hnone
    have hopen' := hopen.opStep (op := .directBit x) rfl (fun a ha => ha.elim) hnorm
    have hleads' : Leads F (opStep (.directBit x) s) :=
      Leads.of_opsResult (directBits_coding _) hopen' (directBits_readable _ _) hnone hleads
    have hsplit := halveEnc_encSplit hopen.coder x
    have hsame : opSplit (.directBit x) s = halveEnc x s := encHalveResult_eq x s
    rw [opStep, hsame] at hleads'
    rw [hsame] at hnorm
    have hhalved := hleads'.of_renormalized hsplit hnorm
    obtain ⟨hbit, hin⟩ := h.directBit hopen.coder hhalved
    have hne : (directHalved d).code ≠ (directHalved d).range := fun heq => by
      have hlt := hin.code_lt hhalved
      rw [heq] at hlt
      exact Nat.lt_irrefl _ hlt
    obtain ⟨hgoes, hin⟩ := hin.renormalized hcountable hsplit hnorm hleads'
    rw [← hsame] at hin
    obtain ⟨u, hdone, hin⟩ := ih hin hopen' hnone hleads
    have hstep := decDirectsResult_succ_of_done hne hgoes hdone
    rw [hbit] at hstep
    exact ⟨u, hstep, hin⟩

end Sys2Proof.Machine
end

section
/-! PROOFS. What the checks of a coding command that completes tell of its operands (`60_exceptions.md` R342), and
the value that a decoder makes of the bits of an operand (`41_range_coder.md` R225, `42_bit_tree.md` R270, R280). -/

namespace Sys2Proof.Machine

theorem firstFailing_cons_eq_none {c : Check} {cs : List Check} :
    firstFailing (c :: cs) = none ↔ c = none ∧ firstFailing cs = none := by
  cases c <;> simp

theorem checkOperand_eq_none {inDomain : Bool} {w : Word} : checkOperand inDomain w = none ↔ inDomain = true := by
  cases inDomain <;> simp

theorem spanDefined_of_pass {s : State} (hwf : s.prob.wf) {a n : Nat}
    (h : firstFailing [checkSpan a n s, checkDefined a n s] = none) : SpanDefined a n s := by
  obtain ⟨hspan, hdefined⟩ := firstFailing_cons_eq_none.1 h
  obtain ⟨hdefined, -⟩ := firstFailing_cons_eq_none.1 hdefined
  refine ⟨?_, (memFirstGap_eq_none hwf).1 (Option.map_eq_none_iff.1 hdefined)⟩
  by_contra hout
  rw [checkSpan_fail (Nat.not_le.1 hout)] at hspan
  cases hspan

theorem encBit_of_checks_pass {s : State} (hwf : s.prob.wf) {a : AddrField} {b : U32}
    (h : firstFailing (codingChecks (.encBit a b) s) = none) : b.toNat ≤ 1 ∧ SpanDefined a.toNat 1 s := by
  obtain ⟨hbit, hspan⟩ := firstFailing_cons_eq_none.1 h
  exact ⟨of_decide_eq_true (checkOperand_eq_none.1 hbit), spanDefined_of_pass hwf hspan⟩

theorem encDirect_of_checks_pass {s : State} {n : CountField} {v : U32}
    (h : firstFailing (codingChecks (.encDirect n v) s) = none) : n.toNat ≤ 32 ∧ v.toNat < 2 ^ n.toNat := by
  have hdomain := checkOperand_eq_none.1 (firstFailing_cons_eq_none.1 h).1
  rw [Bool.and_eq_true] at hdomain
  exact ⟨of_decide_eq_true hdomain.1, of_decide_eq_true hdomain.2⟩

/-- The operands of a tree command of the encoder. -/
structure SymbolOk (b : AddrField) (d : CountField) (v : U32) (s : State) : Prop where
  depth : 1 ≤ d.toNat ∧ d.toNat ≤ 16
  symbol : v.toNat < 2 ^ d.toNat
  tree : TreeDefined b d s

theorem symbolOk_of_checks_pass {s : State} (hwf : s.prob.wf) {b : AddrField} {d : CountField} {v : U32} {w : Word}
    (h : firstFailing (checkOperand (depthInDomain d && symbolInDomain d v) w :: treeChecks b d s) = none) :
    SymbolOk b d v s := by
  obtain ⟨hdomain, hspan⟩ := firstFailing_cons_eq_none.1 h
  rw [checkOperand_eq_none, Bool.and_eq_true] at hdomain
  exact ⟨of_decide_eq_true hdomain.1, of_decide_eq_true hdomain.2, spanDefined_of_pass hwf hspan⟩

theorem encOps_readable {i : Instr} {s : State} (hwf : s.prob.wf) (h : firstFailing (codingChecks i s) = none) :
    OpsReadable (encOps i) s := by
  cases i with
  | encBit a b => exact context_readable (encBit_of_checks_pass hwf h).2 _
  | encDirect n v => exact directBits_readable _ s
  | encBt b d v => exact treeOps_readable (msbFirst_length _ v) (symbolOk_of_checks_pass hwf h).tree
  | encRbt b d v => exact treeOps_readable (lsbFirst_length _ v) (symbolOk_of_checks_pass hwf h).tree
  | encFlush =>
    intro op hop a ha
    rcases List.mem_append.1 hop with hshift | hclose
    · rw [List.eq_of_mem_replicate hshift] at ha; exact ha.elim
    · rw [List.mem_singleton.1 hclose] at ha; exact ha.elim
  | _ => exact fun op hop => absurd hop List.not_mem_nil

/-- A coding command that completes has run its operations, each one through. -/
theorem exec_coding_completes {i : Instr} (hi : needsEnc i = true) (hflush : i ≠ .encFlush) {s t : State}
    (hinv : Inv s) (hacc : Accepts s) (h : exec i s = .next t) (ht : Accepts t) :
    EncOpen s ∧ firstFailing (codingChecks i s) = none ∧ OpsReadable (encOps i) s ∧ opsOverflow (encOps i) s = none
      ∧ t = completed (opsResult (encOps i) s) := by
  obtain ⟨hm, hpass, hrun⟩ := exec_enc_completes hi h ht
  have hopen := hinv.encOpen hacc hm
  have hread := encOps_readable hinv.memory hpass
  exact ⟨hopen, hpass, hread, runEnc_coding_completes (encOps_coding hflush) hopen hread hrun ht⟩

/-! ### Values from their bits -/

theorem valueMsb_cons (b : Bool) (bits : List Bool) :
    valueMsb (b :: bits) = b.toNat * 2 ^ bits.length + valueMsb bits := by
  have hcons : valueMsb (b :: bits) = valueMsbFrom (2 * 0 + b.toNat) bits := rfl
  rw [hcons, valueMsbFrom_eq, Nat.mul_zero, Nat.zero_add]

theorem valueLsb_eq_valueMsb_reverse (bits : List Bool) : valueLsb bits = valueMsb bits.reverse := by
  rw [valueLsb, valueMsb, List.foldl_reverse]

theorem valueMsb_msbFirst (n : Nat) (v : U32) : valueMsb (msbFirst n v) = v.toNat % 2 ^ n := by
  induction n with
  | zero => rw [Nat.pow_zero, Nat.mod_one]; rfl
  | succ n ih =>
    have hbits : msbFirst (n + 1) v = v.getLsbD n :: msbFirst n v := by simp [msbFirst, List.range_succ]
    rw [hbits, valueMsb_cons, ih, msbFirst_length, Nat.mod_pow_succ, BitVec.getLsbD, Nat.toNat_testBit]
    ring

theorem valueLsb_lsbFirst (n : Nat) (v : U32) : valueLsb (lsbFirst n v) = v.toNat % 2 ^ n := by
  have hreverse : (lsbFirst n v).reverse = msbFirst n v := by rw [lsbFirst, msbFirst, List.map_reverse]
  rw [valueLsb_eq_valueMsb_reverse, hreverse, valueMsb_msbFirst]

theorem ofNat_valueMsb {n : Nat} {v : U32} (h : v.toNat < 2 ^ n) : BitVec.ofNat 32 (valueMsb (msbFirst n v)) = v := by
  rw [valueMsb_msbFirst, Nat.mod_eq_of_lt h, BitVec.ofNat_toNat, BitVec.setWidth_eq]

theorem ofNat_valueLsb {n : Nat} {v : U32} (h : v.toNat < 2 ^ n) : BitVec.ofNat 32 (valueLsb (lsbFirst n v)) = v := by
  rw [valueLsb_lsbFirst, Nat.mod_eq_of_lt h, BitVec.ofNat_toNat, BitVec.setWidth_eq]

theorem ite_bitOf {b : U32} (h : b.toNat ≤ 1) : (if bitOf b then 1 else 0) = b := by
  have hcases : b = 0 ∨ b = 1 := by bv_omega
  rcases hcases with rfl | rfl <;> decide

end Sys2Proof.Machine
end

section
/-! PROOFS. A decoder in step with the encoder, command by command (`70_reset_and_hazards.md` R390). -/

namespace Sys2Proof.Machine

variable {F extra : List Byte} {base : Nat} {s d : State}

/-- The ends of both commands write no register of the coders. -/
theorem InStep.completed (h : InStep F extra base s d) (r : U32) :
    InStep F extra base (Machine.completed s) (Machine.completed { d with res := r }) :=
  ⟨h.range, h.prob, h.words, h.code, h.input, h.count, h.faulted⟩

theorem Leads.of_completed (h : Leads F (completed s)) : Leads F s := ⟨h.length, h.low, h.high⟩

theorem InStep.spanDefined (h : InStep F extra base s d) {a n : Nat} (hspan : SpanDefined a n s) :
    SpanDefined a n d := by
  rw [SpanDefined, h.words, h.prob]; exact hspan

/-- The decoder's next command returns the value of the encoder's, and stays in step. -/
def Returns (F extra : List Byte) (base : Nat) (t : State) (v : U32) (o : Host.Outcome State Fault Refusal) : Prop :=
  ∃ u, o = .next u ∧ Accepts u ∧ u.res = v ∧ InStep F extra base t u

theorem InStep.returns {t u : State} (h : InStep F extra base t u) (v : U32) :
    Returns F extra base (Machine.completed t) v (.next (Machine.completed { u with res := v })) :=
  ⟨_, rfl, ⟨h.faulted, rfl⟩, rfl, h.completed v⟩

/-- The counterpart of a coding command that completed returns what it coded (R390). -/
theorem InStep.command (hcountable : F.length < base + 2 ^ 64) (h : InStep F extra base s d) (hinv : Inv s)
    (hacc : Accepts s) (hinvd : Inv d) (haccd : Accepts d) (hmd : d.mode = .dec) {i j : Instr}
    (hij : counterpart i = some j) {t : State} (hexec : exec i s = .next t) (ht : Accepts t) (hleads : Leads F t) :
    Returns F extra base t (codedValue i) (exec j d) := by
  cases i with
  | encBit a b =>
    cases hij
    obtain ⟨hopen, hpass, hread, hnone, rfl⟩ := exec_coding_completes (i := .encBit a b) rfl (by simp) hinv hacc
      hexec ht
    obtain ⟨hb, hspan⟩ := encBit_of_checks_pass hinv.memory hpass
    obtain ⟨hstop, hbits, hin⟩ := h.walk (m := 0) (root := a.toNat) (bits := [bitOf b]) hcountable hopen hread hnone
      hleads.of_completed
    have hdec := decBitDecodesOneBit d a hinvd haccd hmd (h.spanDefined hspan) (decWalkStop_eq_none.1 hstop).1
    have hbit : (decBitResult a.toNat d).1 = bitOf b := List.head_eq_of_cons_eq hbits
    rw [hbit, ite_bitOf hb] at hdec
    rw [hdec]
    exact hin.returns b
  | encDirect n v =>
    cases hij
    obtain ⟨hopen, hpass, -, hnone, rfl⟩ := exec_coding_completes (i := .encDirect n v) rfl (by simp) hinv hacc
      hexec ht
    obtain ⟨hn, hv⟩ := encDirect_of_checks_pass hpass
    obtain ⟨u, hdone, hin⟩ := h.directs (bits := msbFirst n.toNat v) hcountable hopen hnone hleads.of_completed
    rw [msbFirst_length] at hdone
    rw [(decDirectDecodesValue d u n _ hinvd haccd hmd hn).2 hdone, ofNat_valueMsb hv]
    exact hin.returns v
  | encBt b dep v =>
    cases hij
    obtain ⟨hopen, hpass, hread, hnone, rfl⟩ := exec_coding_completes (i := .encBt b dep v) rfl (by simp) hinv hacc
      hexec ht
    obtain ⟨⟨h1, h16⟩, hv, htree⟩ := symbolOk_of_checks_pass hinv.memory hpass
    obtain ⟨hstop, hbits, hin⟩ := h.tree hcountable (msbFirst_length _ v) hopen hread hnone hleads.of_completed
    rw [(decBtWalksForwardTree d b dep hinvd haccd hmd h1 h16 (h.spanDefined htree)).2 hstop, hbits,
      ofNat_valueMsb hv]
    exact hin.returns v
  | encRbt b dep v =>
    cases hij
    obtain ⟨hopen, hpass, hread, hnone, rfl⟩ := exec_coding_completes (i := .encRbt b dep v) rfl (by simp) hinv hacc
      hexec ht
    obtain ⟨⟨h1, h16⟩, hv, htree⟩ := symbolOk_of_checks_pass hinv.memory hpass
    obtain ⟨hstop, hbits, hin⟩ := h.tree hcountable (lsbFirst_length _ v) hopen hread hnone hleads.of_completed
    rw [decRbtWalksReverseTree d b dep hinvd haccd hmd h1 h16 (h.spanDefined htree) hstop, hbits, ofNat_valueLsb hv]
    exact hin.returns v
  | _ => cases hij

/-- What a command that completed began with lies within the stream, if what it left does. -/
theorem Leads.of_command {i j : Instr} (hij : counterpart i = some j) (hinv : Inv s) (hacc : Accepts s) {t : State}
    (hexec : exec i s = .next t) (ht : Accepts t) (hleads : Leads F t) : Leads F s := by
  obtain ⟨hi, hflush⟩ : needsEnc i = true ∧ i ≠ .encFlush := by
    cases i with
    | encBit | encDirect | encBt | encRbt => exact ⟨rfl, by simp⟩
    | _ => cases hij
  obtain ⟨hopen, -, hread, hnone, rfl⟩ := exec_coding_completes hi hflush hinv hacc hexec ht
  exact Leads.of_opsResult (encOps_coding hflush) hopen hread hnone hleads.of_completed

end Sys2Proof.Machine
end

section
/-! PROOFS. A whole stream (`41_range_coder.md` R249; `70_reset_and_hazards.md` R390, R393): ENC_INIT, coding
commands and ENC_FLUSH, and a decoder that is given their bytes. -/

namespace Sys2Proof.Machine

theorem runAll_cons_some {i : Instr} {is : List Instr} {s e : State} (h : runAll (i :: is) s = some e) :
    ∃ t, exec i s = .next t ∧ Accepts t ∧ runAll is t = some e := by
  rw [runAll] at h
  cases hexec : exec i s with
  | next t =>
    simp only [hexec] at h
    by_cases hacc : t.faulted = false ∧ t.wait = none
    · rw [if_pos hacc] at h; exact ⟨t, rfl, hacc, h⟩
    · rw [if_neg hacc] at h; cases h
  | fault f => rw [hexec] at h; cases h
  | refused r => rw [hexec] at h; cases h

theorem runResults_cons {i : Instr} {is : List Instr} {s t : State} (h : exec i s = .next t) (hacc : Accepts t) :
    runResults (i :: is) s = (runResults is t).map fun r => (t.res :: r.1, r.2) := by
  rw [runResults, h]
  exact if_pos hacc

theorem Inv.after_exec {i : Instr} {s t : State} (hinv : Inv s) (hacc : Accepts s) (h : exec i s = .next t) : Inv t :=
  exec_inv (hinv.live hacc.1) (hinv.streamOk hacc.1 hacc.2) h

/-- The bytes that commands of one stream add, and OUT_COUNT with them. -/
theorem runAll_bytes {is : List Instr} (his : ∀ i ∈ is, i ≠ .encInit) {s e : State} (h : runAll is s = some e) :
    ∃ bs : List Byte, e.sent = s.sent ++ bs ∧ e.outCount.toNat = s.outCount.toNat + bs.length := by
  induction is generalizing s with
  | nil => cases h; exact ⟨[], by simp, rfl⟩
  | cons i is ih =>
    obtain ⟨hi, his⟩ := List.forall_mem_cons.1 his
    obtain ⟨t, hexec, -, hrest⟩ := runAll_cons_some h
    obtain ⟨bs, hsent, hcount, -⟩ := bytesLeaveInOrder i s t hexec
    obtain ⟨cs, hsent', hcount'⟩ := ih his hrest
    rw [if_neg hi] at hcount
    exact ⟨bs ++ cs, by rw [hsent', hsent, List.append_assoc], by rw [hcount', hcount, List.length_append]; omega⟩

/-- A coding command is none that opens or ends a stream. -/
theorem counterpart_coding {i j : Instr} (h : counterpart i = some j) :
    needsEnc i = true ∧ needsDec j = true ∧ i ≠ .encInit ∧ i ≠ .decInit ∧ i ≠ .encFlush := by
  cases i with
  | encBit | encDirect | encBt | encRbt => cases h; exact ⟨rfl, rfl, by simp, by simp, by simp⟩
  | _ => cases h

/-- The stream's bytes lie in the interval of every state that coding commands and ENC_FLUSH end it from. -/
theorem runAll_leads {cmds mirror : List Instr} (hpair : cmds.map counterpart = mirror.map some) {s e : State}
    (hinv : Inv s) (hacc : Accepts s) (hrun : runAll (cmds ++ [.encFlush]) s = some e) : Leads e.sent s := by
  induction cmds generalizing s mirror with
  | nil =>
    obtain ⟨t, hexec, ht, hend⟩ := runAll_cons_some hrun
    cases hend
    obtain ⟨hm, -⟩ := exec_enc_completes (i := .encFlush) rfl hexec ht
    exact (exec_flush_leads (hinv.encOpen hacc hm).coder hexec ht).2
  | cons i cmds ih =>
    cases mirror with
    | nil => cases hpair
    | cons j mirror =>
      obtain ⟨hij, hpair⟩ := List.cons_eq_cons.1 hpair
      obtain ⟨t, hexec, ht, hrest⟩ := runAll_cons_some hrun
      exact (ih hpair (hinv.after_exec hacc hexec) ht hrest).of_command hij hinv hacc hexec ht

/-- What a decoder in step with the encoder answers to the rest of the stream. -/
structure Lockstep (extra : List Byte) (base : Nat) (cmds mirror : List Instr) (s d e : State) : Prop where
  results : ∃ t, runResults mirror d = some (cmds.map codedValue, t) ∧ t.byteIn = extra
    ∧ base + t.inCount.toNat = e.sent.length
  pairs : ∀ n, n ≤ cmds.length → ∃ en dn, runAll (cmds.take n) s = some en ∧ runAll (mirror.take n) d = some dn
    ∧ en.prob = dn.prob ∧ en.range = dn.range

theorem InStep.lockstep {extra : List Byte} {base : Nat} {cmds mirror : List Instr}
    (hpair : cmds.map counterpart = mirror.map some) {s d e : State} (hinv : Inv s) (hacc : Accepts s)
    (hinvd : Inv d) (haccd : Accepts d) (hmd : d.mode = .dec) (hrun : runAll (cmds ++ [.encFlush]) s = some e)
    (hcountable : e.sent.length < base + 2 ^ 64) (h : InStep e.sent extra base s d) :
    Lockstep extra base cmds mirror s d e := by
  induction cmds generalizing s d mirror with
  | nil =>
    obtain rfl : mirror = [] := by simpa using hpair.symm
    obtain ⟨t, hexec, ht, hend⟩ := runAll_cons_some hrun
    cases hend
    obtain ⟨hm, -⟩ := exec_enc_completes (i := .encFlush) rfl hexec ht
    obtain ⟨hpos, -⟩ := exec_flush_leads (hinv.encOpen hacc hm).coder hexec ht
    refine ⟨⟨d, rfl, ?_, by rw [h.count, hpos]⟩, fun n _ => ⟨s, d, ?_, ?_, h.prob.symm, h.range.symm⟩⟩
    · rw [h.input, hpos, List.drop_length, List.nil_append]
    · rw [List.take_nil]; rfl
    · rw [List.take_nil]; rfl
  | cons i cmds ih =>
    cases mirror with
    | nil => cases hpair
    | cons j mirror =>
      obtain ⟨hij, hpair⟩ := List.cons_eq_cons.1 hpair
      obtain ⟨t, hexec, ht, hrest⟩ := runAll_cons_some hrun
      have hinvt := hinv.after_exec hacc hexec
      obtain ⟨u, hexecd, hu, hres, hstep⟩ := h.command hcountable hinv hacc hinvd haccd hmd hij hexec ht
        (runAll_leads hpair hinvt ht hrest)
      have hmu : u.mode = .dec := ((exec_dec_ends (counterpart_coding hij).2.1 hexecd).mode).trans hmd
      obtain ⟨⟨v, hresults, hinput, hcount⟩, hpairs⟩ :=
        ih hpair hinvt ht (hinvd.after_exec haccd hexecd) hu hmu hrest hstep
      refine ⟨⟨v, ?_, hinput, hcount⟩, fun n hn => ?_⟩
      · rw [runResults_cons hexecd hu, hresults, Option.map_some, hres]; rfl
      · cases n with
        | zero => exact ⟨s, d, rfl, rfl, h.prob.symm, h.range.symm⟩
        | succ n =>
          rw [List.take_succ_cons, List.take_succ_cons, runAll_cons hexec ht, runAll_cons hexecd hu]
          exact hpairs n (Nat.le_of_succ_le_succ hn)

/-! ### The two starts -/

/-- The encoder right after ENC_INIT (R162). -/
def encInitState (s : State) : State :=
  completed { s with mode := .enc, low := 0, range := 0xFFFFFFFF, cache := 0, cacheSize := 1, outCount := 0 }

theorem exec_encInit (s : State) : exec .encInit s = .next (encInitState s) := encInitOpensStream.2.2 s

/-- The stream begins behind the bytes sent before it, with one 0 byte owed. -/
theorem encInitState_start (s : State) : position (encInitState s) = s.sent.length + 5
    ∧ streamValue (encInitState s) = codeValue s.sent * (2 ^ 8) ^ 5 := by
  refine ⟨rfl, ?_⟩
  show codeValue (s.sent ++ [0]) * 2 ^ 32 + 0 = _
  rw [codeValue_append, show (0 : Byte).toNat = 0 from rfl]
  omega

theorem codeValue_five (b0 b1 b2 b3 b4 : Byte) : codeValue [b0, b1, b2, b3, b4]
    = b0.toNat * 2 ^ 32 + b1.toNat * 2 ^ 24 + b2.toNat * 2 ^ 16 + b3.toNat * 2 ^ 8 + b4.toNat := by
  simp only [codeValue, List.foldl_cons, List.foldl_nil]
  omega

/-- Start-up bytes in ENC_INIT's interval are what DEC_INIT accepts: b0 is 0, and CODE is the number they spell and
not 0xFFFFFFFF (R165). -/
theorem startCode_of_lt {b0 b1 b2 b3 b4 : Byte} (h : b0.toNat * 2 ^ 32 + b1.toNat * 2 ^ 24 + b2.toNat * 2 ^ 16
      + b3.toNat * 2 ^ 8 + b4.toNat < 2 ^ 32 - 1) :
    let code : U32 := BitVec.ofNat 32
      (b1.toNat * 2 ^ 24 + b2.toNat * 2 ^ 16 + b3.toNat * 2 ^ 8 + b4.toNat)
    b0 = 0 ∧ code.toNat = b0.toNat * 2 ^ 32 + b1.toNat * 2 ^ 24 + b2.toNat * 2 ^ 16 + b3.toNat * 2 ^ 8 + b4.toNat
      ∧ code ≠ 0xFFFFFFFF := by
  intro code
  have hzero : b0.toNat = 0 := by omega
  have hcode : code.toNat
      = b0.toNat * 2 ^ 32 + b1.toNat * 2 ^ 24 + b2.toNat * 2 ^ 16 + b3.toNat * 2 ^ 8 + b4.toNat := by
    rw [hzero, Nat.zero_mul, Nat.zero_add] at h ⊢
    exact (BitVec.toNat_ofNat _ _).trans (Nat.mod_eq_of_lt (by omega))
  refine ⟨BitVec.eq_of_toNat_eq hzero, hcode, fun hfull => ?_⟩
  rw [hfull] at hcode
  have hmax : (0xFFFFFFFF : U32).toNat = 2 ^ 32 - 1 := rfl
  omega

/-- DEC_INIT takes the first five bytes of the stream and is in step with ENC_INIT: b0 is 0 and CODE is below
RANGE, since the bytes lie in the first interval (R165, R249). -/
theorem inStep_of_inits {extra bs : List Byte} {s d : State} (haccd : Accepts d) (hprob : d.prob = s.prob)
    (hwords : d.probWords = s.probWords) (hinput : d.byteIn = bs ++ extra)
    (hleads : Leads (s.sent ++ bs) (encInitState s)) :
    ∃ u, exec .decInit d = .next u ∧ Accepts u ∧ u.mode = .dec ∧ u.res = d.res
      ∧ InStep (s.sent ++ bs) extra s.sent.length (encInitState s) u := by
  obtain ⟨hpos, hvalue⟩ := encInitState_start s
  obtain ⟨hlength, -, hhigh⟩ := hleads
  rw [hpos, List.length_append, Nat.add_le_add_iff_left] at hlength
  obtain ⟨b0, b1, b2, b3, b4, rest, rfl⟩ :
      ∃ b0 b1 b2 b3 b4 rest, bs = b0 :: b1 :: b2 :: b3 :: b4 :: rest := by
    match bs, hlength with
    | b0 :: b1 :: b2 :: b3 :: b4 :: rest, _ => exact ⟨b0, b1, b2, b3, b4, rest, rfl⟩
  have htake : (s.sent ++ b0 :: b1 :: b2 :: b3 :: b4 :: rest).take (position (encInitState s))
      = s.sent ++ [b0, b1, b2, b3, b4] := by
    rw [hpos, List.take_length_add_append]; rfl
  have hdrop : (s.sent ++ b0 :: b1 :: b2 :: b3 :: b4 :: rest).drop (position (encInitState s)) = rest := by
    rw [hpos, List.drop_length_add_append]; rfl
  have hcode : codeValue ((s.sent ++ b0 :: b1 :: b2 :: b3 :: b4 :: rest).take (position (encInitState s)))
      = codeValue s.sent * (2 ^ 8) ^ 5 + (b0.toNat * 2 ^ 32 + b1.toNat * 2 ^ 24 + b2.toNat * 2 ^ 16
        + b3.toNat * 2 ^ 8 + b4.toNat) := by
    rw [htake, codeValue_append_list, codeValue_five]
    rfl
  have hrange : (encInitState s).range.toNat = 2 ^ 32 - 1 := rfl
  rw [hcode, hvalue, hrange] at hhigh
  obtain ⟨hfirst, hcodeNat, hne⟩ := startCode_of_lt (Nat.lt_of_add_lt_add_left hhigh)
  refine ⟨_, (decInitLoadsCode.2.2.1 d b0 b1 b2 b3 b4 (rest ++ extra) hinput).1 hfirst hne, ⟨haccd.1, rfl⟩, rfl, rfl,
    rfl, hprob, hwords, ?_, ?_, hpos.symm, haccd.1⟩
  · rw [hcode, hvalue]
    exact congrArg _ hcodeNat
  · rw [hdrop]; rfl

/-- Settles O60: ENC_INIT and DEC_INIT start in step, and each pair of commands stays so up to the end of the
stream. -/
theorem decoderStaysInLockstep : Obligations.DecoderStaysInLockstep := by
  intro s d e cmds mirror extra hinv hacc hinvd haccd hprob hwords hpair hrun hinput
  obtain ⟨s₀, hinit, hacc₀, hrun⟩ := runAll_cons_some hrun
  rw [exec_encInit] at hinit
  cases hinit
  have hinv₀ := hinv.after_exec hacc (exec_encInit s)
  have hnoInit : ∀ i ∈ cmds ++ [Instr.encFlush], i ≠ .encInit := by
    intro i hi
    rcases List.mem_append.1 hi with hcmd | hlast
    · have hmem : counterpart i ∈ mirror.map some := hpair ▸ List.mem_map_of_mem hcmd
      obtain ⟨j, -, hj⟩ := List.mem_map.1 hmem
      exact (counterpart_coding hj.symm).2.2.1
    · rw [List.mem_singleton.1 hlast]; simp
  obtain ⟨bs, hsent, hcount⟩ := runAll_bytes hnoInit hrun
  have hsent : e.sent = s.sent ++ bs := hsent
  have hcount : e.outCount.toNat = 0 + bs.length := hcount
  have hleads := runAll_leads hpair hinv₀ hacc₀ hrun
  rw [hsent] at hleads
  rw [hsent, List.drop_left] at hinput
  obtain ⟨d₀, hinitd, haccd₀, hmd₀, hres, hstep⟩ := inStep_of_inits haccd hprob hwords hinput hleads
  have hlen : e.sent.length = s.sent.length + bs.length := by rw [hsent, List.length_append]
  have hfit := e.outCount.isLt
  rw [← hsent] at hstep
  have hinvd₀ := hinvd.after_exec haccd hinitd
  obtain ⟨⟨t, hresults, hextra, htotal⟩, hpairs⟩ :=
    hstep.lockstep hpair hinv₀ hacc₀ hinvd₀ haccd₀ hmd₀ hrun (by omega)
  refine ⟨cmds.map codedValue, t, ?_, rfl, hextra, BitVec.eq_of_toNat_eq (by omega), fun n hn => ?_⟩
  · rw [runResults_cons hinitd haccd₀, hresults, Option.map_some, hres]
  · rw [runAll_cons (exec_encInit s) hacc₀, runAll_cons hinitd haccd₀]
    exact hpairs n hn

end Sys2Proof.Machine
end

section
/-! PROOFS. The price trees (`43_price.md` R311, R314): the price of a walk is the sum of the prices at its nodes,
and a tree command whose checks pass does nothing but add them up. -/

namespace Sys2Proof.Machine

/-- The ROM's word for a probability in [31, 2017] is the price of R302 (R303). -/
theorem priceRom_priceIndex {p : Prob} (hp : 31 ≤ p.toNat ∧ p.toNat ≤ 2017) (x : Bool) :
    priceRom (priceIndex p x) = some (BitVec.ofNat 32 (priceOf p.toNat x)) := by
  have hindex : priceIndex p x ≠ 0 ∧ priceIndex p x < priceRomWords := by
    cases x with
    | false => show p.toNat / 4 ≠ 0 ∧ p.toNat / 4 < 512; omega
    | true => show (2048 - p.toNat) / 4 ≠ 0 ∧ (2048 - p.toNat) / 4 < 512; omega
  have hentry : priceEntry (priceIndex p x) = priceOf p.toNat x := by
    cases x with
    | false => rfl
    | true => rfl
  rw [priceRom, if_neg hindex.1, if_pos hindex.2, hentry]

/-- A walk over words in [31, 2017] adds its prices to `t` (R311). -/
theorem pricePath_eq_walkPrice {base : Nat} {path : List (Nat × Bool)} {s : State} (hprobs : ProbsOk s)
    (hread : ∀ e ∈ path, Readable (base + e.1) s) (t : U32) :
    pricePath base path t s = completeWith (t + BitVec.ofNat 32 (walkPrice base path s)) s := by
  induction path generalizing t with
  | nil => rw [show walkPrice base [] s = 0 from rfl, BitVec.add_zero]; rfl
  | cons e rest ih =>
    obtain ⟨m, x⟩ := e
    obtain ⟨hnode, hrest⟩ := List.forall_mem_cons.1 hread
    obtain ⟨p, hword, hok⟩ := hnode.value
    obtain ⟨-, -, hbounds⟩ := hprobs
    have hprice := priceRom_priceIndex (hbounds _ (mem_of_memRead hword)).2 x
    have hsum : walkPrice base ((m, x) :: rest) s = priceOf p.toNat x + walkPrice base rest s := by
      rw [walkPrice, List.map_cons, List.sum_cons, hword]; rfl
    rw [pricePath, hok]
    simp only [hprice]
    rw [ih hrest, hsum, BitVec.ofNat_add, BitVec.add_assoc]

theorem treePath_readable {b : AddrField} {d : CountField} {bits : List Bool} (hlen : bits.length = d.toNat)
    {s : State} (hspan : TreeDefined b d s) : ∀ e ∈ treePath 1 bits, Readable (b.toNat + e.1) s :=
  fun _ he => treeOps_readable hlen hspan _ (List.mem_map_of_mem he) _ rfl

/-- The price of a walk from the root of a defined tree. -/
theorem pricePath_tree {b : AddrField} {d : CountField} {bits : List Bool} (hlen : bits.length = d.toNat)
    {s : State} (hprobs : ProbsOk s) (hspan : TreeDefined b d s) : pricePath b.toNat (treePath 1 bits) 0 s
      = .next (completed { s with res := BitVec.ofNat 32 (walkPrice b.toNat (treePath 1 bits) s) }) := by
  rw [pricePath_eq_walkPrice hprobs (treePath_readable hlen hspan), zero_add]
  rfl

section

variable {s : State} {b : AddrField} {d : CountField} {v : U32} (hwf : s.prob.wf) (h : SymbolOk b d v s)
include hwf h

theorem SymbolOk.checks_pass (w : Word) :
    firstFailing (checkOperand (depthInDomain d && symbolInDomain d v) w :: treeChecks b d s) = none :=
  symbol_checks_pass hwf h.depth.1 h.depth.2 h.symbol h.tree w

theorem exec_priceBt_runs : exec (.priceBt b d v) s = pricePath b.toNat (treePath 1 (msbFirst d.toNat v)) 0 s :=
  afterChecks_pass (h.checks_pass hwf _)

theorem exec_priceRbt_runs : exec (.priceRbt b d v) s = pricePath b.toNat (treePath 1 (lsbFirst d.toNat v)) 0 s :=
  afterChecks_pass (h.checks_pass hwf _)

end

/-- Settles O57: both trees are walks from the root; they differ in the order of the symbol's bits alone. -/
theorem priceTreesReturnSum : Obligations.PriceTreesReturnSum := by
  intro s b d v hinv h1 h16 hv hspan
  have hsymbol : SymbolOk b d v s := ⟨⟨h1, h16⟩, hv, hspan⟩
  exact ⟨(exec_priceBt_runs hinv.memory hsymbol).trans (pricePath_tree (msbFirst_length _ v) hinv.probsOk hspan),
    (exec_priceRbt_runs hinv.memory hsymbol).trans (pricePath_tree (lsbFirst_length _ v) hinv.probsOk hspan)⟩

end Sys2Proof.Machine
end

section
/-! PROOFS. A reverse tree command is the forward one on the reversed symbol (`42_bit_tree.md` R275, R280,
`43_price.md` R314): the reversed symbol's bits, most significant first, are the symbol's, least significant first;
and the decoder's two trees find the same bits, since a walk's bits do not depend on the value made of them. -/

namespace Sys2Proof.Machine

/-! ### The reversed symbol -/

theorem valueLsb_cons (b : Bool) (bits : List Bool) : valueLsb (b :: bits) = 2 * valueLsb bits + b.toNat := rfl

theorem valueLsb_lt (bits : List Bool) : valueLsb bits < 2 ^ bits.length := by
  induction bits with
  | nil => exact Nat.one_pos
  | cons b rest ih =>
    have hb := b.toNat_le
    rw [valueLsb_cons, List.length_cons, Nat.pow_succ]
    omega

/-- Bits of one length are determined by their value: the first one by its parity. -/
theorem valueLsb_inj {xs ys : List Bool} (hlen : xs.length = ys.length) (h : valueLsb xs = valueLsb ys) : xs = ys := by
  induction xs generalizing ys with
  | nil => exact (List.length_eq_zero_iff.1 hlen.symm).symm
  | cons x xs ih =>
    obtain ⟨y, ys, rfl⟩ := List.exists_cons_of_length_eq_add_one hlen.symm
    have hx := x.toNat_le
    have hy := y.toNat_le
    rw [valueLsb_cons, valueLsb_cons] at h
    have hbit : x = y := Function.LeftInverse.injective Bool.ofNat_toNat (by omega)
    rw [hbit, ih (Nat.succ.inj hlen) (by omega)]

@[simp] theorem lsbFirst_reverse (n : Nat) (v : U32) : (lsbFirst n v).reverse = msbFirst n v := by
  rw [lsbFirst, msbFirst, List.map_reverse]

@[simp] theorem msbFirst_reverse (n : Nat) (v : U32) : (msbFirst n v).reverse = lsbFirst n v := by
  rw [← lsbFirst_reverse, List.reverse_reverse]

theorem toNat_ofNat_valueLsb {bits : List Bool} (hlen : bits.length ≤ 32) :
    (BitVec.ofNat 32 (valueLsb bits)).toNat = valueLsb bits :=
  Nat.mod_eq_of_lt (Nat.lt_of_lt_of_le (valueLsb_lt bits) (Nat.pow_le_pow_right (by decide) hlen))

theorem lsbFirst_ofNat_valueLsb {bits : List Bool} (hlen : bits.length ≤ 32) :
    lsbFirst bits.length (BitVec.ofNat 32 (valueLsb bits)) = bits := by
  refine valueLsb_inj (lsbFirst_length _ _) ?_
  rw [valueLsb_lsbFirst, toNat_ofNat_valueLsb hlen, Nat.mod_eq_of_lt (valueLsb_lt bits)]

theorem msbFirst_ofNat_valueMsb {bits : List Bool} (hlen : bits.length ≤ 32) :
    msbFirst bits.length (BitVec.ofNat 32 (valueMsb bits)) = bits := by
  have hbits := lsbFirst_ofNat_valueLsb (bits := bits.reverse) (by rwa [List.length_reverse])
  rw [List.length_reverse, valueLsb_eq_valueMsb_reverse, List.reverse_reverse] at hbits
  rw [← lsbFirst_reverse, hbits, List.reverse_reverse]

/-- The symbol of depth `d` with its bits reversed. -/
def reversedSymbol (d : Nat) (v : U32) : U32 := BitVec.ofNat 32 (valueLsb (msbFirst d v))

section

variable {d : Nat} (hd : d ≤ 32) (v : U32)
include hd

theorem reversedSymbol_toNat_lt : (reversedSymbol d v).toNat < 2 ^ d := by
  have hlt := valueLsb_lt (msbFirst d v)
  rw [msbFirst_length] at hlt
  rwa [reversedSymbol, toNat_ofNat_valueLsb (by rwa [msbFirst_length])]

theorem msbFirst_reversedSymbol : msbFirst d (reversedSymbol d v) = lsbFirst d v := by
  have hbits := msbFirst_ofNat_valueMsb (bits := lsbFirst d v) (by rwa [lsbFirst_length])
  rwa [lsbFirst_length, ← msbFirst_reverse, ← valueLsb_eq_valueMsb_reverse, msbFirst_reverse] at hbits

end

theorem reversedSymbol_ofNat_valueMsb {bits : List Bool} (hlen : bits.length ≤ 32) :
    reversedSymbol bits.length (BitVec.ofNat 32 (valueMsb bits)) = BitVec.ofNat 32 (valueLsb bits) := by
  rw [reversedSymbol, msbFirst_ofNat_valueMsb hlen]

theorem SymbolOk.depth_le {b : AddrField} {d : CountField} {v : U32} {s : State} (h : SymbolOk b d v s) :
    d.toNat ≤ 32 := h.depth.2.trans (by decide)

theorem SymbolOk.reversed {b : AddrField} {d : CountField} {v : U32} {s : State} (h : SymbolOk b d v s) :
    SymbolOk b d (reversedSymbol d.toNat v) s :=
  ⟨h.depth, reversedSymbol_toNat_lt h.depth_le v, h.tree⟩

/-! ### The encoder and the prices -/

section

variable {s : State} {b : AddrField} {d : CountField} {v : U32} (hwf : s.prob.wf) (h : SymbolOk b d v s)
include hwf h

theorem exec_encRbt_eq_encBt_reversed (hm : s.mode = .enc) :
    exec (.encRbt b d v) s = exec (.encBt b d (reversedSymbol d.toNat v)) s := by
  have hops : encOps (.encBt b d (reversedSymbol d.toNat v)) = encOps (.encRbt b d v) :=
    congrArg (treeOps b) (msbFirst_reversedSymbol h.depth_le v)
  rw [exec_enc_runs (i := .encRbt b d v) rfl hm (h.checks_pass hwf _),
    exec_enc_runs (i := .encBt b d _) rfl hm (h.reversed.checks_pass hwf _), hops]

theorem exec_priceRbt_eq_priceBt_reversed :
    exec (.priceRbt b d v) s = exec (.priceBt b d (reversedSymbol d.toNat v)) s := by
  rw [exec_priceRbt_runs hwf h, exec_priceBt_runs hwf h.reversed,
    msbFirst_reversedSymbol h.depth_le]

end

/-! ### The decoder -/

theorem normThen_completes {rest : DecRest} {k : State → Host.Outcome State Fault Refusal} {s t : State}
    (h : normThen rest k s = .next t) (hacc : Accepts t) : ∃ u, normDec renormTurns s = .ok () u ∧ k u = .next t := by
  obtain ⟨hfaulted, hwait⟩ := hacc
  rw [normThen_eq_finish] at h
  cases hn : normDec renormTurns s with
  | ok _ u => rw [hn] at h; exact ⟨u, rfl, h⟩
  | stall _ u => rw [hn] at h; cases h; cases hwait
  | raise c info u => rw [hn] at h; cases h; cases hfaulted
  | stuck f => rw [hn] at h; cases h

/-- A DecBit (R209) that goes through: the bit, and the state for the rest of the command, whatever that is. -/
theorem decBitThen_completes {a : Nat} {rest : Bool → DecRest} {k : Bool → State → Host.Outcome State Fault Refusal}
    {s t : State} (h : decBitThen a rest k s = .next t) (hacc : Accepts t) :
    ∃ x u, k x u = .next t ∧ ∀ rest' k', decBitThen a rest' k' s = k' x u := by
  cases hp : readProb a s with
  | error e =>
    rw [decBitThen_of_unreadable hp] at h
    cases h
    cases hacc.1
  | ok p =>
    rw [decBitThen_of_readable hp] at h
    obtain ⟨u, hnorm, hk⟩ := normThen_completes h hacc
    refine ⟨decodedBit p s, u, hk, fun rest' k' => ?_⟩
    rw [decBitThen_of_readable hp, normThen_eq_finish, hnorm]
    rfl

/-- A walk that completes: every walk of as many levels from the same node then finds the same bits and leaves the same
state, but for the value it makes of the bits. -/
theorem DecWalkValue.completes {base n m : Nat} {f : List Bool → U32} {k : State → Host.Outcome State Fault Refusal}
    (hwalk : DecWalkValue base n m f k) {s t : State} (h : k s = .next t) (hacc : Accepts t) :
    ∃ bits u, bits.length = n ∧ ∀ g k', DecWalkValue base n m g k' → k' s = completeWith (g bits) u := by
  induction hwalk generalizing s with
  | done m f =>
    refine ⟨[], s, rfl, fun g k' hwalk' => ?_⟩
    cases hwalk'
    rfl
  | node _ ih =>
    obtain ⟨x, u, hk, hsame⟩ := decBitThen_completes h hacc
    obtain ⟨bits, last, hlen, hrest⟩ := ih x hk
    refine ⟨x :: bits, last, congrArg (· + 1) hlen, fun g k' hwalk' => ?_⟩
    cases hwalk' with
    | node hnode => rw [hsame]; exact hrest _ _ (hnode x)

/-- Where DEC_BT's walk completes, DEC_RBT's does, with the value reversed (R280). -/
theorem decTrees_complete {b : AddrField} {d : Nat} (hd : d ≤ 32) {s t : State}
    (h : decTreeLoop b d d 1 s = .next t) (hacc : Accepts t) :
    decRevTreeLoop b d d 1 0 s = .next { t with res := reversedSymbol d t.res } := by
  obtain ⟨bits, u, rfl, hsame⟩ := (decTreeLoop_walkValue b d d 1).completes h hacc
  have hforward := h.symm.trans (hsame _ _ (decTreeLoop_walkValue b bits.length bits.length 1))
  have hreverse := hsame _ _ (decRevTreeLoop_walkValue b (le_refl bits.length) 1 0)
  rw [valueMsbFrom_eq, Nat.one_mul, Nat.add_sub_cancel_left] at hforward
  cases hforward
  rw [hreverse, Nat.sub_self, orBitsFrom_zero hd, ← reversedSymbol_ofNat_valueMsb hd]
  rfl

/-- Settles O58: the reversed symbol has the same walk in the other tree, and the decoder's two trees find the same
bits. -/
theorem reverseTreeIsReversedForwardTree : Obligations.ReverseTreeIsReversedForwardTree := by
  intro s b d h1 h16 hwf hspan
  refine ⟨fun v hv => ?_, fun t hm hexec hfaulted hwait => ?_⟩
  · have hsymbol : SymbolOk b d v s := ⟨⟨h1, h16⟩, hv, hspan⟩
    exact ⟨hsymbol.reversed.symbol, exec_encRbt_eq_encBt_reversed hwf hsymbol,
      exec_priceRbt_eq_priceBt_reversed hwf hsymbol⟩
  · have hpass : ∀ w, firstFailing (checkOperand (depthInDomain d) w :: treeChecks b d s) = none :=
      depth_checks_pass hwf h1 h16 hspan
    rw [exec_dec_runs (i := .decBt b d) rfl hm (hpass _)] at hexec
    rw [exec_dec_runs (i := .decRbt b d) rfl hm (hpass _)]
    exact decTrees_complete (h16.trans (by decide)) hexec ⟨hfaulted, hwait⟩

end Sys2Proof.Machine
end

section
/-! PROOFS. PRICE_BIT and PRICE_DIRECT (`43_price.md` R305, R308): a word with something in an unused field is
illegal, the first check that fails is the whole effect, and a command whose checks pass writes RES alone. -/

namespace Sys2Proof.Machine

section

variable {i : Instr} {a : Nat} {s : State} (hmode : ModeFits i s) (hformed : i.wellFormed = true)
  (hspan : namedSpan i = some (a, 1))
include hmode hformed hspan

/-- PROB_ADDR_RANGE of a command that names one context names that context. -/
theorem exec_context_outside (hout : s.probWords ≤ a) :
    exec i s = .next (faultedWith 4 (BitVec.ofNat 64 a) s) := by
  obtain ⟨-, -, hrange, -⟩ := failingCheckIsWholeEffect i s
  have hfault := hrange a 1 hmode hformed hspan (Nat.lt_succ_of_le hout)
  rwa [Nat.max_eq_left hout] at hfault

/-- UNINIT_PROB of a command that reads one context names that context. -/
theorem exec_context_undefined (hreads : readsSpan i = true) (hwf : s.prob.wf) (ha : a < s.probWords)
    (hnone : memRead s.prob a = none) : exec i s = .next (faultedWith 5 (BitVec.ofNat 64 a) s) := by
  obtain ⟨-, -, -, hgap⟩ := failingCheckIsWholeEffect i s
  exact hgap a 1 a hmode hformed hspan hreads ha hwf le_rfl (Nat.lt_succ_self a) hnone
    fun y hlow hhigh => absurd hhigh (Nat.not_lt.2 hlow)

end

/-- Every MODE fits a command that needs none (`92_eei_decisions.md` D30). -/
theorem modeFits_of_needs_none {i : Instr} (henc : needsEnc i = false) (hdec : needsDec i = false) (s : State) :
    ModeFits i s :=
  ⟨fun h => absurd (henc.symm.trans h) nofun, fun h => absurd (hdec.symm.trans h) nofun⟩

/-- An operand outside its domain is OPERAND_RANGE, with the command word. -/
theorem exec_operand_outside {i : Instr} {s : State} (hmode : ModeFits i s) (hformed : i.wellFormed = false) :
    exec i s = .next (faultedWith 3 (encode i) s) := by
  obtain ⟨-, hoperand, -⟩ := failingCheckIsWholeEffect i s
  exact hoperand hmode hformed

/-- PRICE_BIT's one-node walk at a readable word. -/
theorem exec_priceBit_word {s : State} (hinv : Inv s) {a : AddrField} {x : U32} {p : Prob} (hx : x.toNat ≤ 1)
    (hp : memRead s.prob a.toNat = some p) : exec (.priceBit a x) s
      = .next (completed { s with res := BitVec.ofNat 32 (priceOf p.toNat (decide (x = 1))) }) := by
  have hread : Readable a.toNat s := ⟨(hinv.probs _ (mem_of_memRead hp)).1, by rw [hp]; rfl⟩
  have hpass : firstFailing (checkOperand (bitInDomain x) (encode (.priceBit a x)) :: contextChecks a s) = none :=
    (firstFailing_operand (bitInDomain_of_le hx) _ _).trans (firstFailing_span hinv.memory hread.spanDefined)
  have hprice : walkPrice a.toNat [(0, bitOf x)] s = priceOf p.toNat (decide (x = 1)) := by
    rw [decide_eq_bitOf hx, walkPrice, List.map_singleton, List.sum_singleton, Nat.add_zero, hp]
    rfl
  rw [exec, execPriceBit, afterChecks_pass hpass,
    pricePath_eq_walkPrice hinv.probsOk (List.forall_mem_singleton.2 hread), hprice, zero_add]
  rfl

/-- Settles O55: the first failing check is the whole effect; past the checks the price is a walk of one node. -/
theorem priceBitReturnsPrice : Obligations.PriceBitReturnsPrice := by
  refine ⟨fun w hop hcount => ?_, fun s a x hinv => ?_⟩
  · exact decode_of_not_matches w ⟨"PRICE_BIT", 0x18, true, false, false⟩ (by simp [opcodeTable]) hop
      fun ⟨_, hzero, _⟩ => hcount (hzero rfl)
  · have hmode : ModeFits (.priceBit a x) s := modeFits_of_needs_none rfl rfl s
    have hformed (hx : x.toNat ≤ 1) : (Instr.priceBit a x).wellFormed = true := bitInDomain_of_le hx
    exact ⟨fun hx => exec_operand_outside hmode (decide_eq_false (Nat.not_le.2 hx)),
      fun hx hout => exec_context_outside hmode (hformed hx) rfl hout,
      fun hx ha hnone => exec_context_undefined hmode (hformed hx) rfl rfl hinv.memory ha hnone,
      fun p hx hp => exec_priceBit_word hinv hx hp⟩

/-- `n << 6` does not leave 32 bits, for any count of its field. -/
theorem directPrice_eq (n : CountField) : n.setWidth 32 <<< 6 = BitVec.ofNat 32 (n.toNat * 64) := by
  apply BitVec.eq_of_toNat_eq
  rw [BitVec.toNat_shiftLeft, BitVec.toNat_setWidth_of_le (by decide), Nat.shiftLeft_eq, BitVec.toNat_ofNat]

/-- Settles O56: the one check fails from 33 on; where it passes the command shifts its operand. -/
theorem priceDirectReturnsPrice : Obligations.PriceDirectReturnsPrice := by
  refine ⟨fun w hop hfields => ?_, fun s n => ⟨fun hn => ?_, fun hn => ?_⟩⟩
  · exact decode_of_not_matches w ⟨"PRICE_DIRECT", 0x19, false, true, true⟩ (by simp [opcodeTable]) hop
      fun ⟨_, _, haddr, hval⟩ => hfields.elim (· (haddr rfl)) (· (hval rfl))
  · rw [exec, execPriceDirect, countInDomain_of_le hn, afterChecks_pass rfl, directPrice_eq]
    rfl
  · exact exec_operand_outside (modeFits_of_needs_none rfl rfl s) (decide_eq_false (Nat.not_le.2 hn))

end Sys2Proof.Machine
end

section
/-! PROOFS. The bounds of the prices (`43_price.md` R303, R304): R301's entry lies between the 64s of its octave, so
that the table falls; its sum, and the prices of the probabilities in [31, 2017]. -/

namespace Sys2Proof.Machine

/-- An entry of octave e costs at least 8 - e bits and at most one bit more (R301). -/
theorem priceEntry_octave_bounds {j : Nat} (hlow : 1 ≤ j) (hhigh : j < 512) :
    Nat.log2 j ≤ 8 ∧ (8 - Nat.log2 j) * 64 ≤ priceEntry j ∧ priceEntry j ≤ (9 - Nat.log2 j) * 64 := by
  have hoctave : Nat.log2 j < 9 := (Nat.log2_lt (by omega)).2 hhigh
  have hstart : 2 ^ Nat.log2 j ≤ j := Nat.log2_self_le (by omega)
  have hpart : (2 ^ (Nat.log2 j + 1) - j) * 2 ^ 6 / 2 ^ Nat.log2 j ≤ 64 := by
    refine Nat.div_le_of_le_mul (Nat.mul_le_mul_right (2 ^ 6) ?_)
    rw [Nat.pow_succ]
    omega
  refine ⟨Nat.le_of_lt_succ hoctave, Nat.le_add_right _ _, ?_⟩
  calc priceEntry j ≤ (8 - Nat.log2 j) * 64 + 64 := Nat.add_le_add_left hpart _
    _ = (9 - Nat.log2 j) * 64 := by omega

/-- In one octave a later entry has less left to the octave's end; a later octave costs a whole bit less. -/
theorem priceEntry_antitone {i j : Nat} (hi : 1 ≤ i) (hij : i ≤ j) (hj : j < 512) :
    priceEntry j ≤ priceEntry i := by
  have hstart : 2 ^ Nat.log2 i ≤ j := (Nat.log2_self_le (by omega)).trans hij
  obtain hsame | hlater := ((Nat.le_log2 (by omega)).2 hstart).eq_or_lt
  · rw [priceEntry, priceEntry, ← hsame]
    exact Nat.add_le_add_left (Nat.div_le_div_right (Nat.mul_le_mul_right _ (Nat.sub_le_sub_left hij _))) _
  · have hboundi := priceEntry_octave_bounds hi (by omega)
    have hboundj := priceEntry_octave_bounds (by omega) hj
    omega

theorem priceRom_word {j : Nat} (hlow : 1 ≤ j) (hhigh : j < 512) : ((priceRom j).getD 0).toNat = priceEntry j := by
  have hbounds := priceEntry_octave_bounds hlow hhigh
  rw [priceRom, if_neg (by omega), if_pos (show j < priceRomWords from hhigh), Option.getD_some, BitVec.toNat_ofNat]
  exact Nat.mod_eq_of_lt (by omega)

/-- The sum of R304's table, one closed number: the kernel adds up the 512 entries. -/
theorem priceRom_sum : ((List.range 512).map fun j => ((priceRom j).getD 0).toNat).sum = 48640 := by
  decide +kernel

theorem priceIndex_bounds {p : Prob} (hp : 31 ≤ p.toNat ∧ p.toNat ≤ 2017) (x : Bool) :
    7 ≤ priceIndex p x ∧ priceIndex p x ≤ 504 := by
  cases x with
  | false => show 7 ≤ p.toNat / 4 ∧ p.toNat / 4 ≤ 504; omega
  | true => show 7 ≤ (2048 - p.toNat) / 4 ∧ (2048 - p.toNat) / 4 ≤ 504; omega

theorem priceEntry_priceIndex (p : Prob) (x : Bool) : priceEntry (priceIndex p x) = priceOf p.toNat x := by
  cases x with
  | false => rfl
  | true => rfl

/-- The prices lie between PT[504] = 2 and PT[7] = 400 (R303). -/
theorem priceOf_bounds {p : Prob} (hp : 31 ≤ p.toNat ∧ p.toNat ≤ 2017) (x : Bool) :
    2 ≤ priceOf p.toNat x ∧ priceOf p.toNat x ≤ 400 := by
  obtain ⟨hlow, hhigh⟩ := priceIndex_bounds hp x
  rw [← priceEntry_priceIndex]
  constructor
  · calc 2 = priceEntry 504 := by decide
      _ ≤ priceEntry (priceIndex p x) := priceEntry_antitone (by omega) hhigh (by decide)
  · calc priceEntry (priceIndex p x) ≤ priceEntry 7 := priceEntry_antitone (by decide) hlow (by omega)
      _ = 400 := by decide

theorem walkPrice_le {base : Nat} {path : List (Nat × Bool)} {s : State}
    (hpath : ∀ e ∈ path, ∃ p, memRead s.prob (base + e.1) = some p ∧ 31 ≤ p.toNat ∧ p.toNat ≤ 2017) :
    walkPrice base path s ≤ path.length * 400 := by
  rw [walkPrice, ← List.length_map (as := path)]
  refine List.sum_le_card_nsmul _ 400 fun price hprice => ?_
  obtain ⟨e, he, rfl⟩ := List.mem_map.1 hprice
  obtain ⟨p, hword, hp⟩ := hpath e he
  rw [hword]
  exact (priceOf_bounds hp e.2).2

/-- Settles O54: the entries fall, so the ends of the index range give the ends of the prices, and a walk adds at
most 16 of them. -/
theorem pricesStayInBounds : Obligations.PricesStayInBounds := by
  refine ⟨fun i j hi hij hj => ?_, priceRom_sum, fun p x hlow hhigh => ?_, fun s base path hlen hpath => ?_⟩
  · rw [priceRom_word hi (by omega), priceRom_word (by omega) hj]
    exact priceEntry_antitone hi hij hj
  · have hp : 31 ≤ p.toNat ∧ p.toNat ≤ 2017 := ⟨hlow, hhigh⟩
    obtain ⟨hindexLow, hindexHigh⟩ := priceIndex_bounds hp x
    obtain ⟨hpriceLow, hpriceHigh⟩ := priceOf_bounds hp x
    exact ⟨hindexLow, hindexHigh, hpriceLow, hpriceHigh, priceRom_priceIndex hp x⟩
  · calc walkPrice base path s ≤ path.length * 400 := walkPrice_le hpath
      _ ≤ 16 * 400 := Nat.mul_le_mul_right 400 hlen
      _ = 6400 := rfl

end Sys2Proof.Machine
end

section
/-! PROOFS. What a faulted block does with the words it is given (`60_exceptions.md` R342, R344). -/

namespace Sys2Proof.Machine

/-- Settles O8: the step takes the word, and a faulted block discards it. -/
theorem faultedBlockDiscardsWords : Obligations.FaultedBlockDiscardsWords := by
  intro s w rest hreset hfaulted hwait hcmd
  rw [step_of_presented hreset hwait hcmd, takeWord_of_faulted (s := { s with cmdIn := rest }) hfaulted]
  rfl

/-- `s` with its first `n` presented words, or all of them where there are fewer, discarded. -/
def discardWords (n : Nat) (s : State) : State :=
  { s with cmdIn := s.cmdIn.drop n, csp := s.csp + min n s.cmdIn.length }

theorem discardWords_zero (s : State) : discardWords 0 s = s := by
  rw [discardWords, Nat.zero_min]
  rfl

theorem discardWords_add (m n : Nat) (s : State) :
    discardWords n (discardWords m s) = discardWords (m + n) s := by
  have hcsp : s.csp + min m s.cmdIn.length + min n (s.cmdIn.length - m)
      = s.csp + min (m + n) s.cmdIn.length := by omega
  simp only [discardWords, List.drop_drop, List.length_drop, hcsp]

theorem step_of_faulted {s : State} (hreset : s.resetIn = false) (hfaulted : s.faulted = true)
    (hwait : s.wait = none) : step s = .next (discardWords 1 s) := by
  cases hcmd : s.cmdIn with
  | nil =>
    have hkept : discardWords 1 s = s := by
      cases s
      cases hcmd
      rfl
    rw [step_of_nothing hreset hwait hcmd, hkept]
  | cons w rest =>
    have htaken : discardWords 1 s = { s with cmdIn := rest, csp := s.csp + 1 } := by
      simp [discardWords, hcmd]
    rw [faultedBlockDiscardsWords s w rest hreset hfaulted hwait hcmd, htaken]

theorem run_succ_of_step {M : Host.Core} {s t : M.State} (h : M.step s = .next t) (n : Nat) :
    M.run (n + 1) s = M.run n t := by
  rw [Host.Core.run, h]

/-- The run of a faulted block, by induction on the steps: a discarded word leaves it faulted. -/
theorem core_run_of_faulted (n : Nat) {s : State} (hreset : s.resetIn = false) (hfaulted : s.faulted = true)
    (hwait : s.wait = none) : core.run n s = .next (discardWords n s) := by
  induction n generalizing s with
  | zero => rw [discardWords_zero]; rfl
  | succ n ih =>
    calc core.run (n + 1) s
      _ = core.run n (discardWords 1 s) :=
          run_succ_of_step (M := core) (step_of_faulted hreset hfaulted hwait) n
      _ = .next (discardWords n (discardWords 1 s)) := ih (s := discardWords 1 s) hreset hfaulted hwait
      _ = .next (discardWords (n + 1) s) := by rw [discardWords_add, Nat.add_comm]

/-- Settles O9: the run's state is `discardWords n s`, where CSP counts the words that left the port. -/
theorem faultLastsUntilReset : Obligations.FaultLastsUntilReset := by
  intro n s t hreset hfaulted hwait hrun
  obtain rfl : discardWords n s = t :=
    Host.Outcome.next.inj ((core_run_of_faulted n hreset hfaulted hwait).symm.trans hrun)
  refine ⟨rfl, rfl, ?_⟩
  have hcount : s.cmdIn.length - (s.cmdIn.drop n).length = min n s.cmdIn.length := by
    rw [List.length_drop]
    omega
  exact congrArg (s.csp + ·) hcount.symm

end Sys2Proof.Machine
end
